-- ==== Sys2Proof/Word.lean ====
section
/-! DEFINITION. The word types of the SPI transaction sequencer: bytes on the SPI bus (R12), 32-bit host
registers (R20). -/

namespace Sys2Proof

/-- A byte: one SPI byte, one DBUF byte, one status register (R12). -/
abbrev Byte := BitVec 8

/-- A host register value (R20: every host register is 32 bits wide). -/
abbrev Word := BitVec 32

end Sys2Proof
end

