-- ==== Sys2Proof/Syntax.lean ====
section
/-! DEFINITION. The command set of the sequencer (R102): one constructor per row of the command table. The fields
of a constructor are the fields of the command word that the command's class reads (R100, R101); ADDR and LEN are
host registers, not part of the word. -/

namespace Sys2Proof

/-- One command of R102. `k`, `mode`, `region` and `op` are SEL as the word holds it, all 256 values legal encodings
(R104); `confirm` is CONFIRM. -/
inductive Instr where
  | probe
  | read
  | write
  | erase
  | lock
  | unlock
  | isLocked
  | setRange (k : BitVec 8)
  | clearRange
  | readProtection
  | setLockMode (mode : BitVec 8) (confirm : Bool)
  | getLockMode
  | getHwProtect
  | secStatus
  | secRead (region : BitVec 8)
  | secProgram (region : BitVec 8)
  | secErase (region : BitVec 8)
  | secLock (region : BitVec 8) (confirm : Bool)
  | transfer (op : BitVec 8)
  | claim
  | release
  deriving DecidableEq, Repr

end Sys2Proof
end

