-- ==== Sys2Proof/Decode.lean ====
section
/-! DEFINITION. The command decoder of R100 to R103, total on all 32-bit words, and the encoder, both written from
the tables of R101 and R102. -/

namespace Sys2Proof

/-- Why a command word is illegal (R103): its OP is not in the table of R102, or a bit its class does not read is
set (R101). -/
inductive Reject where
  | unknownOp
  | reservedBits
  deriving DecidableEq, Repr

/-- OP, bits 7:0 of the command word (R100). -/
def fieldOp (w : Word) : BitVec 8 := w.extractLsb' 0 8

/-- SEL, bits 15:8 (R100, R104). -/
def fieldSel (w : Word) : BitVec 8 := w.extractLsb' 8 8

/-- CONFIRM, bit 16 (R100). -/
def fieldConfirm (w : Word) : Bool := w.getLsbD 16

/-- The operand classes of R101. -/
inductive OpClass where
  | N
  | S
  | SC
  deriving DecidableEq, Repr

/-- The must-be-zero mask of a class (R101). -/
def OpClass.mustBeZero : OpClass → Word
  | .N  => 0xFFFFFF00
  | .S  => 0xFFFF0000
  | .SC => 0xFFFE0000

/-- The command a code stands for, with the fields its class reads (R102). -/
def commandOf (op sel : BitVec 8) (confirm : Bool) : Option (OpClass × Instr) :=
  match op.toNat with
  | 0x01 => some (.N, .probe)
  | 0x02 => some (.N, .read)
  | 0x03 => some (.N, .write)
  | 0x04 => some (.N, .erase)
  | 0x05 => some (.N, .lock)
  | 0x06 => some (.N, .unlock)
  | 0x07 => some (.N, .isLocked)
  | 0x08 => some (.S, .setRange sel)
  | 0x09 => some (.N, .clearRange)
  | 0x0A => some (.N, .readProtection)
  | 0x0B => some (.SC, .setLockMode sel confirm)
  | 0x0C => some (.N, .getLockMode)
  | 0x0D => some (.N, .getHwProtect)
  | 0x0E => some (.N, .secStatus)
  | 0x0F => some (.S, .secRead sel)
  | 0x10 => some (.S, .secProgram sel)
  | 0x11 => some (.S, .secErase sel)
  | 0x12 => some (.SC, .secLock sel confirm)
  | 0x13 => some (.S, .transfer sel)
  | 0x14 => some (.N, .claim)
  | 0x15 => some (.N, .release)
  | _    => none

/-- Decode of a command word (R103): total, each word one command or illegal. -/
def decode (w : Word) : Except Reject Instr :=
  match commandOf (fieldOp w) (fieldSel w) (fieldConfirm w) with
  | none => .error .unknownOp
  | some (c, i) => if w &&& c.mustBeZero = 0 then .ok i else .error .reservedBits

/-- The decoder on bytes as the host bus carries a word, least significant byte first (R71d); four bytes are one
command word, and what follows is left. -/
def decodeBytes : List Byte → Option (Except Reject Instr × List Byte)
  | b0 :: b1 :: b2 :: b3 :: rest => some (decode (b3 ++ b2 ++ b1 ++ b0), rest)
  | _ => none

/-- The instruction the decoder reads from a word numbered as the command table numbers its bits. Every row has 32
bits; a shorter width leaves the upper bits 0. -/
def decodeTableWord (nbits w : Nat) : Option Instr :=
  if nbits ≤ 32 then (decode (BitVec.ofNat 32 (w % 2 ^ nbits))).toOption else none

/-- OP of a command (R102). -/
def Instr.code : Instr → BitVec 8
  | .probe           => 0x01
  | .read            => 0x02
  | .write           => 0x03
  | .erase           => 0x04
  | .lock            => 0x05
  | .unlock          => 0x06
  | .isLocked        => 0x07
  | .setRange _      => 0x08
  | .clearRange      => 0x09
  | .readProtection  => 0x0A
  | .setLockMode _ _ => 0x0B
  | .getLockMode     => 0x0C
  | .getHwProtect    => 0x0D
  | .secStatus       => 0x0E
  | .secRead _       => 0x0F
  | .secProgram _    => 0x10
  | .secErase _      => 0x11
  | .secLock _ _     => 0x12
  | .transfer _      => 0x13
  | .claim           => 0x14
  | .release         => 0x15

/-- Class of a command (R102). -/
def Instr.cls : Instr → OpClass
  | .probe           => .N
  | .read            => .N
  | .write           => .N
  | .erase           => .N
  | .lock            => .N
  | .unlock          => .N
  | .isLocked        => .N
  | .setRange _      => .S
  | .clearRange      => .N
  | .readProtection  => .N
  | .setLockMode _ _ => .SC
  | .getLockMode     => .N
  | .getHwProtect    => .N
  | .secStatus       => .N
  | .secRead _       => .S
  | .secProgram _    => .S
  | .secErase _      => .S
  | .secLock _ _     => .SC
  | .transfer _      => .S
  | .claim           => .N
  | .release         => .N

/-- SEL of a command word; 0 where the class does not read it (R101). -/
def Instr.sel : Instr → BitVec 8
  | .setRange k      => k
  | .setLockMode m _ => m
  | .secRead r       => r
  | .secProgram r    => r
  | .secErase r      => r
  | .secLock r _     => r
  | .transfer o      => o
  | .probe           => 0
  | .read            => 0
  | .write           => 0
  | .erase           => 0
  | .lock            => 0
  | .unlock          => 0
  | .isLocked        => 0
  | .clearRange      => 0
  | .readProtection  => 0
  | .getLockMode     => 0
  | .getHwProtect    => 0
  | .secStatus       => 0
  | .claim           => 0
  | .release         => 0

/-- CONFIRM of a command word; 0 where the class does not read it (R101). -/
def Instr.confirm : Instr → Bool
  | .setLockMode _ c => c
  | .secLock _ c     => c
  | .setRange _      => false
  | .secRead _       => false
  | .secProgram _    => false
  | .secErase _      => false
  | .transfer _      => false
  | .probe           => false
  | .read            => false
  | .write           => false
  | .erase           => false
  | .lock            => false
  | .unlock          => false
  | .isLocked        => false
  | .clearRange      => false
  | .readProtection  => false
  | .getLockMode     => false
  | .getHwProtect    => false
  | .secStatus       => false
  | .claim           => false
  | .release         => false

/-- The command word of a command: reserved bits 31:17 zero, then CONFIRM, SEL, OP (R100). -/
def encode (i : Instr) : Word :=
  (0 : BitVec 15) ++ BitVec.ofBool i.confirm ++ i.sel ++ i.code

/-- The mask of a command's table row: the class's must-be-zero mask with bits 7:0 added (R101). -/
def Instr.tableMask (i : Instr) : Word := i.cls.mustBeZero ||| 0xFF

/-- The match value of a command's table row: its OP (R101). -/
def Instr.tableMatch (i : Instr) : Word := i.code.zeroExtend 32

end Sys2Proof
end

