-- ==== Sys2Proof/Config.lean ====
section
/-! DEFINITION. What is fixed for the life of one model: the build-time options and OPEN parameters of R3 and
R9, chip descriptors (R40, R41), the SPI opcode sets (R120); and the draws of R17, the values the spec leaves to
the environment, with the constants that stand for them when no recorded value is left. -/

namespace Sys2Proof

/-- Controller generation `GEN` (R3a, R9). -/
inductive Gen where
  | legacy
  | yangtzee
  deriving DecidableEq, Repr

/-- Array read variant `READ_VARIANT` (R3b, R9). -/
inductive ReadVariant where
  | slow
  | fast
  deriving DecidableEq, Repr

/-- Vendor family (R3c). -/
inductive Vendor where
  | winbond
  | adesto
  deriving DecidableEq, Repr

/-- The SPI opcode set `op` of a descriptor (R120). -/
structure OpSet where
  rdid     : Byte
  read     : Byte
  fastRead : Byte
  rdsr1    : Byte
  rdsr2    : Byte
  wren     : Byte
  wrsr     : Byte
  pp       : Byte
  se       : Byte
  secErase : Byte
  secProg  : Byte
  secRead  : Byte
  deriving DecidableEq, Repr

/-- The default opcode bytes of R120. -/
def OpSet.standard : OpSet where
  rdid     := 0x9F
  read     := 0x03
  fastRead := 0x0B
  rdsr1    := 0x05
  rdsr2    := 0x35
  wren     := 0x06
  wrsr     := 0x01
  pp       := 0x02
  se       := 0x20
  secErase := 0x44
  secProg  := 0x42
  secRead  := 0x48

/-- A chip descriptor (R40). `name` is for display, no rule reads it. `departs` is the OPEN parameter of R332: `none` for a
part that behaves as R300 to R331 say; `some k` for one that behaves differently, the difference being number k of
`Config.departure`. That form is a DESIGN CHOICE (log entry 25). safe -/
structure Descriptor where
  vendor          : Vendor
  id              : BitVec 16
  pageShift       : Nat
  pagesPerSector  : Nat
  sectorsPerBlock : Nat
  nrBlocks        : Nat
  name            : String
  hasProtect      : Bool
  hasSec          : Bool
  op              : OpSet
  departs         : Option Nat
  deriving DecidableEq, Repr

namespace Descriptor

/-- `page_size = 2^page_shift` (R40). -/
def pageSize (d : Descriptor) : Nat := 2 ^ d.pageShift

/-- `sector_size = page_size*pages_per_sector` (R40). -/
def sectorSize (d : Descriptor) : Nat := d.pageSize * d.pagesPerSector

/-- `block_size = sector_size * sectors_per_block` (R40). -/
def blockSize (d : Descriptor) : Nat := d.sectorSize * d.sectorsPerBlock

/-- `total_size` (R40, R42). -/
def totalSize (d : Descriptor) : Nat :=
  d.pageSize * d.pagesPerSector * d.sectorsPerBlock * d.nrBlocks

end Descriptor

/-- The one table entry the source fixes: Winbond, id 0x4018, 16 MiB (R41). -/
def w25q128 : Descriptor where
  vendor          := .winbond
  id              := 0x4018
  pageShift       := 8
  pagesPerSector  := 16
  sectorsPerBlock := 16
  nrBlocks        := 256
  name            := "W25Q128"
  hasProtect      := true
  hasSec          := true
  op              := OpSet.standard
  departs         := none

/-- The parameters of R9 that one model holds fixed. `winbond` and `adesto` are the two tables of `CHIP_TABLE`,
`genericRdid` the identification opcode of R180, `seqBase` the host address of the register file (R20, R84). `rxOther`
is the parameter `rx_index` of the model's generation (R142, D48): the entries `(n_out, i, index)` where it departs from
the default formula; with none it is the default. That form is a DESIGN CHOICE (log entry 6): every function on the sizes
a transfer may have is such a list. safe -/
structure Config where
  gen            : Gen
  readVariant    : ReadVariant
  xferPollLimit  : Nat
  readyPollLimit : Nat
  claimMax       : Nat
  bufSize        : Nat
  winbond        : List Descriptor
  adesto         : List Descriptor
  genericRdid    : Byte
  seqBase        : Nat
  rxOther        : List (Nat × Nat × Nat)
  deriving DecidableEq, Repr

/-- The parameter values `State.reset` starts from: the defaults the spec names (R9, R41, R142, R180); for the
parameters it leaves OPEN without a default (GEN, READ_VARIANT, both poll limits, SEQ_BASE, the rest of CHIP_TABLE)
values of this model. DESIGN CHOICE (log entry 2): statements are about every `Config`. unsafe -/
def Config.standard : Config where
  gen            := .yangtzee
  readVariant    := .slow
  xferPollLimit  := 1000
  readyPollLimit := 1000
  claimMax       := 255
  bufSize        := 4096
  winbond        := [w25q128]
  adesto         := []
  genericRdid    := 0x9F
  seqBase        := 0
  rxOther        := []

/-- The level of the chip's write-protect pin (R45, R319). -/
inductive Level where
  | low
  | high
  deriving DecidableEq, Repr, Inhabited

/-- One SPI transaction as it goes over the bus: opcode, outgoing bytes, number of incoming bytes (R115). -/
structure Frame where
  op  : Byte
  out : List Byte
  nIn : Nat
  deriving DecidableEq, Repr, Inhabited

/-- What the environment decides for one frame at the chip: the WP level (R319), the length of a busy period the
frame may start (R312), WEL after an ignored frame (R325), the reserved SR2 bit (R48), whether the frame touches
the undefined protected set (R222), and the response bytes no rule gives (R300). -/
structure ChipDraw where
  wp       : Level
  busy     : Nat
  wel      : Bool
  reserved : Bool
  touches  : Bool
  noise    : List Byte
  deriving DecidableEq, Repr, Inhabited

/-- What the environment decides for one transaction at the controller: how often its busy bit reads 1, its error
report, whether the chip performs a frame whose fate is open, and the bytes of an open response (R143, R144). -/
structure CtrlDraw where
  busyReads : Nat
  err       : Bool
  performed : Bool
  noise     : List Byte
  deriving DecidableEq, Repr, Inhabited

/-- What the environment decides at one YIELD: the frames the EC put on the bus since it last got it (R89), and
whether it acknowledges (R150). -/
structure EcDraw where
  traffic : List Frame
  ack     : Bool
  deriving DecidableEq, Repr, Inhabited

/-- A free value (R17): the chip-side draw number n, when none is recorded. DESIGN CHOICE of form (log entry 10). safe -/
opaque Config.freeChip : Nat → ChipDraw

/-- A free value (R17): the controller-side draw number n, when none is recorded. -/
opaque Config.freeCtrl : Nat → CtrlDraw

/-- A free value (R17): the EC-side draw number n, when none is recorded. -/
opaque Config.freeEc : Nat → EcDraw

/-- A free value (R17): byte i of an open response that the recorded noise does not reach. -/
opaque Config.freeByte : Nat → Byte

end Sys2Proof
end

