-- ==== Sys2Proof/Machine/State.lean ====
section
/-! DEFINITION. The state of the sequencer and of the agents around it (R7, R20 to R52), the ways a step can stop, and
the state after reset (R380, R382). -/

namespace Sys2Proof.Machine

/-- Bytes by address, in the canonical form of `Memory.wf`: addresses strictly rising, no entry equal to what an
unlisted address reads as. -/
abbrev Memory := List Host.Cell

/-- Which byte store a `Memory` is: flash array and security registers (R45), or the data buffer (R26). -/
inductive Space where
  | array
  | secreg
  | dbuf
  deriving DecidableEq, Repr

/-- Result codes (R110). -/
inductive Code where
  | ok
  | busClaimFailed
  | transferTooLarge
  | commandFailed
  | timeout
  | statusReadFailed
  | statusWriteVerifyFailed
  | unsupportedDevice
  | invalidRegionOrRange
  | permanentLockRequested
  | noDevice
  | regionLocked
  | illegalCommand
  deriving DecidableEq, Repr

/-- Faults of the model. -/
inductive Fault where
  /-- A HOST read of DBUF, or a command that sends DBUF bytes to the chip, met byte `index`, which nothing has
  written since SEQ reset (R26, U1). Raised by `hostRead8`, `hostRead32` and the act `memRead`. safe -/
  | dbufUnwritten (index : Nat)
  deriving DecidableEq, Repr

/-- Refusals of the model. -/
inductive Refusal where
  /-- The instruction has no meaning in this model yet. Raised in `exec`'s arms only; no arm raises it now. safe -/
  | notModelled (mnemonic : String)
  /-- A HOST access of a width, alignment or address that spells no access of this block (R76). Raised by the host
  accesses of `Ops.lean`. safe -/
  | noSuchAccess (address : Nat)
  /-- A HOST write of CMD, ADDR, LEN or DBUF while STATUS.BUSY = 1, for which there is no host move (R21, R392,
  U18). Raised by the host writes of `Ops.lean`. safe -/
  | hostWriteWhileBusy (address : Nat)
  /-- An EC frame while the EC does not own the bus, which the claim excludes (R89, R364). Raised by `ecMove`. safe -/
  | ecWithoutBus
  deriving DecidableEq, Repr

/-- What an act of a script answers: nothing, the incoming bytes of a transaction or bytes of DBUF, a claim count, or the
code it failed with. -/
inductive Answer where
  | done
  | bytes (bs : List Byte)
  | number (n : Nat)
  | failed (c : Code)
  deriving DecidableEq, Repr

/-- A command in flight (R24): the command word, ADDR and LEN as latched, and `step`, the transactions issued so far.
`heard` is the answers of the acts done so far, on which the rest of the script depends (R24: "each next transaction may
depend on the responses to earlier ones"). `held` is the number of claims the command took and has not released, `done`
the bytes it has committed: the two counts the abort steps of R356 need. -/
structure Running where
  cmd   : Word
  addr  : Word
  len   : Word
  step  : Nat
  heard : List Answer
  held  : Nat
  done  : Nat
  deriving DecidableEq, Repr

/-- `PHASE` (R24). -/
inductive Phase where
  | idle
  | running (r : Running)
  deriving DecidableEq, Repr

/-- The controller's abstract registers (R35), and the sticky mark `CTRL_UNKNOWN` (R144). -/
structure Ctrl where
  opcode  : Byte
  txCnt   : Byte
  rxCnt   : Byte
  fifo    : List Byte
  start   : Bool
  busy    : Bool
  err     : Bool
  unknown : Bool
  deriving DecidableEq, Repr

/-- The bytes a program or erase in progress targets (R321): `count` bytes of the window of `size` bytes at `base`,
from offset `off` on, wrapping in the window. DEDUCED (log entry 23). unsafe -/
inductive InFlight where
  | none
  | array  (base size off count : Nat)
  | secreg (base size off count : Nat)
  deriving DecidableEq, Repr

/-- The flash chip (R45 to R49). `sr1` and `sr2` hold the stored bits of the status registers: `sr1` bit 0 (BUSY) and
`sr2` bit 2 (reserved) are never stored, `Chip.sr1Read` and `Chip.sr2Read` supply them: DEDUCED (log entry 17), safe. `secreg` is keyed by the bus
address `region << 12 | offset` (R72). `wp` is the pin's level at the last frame. -/
structure Chip where
  desc     : Descriptor
  mfr      : Byte
  array    : Memory
  secreg   : Memory
  sr1      : Byte
  sr2      : Byte
  wp       : Level
  busyLeft : Nat
  inFlight : InFlight
  deriving DecidableEq, Repr

/-- What comes to the chip: a frame with the draws made for it (R300), or a power cycle with the draw for the bytes in
flight (R321). -/
inductive Stimulus where
  | frame (d : ChipDraw) (f : Frame)
  | powerCycle (noise : List Byte)
  deriving DecidableEq, Repr

/-- What a part does where it behaves differently from R300 to R331 (R332): the response bytes, the bytes of the two stores
that change, by address, the new status bits and the new busy count. -/
structure Departure where
  given    : List Byte
  array    : List (Nat × Byte)
  secreg   : List (Nat × Byte)
  sr1      : Byte
  sr2      : Byte
  busyLeft : Nat
  deriving DecidableEq, Repr

/-- Recorded draws of one kind (R17): those of `script` come first, in order; after them `steady` for ever, or, when
there is none, the free constants of `Config`. The model's own field. -/
structure Feed (α : Type) where
  script : List α
  steady : Option α
  deriving DecidableEq, Repr

/-- The environment's decisions (R17): chip-side, controller-side and EC-side draws, and how many draws have been
made. The model's own field. -/
structure Env where
  chip  : Feed ChipDraw
  ctrl  : Feed CtrlDraw
  ec    : Feed EcDraw
  drawn : Nat
  deriving DecidableEq, Repr

/-- A move of the world outside SEQ: a HOST access (R20, R76), one of another width, a platform event (R381), or a
frame of the EC (R89). Addresses are host addresses. -/
inductive Move where
  | read32   (address : Nat)
  | read8    (address : Nat)
  | write32  (address : Nat) (value : Word)
  | write8   (address : Nat) (value : Byte)
  | badWidth (bytes address : Nat)
  | seqReset
  | powerCycle
  | ecFrame  (frame : Frame)
  deriving DecidableEq, Repr

/-- What can be seen on the SPI bus and on the EC side channel (R115, R152). -/
inductive Event where
  | frame   (f : Frame)
  | ecFrame (f : Frame)
  | yield
  | reclaim
  deriving DecidableEq, Repr

/-- The whole machine. The registers of R20, PHASE (R24), DESC (R30), CLAIM_COUNT (R32), EC_OWNS (R33), DBUF (R26),
the controller (R35), the chip (R45); then the model's own fields: the draws; `inbox`, the moves of the outside world
in order, which the step reads; `during`, the moves that land inside a command, each with the number of acts of the
script done before it lands; `hostData`, the value the last HOST read returned; `trace`, the bus and side-channel events in
order, which no rule reads. DESIGN CHOICE (log entry 18). -/
structure State where
  cfg        : Config
  cmd        : Word
  addr       : Word
  len        : Word
  result     : Word
  doneCount  : Word
  rdata      : Word
  jedecId    : Word
  phase      : Phase
  desc       : Option Descriptor
  claimCount : Nat
  ecOwns     : Bool
  dbuf       : Memory
  ctrl       : Ctrl
  chip       : Chip
  env        : Env
  inbox      : List Move
  during     : List (Nat × Move)
  hostData   : Word
  trace      : List Event
  deriving DecidableEq, Repr

/-- The controller after reset: C_START, C_BUSY, C_ERR and CTRL_UNKNOWN clear (R52, R380); the data registers, which
the spec leaves unspecified, zero. DESIGN CHOICE (log entry 4): nothing reads them before they are written. unsafe -/
def Ctrl.atReset : Ctrl where
  opcode  := 0
  txCnt   := 0
  rxCnt   := 0
  fifo    := List.replicate 71 0
  start   := false
  busy    := false
  err     := false
  unknown := false

/-- The chip `State.reset` starts with, one value of the parameter `CHIP_INIT` (R382): the R41 part, erased, all
status bits clear, WP high. DESIGN CHOICE (log entry 5): statements are about every chip. unsafe -/
def Chip.initial : Chip where
  desc     := w25q128
  mfr      := 0xEF
  array    := []
  secreg   := []
  sr1      := 0
  sr2      := 0
  wp       := .high
  busyLeft := 0
  inFlight := .none

/-- An environment of which nothing is recorded: each draw is a free value of `Config`. -/
def Env.free : Env where
  chip  := { script := [], steady := none }
  ctrl  := { script := [], steady := none }
  ec    := { script := [], steady := none }
  drawn := 0

/-- The machine right after SEQ reset (R52, R380, R382). -/
def State.reset : State where
  cfg        := Config.standard
  cmd        := 0
  addr       := 0
  len        := 0
  result     := 0
  doneCount  := 0
  rdata      := 0
  jedecId    := 0
  phase      := .idle
  desc       := none
  claimCount := 0
  ecOwns     := true
  dbuf       := []
  ctrl       := Ctrl.atReset
  chip       := Chip.initial
  env        := Env.free
  inbox      := []
  during     := []
  hostData   := 0
  trace      := []

end Sys2Proof.Machine

/-- A free value (R332): difference number k of a part, what it does at a stimulus, or `none` where it behaves as R300 to
R331 say. DESIGN CHOICE of form (log entry 25). safe -/
opaque Sys2Proof.Config.departure (k : Nat) (c : Sys2Proof.Machine.Chip) (x : Sys2Proof.Machine.Stimulus) :
    Option Sys2Proof.Machine.Departure
end

