-- ==== Sys2Proof/Machine/Memory.lean ====
section
/-! DEFINITION. The byte stores: canonical form, reading and writing one byte, erasing a range (R26, R45). -/

namespace Sys2Proof.Machine

/-- An erased flash byte: "An erased byte reads 0xFF" (R314). -/
def erasedByte : Byte := 0xFF

/-- What an unlisted address reads as: a flash or security byte is erased, a DBUF byte is unwritten (R26). The flash
value is a DESIGN CHOICE for `CHIP_INIT` (log entry 5). unsafe -/
def Space.fill : Space → Option Byte
  | .array  => some erasedByte
  | .secreg => some erasedByte
  | .dbuf   => none

namespace Memory

/-- The canonical form: addresses strictly rising, no entry equal to what an unlisted address reads as. -/
abbrev wf (sp : Space) (m : Memory) : Prop :=
  m.Pairwise (fun x y => x.1 < y.1) ∧ ∀ c ∈ m, sp.fill ≠ some c.2

/-- The listed byte at an address. -/
def lookup : Memory → Nat → Option Byte
  | [], _ => none
  | (k, b) :: m, a => if k = a then some b else lookup m a

/-- The byte at an address, `none` where nothing can be read. -/
def read (sp : Space) (m : Memory) (a : Nat) : Option Byte :=
  match m.lookup a with
  | some b => some b
  | none   => sp.fill

/-- The byte of a flash store at an address (R45): each address holds one. -/
def byte (m : Memory) (a : Nat) : Byte := (m.lookup a).getD erasedByte

/-- The entries for consecutive bytes from `a` on that differ from what an unlisted address reads as. -/
def listing (sp : Space) : Nat → List Byte → Memory
  | _, [] => []
  | a, b :: bs => if sp.fill = some b then listing sp (a + 1) bs else (a, b) :: listing sp (a + 1) bs

/-- Write consecutive bytes from `a` on (R71c); a byte equal to what an unlisted address reads as is not listed. -/
def writeList (sp : Space) (m : Memory) (a : Nat) (bs : List Byte) : Memory :=
  m.filter (fun c => c.1 < a) ++ listing sp a bs ++ m.filter (fun c => a + bs.length ≤ c.1)

/-- Write one byte. -/
def write (sp : Space) (m : Memory) (a : Nat) (b : Byte) : Memory := m.writeList sp a [b]

/-- Write single bytes, in order. -/
def writeEach (sp : Space) (m : Memory) : List (Nat × Byte) → Memory
  | [] => m
  | (a, b) :: ws => writeEach sp (m.write sp a b) ws

/-- Set `n` bytes from `lo` on to what an unlisted address reads as: for flash, an erase (R315, R316). -/
def clearRange (m : Memory) (lo n : Nat) : Memory :=
  m.filter (fun c => ¬ (lo ≤ c.1 ∧ c.1 < lo + n))

/-- Program the flash bytes from `base` on with a buffer: "programming only clears bits" (R314). -/
def program (sp : Space) (m : Memory) (base : Nat) (buf : List Byte) : Memory :=
  m.writeList sp base (buf.mapIdx fun j b => m.byte (base + j) &&& b)

end Memory

end Sys2Proof.Machine
end

