-- ==== Sys2Proof/WellFormed.lean ====
section
/-! DEFINITION. Well-formedness: of the parameters (R9, R10, R11), of a chip descriptor (R40 to R42) and its opcode
set (R120, R301), and of an instruction's selector (R104). An `Instr` itself has no ill-formed term, because every
value of its fields is a legal encoding (R104); `Instr.selDefined` says whether the selector lies in the set the
spec defines for it. -/

namespace Sys2Proof

/-- The opcode bytes in the order of R120. -/
def OpSet.bytes (o : OpSet) : List Byte :=
  [o.rdid, o.read, o.fastRead, o.rdsr1, o.rdsr2, o.wren, o.wrsr, o.pp, o.se, o.secErase, o.secProg, o.secRead]

/-- No two names of R120 share an opcode byte, so that the dispatch of R301 has one rule for each byte. DEDUCED (log
entry 3). safe -/
abbrev OpSet.wf (o : OpSet) : Prop := o.bytes.Nodup

/-- The largest page-program payload of a controller, `CTRL_PAGE_LIMIT` (R9). -/
def Gen.pageLimit : Gen → Nat
  | .yangtzee => 64
  | .legacy   => 4

/-- The FIFO depth `F` of a controller generation (R9). -/
def Gen.fifoDepth : Gen → Nat
  | .yangtzee => 71
  | .legacy   => 8

/-- A descriptor admitted to `CHIP_TABLE`: the page limit of the controller divides its page size (R10), it has at most
2^24 bytes (R11), and its opcode bytes are told apart (DEDUCED, log entry 3). That it has at least one byte is in no rule:
DESIGN CHOICE (log entry 26). safe -/
abbrev Descriptor.wf (g : Gen) (d : Descriptor) : Prop :=
  g.pageLimit ∣ d.pageSize ∧ 0 < d.totalSize ∧ d.totalSize ≤ 2 ^ 24 ∧ d.op.wf

/-- The fixed entry of R41, whose opcode bytes R9 and R120 leave OPEN and whose name no rule reads. It departs from no rule
of the chip: R332 speaks of the other entries. -/
abbrev Descriptor.isFixedEntry (d : Descriptor) : Prop := { d with op := w25q128.op, name := w25q128.name } = w25q128

/-- The parameter constraints of R9 to R11, R22 (CLAIM_MAX at most 255), R41: the poll limits and BUF_SIZE at least what
R9 says, and two tables whose entries are well formed and of their own vendor, the Winbond one holding the fixed entry.
That `rx_index` stays inside the FIFO is DEDUCED (log entry 6): R141 reads `C_FIFO` at it. safe -/
abbrev Config.wf (c : Config) : Prop :=
  1 ≤ c.xferPollLimit ∧ 1 ≤ c.readyPollLimit ∧ c.claimMax ≤ 255 ∧ 256 ≤ c.bufSize ∧
  (∃ d ∈ c.winbond, d.isFixedEntry) ∧
  (∀ d ∈ c.winbond, d.vendor = .winbond ∧ d.wf c.gen) ∧ (∀ d ∈ c.adesto, d.vendor = .adesto ∧ d.wf c.gen) ∧
  ∀ e ∈ c.rxOther, e.2.2 < c.gen.fifoDepth

/-- The selector lies in the set R104 defines for the command: k in 1..44, mode in 0..5, region in 1..3, any SPI
opcode. -/
def Instr.selDefined : Instr → Bool
  | .setRange k        => decide (1 ≤ k.toNat ∧ k.toNat ≤ 44)
  | .setLockMode m _   => decide (m.toNat ≤ 5)
  | .secRead r         => decide (1 ≤ r.toNat ∧ r.toNat ≤ 3)
  | .secProgram r      => decide (1 ≤ r.toNat ∧ r.toNat ≤ 3)
  | .secErase r        => decide (1 ≤ r.toNat ∧ r.toNat ≤ 3)
  | .secLock r _       => decide (1 ≤ r.toNat ∧ r.toNat ≤ 3)
  | .transfer _        => true
  | .probe             => true
  | .read              => true
  | .write             => true
  | .erase             => true
  | .lock              => true
  | .unlock            => true
  | .isLocked          => true
  | .clearRange        => true
  | .readProtection    => true
  | .getLockMode       => true
  | .getHwProtect      => true
  | .secStatus         => true
  | .claim             => true
  | .release           => true

end Sys2Proof
end

