-- ==== Sys2Proof/Machine/Operands.lean ====
section
/-! DEFINITION. Operand forms: bus addresses (R14, R71, R72), transfer sizes (R9, R142, R185), chunking (R185, R190,
R201), the tables of block-protect presets (R221) and lock modes (R240), and the host address map (R20). -/

namespace Sys2Proof.Machine

/-- `be24(a)`: three address bytes, most significant first (R14, R71a). -/
def be24 (a : Nat) : List Byte := [BitVec.ofNat 8 (a / 2 ^ 16), BitVec.ofNat 8 (a / 2 ^ 8), BitVec.ofNat 8 a]

/-- The address three bus bytes spell, the chip's reading of `be24` (R303). -/
def fromBe24 (b0 b1 b2 : Byte) : Nat := b0.toNat * 2 ^ 16 + b1.toNat * 2 ^ 8 + b2.toNat

/-- `sec_addr(r, offset) = (r << 12) | offset` (R72). -/
def secAddr (r offset : Nat) : Nat := (r <<< 12) ||| offset

/-- Bytes of one security region, `SEC_REGION_SIZE` (R9, R72). -/
def secRegionSize : Nat := 256

/-- `xfer_ok(n_out, n_in)`, the size admission of one transfer (R9). -/
def xferOk (g : Gen) (nOut nIn : Nat) : Bool :=
  match g with
  | .yangtzee => decide (nOut ≤ 71 ∧ nIn ≤ 68)
  | .legacy   => decide (nOut + nIn ≤ 8)

/-- The default of `rx_index`: `(n_out + i) mod F` (R142). -/
def rxDefault (g : Gen) (nOut i : Nat) : Nat := (nOut + i) % g.fifoDepth

/-- `rx_index(n_out, i)`, the per-generation parameter of R142: what `rxOther` lists for the pair, else the default. -/
def rxIndex (c : Config) (nOut i : Nat) : Nat :=
  match c.rxOther.find? (fun e => e.1 == nOut && e.2.1 == i) with
  | some e => e.2.2
  | none   => rxDefault c.gen nOut i

/-- `CH`: the largest n with `xfer_ok(n_addr, n)`, for at most 8 address bytes (R185, R273). -/
def maxIncoming (g : Gen) (nAddr : Nat) : Nat :=
  match g with
  | .yangtzee => 68
  | .legacy   => 8 - nAddr

/-- The opcode name and the bytes after the address of an array read (R185, R120). -/
def readForm (v : ReadVariant) (o : OpSet) : Byte × List Byte :=
  match v with
  | .slow => (o.read, [])
  | .fast => (o.fastRead, [0x00])

/-- Steps of R201's loop, at most `fuel` of them, from `done` on. -/
def chunksFrom : Nat → Nat → Nat → Nat → Nat → List (Nat × Nat)
  | 0, _, _, _, _ => []
  | fuel + 1, o, n, P, done =>
    if done < n then
      let c := min (n - done) (P - (o + done) % P)
      (o + done, c) :: chunksFrom fuel o n P (done + c)
    else []

/-- `chunks(o, n, P)`, the (address, size) pairs of a page-aligned write (R201). -/
def chunks (o n P : Nat) : List (Nat × Nat) := chunksFrom n o n P 0

/-- Steps of R185's loop, at most `fuel` of them, from `done` on. -/
def slicesFrom : Nat → Nat → Nat → Nat → List (Nat × Nat)
  | 0, _, _, _ => []
  | fuel + 1, n, ch, done =>
    if done < n then
      let c := min (n - done) ch
      (done, c) :: slicesFrom fuel n ch (done + c)
    else []

/-- The (done, size) pairs of a read of `n` bytes in chunks of at most `ch` (R185, R273). -/
def slices (n ch : Nat) : List (Nat × Nat) := slicesFrom n n ch 0

/-- The addresses of the sectors an erase of `len` bytes at `o` covers, in order (R190). -/
def sectorsOf (o len sectorSize : Nat) : List Nat :=
  (List.range (len / sectorSize)).map fun i => o + i * sectorSize

/-- The effective page size `P = min(page_size, CTRL_PAGE_LIMIT)` (R200). -/
def effectivePage (g : Gen) (d : Descriptor) : Nat := min d.pageSize g.pageLimit

/-- A block-protect tuple `(cmp, bp_bits, sec, tb)` (R220). -/
structure RangeTuple where
  cmp : Bool
  bp  : BitVec 3
  sec : Bool
  tb  : Bool
  deriving DecidableEq, Repr

/-- Rows 1 to 13 of R221. -/
def presetsA : List RangeTuple :=
  [⟨false, 0, false, false⟩, ⟨false, 1, false, false⟩, ⟨false, 2, false, false⟩, ⟨false, 3, false, false⟩,
   ⟨false, 4, false, false⟩, ⟨false, 5, false, false⟩, ⟨false, 6, false, false⟩, ⟨false, 1, false, true⟩,
   ⟨false, 2, false, true⟩, ⟨false, 3, false, true⟩, ⟨false, 4, false, true⟩, ⟨false, 5, false, true⟩,
   ⟨false, 6, false, true⟩]

/-- Rows 14 to 22 of R221. -/
def presetsB : List RangeTuple :=
  [⟨false, 7, false, false⟩, ⟨false, 1, true, false⟩, ⟨false, 2, true, false⟩, ⟨false, 3, true, false⟩,
   ⟨false, 4, true, false⟩, ⟨false, 1, true, true⟩, ⟨false, 2, true, true⟩, ⟨false, 3, true, true⟩,
   ⟨false, 4, true, true⟩]

/-- Rows 23 to 35 of R221. -/
def presetsC : List RangeTuple :=
  [⟨true, 0, false, false⟩, ⟨true, 1, false, false⟩, ⟨true, 2, false, false⟩, ⟨true, 3, false, false⟩,
   ⟨true, 4, false, false⟩, ⟨true, 5, false, false⟩, ⟨true, 6, false, false⟩, ⟨true, 1, false, true⟩,
   ⟨true, 2, false, true⟩, ⟨true, 3, false, true⟩, ⟨true, 4, false, true⟩, ⟨true, 5, false, true⟩,
   ⟨true, 6, false, true⟩]

/-- Rows 36 to 44 of R221. -/
def presetsD : List RangeTuple :=
  [⟨true, 7, false, false⟩, ⟨true, 1, true, false⟩, ⟨true, 2, true, false⟩, ⟨true, 3, true, false⟩,
   ⟨true, 4, true, false⟩, ⟨true, 1, true, true⟩, ⟨true, 2, true, true⟩, ⟨true, 3, true, true⟩,
   ⟨true, 4, true, true⟩]

/-- The 44-entry preset table `T[1..44]` (R221), entry k at position k - 1. -/
def presets : List RangeTuple := presetsA ++ presetsB ++ presetsC ++ presetsD

/-- `T[k]` for k in 1..44 (R221, R226). -/
def preset (k : Nat) : Option RangeTuple := if k = 0 then none else presets[k - 1]?

/-- The index j in 1..44 with `T[j] = t`, or 0 if there is none (R231). -/
def presetIndex (t : RangeTuple) : Nat :=
  match presets.findIdx? (· == t) with
  | some i => i + 1
  | none   => 0

/-- The lock-mode bits `(srp0, srp1)` of a lock-mode code in 0..5 (R240). -/
def lockModeBits (m : Nat) : Option (Bool × Bool) :=
  match m with
  | 0 => some (false, false)
  | 1 => some (false, false)
  | 2 => some (true, false)
  | 3 => some (true, false)
  | 4 => some (false, true)
  | 5 => some (true, true)
  | _ => none

/-- What a host offset names (R20): a register, a reserved offset, or a byte of DBUF. -/
inductive HostCell where
  | cmd
  | addr
  | len
  | status
  | result
  | doneCount
  | rdata
  | jedecId
  | reserved
  | dbuf (index : Nat)
  deriving DecidableEq, Repr

/-- The register at an offset below 0x1000 that is a multiple of 4 (R20). -/
def registerAt (off : Nat) : HostCell :=
  match off with
  | 0x00 => .cmd
  | 0x04 => .addr
  | 0x08 => .len
  | 0x0C => .status
  | 0x10 => .result
  | 0x14 => .doneCount
  | 0x18 => .rdata
  | 0x1C => .jedecId
  | _    => .reserved

/-- What an aligned 32-bit access names: a register, or four bytes of DBUF (R20, R76). That the offset is what is aligned
is DEDUCED (log entry 19). That a word which begins in DBUF and runs past its end names nothing, so that the access is
refused whole, is a DESIGN CHOICE (log entry 27): R20 and R76 do not speak of it. safe -/
def cell32 (c : Config) (address : Nat) : Option HostCell :=
  if address < c.seqBase then none
  else
    let off := address - c.seqBase
    if off % 4 ≠ 0 then none
    else if off < 0x1000 then some (registerAt off)
    else if off - 0x1000 + 3 < c.bufSize then some (.dbuf (off - 0x1000))
    else none

/-- What a byte access names (R76): a byte of DBUF. -/
def cell8 (c : Config) (address : Nat) : Option Nat :=
  if c.seqBase + 0x1000 ≤ address ∧ address < c.seqBase + 0x1000 + c.bufSize then
    some (address - c.seqBase - 0x1000)
  else none

/-- Byte `j` of a window of `size` bytes is one of `count` bytes from `off` on, wrapping in the window (R314, R321). -/
def inWindow (size off count j : Nat) : Bool := decide ((j + (size - off)) % size < count)

/-- The program or erase in progress targets address `a` of the array (R321). -/
def InFlight.hitsArray : InFlight → Nat → Bool
  | .array base size off count, a => decide (base ≤ a ∧ a < base + size) && inWindow size off count (a - base)
  | .secreg _ _ _ _, _ => false
  | .none, _ => false

/-- The program or erase in progress targets the security byte at bus address `a` (R321). -/
def InFlight.hitsSecreg : InFlight → Nat → Bool
  | .secreg base size off count, a => decide (base ≤ a ∧ a < base + size) && inWindow size off count (a - base)
  | .array _ _ _ _, _ => false
  | .none, _ => false

end Sys2Proof.Machine
end

