-- ==== Sys2Proof/Machine/Flags.lean ====
section
/-! DEFINITION. Status registers and their fields: SR1 and SR2 of the chip (R47, R48), the block-protect encoder (R220
to R224), the lock axis (R240, R241), the protected set (R222), result codes (R110), and the host STATUS word (R22). -/

namespace Sys2Proof.Machine

/-- Bit n of a byte set to `v`, all others 0. -/
def bitAt (n : Nat) (v : Bool) : Byte := if v then BitVec.twoPow 8 n else 0

/-- `PROT1`: SR1 bits bp0, bp1, bp2, tb, sec (R220). -/
def prot1 : Byte := 0x7C

/-- `PROT2`: SR2 bit cmp (R220). -/
def prot2 : Byte := 0x40

/-- `VMASK1`: the SR1 bits a read-back compares (R224). -/
def vmask1 : Byte := 0xFC

/-- `VMASK2`: the SR2 bits a read-back compares (R224). -/
def vmask2 : Byte := 0x43

/-- `enc1(bp, tb, sec)` (R220). -/
def enc1 (t : RangeTuple) : Byte := ((t.bp.zeroExtend 8) <<< 2) ||| bitAt 5 t.tb ||| bitAt 6 t.sec

/-- `enc2(cmp)` (R220). -/
def enc2 (t : RangeTuple) : Byte := bitAt 6 t.cmp

/-- `dec(s1, s2)` (R220). -/
def decTuple (s1 s2 : Byte) : RangeTuple where
  cmp := s2.getLsbD 6
  bp  := s1.extractLsb' 2 3
  sec := s1.getLsbD 6
  tb  := s1.getLsbD 5

/-- The protected set is empty: "(cmp = 0 and bp = 0) or (cmp = 1 and bp = 7)" (R230). -/
def nothingProtected (t : RangeTuple) : Bool := (!t.cmp && t.bp == 0) || (t.cmp && t.bp == 7)

/-- `base(bp, sec, tb)` as (first address, size), for an array of `S` bytes; `none` where it is UNDEFINED (R222): there
each frame has a draw. DESIGN CHOICE (log entry 14). safe -/
def protBase (S : Nat) (t : RangeTuple) : Option (Nat × Nat) :=
  if t.bp = 0 then some (0, 0)
  else if t.bp = 7 then some (0, S)
  else if t.sec = false then
    let size := S >>> (7 - t.bp.toNat)
    some (if t.tb then 0 else S - size, size)
  else if t.bp = 6 then none
  else
    let size := 4096 <<< min (t.bp.toNat - 1) 3
    some (if t.tb then 0 else S - size, size)

/-- Whether the protected set of a tuple holds address `a` of an array of `S` bytes (R222); `open_` is the draw that
answers for the UNDEFINED tuple. -/
def protContains (S : Nat) (t : RangeTuple) (open_ : Bool) (a : Nat) : Bool :=
  match protBase S t with
  | none => open_
  | some (lo, n) => decide (a < S) && ((decide (lo ≤ a ∧ a < lo + n)) != t.cmp)

/-- Whether any of the `n` bytes at `s` is in the protected set (R222, R315). -/
def protTouches (S : Nat) (t : RangeTuple) (open_ : Bool) (s n : Nat) : Bool :=
  match protBase S t with
  | none => open_
  | some (lo, k) =>
    let last := min (s + n) S
    if t.cmp then decide (s < last ∧ ¬ (lo ≤ s ∧ last ≤ lo + k))
    else decide (max s lo < min last (lo + k))

/-- The number of a result code (R110). -/
def Code.number : Code → Word
  | .ok                      => 0x00
  | .busClaimFailed          => 0x01
  | .transferTooLarge        => 0x02
  | .commandFailed           => 0x03
  | .timeout                 => 0x04
  | .statusReadFailed        => 0x05
  | .statusWriteVerifyFailed => 0x06
  | .unsupportedDevice       => 0x07
  | .invalidRegionOrRange    => 0x08
  | .permanentLockRequested  => 0x09
  | .noDevice                => 0x0A
  | .regionLocked            => 0x0B
  | .illegalCommand          => 0x0C

namespace Chip

/-- SR1.WEL (R47). -/
def wel (c : Chip) : Bool := c.sr1.getLsbD 1

/-- SR1 as a status read returns it: BUSY is `BUSY_LEFT > 0` (R47, R49). -/
def sr1Read (c : Chip) : Byte := (c.sr1 &&& 0xFE) ||| bitAt 0 (decide (0 < c.busyLeft))

/-- SR2 as a status read returns it: the reserved bit reads as drawn (R48). -/
def sr2Read (c : Chip) (reserved : Bool) : Byte := (c.sr2 &&& 0xFB) ||| bitAt 2 reserved

/-- SR1.SRP0 (R47). -/
def srp0 (c : Chip) : Bool := c.sr1.getLsbD 7

/-- SR2.SRP1 (R48). -/
def srp1 (c : Chip) : Bool := c.sr2.getLsbD 0

/-- SR2.LB<r> (R48, R270). -/
def lockBit (c : Chip) (r : Nat) : Bool := c.sr2.getLsbD (2 + r)

/-- The block-protect tuple in force (R220). -/
def tuple (c : Chip) : RangeTuple := decTuple c.sr1 c.sr2

/-- WEL set or cleared, the other bits of SR1 kept. -/
def setWel (c : Chip) (v : Bool) : Chip := { c with sr1 := (c.sr1 &&& 0xFD) ||| bitAt 1 v }

/-- Whether the status registers take a write (R241, R318), at a WP level. -/
def srWritable (c : Chip) (wp : Level) : Bool := !c.srp1 && !(c.srp0 && wp == .low)

/-- The status write of R318: SR1[7:2], SRP1, QE and CMP are written, LB1 to LB3 only set. -/
def writeStatus (c : Chip) (a b : Byte) : Chip :=
  { c with
    sr1 := (a &&& 0xFC) ||| (c.sr1 &&& 0x03)
    sr2 := (b &&& 0x43) ||| ((c.sr2 ||| b) &&& 0x38) ||| (c.sr2 &&& 0x84) }

/-- The byte of the array at an address (R45). -/
def arrayByte (c : Chip) (a : Nat) : Byte := c.array.byte a

/-- The byte of region r at an offset (R45). -/
def secByte (c : Chip) (r o : Nat) : Byte := c.secreg.byte (secAddr r o)

end Chip

/-- STATUS (R22): BUSY, BOUND, GEN, FASTREAD, EC_OWNS in bits 0 to 4, CLAIM_COUNT in bits 15:8, the rest 0. -/
def State.status (s : State) : Word :=
  (0 : BitVec 16) ++ BitVec.ofNat 8 s.claimCount ++ (0 : BitVec 3) ++ BitVec.ofBool s.ecOwns ++
    BitVec.ofBool (s.cfg.readVariant == .fast) ++ BitVec.ofBool (s.cfg.gen == .yangtzee) ++
    BitVec.ofBool s.desc.isSome ++ BitVec.ofBool (s.phase != .idle)

end Sys2Proof.Machine
end

