-- ==== Sys2Proof/Machine/Chip.lean ====
section
/-! DEFINITION. The flash chip responder (R300 to R332): how CHIP answers one frame, and its power cycle. Each answer
takes the draws of R17 for that frame as an argument. -/

namespace Sys2Proof.Machine

/-- The frame kinds of R301, by name of the opcode. -/
inductive Role where
  | rdid
  | read
  | fastRead
  | rdsr1
  | rdsr2
  | wren
  | wrsr
  | pp
  | se
  | secErase
  | secProg
  | secRead
  deriving DecidableEq, Repr

/-- The dispatch of R301: which rule an opcode byte selects, `none` for R330. -/
def roleOf (o : OpSet) (b : Byte) : Option Role :=
  if b = o.rdid then some .rdid
  else if b = o.read then some .read
  else if b = o.fastRead then some .fastRead
  else if b = o.rdsr1 then some .rdsr1
  else if b = o.rdsr2 then some .rdsr2
  else if b = o.wren then some .wren
  else if b = o.wrsr then some .wrsr
  else if b = o.pp then some .pp
  else if b = o.se then some .se
  else if b = o.secErase then some .secErase
  else if b = o.secProg then some .secProg
  else if b = o.secRead then some .secRead
  else none

/-- Byte i of a response no rule gives (R300): the recorded noise, or a free value. -/
def noiseByte (noise : List Byte) (i : Nat) : Byte := (noise[i]?).getD (Config.freeByte i)

/-- Exactly `n` response bytes: those the rule gives, the rest any value (R300), for status reads too: DEDUCED (log entry
16). safe -/
def padResponse (n : Nat) (given noise : List Byte) : List Byte :=
  (List.range n).map fun i => (given[i]?).getD (noiseByte noise i)

namespace Chip

/-- A buffer of `size` bytes after data bytes from position `i` on: data byte i goes to `(off + i) mod size`, combined
with what is there. -/
def loadBuffer (combine : Byte → Byte → Byte) (size off : Nat) : Nat → List Byte → List Byte → List Byte
  | _, [], buf => buf
  | i, d :: ds, buf =>
    let k := (off + i) % size
    loadBuffer combine size off (i + 1) ds (buf.set k (combine ((buf[k]?).getD erasedByte) d))

/-- The chip's page buffer (R314): all 0xFF, addresses wrap inside the page, a later byte overwrites. -/
def pageBuffer (page off : Nat) (data : List Byte) : List Byte :=
  loadBuffer (fun _ new => new) page off 0 data (List.replicate page erasedByte)

/-- The bits a security program keeps (R317): offsets wrap inside the region, each data byte is ANDed in. -/
def regionBuffer (off : Nat) (data : List Byte) : List Byte :=
  loadBuffer (fun old new => old &&& new) secRegionSize off 0 data (List.replicate secRegionSize erasedByte)

/-- The array after a page program of `data` at `a` (R314). -/
def programPage (c : Chip) (a : Nat) (data : List Byte) : Memory :=
  c.array.program .array (a - a % c.desc.pageSize) (pageBuffer c.desc.pageSize (a % c.desc.pageSize) data)

/-- The security registers after a program of `data` at offset `o` of region `r` (R317). -/
def programRegion (c : Chip) (r o : Nat) (data : List Byte) : Memory :=
  c.secreg.program .secreg (secAddr r 0) (regionBuffer o data)

/-- A busy period starts (R312): `BUSY_LEFT` is the draw; WEL reads 1 until it ends, at once when the draw is 0. -/
def startBusy (c : Chip) (k : Nat) (target : InFlight) : Chip :=
  let c := { c with busyLeft := k, inFlight := if k = 0 then .none else target }
  c.setWel (decide (0 < k))

/-- An answered frame of a busy period lowers `BUSY_LEFT`; WEL becomes 0 when it reaches 0 (R312). -/
def tick (c : Chip) : Chip :=
  if c.busyLeft = 1 then ({ c with busyLeft := 0, inFlight := .none } : Chip).setWel false
  else { c with busyLeft := c.busyLeft - 1 }

/-- A frame the chip ignores, does not know or finds malformed: only WEL changes, to any value (R325, R330, R331). -/
def ignored (c : Chip) (d : ChipDraw) : Chip := c.setWel d.wel

/-- The array address a 24-bit bus address selects. For READ this is R303's `mod total_size`; for PP and SE it is
DEDUCED from it (log entry 7). unsafe -/
def arrayAddr (c : Chip) (b0 b1 b2 : Byte) : Nat := fromBe24 b0 b1 b2 % c.desc.totalSize

/-- The region of a security bus address with a valid tag `0xR0xx`, R in 1..3 (R316). -/
def regionOf (A : Nat) : Option Nat :=
  let r := A >>> 12
  if (r = 1 ∨ r = 2 ∨ r = 3) ∧ A >>> 8 = r <<< 4 then some r else none

/-- RDID (R302). -/
def rdid (c : Chip) : List Byte := [c.mfr, c.desc.id.extractLsb' 8 8, c.desc.id.extractLsb' 0 8]

/-- The bytes of an array read of `n` bytes (R303). -/
def readArray (c : Chip) (a n : Nat) : List Byte :=
  (List.range n).map fun i => c.arrayByte ((a + i) % c.desc.totalSize)

/-- The bytes of a security read of `n` bytes (R317). -/
def readRegion (c : Chip) (r o n : Nat) : List Byte :=
  (List.range n).map fun i => c.secByte r ((o + i) % secRegionSize)

/-- PP with an address and data (R314). A PP with no data is ignored. -/
def pageProgram (c : Chip) (d : ChipDraw) (a : Nat) (data : List Byte) : Chip :=
  if data = [] then c.ignored d
  else if c.wel = false then c.ignored d
  else if protContains c.desc.totalSize c.tuple d.touches a then c.ignored d
  else
    ({ c with array := c.programPage a data } : Chip).startBusy d.busy
      (.array (a - a % c.desc.pageSize) c.desc.pageSize (a % c.desc.pageSize) (min data.length c.desc.pageSize))

/-- SE with an address (R315). -/
def sectorErase (c : Chip) (d : ChipDraw) (a : Nat) : Chip :=
  let s := a - a % c.desc.sectorSize
  if c.wel = false then c.ignored d
  else if protTouches c.desc.totalSize c.tuple d.touches s c.desc.sectorSize then c.ignored d
  else
    ({ c with array := c.array.clearRange s c.desc.sectorSize } : Chip).startBusy d.busy
      (.array s c.desc.sectorSize 0 c.desc.sectorSize)

/-- SEC_ERASE with a bus address (R316). -/
def regionErase (c : Chip) (d : ChipDraw) (A : Nat) : Chip :=
  if c.wel = false then c.ignored d
  else
    match regionOf A with
    | none => c.ignored d
    | some r =>
      if c.lockBit r then c.ignored d
      else
        ({ c with secreg := c.secreg.clearRange (secAddr r 0) secRegionSize } : Chip).startBusy d.busy
          (.secreg (secAddr r 0) secRegionSize 0 secRegionSize)

/-- SEC_PROG with a bus address and data (R317). With no data it starts a busy period: DEDUCED (log entry 15). unsafe -/
def regionProgram (c : Chip) (d : ChipDraw) (A : Nat) (data : List Byte) : Chip :=
  if c.wel = false then c.ignored d
  else
    match regionOf A with
    | none => c.ignored d
    | some r =>
      if c.lockBit r then c.ignored d
      else
        ({ c with secreg := c.programRegion r (A % secRegionSize) data } : Chip).startBusy d.busy
          (.secreg (secAddr r 0) secRegionSize (A % secRegionSize) (min data.length secRegionSize))

/-- WRSR with its two data bytes (R318), at the WP level of the frame (R319). -/
def statusWrite (c : Chip) (d : ChipDraw) (a b : Byte) : Chip :=
  if c.wel = false then c.ignored d
  else if c.srWritable d.wp = false then c.ignored d
  else (c.writeStatus a b).startBusy d.busy .none

/-- A frame while the chip is not busy (R301 to R305, R314 to R318, R330, R331): the response bytes the rule gives,
and the chip after it. Bytes after those a rule names are not looked at (R331; for the address-only frames log entry
8). A chip of any descriptor answers so, with its geometry, opcodes and flags, but where its part departs (R332). -/
def serve (c : Chip) (d : ChipDraw) (f : Frame) : List Byte × Chip :=
  match roleOf c.desc.op f.op, f.out with
  | some .rdid, _ => (c.rdid, c)
  | some .read, b0 :: b1 :: b2 :: _ => (c.readArray (c.arrayAddr b0 b1 b2) f.nIn, c)
  | some .fastRead, b0 :: b1 :: b2 :: _ :: _ => (c.readArray (c.arrayAddr b0 b1 b2) f.nIn, c)
  | some .rdsr1, _ => ([c.sr1Read], c)
  | some .rdsr2, _ => ([c.sr2Read d.reserved], c)
  | some .wren, _ => ([], c.setWel true)
  | some .wrsr, a :: b :: _ => ([], c.statusWrite d a b)
  | some .pp, b0 :: b1 :: b2 :: data => ([], c.pageProgram d (c.arrayAddr b0 b1 b2) data)
  | some .se, b0 :: b1 :: b2 :: _ => ([], c.sectorErase d (c.arrayAddr b0 b1 b2))
  | some .secErase, b0 :: b1 :: b2 :: _ => ([], c.regionErase d (fromBe24 b0 b1 b2))
  | some .secProg, b0 :: b1 :: b2 :: data => ([], c.regionProgram d (fromBe24 b0 b1 b2) data)
  | some .secRead, b0 :: b1 :: b2 :: _ :: _ =>
    match regionOf (fromBe24 b0 b1 b2) with
    | some r => (c.readRegion r (fromBe24 b0 b1 b2 % secRegionSize) f.nIn, c)
    | none   => ([], c)
  | _, _ => ([], c.ignored d)

/-- A frame while the chip is busy (R301, R312): only the status reads are served, and each frame lowers
`BUSY_LEFT`. -/
def serveBusy (c : Chip) (d : ChipDraw) (f : Frame) : List Byte × Chip :=
  match roleOf c.desc.op f.op with
  | some .rdsr1 => ([c.sr1Read], c.tick)
  | some .rdsr2 => ([c.sr2Read d.reserved], c.tick)
  | _ => ([], c.tick)

/-- Where a part behaves differently, what it does (R332). -/
def departure (c : Chip) (x : Stimulus) : Option Departure := c.desc.departs.bind fun k => Config.departure k c x

/-- The chip after a departure (R332): any bytes at the addresses of its stores (R45, R72), any status bits and busy count,
within what the state of every chip keeps: the bits that are not stored (log entry 17), WEL in a busy period, no operation
in flight. DESIGN CHOICE (log entry 25). safe -/
def departed (c : Chip) (x : Departure) : Chip :=
  { c with
    array    := c.array.writeEach .array (x.array.filter fun e => decide (e.1 < c.desc.totalSize))
    secreg   := c.secreg.writeEach .secreg (x.secreg.filter fun e => (regionOf e.1).isSome)
    sr1      := (x.sr1 &&& 0xFE) ||| bitAt 1 (decide (0 < x.busyLeft))
    sr2      := x.sr2 &&& 0x7B
    busyLeft := x.busyLeft
    inFlight := .none }

/-- The response bytes and the chip after a frame, at the sensed WP level: the rule of a busy or an idle chip, but where
the part departs (R301, R332). -/
def respond (c : Chip) (d : ChipDraw) (f : Frame) : List Byte × Chip :=
  match c.departure (.frame d f) with
  | some x => (x.given, c.departed x)
  | none   => if 0 < c.busyLeft then c.serveBusy d f else c.serve d f

/-- CHIP answers one frame (R300, R301): the WP level is the frame's draw (R319), the response has exactly `nIn`
bytes. -/
def answer (c : Chip) (d : ChipDraw) (f : Frame) : List Byte × Chip :=
  let r := respond { c with wp := d.wp } d f
  (padResponse f.nIn r.1 d.noise, r.2)

/-- The window of a program or erase in progress after a power cycle: its targets hold any value (R321, U16). -/
def scramble (sp : Space) (noise : List Byte) (m : Memory) (base size off count : Nat) : Memory :=
  m.writeList sp base
    ((List.range size).map fun j => if inWindow size off count j then noiseByte noise j else m.byte (base + j))

/-- The array after a power cycle (R321). -/
def arrayAfterPowerCycle (c : Chip) (noise : List Byte) : Memory :=
  match c.inFlight with
  | .array base size off count => scramble .array noise c.array base size off count
  | .secreg _ _ _ _ => c.array
  | .none => c.array

/-- The security registers after a power cycle (R321). -/
def secregAfterPowerCycle (c : Chip) (noise : List Byte) : Memory :=
  match c.inFlight with
  | .secreg base size off count => scramble .secreg noise c.secreg base size off count
  | .array _ _ _ _ => c.secreg
  | .none => c.secreg

/-- The chip after a power cycle (R321): a lock-down is cleared, OTP is not. -/
def restarted (c : Chip) (noise : List Byte) : Chip :=
  { c with
    array := c.arrayAfterPowerCycle noise
    secreg := c.secregAfterPowerCycle noise
    sr1 := c.sr1 &&& 0xFC
    sr2 := (if c.srp1 && !c.srp0 then c.sr2 &&& 0xFE else c.sr2) &&& 0x7F
    busyLeft := 0
    inFlight := .none }

/-- The power cycle of the chip (R321), but where the part departs (R332). -/
def powerCycle (c : Chip) (noise : List Byte) : Chip :=
  match c.departure (.powerCycle noise) with
  | some x => c.departed x
  | none   => c.restarted noise

end Chip

end Sys2Proof.Machine
end

