-- ==== Sys2Proof/Machine/Ops.lean ====
section
/-! DEFINITION. The shared operations of SEQ: draws (R17), the transaction primitive (R141 to R144), claim and release
(R150, R151), the data buffer (R26), host accesses (R20, R21, R76), reset events (R380, R381); then scripts (R24): what
SEQ does as a tree of acts, the device helpers as pieces of scripts (R170 to R176, R225), the end of a command, by
`return` or by `raise` (R356), and how a script runs. -/

namespace Sys2Proof.Machine

/-- A stop of the model: a fault or a refusal. -/
inductive Halt where
  | fault (f : Fault)
  | refused (r : Refusal)
  deriving DecidableEq, Repr

/-- The outcome of a stop of the model. -/
def Halt.outcome : Halt → Host.Outcome State Fault Refusal
  | .fault f   => .fault f
  | .refused r => .refused r

/-! ### Draws -/

/-- The next recorded draw of a feed, or the free value, and the feed after it (R17). -/
def Feed.next {α : Type} (f : Feed α) (free : α) : α × Feed α :=
  match f.script with
  | x :: rest => (x, { f with script := rest })
  | [] => (f.steady.getD free, f)

namespace Env

/-- The chip-side draw of a frame. -/
def drawChip (e : Env) : ChipDraw × Env :=
  let (d, f) := e.chip.next (Config.freeChip e.drawn)
  (d, { e with chip := f, drawn := e.drawn + 1 })

/-- The controller-side draw of a transaction. -/
def drawCtrl (e : Env) : CtrlDraw × Env :=
  let (d, f) := e.ctrl.next (Config.freeCtrl e.drawn)
  (d, { e with ctrl := f, drawn := e.drawn + 1 })

/-- The EC-side draw of a YIELD. -/
def drawEc (e : Env) : EcDraw × Env :=
  let (d, f) := e.ec.next (Config.freeEc e.drawn)
  (d, { e with ec := f, drawn := e.drawn + 1 })

end Env

/-! ### Phase bookkeeping -/

/-- Change the record of the command in flight. -/
def Phase.map (f : Running → Running) : Phase → Phase
  | .idle => .idle
  | .running r => .running (f r)

/-- Transactions issued so far by the command in flight (R24). -/
def State.step (s : State) : Nat :=
  match s.phase with
  | .idle => 0
  | .running r => r.step

/-- Claims the command in flight took and has not released (R356). -/
def State.held (s : State) : Nat :=
  match s.phase with
  | .idle => 0
  | .running r => r.held

/-- Bytes the command in flight has committed (R352). -/
def State.done (s : State) : Nat :=
  match s.phase with
  | .idle => 0
  | .running r => r.done

/-- Acts of its script the command in flight has done. -/
def State.acts (s : State) : Nat :=
  match s.phase with
  | .idle => 0
  | .running r => r.heard.length

/-- The command in flight has done an act, which answered `x`. -/
def State.hear (s : State) (x : Answer) : State :=
  { s with phase := s.phase.map fun r => { r with heard := r.heard ++ [x] } }

/-- The bytes the command in flight has committed are `n`; DONE_COUNT is written at its end. -/
def State.tally (s : State) (n : Nat) : State := { s with phase := s.phase.map fun r => { r with done := n } }

/-- A chunk is done: DONE_COUNT is updated (R23, R202). -/
def State.commit (s : State) (n : Nat) : State := { s.tally n with doneCount := BitVec.ofNat 32 n }

/-! ### The chip at the far end of the bus -/

/-- CHIP receives a frame and answers it, with the draw of that frame (R300). -/
def chipFrame (f : Frame) (s : State) : List Byte × State :=
  let (d, env) := s.env.drawChip
  let (resp, chip) := s.chip.answer d f
  (resp, { s with env := env, chip := chip })

/-- The EC puts a frame on the bus it owns (R89, R152). -/
def ecFrame (f : Frame) (s : State) : State :=
  let s := (chipFrame f s).2
  { s with trace := s.trace ++ [.ecFrame f] }

/-- The EC's traffic since it last got the bus (R89), drawn at the YIELD. DESIGN CHOICE (log entry 11). safe -/
def ecTraffic : List Frame → State → State
  | [], s => s
  | f :: fs, s => ecTraffic fs (ecFrame f s)

/-! ### Claim and release -/

/-- YIELD goes to the EC, whose frames since it last got the bus come before it (R89, R150, R152). -/
def yieldTo (d : EcDraw) (s : State) : State :=
  let s := if s.ecOwns then ecTraffic d.traffic s else s
  { s with trace := s.trace ++ [.yield] }

/-- `Claim()` (R150): the new claim count, or its failure. The EC may refuse the YIELD. -/
def claimBus (s : State) : Answer × State :=
  if s.claimCount = s.cfg.claimMax then (.failed .busClaimFailed, s)
  else if s.claimCount = 0 then
    let (d, env) := s.env.drawEc
    let t := yieldTo d { s with env := env }
    if d.ack then (.number 1, { t with ecOwns := false, claimCount := 1 }) else (.failed .busClaimFailed, t)
  else (.number (s.claimCount + 1), { s with claimCount := s.claimCount + 1 })

/-- `Release()` (R151). -/
def releaseBus (s : State) : State :=
  let s := { s with claimCount := s.claimCount - 1 }
  if s.claimCount = 0 then { s with trace := s.trace ++ [.reclaim], ecOwns := true } else s

/-- `Claim()` inside a command's script: the abort steps know of it (R153, R356). -/
def claimOwn (s : State) : Answer × State :=
  match claimBus s with
  | (.failed c, t) => (.failed c, t)
  | (x, t) => (x, { t with phase := t.phase.map fun r => { r with held := r.held + 1 } })

/-- `Release()` inside a command's script (R151, R153). -/
def releaseOwn (s : State) : State :=
  let t := releaseBus s
  { t with phase := t.phase.map fun r => { r with held := r.held - 1 } }

/-- RELEASE's check and its `Release()`, giving the new claim count (R165). -/
def releaseHost (s : State) : Answer × State :=
  if s.claimCount = 0 then (.failed .illegalCommand, s) else (.number (s.claimCount - 1), releaseBus s)

/-! ### Reset events -/

/-- SEQ reset (R380). CHIP, the EC, the parameters and the queues of the outside world are not touched; the controller
registers it leaves unspecified keep their values (log entry 4). -/
def seqReset (s : State) : State :=
  { s with
    phase := .idle
    cmd := 0
    addr := 0
    len := 0
    result := 0
    doneCount := 0
    rdata := 0
    jedecId := 0
    desc := none
    claimCount := 0
    ecOwns := true
    dbuf := []
    ctrl := { s.ctrl with start := false, busy := false, err := false, unknown := false } }

/-- Board power cycle: CHIP power cycles, and SEQ resets (R321, R381b). -/
def powerCycle (s : State) : State :=
  let (d, env) := s.env.drawChip
  seqReset { s with env := env, chip := s.chip.powerCycle d.noise }

/-! ### Host accesses -/

/-- The DBUF byte at an index, a fault where it is unwritten (R26). DEDUCED (log entry 22). safe -/
def dbufByte (s : State) (i : Nat) : Except Halt Byte :=
  match s.dbuf.read .dbuf i with
  | some b => .ok b
  | none   => .error (.fault (.dbufUnwritten i))

/-- HOST reads 32 bits (R20, R71d, R76): reads have no side effect (R80). -/
def hostRead32 (s : State) (a : Nat) : Except Halt Word :=
  match cell32 s.cfg a with
  | none => .error (.refused (.noSuchAccess a))
  | some .cmd => .ok s.cmd
  | some .addr => .ok s.addr
  | some .len => .ok s.len
  | some .status => .ok s.status
  | some .result => .ok s.result
  | some .doneCount => .ok s.doneCount
  | some .rdata => .ok s.rdata
  | some .jedecId => .ok s.jedecId
  | some .reserved => .ok 0
  | some (.dbuf i) => do
    let b0 ← dbufByte s i
    let b1 ← dbufByte s (i + 1)
    let b2 ← dbufByte s (i + 2)
    let b3 ← dbufByte s (i + 3)
    return b3 ++ b2 ++ b1 ++ b0

/-- HOST reads one byte of DBUF (R76). -/
def hostRead8 (s : State) (a : Nat) : Except Halt Byte :=
  match cell8 s.cfg a with
  | none => .error (.refused (.noSuchAccess a))
  | some i => dbufByte s i

/-- The bytes of a word, least significant first (R71d). -/
def wordBytes (w : Word) : List Byte :=
  [w.extractLsb' 0 8, w.extractLsb' 8 8, w.extractLsb' 16 8, w.extractLsb' 24 8]

/-- A HOST write that STATUS.BUSY = 1 forbids (R21, R392). -/
def notBusy (s : State) (a : Nat) (t : State) : Except Halt State :=
  if s.phase = .idle then .ok t else .error (.refused (.hostWriteWhileBusy a))

/-- HOST writes 32 bits to any register but CMD, or to DBUF (R20, R21): a read-only or reserved register keeps its
value. CMD is only stored here; `Step.lean` starts the command. -/
def hostWrite32 (s : State) (a : Nat) (w : Word) : Except Halt State :=
  match cell32 s.cfg a with
  | none => .error (.refused (.noSuchAccess a))
  | some .cmd => notBusy s a { s with cmd := w }
  | some .addr => notBusy s a { s with addr := w }
  | some .len => notBusy s a { s with len := w }
  | some .status => .ok s
  | some .result => .ok s
  | some .doneCount => .ok s
  | some .rdata => .ok s
  | some .jedecId => .ok s
  | some .reserved => .ok s
  | some (.dbuf i) => notBusy s a { s with dbuf := s.dbuf.writeList .dbuf i (wordBytes w) }

/-- HOST writes one byte of DBUF (R76). -/
def hostWrite8 (s : State) (a : Nat) (b : Byte) : Except Halt State :=
  match cell8 s.cfg a with
  | none => .error (.refused (.noSuchAccess a))
  | some i => notBusy s a { s with dbuf := s.dbuf.write .dbuf i b }

/-- A frame of the EC outside a YIELD: only while it owns the bus (R89). -/
def ecMove (f : Frame) (s : State) : Except Halt State :=
  if s.ecOwns then .ok (ecFrame f s) else .error (.refused .ecWithoutBus)

/-- A move of the outside world that starts no command: a HOST access, a reset event or an EC frame. -/
def plainMove (m : Move) (s : State) : Except Halt State :=
  match m with
  | .read32 a => do
    let w ← hostRead32 s a
    return { s with hostData := w }
  | .read8 a => do
    let b ← hostRead8 s a
    return { s with hostData := b.zeroExtend 32 }
  | .write32 a w => hostWrite32 s a w
  | .write8 a b => hostWrite8 s a b
  | .badWidth _ a => .error (.refused (.noSuchAccess a))
  | .seqReset => .ok (seqReset s)
  | .powerCycle => .ok (powerCycle s)
  | .ecFrame f => ecMove f s

/-- A move is a reset event (R381). -/
def Move.isReset : Move → Bool
  | .seqReset   => true
  | .powerCycle => true
  | .read32 _   => false
  | .read8 _    => false
  | .write32 _ _  => false
  | .write8 _ _   => false
  | .badWidth _ _ => false
  | .ecFrame _    => false

/-! ### What lands inside a command -/

/-- A move that lands inside a command: HOST reads see STATUS.BUSY = 1, a reset event drops the command, for which no
RESULT is written (R380, R381, U20). -/
def landMove (m : Move) (s : State) : Except (Host.Outcome State Fault Refusal) State :=
  match plainMove m s with
  | .error h => .error h.outcome
  | .ok t => if m.isReset then .error (.next t) else .ok t

/-- The moves of `during` whose time has come, in order: those at the head whose number is the number of acts done. The
others stay queued. DESIGN CHOICE (log entry 21). safe -/
def landFrom : List (Nat × Move) → State → Except (Host.Outcome State Fault Refusal) State
  | [], s => .ok s
  | (k, m) :: rest, s =>
    if k = s.acts then
      match landMove m { s with during := rest } with
      | .ok t => landFrom rest t
      | .error o => .error o
    else .ok s

/-- What lands before the next act of a command (R381: "either event may occur at any step"). -/
def land (s : State) : Except (Host.Outcome State Fault Refusal) State := landFrom s.during s

/-- What lands before the end of a command; a command that ends before its first act ends at once. DESIGN CHOICE (log
entry 1). unsafe -/
def landEnd (s : State) : Except (Host.Outcome State Fault Refusal) State := if s.acts = 0 then .ok s else land s

/-! ### The transaction primitive -/

/-- SEQ stages a transaction in the controller's registers and starts it (R141). -/
def Ctrl.stage (c : Ctrl) (op : Byte) (out : List Byte) (nIn : Nat) : Ctrl :=
  { c with
    opcode := op
    fifo := out ++ c.fifo.drop out.length
    txCnt := BitVec.ofNat 8 out.length
    rxCnt := BitVec.ofNat 8 nIn
    start := true
    busy := true }

/-- The frame the controller puts on the bus, from its registers (R143). -/
def Ctrl.frame (c : Ctrl) : Frame where
  op  := c.opcode
  out := c.fifo.take c.txCnt.toNat
  nIn := c.rxCnt.toNat

/-- The controller stores incoming byte i at `C_FIFO[(C_TXCNT + i) mod F]` (R143). -/
def storeIncoming (g : Gen) (nOut : Nat) : Nat → List Byte → List Byte → List Byte
  | _, [], fifo => fifo
  | i, b :: bs, fifo => storeIncoming g nOut (i + 1) bs (fifo.set ((nOut + i) % g.fifoDepth) b)

/-- SEQ reads the incoming bytes back from the FIFO (R141, R142). -/
def readBack (c : Config) (nOut nIn : Nat) (fifo : List Byte) : List Byte :=
  (List.range nIn).map fun i => (fifo[rxIndex c nOut i]?).getD 0

/-- The controller's busy bit still reads 1 at `XFER_POLL_LIMIT` reads (R141). -/
def timesOut (d : CtrlDraw) (s : State) : Bool := decide (s.cfg.xferPollLimit ≤ d.busyReads)

/-- Whether the chip performs the staged frame: open when the transaction times out, the controller reports an error, or
its state is unknown; else it does (R143, R144). At once or never: DESIGN CHOICE (log entry 12). unsafe -/
def isPerformed (d : CtrlDraw) (s : State) : Bool :=
  if timesOut d s || d.err || s.ctrl.unknown then d.performed else true

/-- The staged frame on the bus: the incoming bytes, which are open when the chip does not perform the frame or the
controller's state is unknown, and the state after it (R143, R144). An unknown controller may time out again: DEDUCED
(log entry 24). safe -/
def onBus (d : CtrlDraw) (s : State) : List Byte × State :=
  if isPerformed d s then
    (if s.ctrl.unknown then padResponse s.ctrl.frame.nIn [] d.noise else (chipFrame s.ctrl.frame s).1,
      (chipFrame s.ctrl.frame s).2)
  else (padResponse s.ctrl.frame.nIn [] d.noise, s)

/-- The controller finishes: incoming bytes in the FIFO, the error report, then not busy (R143). That C_START clears is
DEDUCED (log entry 13). unsafe -/
def Ctrl.finished (c : Ctrl) (g : Gen) (nOut : Nat) (resp : List Byte) (err : Bool) : Ctrl :=
  { c with fifo := storeIncoming g nOut 0 resp c.fifo, start := false, busy := false, err := err }

/-- The controller runs a staged transaction: whether it finishes in time, and the state after it. A transaction that
does not leaves it in an unknown state until SEQ reset (R144); C_START, C_BUSY and C_ERR then keep their values: DEDUCED
(log entry 13). unsafe -/
def runStaged (d : CtrlDraw) (s : State) : Bool × State :=
  let r := onBus d s
  if timesOut d s then (false, { r.2 with ctrl := { r.2.ctrl with unknown := true } })
  else (true, { r.2 with ctrl := r.2.ctrl.finished s.cfg.gen s.ctrl.frame.out.length r.1 d.err })

/-- SEQ stages and starts a transaction (R141), which PHASE counts (R24). -/
def State.issue (s : State) (op : Byte) (out : List Byte) (nIn : Nat) : State :=
  { s with
    ctrl := s.ctrl.stage op out nIn
    trace := s.trace ++ [.frame ⟨op, out, nIn⟩]
    phase := s.phase.map fun r => { r with step := r.step + 1 } }

/-- What a transaction that finishes returns to SEQ: the incoming bytes from the FIFO (R141, R142), or, while CTRL_UNKNOWN
is set, draw bytes, wherever `rx_index` points (R144). That the draw bytes are also those the controller stores is DEDUCED
(log entry 24). unsafe -/
def received (d : CtrlDraw) (nOut nIn : Nat) (s : State) : List Byte :=
  if s.ctrl.unknown then padResponse nIn [] d.noise else readBack s.cfg nOut nIn s.ctrl.fifo

/-- `Xfer(op, out, n_in)` (R141): the incoming bytes, or its failure. -/
def transact (op : Byte) (out : List Byte) (nIn : Nat) (s : State) : Answer × State :=
  if xferOk s.cfg.gen out.length nIn then
    let t := s.issue op out nIn
    let (d, env) := t.env.drawCtrl
    let (inTime, u) := runStaged d { t with env := env }
    if !inTime then (.failed .timeout, u)
    else if u.ctrl.err then (.failed .commandFailed, u)
    else (.bytes (received d out.length nIn u), u)
  else (.failed .transferTooLarge, s)

/-! ### The data buffer -/

/-- The bytes of DBUF from `i` on, a fault at the first unwritten one. -/
def dbufBytes (s : State) (i : Nat) : Nat → Except Fault (List Byte)
  | 0 => .ok []
  | n + 1 =>
    match s.dbuf.read .dbuf i with
    | none => .error (.dbufUnwritten i)
    | some b =>
      match dbufBytes s (i + 1) n with
      | .error f => .error f
      | .ok bs => .ok (b :: bs)

/-! ### Scripts -/

/-- One act of SEQ: what no other agent can come between. An SPI transaction is one (R79a), and so are, between two
transactions, a claim, a release, a read or a write of DBUF, and an update of SEQ's registers. DESIGN CHOICE (log entry
1). unsafe -/
inductive Act where
  /-- `Xfer(op, out, n_in)` (R141). -/
  | xfer (op : Byte) (out : List Byte) (nIn : Nat)
  /-- `Claim()` of a script (R150, R153). -/
  | claim
  /-- `Release()` of a script (R151, R153). -/
  | release
  /-- `Claim()` for HOST (R163). -/
  | hostClaim
  /-- RELEASE's check and its `Release()` (R165). -/
  | hostRelease
  /-- `MemRead(i, n)`, bytes a command sends to the chip (R15, R26). -/
  | memRead (i n : Nat)
  /-- `MemWrite(i, n, v)` (R15). -/
  | memWrite (i : Nat) (bs : List Byte)
  /-- DONE_COUNT after a chunk (R23, R202). -/
  | commit (n : Nat)
  /-- The DONE_COUNT a command that has no chunks ends with (R23). -/
  | tally (n : Nat)
  /-- `DESC <- none` (R180). -/
  | unbind
  /-- `DESC <- d` (R180). -/
  | bind (d : Descriptor)
  /-- `JEDEC_ID <- w` (R180). -/
  | identify (w : Word)
  deriving DecidableEq, Repr

/-- A command's script (R24): an act, and what comes after it for each answer; or the end, by `return v` or `raise E`
(R16). -/
inductive Script where
  | done (v : Word)
  | raise (c : Code)
  | act (a : Act) (next : Answer → Script)

/-- What is left of a script after the answers of its first acts. -/
def Script.after : Script → List Answer → Script
  | .act _ next, x :: xs => (next x).after xs
  | s, _ => s

/-- SEQ does one act. Only a read of an unwritten DBUF byte stops (R26). -/
def perform (a : Act) (s : State) : Except Fault (Answer × State) :=
  match a with
  | .xfer op out nIn => .ok (transact op out nIn s)
  | .claim           => .ok (claimOwn s)
  | .release         => .ok (.done, releaseOwn s)
  | .hostClaim       => .ok (claimBus s)
  | .hostRelease     => .ok (releaseHost s)
  | .memRead i n     =>
    match dbufBytes s i n with
    | .ok bs   => .ok (.bytes bs, s)
    | .error f => .error f
  | .memWrite i bs   => .ok (.done, { s with dbuf := s.dbuf.writeList .dbuf i bs })
  | .commit n        => .ok (.done, s.commit n)
  | .tally n         => .ok (.done, s.tally n)
  | .unbind          => .ok (.done, { s with desc := none })
  | .bind d          => .ok (.done, { s with desc := some d })
  | .identify w      => .ok (.done, { s with jedecId := w })

/-! ### Pieces of scripts -/

/-- The bytes of an answer. -/
def Answer.data : Answer → List Byte
  | .bytes bs => bs
  | .done     => []
  | .number _ => []
  | .failed _ => []

/-- The count of an answer. -/
def Answer.count : Answer → Nat
  | .number n => n
  | .done     => 0
  | .bytes _  => 0
  | .failed _ => 0

/-- Go on with an answer; a failure is raised, as the code `c` gives for it. -/
def unlessFailed (c : Code → Code) (k : Answer → Script) : Answer → Script
  | .failed e => .raise (c e)
  | .done     => k .done
  | .number n => k (.number n)
  | .bytes bs => k (.bytes bs)

/-- `Xfer(op, out, n_in)` in a script, which propagates its failure (R141). -/
def xfer (op : Byte) (out : List Byte) (nIn : Nat) (k : List Byte → Script) : Script :=
  .act (.xfer op out nIn) (unlessFailed id fun x => k x.data)

/-- `Xfer(op, out, n_in)`, any failure of which is re-raised as `c` (R170, R180). -/
def xferAs (c : Code) (op : Byte) (out : List Byte) (nIn : Nat) (k : List Byte → Script) : Script :=
  .act (.xfer op out nIn) (unlessFailed (fun _ => c) fun x => k x.data)

/-- `Claim()` in a script. -/
def claim (k : Script) : Script := .act .claim (unlessFailed id fun _ => k)

/-- `Release()` in a script; it cannot fail. -/
def release (k : Script) : Script := .act .release fun _ => k

/-- `MemRead(i, n)` in a script. -/
def memRead (i n : Nat) (k : List Byte → Script) : Script := .act (.memRead i n) fun x => k x.data

/-- `MemWrite(i, n, v)` in a script. -/
def memWrite (i : Nat) (bs : List Byte) (k : Script) : Script := .act (.memWrite i bs) fun _ => k

/-- A chunk is done (R202). -/
def commit (n : Nat) (k : Script) : Script := .act (.commit n) fun _ => k

/-- `DONE_COUNT <- n` at the end of a script without chunks. -/
def tally (n : Nat) (k : Script) : Script := .act (.tally n) fun _ => k

/-- Go on if the check holds, else `raise E`. -/
def require (check : Bool) (c : Code) (k : Script) : Script := if check then k else .raise c

/-- The loop over a list of chunks. -/
def each {α : Type} (xs : List α) (f : α → Script → Script) (k : Script) : Script :=
  match xs with
  | [] => k
  | x :: xs => f x (each xs f k)

/-! ### Device helpers -/

/-- The first byte of a response. -/
def firstByte (r : List Byte) : Byte := (r[0]?).getD 0

/-- `ReadSR1()` (R170). -/
def readSR1 (o : OpSet) (k : Byte → Script) : Script := xferAs .statusReadFailed o.rdsr1 [] 1 fun r => k (firstByte r)

/-- `ReadSR2()` (R171). -/
def readSR2 (o : OpSet) (k : Byte → Script) : Script := xferAs .statusReadFailed o.rdsr2 [] 1 fun r => k (firstByte r)

/-- `WriteEnable()` (R172). -/
def writeEnable (o : OpSet) (k : Script) : Script := xfer o.wren [] 0 fun _ => k

/-- `PollReady()` with `n` status reads left (R173). -/
def pollReady (o : OpSet) (n : Nat) (k : Script) : Script :=
  match n with
  | 0 => .raise .timeout
  | n + 1 => xfer o.rdsr1 [] 1 fun r => if (firstByte r).getLsbD 0 = false then k else pollReady o n k

/-- `WriteSR(a, b)` (R174), with `limit` status reads in its ready poll. -/
def writeSR (o : OpSet) (limit : Nat) (a b : Byte) (k : Script) : Script :=
  writeEnable o <|
  xfer o.wrsr [a, b] 0 fun _ =>
  pollReady o limit k

/-- `UpdateSR(f)` (R225), giving the read-back pair. -/
def updateSR (o : OpSet) (limit : Nat) (f : Byte → Byte → Byte × Byte) (k : Byte → Byte → Script) : Script :=
  readSR1 o fun s1 =>
  readSR2 o fun s2 =>
  writeSR o limit (f s1 s2).1 (f s1 s2).2 <|
  readSR1 o fun t1 =>
  readSR2 o fun t2 =>
  require ((t1 &&& vmask1) == ((f s1 s2).1 &&& vmask1) && (t2 &&& vmask2) == ((f s1 s2).2 &&& vmask2))
    .statusWriteVerifyFailed <|
  k t1 t2

/-! ### The checks of a command -/

/-- What a script is a function of: the parameters, the bound descriptor, and ADDR and LEN as CMD latched them (R24,
R390). -/
structure Context where
  cfg  : Config
  desc : Option Descriptor
  addr : Nat
  len  : Nat
  deriving DecidableEq, Repr

/-- What the prologue of R175 asks of the bound descriptor. -/
inductive Need where
  | anyDevice
  | protection
  | security
  deriving DecidableEq, Repr

/-- The descriptor has what a command needs (R175). -/
def Need.metBy (n : Need) (d : Descriptor) : Bool :=
  match n with
  | .anyDevice  => true
  | .protection => d.hasProtect
  | .security   => d.hasSec

/-- The prologue (R175): the bound descriptor. -/
def prologue (n : Need) (x : Context) (k : Descriptor → Script) : Script :=
  match x.desc with
  | none => .raise .noDevice
  | some d => require (n.metBy d) .unsupportedDevice (k d)

/-- `RangeCheck(ADDR, LEN, uses_buf)` (R176). -/
def rangeCheck (d : Descriptor) (x : Context) (usesBuf : Bool) (k : Script) : Script :=
  require (decide (x.addr < d.totalSize)) .invalidRegionOrRange <|
  require (decide (x.addr + x.len ≤ d.totalSize)) .invalidRegionOrRange <|
  require (!usesBuf || decide (x.len ≤ x.cfg.bufSize)) .invalidRegionOrRange k

/-- `SecCheck(r, ADDR, LEN)` (R271). -/
def secCheck (r : Nat) (x : Context) (k : Script) : Script :=
  require (decide (1 ≤ r ∧ r ≤ 3)) .invalidRegionOrRange <|
  require (decide (x.addr + x.len ≤ secRegionSize)) .invalidRegionOrRange k

/-! ### The end and the frame of a command -/

/-- Release the claims a command still holds, innermost first (R356). -/
def releaseHeld : Nat → State → State
  | 0, s => s
  | n + 1, s => releaseHeld n (releaseBus s)

/-- The end of a command (R356): release check, RESULT, DONE_COUNT, RDATA, PHASE. STATUS.BUSY follows PHASE (R24). -/
def finish (c : Code) (v : Word) (s : State) : State :=
  let t := releaseHeld s.held s
  { t with
    result := c.number
    doneCount := BitVec.ofNat 32 s.done
    rdata := v
    phase := .idle }

/-- `return v` (R16, R356). -/
def complete (v : Word) (s : State) : State := finish .ok v s

/-- `raise E`: the abort steps of R356, the one "trap entry" of this hardware. There is no return from it: after an
abort SEQ is `Idle` and takes the next command (R358). -/
def abort (c : Code) (s : State) : State := finish c 0 s

/-- What CMD latches (R24, R390). -/
def State.latched (s : State) : Running :=
  { cmd := s.cmd, addr := s.addr, len := s.len, step := 0, heard := [], held := 0, done := 0 }

/-- PHASE moves from `Idle` to `Running(cmd, 0)` (R24). -/
def State.started (s : State) : State := { s with phase := .running s.latched }

/-- Go on where nothing that landed ended the command. -/
def andThen (l : Except (Host.Outcome State Fault Refusal) State) (f : State → Host.Outcome State Fault Refusal) :
    Host.Outcome State Fault Refusal :=
  match l with
  | .ok s    => f s
  | .error o => o

/-- Go on after an act, which is then one the command in flight has done. -/
def afterAct (r : Except Fault (Answer × State)) (f : Answer → State → Host.Outcome State Fault Refusal) :
    Host.Outcome State Fault Refusal :=
  match r with
  | .ok (x, s) => f x (s.hear x)
  | .error e   => .fault e

/-- A script runs to its end (R24, R356): before each act, and before the end, what is due lands. -/
def run : Script → State → Host.Outcome State Fault Refusal
  | .done v, s  => andThen (landEnd s) fun t => .next (complete v t)
  | .raise c, s => andThen (landEnd s) fun t => .next (abort c t)
  | .act a next, s => andThen (land s) fun t => afterAct (perform a t) fun x u => run (next x) u

/-- What the script of the command in flight `r` is a function of. -/
def Running.context (r : Running) (s : State) : Context where
  cfg  := s.cfg
  desc := s.desc
  addr := r.addr.toNat
  len  := r.len.toNat

/-- A command runs: its operands are latched, its script runs, and it ends (R24, R356). `advance` is the same run, one act
at a time. -/
def runCommand (script : Context → Script) (s : State) : Host.Outcome State Fault Refusal :=
  run (script (s.latched.context s)) s.started

/-- A command word that decodes to no command (R103). -/
def illegalCommand (s : State) : State := abort .illegalCommand s.started

end Sys2Proof.Machine
end

