-- ==== Sys2Proof/Machine/Device.lean ====
section
/-! DEFINITION. PROBE, READ, ERASE (R180 to R190). -/

namespace Sys2Proof.Machine

/-- The scan of PROBE: the Winbond table, then the Adesto table, the first descriptor with the code (R180). -/
def findDescriptor (c : Config) (code : BitVec 16) : Option Descriptor :=
  (c.winbond ++ c.adesto).find? (fun d => d.id == code)

/-- `JEDEC_ID`: `b0 << 16 | b1 << 8 | b2` (R180). -/
def jedecWord (b0 b1 b2 : Byte) : Word := (0 : BitVec 8) ++ b0 ++ b1 ++ b2

/-- What PROBE does with the identification bytes (R180). -/
def bindTo (c : Config) (b0 b1 b2 : Byte) : Script :=
  .act (.identify (jedecWord b0 b1 b2)) fun _ =>
  match findDescriptor c (b1 ++ b2) with
  | some d => .act (.bind d) fun _ => .done (jedecWord b0 b1 b2)
  | none   => .raise .unsupportedDevice

/-- PROBE (R180, R386). -/
def probeScript (x : Context) : Script :=
  .act .unbind fun _ =>
  claim <|
  xferAs .noDevice x.cfg.genericRdid [] 3 fun r =>
  release <|
  bindTo x.cfg (firstByte r) ((r[1]?).getD 0) ((r[2]?).getD 0)

/-- One chunk of READ (R185). -/
def readChunk (opc : Byte) (extra : List Byte) (base : Nat) (chunk : Nat × Nat) (k : Script) : Script :=
  claim <|
  xfer opc (be24 (base + chunk.1) ++ extra) chunk.2 fun r =>
  release <|
  memWrite chunk.1 r <|
  commit (chunk.1 + chunk.2) k

/-- READ (R185). -/
def readScript (x : Context) : Script :=
  prologue .anyDevice x fun d =>
  rangeCheck d x true <|
  let form := readForm x.cfg.readVariant d.op
  each (slices x.len (maxIncoming x.cfg.gen (3 + form.2.length))) (readChunk form.1 form.2 x.addr) <|
  .done 0

/-- One sector of ERASE, at address `a`, of an erase that starts at `base` (R190). -/
def eraseSector (d : Descriptor) (limit base a : Nat) (k : Script) : Script :=
  claim <|
  writeEnable d.op <|
  xfer d.op.se (be24 a) 0 fun _ =>
  pollReady d.op limit <|
  release <|
  commit (a - base + d.sectorSize) k

/-- ERASE (R190). -/
def eraseScript (x : Context) : Script :=
  prologue .anyDevice x fun d =>
  rangeCheck d x false <|
  require (decide (x.addr % d.sectorSize = 0 ∧ x.len % d.sectorSize = 0)) .invalidRegionOrRange <|
  each (sectorsOf x.addr x.len d.sectorSize) (eraseSector d x.cfg.readyPollLimit x.addr) <|
  .done 0

/-- PROBE (R180). -/
def execProbe (s : State) : Host.Outcome State Fault Refusal := runCommand probeScript s

/-- READ (R185). -/
def execRead (s : State) : Host.Outcome State Fault Refusal := runCommand readScript s

/-- ERASE (R190). -/
def execErase (s : State) : Host.Outcome State Fault Refusal := runCommand eraseScript s

end Sys2Proof.Machine
end

