-- ==== Sys2Proof/Machine/PageProgram.lean ====
section
/-! DEFINITION. WRITE, the page-program engine (R200 to R206). -/

namespace Sys2Proof.Machine

/-- One chunk of WRITE, at address `chunk.1`, of a write that starts at `base` (R202). That `MemRead` comes after the
WREN and just before the PP, as an act of its own, is DEDUCED (log entry 22) from its place in the rule's `Xfer`. safe -/
def writeChunk (d : Descriptor) (limit base : Nat) (chunk : Nat × Nat) (k : Script) : Script :=
  claim <|
  writeEnable d.op <|
  memRead (chunk.1 - base) chunk.2 fun bs =>
  xfer d.op.pp (be24 chunk.1 ++ bs) 0 fun _ =>
  pollReady d.op limit <|
  release <|
  commit (chunk.1 - base + chunk.2) k

/-- WRITE (R202). -/
def writeScript (x : Context) : Script :=
  prologue .anyDevice x fun d =>
  rangeCheck d x true <|
  each (chunks x.addr x.len (effectivePage x.cfg.gen d)) (writeChunk d x.cfg.readyPollLimit x.addr) <|
  .done 0

/-- WRITE (R202). -/
def execWrite (s : State) : Host.Outcome State Fault Refusal := runCommand writeScript s

end Sys2Proof.Machine
end

