-- ==== Sys2Proof/Machine/Protection.lean ====
section
/-! DEFINITION. The write-protection commands: LOCK, UNLOCK, IS_LOCKED, SET_RANGE, CLEAR_RANGE, READ_PROTECTION,
SET_LOCK_MODE, GET_LOCK_MODE, GET_HW_PROTECT (R220 to R250). -/

namespace Sys2Proof.Machine

/-- The new status pair of a block-protect update (R226): the tuple's bits in, all other bits as read. -/
def withTuple (t : RangeTuple) (s1 s2 : Byte) : Byte × Byte :=
  ((s1 &&& ~~~prot1) ||| enc1 t, (s2 &&& ~~~prot2) ||| enc2 t)

/-- The new status pair of a lock-mode update (R242). -/
def withLockBits (p0 p1 : Bool) (s1 s2 : Byte) : Byte × Byte :=
  ((s1 &&& ~~~(0x80 : Byte)) ||| bitAt 7 p0, (s2 &&& ~~~(0x01 : Byte)) ||| bitAt 0 p1)

/-- The tuple CLEAR_RANGE applies (R227). -/
def emptyTuple : RangeTuple := ⟨false, 0, false, false⟩

/-- Claim the bus, update the status registers, release it. -/
def applyUpdate (o : OpSet) (x : Context) (f : Byte → Byte → Byte × Byte) (k : Script) : Script :=
  claim <|
  updateSR o x.cfg.readyPollLimit f fun _ _ =>
  release k

/-- The live status pair, read in one claim span (R230, R231). -/
def liveStatus (o : OpSet) (k : Byte → Byte → Script) : Script :=
  claim <|
  readSR1 o fun s1 =>
  readSR2 o fun s2 =>
  release (k s1 s2)

/-- SET_RANGE (R226). -/
def setRangeScript (k : BitVec 8) (x : Context) : Script :=
  prologue .protection x fun d =>
  match preset k.toNat with
  | none   => .raise .invalidRegionOrRange
  | some t => applyUpdate d.op x (withTuple t) (.done 0)

/-- CLEAR_RANGE (R227). -/
def clearRangeScript (x : Context) : Script :=
  prologue .protection x fun d =>
  applyUpdate d.op x (withTuple emptyTuple) (.done 0)

/-- IS_LOCKED (R230). -/
def isLockedScript (x : Context) : Script :=
  prologue .protection x fun d =>
  liveStatus d.op fun s1 s2 =>
  .done (if nothingProtected (decTuple s1 s2) then 0 else 1)

/-- READ_PROTECTION (R231): `s1 | s2 << 8 | k << 16`. -/
def readProtectionScript (x : Context) : Script :=
  prologue .protection x fun d =>
  liveStatus d.op fun s1 s2 =>
  .done ((0 : BitVec 8) ++ BitVec.ofNat 8 (presetIndex (decTuple s1 s2)) ++ s2 ++ s1)

/-- SET_LOCK_MODE (R242): the range check comes before the confirmation (R355). -/
def setLockModeScript (mode : BitVec 8) (confirm : Bool) (x : Context) : Script :=
  prologue .protection x fun d =>
  match lockModeBits mode.toNat with
  | none => .raise .invalidRegionOrRange
  | some (p0, p1) =>
    require (!(mode == 5 && !confirm)) .permanentLockRequested <|
    applyUpdate d.op x (withLockBits p0 p1) (.done 0)

/-- `HwProbe()` (R250): true for "active". -/
def hwProbe (o : OpSet) (limit : Nat) (k : Bool → Script) : Script :=
  readSR1 o fun s1 =>
  readSR2 o fun s2 =>
  if s1.getLsbD 7 = false then k false
  else
    writeSR o limit (s1 &&& ~~~(0x80 : Byte)) s2 <|
    readSR1 o fun t1 =>
    if t1.getLsbD 7 = true then k true
    else
      writeSR o limit s1 s2 <|
      readSR1 o fun u1 =>
      require ((u1 &&& vmask1) == (s1 &&& vmask1)) .statusWriteVerifyFailed <|
      k false

/-- GET_LOCK_MODE (R245). -/
def getLockModeScript (x : Context) : Script :=
  prologue .protection x fun d =>
  claim <|
  readSR1 d.op fun s1 =>
  readSR2 d.op fun s2 =>
  if s2.getLsbD 0 = true then release (.done (if s1.getLsbD 7 then 5 else 4))
  else if s1.getLsbD 7 = false then release (.done 0)
  else
    hwProbe d.op x.cfg.readyPollLimit fun active =>
    release (.done (if active then 2 else 3))

/-- GET_HW_PROTECT (R250). -/
def getHwProtectScript (x : Context) : Script :=
  prologue .protection x fun d =>
  claim <|
  hwProbe d.op x.cfg.readyPollLimit fun active =>
  release (.done (if active then 1 else 0))

/-- LOCK (R228): SET_RANGE with k = 14. -/
def execLock (s : State) : Host.Outcome State Fault Refusal := runCommand (setRangeScript 14) s

/-- UNLOCK (R229): CLEAR_RANGE. -/
def execUnlock (s : State) : Host.Outcome State Fault Refusal := runCommand clearRangeScript s

/-- IS_LOCKED (R230). -/
def execIsLocked (s : State) : Host.Outcome State Fault Refusal := runCommand isLockedScript s

/-- SET_RANGE (R226). -/
def execSetRange (k : BitVec 8) (s : State) : Host.Outcome State Fault Refusal := runCommand (setRangeScript k) s

/-- CLEAR_RANGE (R227). -/
def execClearRange (s : State) : Host.Outcome State Fault Refusal := runCommand clearRangeScript s

/-- READ_PROTECTION (R231). -/
def execReadProtection (s : State) : Host.Outcome State Fault Refusal := runCommand readProtectionScript s

/-- SET_LOCK_MODE (R242). -/
def execSetLockMode (mode : BitVec 8) (confirm : Bool) (s : State) : Host.Outcome State Fault Refusal :=
  runCommand (setLockModeScript mode confirm) s

/-- GET_LOCK_MODE (R245). -/
def execGetLockMode (s : State) : Host.Outcome State Fault Refusal := runCommand getLockModeScript s

/-- GET_HW_PROTECT (R250). -/
def execGetHwProtect (s : State) : Host.Outcome State Fault Refusal := runCommand getHwProtectScript s

end Sys2Proof.Machine
end

