-- ==== Sys2Proof/Machine/Security.lean ====
section
/-! DEFINITION. The security-register commands: SEC_STATUS, SEC_READ, SEC_PROGRAM, SEC_ERASE, SEC_LOCK (R270 to
R280). -/

namespace Sys2Proof.Machine

/-- SEC_STATUS (R272): `(s2 >> 3) & 0x7`. -/
def secStatusScript (x : Context) : Script :=
  prologue .security x fun d =>
  claim <|
  readSR2 d.op fun s2 =>
  release <|
  .done ((s2.extractLsb' 3 3).zeroExtend 32)

/-- One chunk of SEC_READ (R273). -/
def secReadChunk (o : OpSet) (r off : Nat) (chunk : Nat × Nat) (k : Script) : Script :=
  claim <|
  xfer o.secRead (be24 (secAddr r (off + chunk.1)) ++ [0x00]) chunk.2 fun bs =>
  release <|
  memWrite chunk.1 bs <|
  commit (chunk.1 + chunk.2) k

/-- SEC_READ (R273). -/
def secReadScript (region : BitVec 8) (x : Context) : Script :=
  prologue .security x fun d =>
  secCheck region.toNat x <|
  each (slices x.len (maxIncoming x.cfg.gen 4)) (secReadChunk d.op region.toNat x.addr) <|
  .done 0

/-- `SecLockedCheck(r)` (R275). -/
def secLockedCheck (o : OpSet) (r : Nat) (k : Script) : Script :=
  readSR2 o fun s2 =>
  require (!s2.getLsbD (2 + r)) .regionLocked k

/-- WREN, SEC_ERASE of region r, ready poll (R276, R278). -/
def eraseRegion (o : OpSet) (limit r : Nat) (k : Script) : Script :=
  writeEnable o <|
  xfer o.secErase (be24 (secAddr r 0)) 0 fun _ =>
  pollReady o limit k

/-- SEC_ERASE (R276). -/
def secEraseScript (region : BitVec 8) (x : Context) : Script :=
  prologue .security x fun d =>
  secCheck region.toNat x <|
  claim <|
  secLockedCheck d.op region.toNat <|
  eraseRegion d.op x.cfg.readyPollLimit region.toNat <|
  release <|
  tally secRegionSize <|
  .done 0

/-- One chunk of SEC_PROGRAM, at region offset `chunk.1`, of a program that starts at `base` (R278). `MemRead` stands
where WRITE has it (log entry 22). -/
def secProgramChunk (o : OpSet) (limit r base : Nat) (chunk : Nat × Nat) (k : Script) : Script :=
  writeEnable o <|
  memRead (chunk.1 - base) chunk.2 fun bs =>
  xfer o.secProg (be24 (secAddr r chunk.1) ++ bs) 0 fun _ =>
  pollReady o limit <|
  commit (chunk.1 - base + chunk.2) k

/-- SEC_PROGRAM (R278). -/
def secProgramScript (region : BitVec 8) (x : Context) : Script :=
  prologue .security x fun d =>
  secCheck region.toNat x <|
  if x.len = 0 then .done 0
  else
    claim <|
    secLockedCheck d.op region.toNat <|
    eraseRegion d.op x.cfg.readyPollLimit region.toNat <|
    each (chunks x.addr x.len (min secRegionSize x.cfg.gen.pageLimit))
      (secProgramChunk d.op x.cfg.readyPollLimit region.toNat x.addr) <|
    release <|
    .done 0

/-- The new status pair of SEC_LOCK (R280): `(s1, s2 | 1 << (2 + r))`. -/
def withLockBit (r : Nat) (s1 s2 : Byte) : Byte × Byte := (s1, s2 ||| bitAt (2 + r) true)

/-- SEC_LOCK (R280): the region check comes before the confirmation (R355). -/
def secLockScript (region : BitVec 8) (confirm : Bool) (x : Context) : Script :=
  prologue .security x fun d =>
  require (decide (1 ≤ region.toNat ∧ region.toNat ≤ 3)) .invalidRegionOrRange <|
  require confirm .permanentLockRequested <|
  claim <|
  updateSR d.op x.cfg.readyPollLimit (withLockBit region.toNat) fun _ t2 =>
  require (t2.getLsbD (2 + region.toNat)) .statusWriteVerifyFailed <|
  release <|
  .done 0

/-- SEC_STATUS (R272). -/
def execSecStatus (s : State) : Host.Outcome State Fault Refusal := runCommand secStatusScript s

/-- SEC_READ (R273). -/
def execSecRead (region : BitVec 8) (s : State) : Host.Outcome State Fault Refusal :=
  runCommand (secReadScript region) s

/-- SEC_PROGRAM (R278). -/
def execSecProgram (region : BitVec 8) (s : State) : Host.Outcome State Fault Refusal :=
  runCommand (secProgramScript region) s

/-- SEC_ERASE (R276). -/
def execSecErase (region : BitVec 8) (s : State) : Host.Outcome State Fault Refusal :=
  runCommand (secEraseScript region) s

/-- SEC_LOCK (R280). -/
def execSecLock (region : BitVec 8) (confirm : Bool) (s : State) : Host.Outcome State Fault Refusal :=
  runCommand (secLockScript region confirm) s

end Sys2Proof.Machine
end

