-- ==== Sys2Proof/Machine/Transport.lean ====
section
/-! DEFINITION. TRANSFER, CLAIM, RELEASE (R160 to R165). -/

namespace Sys2Proof.Machine

/-- TRANSFER (R160). -/
def transferScript (op : BitVec 8) (x : Context) : Script :=
  require (decide (x.addr ≤ x.cfg.bufSize ∧ x.len ≤ x.cfg.bufSize)) .invalidRegionOrRange <|
  require (xferOk x.cfg.gen x.addr x.len) .transferTooLarge <|
  claim <|
  memRead 0 x.addr fun out =>
  xfer op out x.len fun bs =>
  release <|
  memWrite 0 bs <|
  tally x.len <|
  .done 0

/-- CLAIM (R163): the claim is the HOST's, so the release check of R356 does not see it. -/
def claimScript (_ : Context) : Script := .act .hostClaim (unlessFailed id fun x => .done (BitVec.ofNat 32 x.count))

/-- RELEASE (R165). -/
def releaseScript (_ : Context) : Script :=
  .act .hostRelease (unlessFailed id fun x => .done (BitVec.ofNat 32 x.count))

/-- TRANSFER (R160). -/
def execTransfer (op : BitVec 8) (s : State) : Host.Outcome State Fault Refusal :=
  runCommand (transferScript op) s

/-- CLAIM (R163). -/
def execClaim (s : State) : Host.Outcome State Fault Refusal := runCommand claimScript s

/-- RELEASE (R165). -/
def execRelease (s : State) : Host.Outcome State Fault Refusal := runCommand releaseScript s

end Sys2Proof.Machine
end

