-- ==== Sys2Proof/Machine/Advance.lean ====
section
/-! DEFINITION. A command one act at a time (R24, R405): what the command in flight does next from PHASE alone. The
transactions of its script are acts, in the order of the script. -/

namespace Sys2Proof.Machine

/-- The script of each command (R24). -/
def scriptOf : Instr → Context → Script
  | .probe           => probeScript
  | .read            => readScript
  | .write           => writeScript
  | .erase           => eraseScript
  | .lock            => setRangeScript 14
  | .unlock          => clearRangeScript
  | .isLocked        => isLockedScript
  | .setRange k      => setRangeScript k
  | .clearRange      => clearRangeScript
  | .readProtection  => readProtectionScript
  | .setLockMode m c => setLockModeScript m c
  | .getLockMode     => getLockModeScript
  | .getHwProtect    => getHwProtectScript
  | .secStatus       => secStatusScript
  | .secRead r       => secReadScript r
  | .secProgram r    => secProgramScript r
  | .secErase r      => secEraseScript r
  | .secLock r c     => secLockScript r c
  | .transfer op     => transferScript op
  | .claim           => claimScript
  | .release         => releaseScript

/-- The script of a latched command word (R24, R103). -/
def wordScript (w : Word) (x : Context) : Script :=
  match decode w with
  | .ok i    => scriptOf i x
  | .error _ => .raise .illegalCommand

/-- What is left of the script of the command in flight. -/
def Running.rest (r : Running) (s : State) : Script := (wordScript r.cmd (r.context s)).after r.heard

/-- The script has ended. -/
def Script.ended : Script → Bool
  | .done _  => true
  | .raise _ => true
  | .act _ _ => false

/-- The next thing SEQ does in a script: an act, or its end. -/
def Script.next (c : Script) (s : State) : Host.Outcome State Fault Refusal :=
  match c with
  | .done v  => .next (complete v s)
  | .raise e => .next (abort e s)
  | .act a _ => afterAct (perform a s) fun _ t => .next t

/-- The move that lands next, if one is due, and the state with that move taken from `during`. Before the end of a script
that did no act nothing lands, as in `landEnd`. -/
def State.due (s : State) (c : Script) : Option (Move × State) :=
  match s.during with
  | [] => none
  | (k, m) :: rest =>
    if k = s.acts then
      if c.ended && s.acts == 0 then none else some (m, { s with during := rest })
    else none

/-- What the command in flight `r` does next: a move that is due lands, or SEQ does its next act, or ends. -/
def proceed (r : Running) (s : State) : Host.Outcome State Fault Refusal :=
  match s.due (r.rest s) with
  | some (m, t) => andThen (landMove m t) .next
  | none        => (r.rest s).next s

/-- One step of a command in flight (R405). -/
def advance (s : State) : Host.Outcome State Fault Refusal :=
  match s.phase with
  | .idle      => .next s
  | .running r => proceed r s

/-- At most `n` such steps, until SEQ is `Idle`. -/
def advances : Nat → State → Host.Outcome State Fault Refusal
  | 0, s => .next s
  | n + 1, s =>
    match advance s with
    | .next t    => advances n t
    | .fault f   => .fault f
    | .refused r => .refused r

end Sys2Proof.Machine
end

