-- ==== Sys2Proof/Machine/Dispatch.lean ====
section
/-! DEFINITION. The dispatch of a decoded command to its meaning. -/

namespace Sys2Proof.Machine

def exec (i : Instr) (s : State) : Host.Outcome State Fault Refusal :=
  match i with
  | .probe => Sys2Proof.Machine.execProbe s
  | .read => Sys2Proof.Machine.execRead s
  | .write => Sys2Proof.Machine.execWrite s
  | .erase => Sys2Proof.Machine.execErase s
  | .lock => Sys2Proof.Machine.execLock s
  | .unlock => Sys2Proof.Machine.execUnlock s
  | .isLocked => Sys2Proof.Machine.execIsLocked s
  | .setRange k => Sys2Proof.Machine.execSetRange k s
  | .clearRange => Sys2Proof.Machine.execClearRange s
  | .readProtection => Sys2Proof.Machine.execReadProtection s
  | .setLockMode mode confirm => Sys2Proof.Machine.execSetLockMode mode confirm s
  | .getLockMode => Sys2Proof.Machine.execGetLockMode s
  | .getHwProtect => Sys2Proof.Machine.execGetHwProtect s
  | .secStatus => Sys2Proof.Machine.execSecStatus s
  | .secRead region => Sys2Proof.Machine.execSecRead region s
  | .secProgram region => Sys2Proof.Machine.execSecProgram region s
  | .secErase region => Sys2Proof.Machine.execSecErase region s
  | .secLock region confirm => Sys2Proof.Machine.execSecLock region confirm s
  | .transfer op => Sys2Proof.Machine.execTransfer op s
  | .claim => Sys2Proof.Machine.execClaim s
  | .release => Sys2Proof.Machine.execRelease s

end Sys2Proof.Machine
end

