-- ==== Sys2Proof/Machine/Step.lean ====
section
/-! DEFINITION. One step of the machine. SEQ fetches nothing (R24): it waits in `Idle`, and the next move of the
outside world is taken from `inbox`. A HOST write of CMD starts a command, which the step runs to its end, all its
transactions in order; what lands inside the command comes from `during`. From a state in which a command is in flight, a
step is one act of it (R405): `advance`. -/

namespace Sys2Proof.Machine

/-- A HOST write of CMD (R103): the word is stored, decoded, and its command runs, or it is illegal. -/
def startCommand (w : Word) (s : State) : Host.Outcome State Fault Refusal :=
  match decode w with
  | .ok i => exec i { s with cmd := w }
  | .error _ => .next (illegalCommand { s with cmd := w })

/-- The outcome of a move that starts no command. -/
def moveOutcome : Except Halt State → Host.Outcome State Fault Refusal
  | .ok t    => .next t
  | .error h => h.outcome

/-- The move is a HOST write of CMD that SEQ takes: it is `Idle` (R21). -/
def startsCommand (s : State) (m : Move) : Option Word :=
  match m with
  | .write32 a w => if cell32 s.cfg a = some .cmd ∧ s.phase = .idle then some w else none
  | _ => none

/-- One move of the outside world. -/
def takeMove (m : Move) (s : State) : Host.Outcome State Fault Refusal :=
  match startsCommand s m with
  | some w => startCommand w s
  | none   => moveOutcome (plainMove m s)

/-- SEQ is `Idle`: the next move of `inbox`; with none, SEQ waits (R380). DESIGN CHOICE (log entry 9). safe -/
def idleStep (s : State) : Host.Outcome State Fault Refusal :=
  match s.inbox with
  | [] => .next s
  | m :: rest => takeMove m { s with inbox := rest }

/-- One step. That a command started from `Idle` runs to its end in one step is a DESIGN CHOICE (log entry 1): it is the
steps of `advance`, one after the other. unsafe -/
def step (s : State) : Host.Outcome State Fault Refusal :=
  match s.phase with
  | .idle      => idleStep s
  | .running _ => advance s

/-- `s` with a HOST write of the command word `w` to CMD as the next move, SEQ being `Idle` as such a write needs
(R21). -/
def State.withFetchWord (s : State) (nbits w : Nat) : State :=
  { s with
    phase := .idle
    inbox := .write32 s.cfg.seqBase (BitVec.ofNat 32 (w % 2 ^ nbits)) :: s.inbox }

end Sys2Proof.Machine
end

