-- ==== Sys2Proof/Safety.lean ====
section
/-! DEFINITION. The terms claims use: the invariant of the machine, quiet environments, and what a command sees. -/

namespace Sys2Proof.Machine

/-- A feed gives only draws with a property. -/
def Feed.Always {α : Type} (f : Feed α) (p : α → Prop) : Prop :=
  (∀ x ∈ f.script, p x) ∧ ∃ x, f.steady = some x ∧ p x

/-- An environment in which commands run undisturbed: no move lands inside a command, the controller is in a known
state with its FIFO whole and the default read-back layout (R142), finishes each transaction in time and reports no error
(R143), the EC acknowledges and
sends no frames (R150, R89), the chip becomes ready in time (R312), and each chip-side draw has property `p`. The
assumptions common to the test vectors of file 95 are of this kind. -/
structure State.Quiet (s : State) (p : ChipDraw → Prop) : Prop where
  alone  : s.during = []
  known  : s.ctrl.unknown = false
  layout : ∀ nOut i, rxIndex s.cfg nOut i = rxDefault s.cfg.gen nOut i
  fifo   : s.ctrl.fifo.length = s.cfg.gen.fifoDepth
  ctrl   : s.env.ctrl.Always fun d => d.busyReads < s.cfg.xferPollLimit ∧ d.err = false
  ec     : s.env.ec.Always fun d => d.traffic = [] ∧ d.ack = true
  chip   : s.env.chip.Always fun d => d.busy < s.cfg.readyPollLimit ∧ p d

/-- The environment leaves the chip alone but for SEQ's own frames: no move lands inside a command, and the EC sends
no frames. Everything else (errors, timeouts, refusals) may happen. -/
structure State.Unshared (s : State) : Prop where
  alone : s.during = []
  ec    : s.env.ec.Always fun d => d.traffic = []

/-- The chip on the bus is the one a descriptor describes, the descriptor is well formed and names no difference from the
rules of the chip (R332), and the chip is not busy, with no program or erase in progress. -/
structure State.Attached (s : State) (d : Descriptor) : Prop where
  desc  : s.chip.desc = d
  wf    : d.wf s.cfg.gen
  plain : d.departs = none
  ready : s.chip.busyLeft = 0
  still : s.chip.inFlight = .none

/-- A claim can be taken (R150): the count is below `CLAIM_MAX`. -/
def State.CanClaim (s : State) : Prop := s.claimCount < s.cfg.claimMax

/-- What an in-flight program or erase targets lies in the chip. -/
def InFlight.inside (total : Nat) : InFlight → Prop
  | .none => True
  | .array base size off _ => base + size ≤ total ∧ off < size
  | .secreg base size off _ =>
    (base = secAddr 1 0 ∨ base = secAddr 2 0 ∨ base = secAddr 3 0) ∧ size = secRegionSize ∧ off < size

/-- The invariant of the chip: canonical stores inside their address spaces (R70), the bits that are not stored clear
(R47, R48), WEL set through a busy period (R312), nothing in flight outside one (R321), no locked region in flight
(R316, R317). -/
structure Chip.Inv (g : Gen) (c : Chip) : Prop where
  desc     : c.desc.wf g
  array    : c.array.wf .array
  inArray  : ∀ e ∈ c.array, e.1 < c.desc.totalSize
  secreg   : c.secreg.wf .secreg
  inSecreg : ∀ e ∈ c.secreg, ∃ r o, 1 ≤ r ∧ r ≤ 3 ∧ o < secRegionSize ∧ e.1 = secAddr r o
  busyBit  : c.sr1.getLsbD 0 = false
  reserved : c.sr2.getLsbD 2 = false
  suspend  : c.sr2.getLsbD 7 = false
  welBusy  : 0 < c.busyLeft → c.wel = true
  inFlight : c.busyLeft = 0 → c.inFlight = .none
  inside   : c.inFlight.inside c.desc.totalSize
  unlocked : ∀ r base size off count, c.inFlight = .secreg base size off count → base = secAddr r 0 → 1 ≤ r → r ≤ 3 →
    c.lockBit r = false

/-- An answer an act can have: as many bytes as it asked for. -/
def Act.admits : Act → Answer → Prop
  | .xfer _ _ n, .bytes bs  => bs.length = n
  | .memRead _ n, .bytes bs => bs.length = n
  | _, _                    => True

/-- The answers are those of a script's first acts. -/
def Script.heardOf : Script → List Answer → Prop
  | _, [] => True
  | .act a next, x :: xs => a.admits x ∧ (next x).heardOf xs
  | .done _, _ :: _ => False
  | .raise _, _ :: _ => False

/-- The invariant of the machine between two steps, with a command in flight or not: well-formed parameters, EC_OWNS
exactly at claim count 0 (R33), the count within `CLAIM_MAX` (R32), DESC from CHIP_TABLE (R30), RESULT a code of R110,
DBUF canonical and within BUF_SIZE (R26), the FIFO of depth F (R35), the answers a command in flight has heard those of
its script (R24), and the chip's invariant. -/
structure State.Inv (s : State) : Prop where
  cfg    : s.cfg.wf
  owns   : s.ecOwns = decide (s.claimCount = 0)
  count  : s.claimCount ≤ s.cfg.claimMax
  desc   : ∀ d, s.desc = some d → d ∈ s.cfg.winbond ++ s.cfg.adesto
  result : s.result.toNat ≤ 0x0C
  dbuf   : s.dbuf.wf .dbuf
  inDbuf : ∀ e ∈ s.dbuf, e.1 < s.cfg.bufSize
  fifo   : s.ctrl.fifo.length = s.cfg.gen.fifoDepth
  heard  : ∀ r, s.phase = .running r → (wordScript r.cmd (r.context s)).heardOf r.heard
  chip   : s.chip.Inv s.cfg.gen

/-- The DBUF bytes `0 .. n` are written (R26). -/
def State.Loaded (s : State) (n : Nat) : Prop := ∀ i < n, ∃ b, s.dbuf.lookup i = some b

/-- The DBUF byte at an index, for a written one. -/
def State.dbufAt (s : State) (i : Nat) : Byte := (s.dbuf.lookup i).getD 0

/-- The DBUF bytes `i .. i + n` as `MemRead` gives them (R15), for written ones. -/
def State.dbufSlice (s : State) (i n : Nat) : List Byte := (List.range n).map fun j => s.dbufAt (i + j)

/-- The frames SEQ put on the bus, in order. -/
def framesOf (tr : List Event) : List Frame :=
  tr.filterMap fun e => match e with
    | .frame f => some f
    | _ => none

/-! ### How a command ends -/

/-- A command ended with a code before it did anything: RESULT is written, DONE_COUNT and RDATA are 0, SEQ is `Idle`,
and nothing else changed (R103, R352, R355). -/
def State.rejected (s : State) (c : Code) : State :=
  { s with result := c.number, doneCount := 0, rdata := 0, phase := .idle }

/-- A command that started in `s` ended in `t` with code `c`, DONE_COUNT `n` and RDATA `v`, SEQ `Idle`, and its claims
balanced (R153, R356). -/
structure State.Ended (s t : State) (c : Code) (n : Nat) (v : Word) : Prop where
  result : t.result = c.number
  done   : t.doneCount = BitVec.ofNat 32 n
  rdata  : t.rdata = v
  idle   : t.phase = .idle
  count  : t.claimCount = s.claimCount
  owns   : s.ecOwns = decide (s.claimCount = 0) → t.ecOwns = s.ecOwns

/-- The codes each command can end with: the "commands" column of R351 with the mappings of R170 and R180. -/
def codesOf : Instr → List Code
  | .probe           => [.ok, .busClaimFailed, .noDevice, .unsupportedDevice]
  | .read            => [.ok, .noDevice, .invalidRegionOrRange, .busClaimFailed, .commandFailed, .timeout]
  | .write           => [.ok, .noDevice, .invalidRegionOrRange, .busClaimFailed, .commandFailed, .timeout]
  | .erase           => [.ok, .noDevice, .invalidRegionOrRange, .busClaimFailed, .commandFailed, .timeout]
  | .isLocked        => [.ok, .noDevice, .unsupportedDevice, .busClaimFailed, .statusReadFailed]
  | .readProtection  => [.ok, .noDevice, .unsupportedDevice, .busClaimFailed, .statusReadFailed]
  | .secStatus       => [.ok, .noDevice, .unsupportedDevice, .busClaimFailed, .statusReadFailed]
  | .lock            => [.ok, .noDevice, .unsupportedDevice, .busClaimFailed, .statusReadFailed, .commandFailed, .timeout,
                          .statusWriteVerifyFailed]
  | .unlock          => [.ok, .noDevice, .unsupportedDevice, .busClaimFailed, .statusReadFailed, .commandFailed, .timeout,
                          .statusWriteVerifyFailed]
  | .clearRange      => [.ok, .noDevice, .unsupportedDevice, .busClaimFailed, .statusReadFailed, .commandFailed, .timeout,
                          .statusWriteVerifyFailed]
  | .getLockMode     => [.ok, .noDevice, .unsupportedDevice, .busClaimFailed, .statusReadFailed, .commandFailed, .timeout,
                          .statusWriteVerifyFailed]
  | .getHwProtect    => [.ok, .noDevice, .unsupportedDevice, .busClaimFailed, .statusReadFailed, .commandFailed, .timeout,
                          .statusWriteVerifyFailed]
  | .setRange _      => [.ok, .noDevice, .unsupportedDevice, .invalidRegionOrRange, .busClaimFailed, .statusReadFailed,
                          .commandFailed, .timeout, .statusWriteVerifyFailed]
  | .setLockMode _ _ => [.ok, .noDevice, .unsupportedDevice, .invalidRegionOrRange, .permanentLockRequested,
                          .busClaimFailed, .statusReadFailed, .commandFailed, .timeout, .statusWriteVerifyFailed]
  | .secLock _ _     => [.ok, .noDevice, .unsupportedDevice, .invalidRegionOrRange, .permanentLockRequested,
                          .busClaimFailed, .statusReadFailed, .commandFailed, .timeout, .statusWriteVerifyFailed]
  | .secRead _       => [.ok, .noDevice, .unsupportedDevice, .invalidRegionOrRange, .busClaimFailed, .commandFailed,
                          .timeout]
  | .secProgram _    => [.ok, .noDevice, .unsupportedDevice, .invalidRegionOrRange, .busClaimFailed, .statusReadFailed,
                          .regionLocked, .commandFailed, .timeout]
  | .secErase _      => [.ok, .noDevice, .unsupportedDevice, .invalidRegionOrRange, .busClaimFailed, .statusReadFailed,
                          .regionLocked, .commandFailed, .timeout]
  | .transfer _      => [.ok, .invalidRegionOrRange, .transferTooLarge, .busClaimFailed, .commandFailed, .timeout]
  | .claim           => [.ok, .busClaimFailed]
  | .release         => [.ok, .illegalCommand]

/-- How many DBUF bytes, from byte 0 on, a command may send to the chip (R26). -/
def dbufSent (s : State) : Instr → Nat
  | .write           => s.len.toNat
  | .secProgram _    => s.len.toNat
  | .transfer _      => s.addr.toNat
  | .probe           => 0
  | .read            => 0
  | .erase           => 0
  | .lock            => 0
  | .unlock          => 0
  | .isLocked        => 0
  | .setRange _      => 0
  | .clearRange      => 0
  | .readProtection  => 0
  | .setLockMode _ _ => 0
  | .getLockMode     => 0
  | .getHwProtect    => 0
  | .secStatus       => 0
  | .secRead _       => 0
  | .secErase _      => 0
  | .secLock _ _     => 0
  | .claim           => 0
  | .release         => 0

/-- A command writes DBUF (R26). -/
def fillsDbuf : Instr → Bool
  | .read            => true
  | .secRead _       => true
  | .transfer _      => true
  | .probe           => false
  | .write           => false
  | .erase           => false
  | .lock            => false
  | .unlock          => false
  | .isLocked        => false
  | .setRange _      => false
  | .clearRange      => false
  | .readProtection  => false
  | .setLockMode _ _ => false
  | .getLockMode     => false
  | .getHwProtect    => false
  | .secStatus       => false
  | .secProgram _    => false
  | .secErase _      => false
  | .secLock _ _     => false
  | .claim           => false
  | .release         => false

/-- The sizes of a chunked command's chunks, in order (R185, R190, R201, R273, R278). -/
def chunkSizes (s : State) (d : Descriptor) : Instr → List Nat
  | .read         =>
    (slices s.len.toNat (maxIncoming s.cfg.gen (3 + (readForm s.cfg.readVariant d.op).2.length))).map (·.2)
  | .write        => (chunks s.addr.toNat s.len.toNat (effectivePage s.cfg.gen d)).map (·.2)
  | .erase        => (sectorsOf s.addr.toNat s.len.toNat d.sectorSize).map fun _ => d.sectorSize
  | .secRead _    => (slices s.len.toNat (maxIncoming s.cfg.gen 4)).map (·.2)
  | .secProgram _ => (chunks s.addr.toNat s.len.toNat (min secRegionSize s.cfg.gen.pageLimit)).map (·.2)
  | _             => []

/-- How many chunks of a command had started when it had sent the frames `fs`: a chunk of READ and SEC_READ is one frame,
a chunk of WRITE, ERASE and SEC_PROGRAM starts with a WREN, and SEC_PROGRAM sends one more WREN for its erase. -/
def chunksStarted (d : Descriptor) (fs : List Frame) : Instr → Nat
  | .read         => fs.length
  | .secRead _    => fs.length
  | .write        => fs.count ⟨d.op.wren, [], 0⟩
  | .erase        => fs.count ⟨d.op.wren, [], 0⟩
  | .secProgram _ => fs.count ⟨d.op.wren, [], 0⟩ - 1
  | _             => 0

/-- The bytes a command has committed, erased or read when it ends with code `c` after the frames `fs` (R23, R203, R352):
those of the chunks that are complete, which is every chunk started unless a step inside one failed; a command without
chunks has its count only if it ends Ok. A refused claim comes before the chunk's first frame. -/
def bytesDone (s : State) (c : Code) (fs : List Frame) (i : Instr) : Nat :=
  match i, s.desc with
  | .secErase _, _ => if c = .ok then secRegionSize else 0
  | .transfer _, _ => if c = .ok then s.len.toNat else 0
  | _, none        => 0
  | _, some d      =>
    let n := chunksStarted d fs i
    ((chunkSizes s d i).take (if c = .ok ∨ c = .busClaimFailed then n else n - 1)).sum

/-! ### What a chip keeps -/

/-- Everything in a chip that a status read does not change is the same: geometry, both stores, the writable status
bits (R80). BUSY, WEL, the busy count and the WP level may differ. -/
structure Chip.SameData (c c' : Chip) : Prop where
  desc   : c'.desc = c.desc
  mfr    : c'.mfr = c.mfr
  array  : c'.array = c.array
  secreg : c'.secreg = c.secreg
  sr1    : c'.sr1 &&& 0xFC = c.sr1 &&& 0xFC
  sr2    : c'.sr2 = c.sr2

/-- The value of a status-update command's new pair, as its rule's function of the pair read (R226 to R229, R242,
R280). -/
def statusUpdate : Instr → Option (Byte → Byte → Byte × Byte)
  | .lock            => (preset 14).map withTuple
  | .unlock          => some (withTuple emptyTuple)
  | .clearRange      => some (withTuple emptyTuple)
  | .setRange k      => (preset k.toNat).map withTuple
  | .setLockMode m _ => (lockModeBits m.toNat).map fun b => withLockBits b.1 b.2
  | .secLock r _     => some (withLockBit r.toNat)
  | .probe           => none
  | .read            => none
  | .write           => none
  | .erase           => none
  | .isLocked        => none
  | .readProtection  => none
  | .getLockMode     => none
  | .getHwProtect    => none
  | .secStatus       => none
  | .secRead _       => none
  | .secProgram _    => none
  | .secErase _      => none
  | .transfer _      => none
  | .claim           => none
  | .release         => none

/-! ### Host accesses -/

/-- What a 32-bit HOST read at a register offset returns (R20 to R23). -/
inductive RegisterValue (s : State) : Nat → Word → Prop
  | cmd : RegisterValue s 0x00 s.cmd
  | addr : RegisterValue s 0x04 s.addr
  | len : RegisterValue s 0x08 s.len
  | status : RegisterValue s 0x0C s.status
  | result : RegisterValue s 0x10 s.result
  | doneCount : RegisterValue s 0x14 s.doneCount
  | rdata : RegisterValue s 0x18 s.rdata
  | jedecId : RegisterValue s 0x1C s.jedecId
  | reserved (off : Nat) : off % 4 = 0 → 0x20 ≤ off → off < 0x1000 → RegisterValue s off 0

/-- The accesses of this block (R76): aligned 32-bit ones of a register or of four DBUF bytes, byte ones of a DBUF byte.
That the offset is what is aligned, and that a word running past the end of DBUF is none of them, is the model's (log
entries 19 and 27). safe -/
def SpellsAccess (c : Config) : Move → Prop
  | .read32 a => c.seqBase ≤ a ∧ (a - c.seqBase) % 4 = 0 ∧ a + 4 ≤ c.seqBase + 0x1000 + c.bufSize
  | .write32 a _ => c.seqBase ≤ a ∧ (a - c.seqBase) % 4 = 0 ∧ a + 4 ≤ c.seqBase + 0x1000 + c.bufSize
  | .read8 a => c.seqBase + 0x1000 ≤ a ∧ a < c.seqBase + 0x1000 + c.bufSize
  | .write8 a _ => c.seqBase + 0x1000 ≤ a ∧ a < c.seqBase + 0x1000 + c.bufSize
  | .badWidth _ _ => False
  | .seqReset => True
  | .powerCycle => True
  | .ecFrame _ => True

/-- The address of a HOST access. -/
def Move.address : Move → Nat
  | .read32 a => a
  | .write32 a _ => a
  | .read8 a => a
  | .write8 a _ => a
  | .badWidth _ a => a
  | .seqReset => 0
  | .powerCycle => 0
  | .ecFrame _ => 0

/-! ### What lands next -/

/-- `m` is the next move of the outside world that the machine takes in `s`, and `u` is `s` without it: the head of
`inbox` while SEQ waits; or, inside a command, the head of `during` when as many acts are done as it says (R381). Before
the end of a command that did no act nothing lands (log entry 1). -/
inductive State.NextMove (s : State) (m : Move) : State → Prop
  | waiting (rest : List Move) : s.phase = .idle → s.inbox = m :: rest → NextMove s m { s with inbox := rest }
  | inside (r : Running) (rest : List (Nat × Move)) : s.phase = .running r →
      (r.heard ≠ [] ∨ (r.rest s).ended = false) → s.during = (r.heard.length, m) :: rest →
      NextMove s m { s with during := rest }

/-- Every SEQ register at its reset value, and CTRL's control bits and its unknown mark clear (R52, R380). -/
structure State.AtReset (t : State) : Prop where
  phase      : t.phase = .idle
  cmd        : t.cmd = 0
  addr       : t.addr = 0
  len        : t.len = 0
  result     : t.result = 0
  doneCount  : t.doneCount = 0
  rdata      : t.rdata = 0
  jedecId    : t.jedecId = 0
  desc       : t.desc = none
  claimCount : t.claimCount = 0
  ecOwns     : t.ecOwns = true
  dbuf       : ∀ i, t.dbuf.lookup i = none
  unknown    : t.ctrl.unknown = false
  start      : t.ctrl.start = false
  busy       : t.ctrl.busy = false
  err        : t.ctrl.err = false

/-! ### The frames a command's script may issue -/

/-- A status read (R170, R171). -/
def IsStatusRead (o : OpSet) (f : Frame) : Prop := f = ⟨o.rdsr1, [], 1⟩ ∨ f = ⟨o.rdsr2, [], 1⟩

/-- What command `i` writes to the status registers after it read the pair `(s1, s2)`: its rule's new pair (R225 to R229,
R242, R280); the probe of the WP pin, which runs only with SRP0 set, the pair with SRP0 clear and then the pair as read
(R250, R245). -/
def WritesPair (i : Instr) (s1 s2 a b : Byte) : Prop :=
  (∃ f, statusUpdate i = some f ∧ (a, b) = f s1 s2) ∨
    ((i = .getLockMode ∨ i = .getHwProtect) ∧ s1.getLsbD 7 = true ∧ b = s2 ∧ (a = s1 &&& 0x7F ∨ a = s1))

/-- `(a, b)` is what command `i` writes for a status pair whose two reads are consecutive answers in `heard`. -/
def WritesWhatItRead (i : Instr) (heard : List Answer) (a b : Byte) : Prop :=
  ∃ before x y later, heard = before ++ x :: y :: later ∧ WritesPair i (firstByte x.data) (firstByte y.data) a b

/-- A frame of a status update of command `i`: a status read, WREN, or a WRSR of two bytes that are its rule's for some
pair read (R174, R225, R250). -/
def IsStatusUpdate (o : OpSet) (i : Instr) (f : Frame) : Prop :=
  IsStatusRead o f ∨ f = ⟨o.wren, [], 0⟩ ∨ ∃ s1 s2 a b, WritesPair i s1 s2 a b ∧ f = ⟨o.wrsr, [a, b], 0⟩

/-- A WREN or a ready poll (R172, R173). -/
def IsWrapping (o : OpSet) (f : Frame) : Prop := f = ⟨o.wren, [], 0⟩ ∨ f = ⟨o.rdsr1, [], 1⟩

/-- The frames the script of a command with the bound descriptor `d` may issue from `s`, each command rule's frames, with
the DBUF bytes `s` holds (R180 to R280). -/
def ScriptFrame (s : State) (d : Descriptor) (i : Instr) (f : Frame) : Prop :=
  match i with
  | .read =>
    let form := readForm s.cfg.readVariant d.op
    ∃ ch ∈ slices s.len.toNat (maxIncoming s.cfg.gen (3 + form.2.length)),
      f = ⟨form.1, be24 (s.addr.toNat + ch.1) ++ form.2, ch.2⟩
  | .write =>
    IsWrapping d.op f ∨ ∃ ch ∈ chunks s.addr.toNat s.len.toNat (effectivePage s.cfg.gen d),
      f = ⟨d.op.pp, be24 ch.1 ++ s.dbufSlice (ch.1 - s.addr.toNat) ch.2, 0⟩
  | .erase =>
    IsWrapping d.op f ∨ ∃ a ∈ sectorsOf s.addr.toNat s.len.toNat d.sectorSize, f = ⟨d.op.se, be24 a, 0⟩
  | .lock            => IsStatusUpdate d.op i f
  | .unlock          => IsStatusUpdate d.op i f
  | .setRange _      => IsStatusUpdate d.op i f
  | .clearRange      => IsStatusUpdate d.op i f
  | .setLockMode _ _ => IsStatusUpdate d.op i f
  | .getLockMode     => IsStatusUpdate d.op i f
  | .getHwProtect    => IsStatusUpdate d.op i f
  | .secLock _ _     => IsStatusUpdate d.op i f
  | .isLocked        => IsStatusRead d.op f
  | .readProtection  => IsStatusRead d.op f
  | .secStatus       => f = ⟨d.op.rdsr2, [], 1⟩
  | .secRead r =>
    ∃ ch ∈ slices s.len.toNat (maxIncoming s.cfg.gen 4),
      f = ⟨d.op.secRead, be24 (secAddr r.toNat (s.addr.toNat + ch.1)) ++ [0x00], ch.2⟩
  | .secErase r =>
    IsWrapping d.op f ∨ f = ⟨d.op.rdsr2, [], 1⟩ ∨ f = ⟨d.op.secErase, be24 (secAddr r.toNat 0), 0⟩
  | .secProgram r =>
    IsWrapping d.op f ∨ f = ⟨d.op.rdsr2, [], 1⟩ ∨ f = ⟨d.op.secErase, be24 (secAddr r.toNat 0), 0⟩ ∨
      ∃ ch ∈ chunks s.addr.toNat s.len.toNat (min secRegionSize s.cfg.gen.pageLimit),
        f = ⟨d.op.secProg, be24 (secAddr r.toNat ch.1) ++ s.dbufSlice (ch.1 - s.addr.toNat) ch.2, 0⟩
  | .probe       => f = ⟨s.cfg.genericRdid, [], 3⟩
  | .transfer op => f = ⟨op, s.dbufSlice 0 s.addr.toNat, s.len.toNat⟩
  | .claim       => False
  | .release     => False

/-- The frames command `i` may issue from `s`: those of its script, with the bound descriptor; PROBE and TRANSFER need
none (R175, R160). -/
def MayIssue (s : State) (i : Instr) (f : Frame) : Prop :=
  match i with
  | .probe       => ScriptFrame s w25q128 i f
  | .transfer _  => ScriptFrame s w25q128 i f
  | _            => ∃ d, s.desc = some d ∧ ScriptFrame s d i f

end Sys2Proof.Machine
end

