-- ==== Sys2Proof/Certificates/Slice0/Obligations.lean ====
section
/-! DEFINITION. The statements for the provers. Each says what a numbered rule of the spec says the machine does, or a
property of the whole machine that the rules promise. -/

section

open Sys2Proof Sys2Proof.Machine

/-! ### Encoding -/

/-- A word decodes to a command exactly when it is that command's word (R100 to R103): decode of encode drops no bit, and
each command has one word. -/
def Obligations.DecodeAndEncodeAgree : Prop := ∀ (w : Word) (i : Instr), decode w = .ok i ↔ encode i = w

/-- A word selects a row of the command table exactly when `CMD & mask = match` (R101). -/
def Obligations.WordSelectsRow : Prop :=
  ∀ (w : Word) (i : Instr), w &&& i.tableMask = i.tableMatch ↔ ∃ j, decode w = .ok j ∧ j.code = i.code

/-- Command words of file 95, written out from R100 and R102. -/
def Obligations.WrittenOutWords : Prop :=
  decode 0x00000001 = .ok .probe ∧ decode 0x00000002 = .ok .read ∧ decode 0x00000003 = .ok .write ∧
  decode 0x00001708 = .ok (.setRange 23) ∧ decode 0x0001050B = .ok (.setLockMode 5 true) ∧
  decode 0x0000020F = .ok (.secRead 2) ∧ decode 0x00010212 = .ok (.secLock 2 true) ∧
  decode 0x00009F13 = .ok (.transfer 0x9F) ∧ decode 0x00000015 = .ok .release ∧
  decode 0x00000000 = .error .unknownOp ∧ decode 0x00000016 = .error .unknownOp ∧
  decode 0x00000101 = .error .reservedBits ∧ decode 0x00020012 = .error .reservedBits ∧
  decode 0x00010005 = .error .reservedBits

/-- A word that is no command's word ends IllegalCommand and changes nothing but RESULT, DONE_COUNT and RDATA; CMD holds
the word written (R103, R125, R21). -/
def Obligations.IllegalWordChangesNothing : Prop :=
  ∀ (s : State) (w : Word), s.phase = .idle → (∀ i, encode i ≠ w) →
    startCommand w s = .next { s with cmd := w, result := 0x0C, doneCount := 0, rdata := 0 }

/-! ### A step, and the host's accesses -/

/-- A HOST write of CMD while SEQ is `Idle` starts the command the word decodes to (R24, R103); with no move of the
outside world SEQ waits (R380). That this one step is `exec`, the whole command, is the model's choice (log entry 1,
DESIGN CHOICE, unsafe): by R24 and R405 the write makes PHASE `Running(cmd, 0)` and the transactions are the steps. -/
def Obligations.StepRunsDecodedCommand : Prop :=
  ∀ (s : State), s.phase = .idle → (s.inbox = [] → step s = .next s) ∧
    ∀ (w : Word) (i : Instr) (rest : List Move), s.inbox = .write32 s.cfg.seqBase w :: rest →
      decode w = .ok i → step s = exec i { s with inbox := rest, cmd := w }

/-- The fields of STATUS (R22), and their values at reset. -/
def Obligations.StatusFields : Prop :=
  (∀ s : State, s.claimCount ≤ 255 →
    s.status.getLsbD 0 = decide (s.phase ≠ .idle) ∧ s.status.getLsbD 1 = s.desc.isSome ∧
    s.status.getLsbD 2 = decide (s.cfg.gen = .yangtzee) ∧ s.status.getLsbD 3 = decide (s.cfg.readVariant = .fast) ∧
    s.status.getLsbD 4 = s.ecOwns ∧ (s.status.extractLsb' 5 3).toNat = 0 ∧
    (s.status.extractLsb' 8 8).toNat = s.claimCount ∧ (s.status.extractLsb' 16 16).toNat = 0) ∧
  ∀ s : State, (seqReset s).status.getLsbD 0 = false ∧ (seqReset s).status.getLsbD 1 = false ∧
    (seqReset s).status.getLsbD 4 = true ∧ ((seqReset s).status.extractLsb' 8 8).toNat = 0

/-- HOST accesses of the registers, between commands and inside one (R20, R21, R80, R392). A read returns the register's
value, in any phase, and changes nothing else; a write of a read-only register or of the reserved range changes nothing;
while SEQ is `Idle` ADDR and LEN hold the value written; a write of CMD, ADDR, LEN or DBUF while BUSY = 1, from the
start of a command to its end, is no move of the model. -/
def Obligations.HostAccessesRegisters : Prop :=
  ∀ (s : State) (off : Nat) (v : Word) (b : Byte),
    (∀ u, s.NextMove (.read32 (s.cfg.seqBase + off)) u → RegisterValue s off v →
      step s = .next { u with hostData := v }) ∧
    (∀ u, s.NextMove (.write32 (s.cfg.seqBase + off) v) u →
      (off % 4 = 0 → 0x0C ≤ off → off < 0x1000 → step s = .next u) ∧
      (s.phase = .idle → off = 0x04 → step s = .next { u with addr := v }) ∧
      (s.phase = .idle → off = 0x08 → step s = .next { u with len := v }) ∧
      (s.phase ≠ .idle → off % 4 = 0 → (off ≤ 0x08 ∨ (0x1000 ≤ off ∧ off + 4 ≤ 0x1000 + s.cfg.bufSize)) →
        step s = .refused (.hostWriteWhileBusy (s.cfg.seqBase + off)))) ∧
    (∀ u, s.NextMove (.write8 (s.cfg.seqBase + off) b) u → s.phase ≠ .idle → 0x1000 ≤ off →
      off < 0x1000 + s.cfg.bufSize → step s = .refused (.hostWriteWhileBusy (s.cfg.seqBase + off))) ∧
    ∀ (i : Instr) (rest : List (Nat × Move)), (scriptOf i (s.latched.context s)).ended = false →
      (s.during = (0, .write32 (s.cfg.seqBase + off) v) :: rest → off % 4 = 0 →
        (off ≤ 0x08 ∨ (0x1000 ≤ off ∧ off + 4 ≤ 0x1000 + s.cfg.bufSize)) →
        exec i s = .refused (.hostWriteWhileBusy (s.cfg.seqBase + off))) ∧
      (s.during = (0, .write8 (s.cfg.seqBase + off) b) :: rest → 0x1000 ≤ off → off < 0x1000 + s.cfg.bufSize →
        exec i s = .refused (.hostWriteWhileBusy (s.cfg.seqBase + off)))

/-- HOST accesses of DBUF (R71d, R76): a 32-bit access at offset i moves `DBUF[i]` as bits 7:0 up to `DBUF[i+3]` as bits
31:24, a byte access one byte; each write stores those bytes and no other, and the same read then returns the value. -/
def Obligations.HostAccessesDbuf : Prop :=
  ∀ (s : State) (rest : List Move) (i : Nat), s.phase = .idle →
    (∀ w : Word, i % 4 = 0 → i + 4 ≤ s.cfg.bufSize →
      s.inbox = .write32 (s.cfg.seqBase + 0x1000 + i) w :: .read32 (s.cfg.seqBase + 0x1000 + i) :: rest →
      ∃ t, step s = .next t ∧
        (∀ j, t.dbuf.lookup j =
          if i ≤ j ∧ j < i + 4 then some (w.extractLsb' (8 * (j - i)) 8) else s.dbuf.lookup j) ∧
        step t = .next { t with inbox := rest, hostData := w }) ∧
    (∀ b : Byte, i < s.cfg.bufSize →
      s.inbox = .write8 (s.cfg.seqBase + 0x1000 + i) b :: .read8 (s.cfg.seqBase + 0x1000 + i) :: rest →
      ∃ t, step s = .next t ∧ (∀ j, t.dbuf.lookup j = if j = i then some b else s.dbuf.lookup j) ∧
        step t = .next { t with inbox := rest, hostData := b.zeroExtend 32 })

/-- An access that spells none of this block is refused, between commands and inside one (R76). What R76 says of width and
alignment is read of the offset from SEQ_BASE, which is the model's reading (log entry 19). That a 32-bit access whose word
runs past the end of DBUF is one of them is the model's choice (log entry 27, DESIGN CHOICE), and an address outside the
block is refused too. A frame of the EC is refused while the EC does not own the bus, that is while a claim is held (R79c,
R89); while it owns it, the frame reaches the chip, which answers it as any frame, and changes nothing else. -/
def Obligations.OtherAccessesAreRefused : Prop :=
  (∀ (s u : State) (m : Move), s.NextMove m u → ¬ SpellsAccess s.cfg m → step s = .refused (.noSuchAccess m.address)) ∧
  ∀ (s u : State) (f : Frame), s.NextMove (.ecFrame f) u →
    (s.ecOwns = false → step s = .refused .ecWithoutBus) ∧
    (s.ecOwns = true → step s = .next { u with
      env := s.env.drawChip.2
      chip := (s.chip.answer s.env.drawChip.1 f).2
      trace := s.trace ++ [.ecFrame f] })

/-! ### Reset -/

/-- An unwritten DBUF byte (R26, U1): a HOST read of it, and a command that sends it to the chip, TRANSFER, WRITE or
SEC_PROGRAM, is a fault of the model. That the fault names the first unwritten byte, and that WRITE and SEC_PROGRAM come
to it only after the chunks before it, is the model's (log entry 22). -/
def Obligations.UnwrittenDbufFaults : Prop :=
  ∀ (s : State) (i k : Nat), s.dbuf.lookup (i + k) = none → (∀ j < k, s.dbuf.lookup (i + j) ≠ none) →
    (∀ u, s.NextMove (.read8 (s.cfg.seqBase + 0x1000 + i)) u → k = 0 → i < s.cfg.bufSize →
      step s = .fault (.dbufUnwritten i)) ∧
    (∀ u, s.NextMove (.read32 (s.cfg.seqBase + 0x1000 + i)) u → k < 4 → i % 4 = 0 → i + 4 ≤ s.cfg.bufSize →
      step s = .fault (.dbufUnwritten (i + k))) ∧
    (i = 0 → s.during = [] → s.env.ec.Always (fun d => d.ack = true) → s.CanClaim → s.addr.toNat ≤ s.cfg.bufSize →
      s.len.toNat ≤ s.cfg.bufSize → xferOk s.cfg.gen s.addr.toNat s.len.toNat = true → k < s.addr.toNat →
      ∀ op, exec (.transfer op) s = .fault (.dbufUnwritten k)) ∧
    ∀ d : Descriptor, i = 0 → k < s.len.toNat → s.Quiet (fun _ => True) → s.CanClaim → s.desc = some d →
      s.Attached d →
      (s.addr.toNat < d.totalSize → s.addr.toNat + s.len.toNat ≤ d.totalSize → s.len.toNat ≤ s.cfg.bufSize →
        exec .write s = .fault (.dbufUnwritten k)) ∧
      ∀ r : BitVec 8, d.hasSec = true → r ≠ 0 → r.toNat ≤ 3 → s.addr.toNat + s.len.toNat ≤ 256 →
        s.chip.lockBit r.toNat = false → exec (.secProgram r) s = .fault (.dbufUnwritten k)

/-- SEQ reset, between commands and inside one (R380, R381, U20): every SEQ register at its reset value, CTRL's three
control bits and its unknown mark clear, CHIP and the parameters untouched, no event sent; then SEQ waits. A command it
lands in is dropped, without its RESULT. Of the other CTRL registers it says nothing, as the rule does. -/
def Obligations.SeqResetSequence : Prop :=
  (∀ s u : State, s.NextMove .seqReset u → ∃ t, step s = .next t ∧ t.AtReset ∧ t.chip = s.chip ∧ t.cfg = s.cfg ∧
    t.trace = s.trace ∧ t.inbox = u.inbox ∧ t.during = u.during ∧
    step { t with inbox := [] } = .next { t with inbox := [] }) ∧
  ∀ (i : Instr) (s t : State) (k : Nat), s.during = [(k, .seqReset)] → exec i s = .next t → t.during = [] →
    t.AtReset ∧ t.cfg = s.cfg ∧ t.inbox = s.inbox

/-- A board power cycle, between commands and inside one (R321, R381): SEQ resets; the lock-down, WEL, SUS and the busy
period are cleared; every status bit else and every byte a program or erase in progress does not target keeps its value.
Which bytes an operation in progress targets, and that the status bits survive, is the model's reading of R321 (log entry
23). Of a part that may behave differently (R332) it says that SEQ resets and that the part stays the part it is. -/
def Obligations.PowerCycleKeepsTheRest : Prop :=
  ∀ s u : State, s.NextMove .powerCycle u → ∃ t, step s = .next t ∧ t.AtReset ∧
    t.chip.desc = s.chip.desc ∧ t.chip.mfr = s.chip.mfr ∧
    (s.chip.desc.departs = none →
      t.chip.busyLeft = 0 ∧ t.chip.inFlight = .none ∧ t.chip.sr1 &&& 0xFC = s.chip.sr1 &&& 0xFC ∧ t.chip.wel = false ∧
      t.chip.sr2 &&& 0x7E = s.chip.sr2 &&& 0x7E ∧ t.chip.sr2.getLsbD 7 = false ∧
      t.chip.srp1 = (s.chip.srp1 && s.chip.srp0) ∧
      (∀ a, s.chip.inFlight.hitsArray a = false → t.chip.array.byte a = s.chip.array.byte a) ∧
      (∀ a, s.chip.inFlight.hitsSecreg a = false → t.chip.secreg.byte a = s.chip.secreg.byte a))

/-! ### Transfer, claim, release -/

/-- TRANSFER in a quiet environment (R160): one frame of the opcode, `ADDR` bytes of DBUF and `LEN` incoming bytes goes to
the chip, whose answer lands in `DBUF[0 .. LEN)`, and nothing else of DBUF changes. -/
def Obligations.TransferCompletes : Prop :=
  ∀ (s : State) (op : BitVec 8), s.Quiet (fun _ => True) → s.CanClaim → s.addr.toNat ≤ s.cfg.bufSize →
    s.len.toNat ≤ s.cfg.bufSize → xferOk s.cfg.gen s.addr.toNat s.len.toNat = true → s.Loaded s.addr.toNat →
    ∃ d t, exec (.transfer op) s = .next t ∧ s.Ended t .ok s.len.toNat 0 ∧
      t.chip = (s.chip.answer d ⟨op, s.dbufSlice 0 s.addr.toNat, s.len.toNat⟩).2 ∧
      (∀ k, t.dbuf.lookup k =
        if k < s.len.toNat then
          (s.chip.answer d ⟨op, s.dbufSlice 0 s.addr.toNat, s.len.toNat⟩).1[k]?
        else s.dbuf.lookup k) ∧
      framesOf t.trace = framesOf s.trace ++ [⟨op, s.dbufSlice 0 s.addr.toNat, s.len.toNat⟩]

/-- TRANSFER's checks, in their order, with no claim and no transaction (R160, R355). -/
def Obligations.TransferChecksSizes : Prop :=
  ∀ (s : State) (op : BitVec 8),
    (s.cfg.bufSize < s.addr.toNat ∨ s.cfg.bufSize < s.len.toNat →
      exec (.transfer op) s = .next (s.rejected .invalidRegionOrRange)) ∧
    (s.addr.toNat ≤ s.cfg.bufSize → s.len.toNat ≤ s.cfg.bufSize →
      xferOk s.cfg.gen s.addr.toNat s.len.toNat = false →
      exec (.transfer op) s = .next (s.rejected .transferTooLarge))

/-- When the controller does not finish within `XFER_POLL_LIMIT` reads TRANSFER ends Timeout and CTRL_UNKNOWN is set; when
it reports an error TRANSFER ends CommandFailed; DBUF is unchanged, the claim is released (R141, R143, R160). While
CTRL_UNKNOWN is set and the controller finishes without an error, TRANSFER returns draw bytes, whatever the chip and the
read-back layout are (R144). -/
def Obligations.TransferReportsTheController : Prop :=
  ∀ (s : State) (op : BitVec 8), s.during = [] → s.env.ec.Always (fun d => d.ack = true) → s.CanClaim →
    s.addr.toNat ≤ s.cfg.bufSize → s.len.toNat ≤ s.cfg.bufSize →
    xferOk s.cfg.gen s.addr.toNat s.len.toNat = true → s.Loaded s.addr.toNat →
    (s.env.ctrl.Always (fun d => s.cfg.xferPollLimit ≤ d.busyReads) →
      ∃ t, exec (.transfer op) s = .next t ∧ s.Ended t .timeout 0 0 ∧ t.ctrl.unknown = true ∧ t.dbuf = s.dbuf) ∧
    (s.env.ctrl.Always (fun d => d.busyReads < s.cfg.xferPollLimit ∧ d.err = true) →
      ∃ t, exec (.transfer op) s = .next t ∧ s.Ended t .commandFailed 0 0 ∧ t.ctrl.unknown = s.ctrl.unknown ∧
        t.dbuf = s.dbuf) ∧
    (s.ctrl.unknown = true → s.env.ctrl.Always (fun d => d.busyReads < s.cfg.xferPollLimit ∧ d.err = false) →
      ∃ t, exec (.transfer op) s = .next t ∧ s.Ended t .ok s.len.toNat 0 ∧ t.ctrl.unknown = true ∧
        ∀ k, t.dbuf.lookup k =
          if k < s.len.toNat then some (noiseByte s.env.drawCtrl.1.noise k) else s.dbuf.lookup k)

/-- CTRL_UNKNOWN is sticky (R144): once set, no command clears it. -/
def Obligations.ControllerUnknownIsSticky : Prop :=
  ∀ (i : Instr) (s t : State), s.during = [] → s.ctrl.unknown = true → exec i s = .next t → t.ctrl.unknown = true

/-- CLAIM (R150, R163): at a count above 0 it adds a claim; at 0 it sends YIELD and, when the EC acknowledges, takes the
bus; when the EC refuses, or at `CLAIM_MAX`, it fails with the count and EC_OWNS as they were. -/
def Obligations.ClaimCommand : Prop :=
  ∀ s : State, s.during = [] →
    (s.claimCount = s.cfg.claimMax → exec .claim s = .next (s.rejected .busClaimFailed)) ∧
    (s.claimCount ≠ s.cfg.claimMax → s.claimCount ≠ 0 → exec .claim s = .next { s with
      claimCount := s.claimCount + 1, result := 0, doneCount := 0, rdata := BitVec.ofNat 32 (s.claimCount + 1),
      phase := .idle }) ∧
    (s.claimCount ≠ s.cfg.claimMax → s.claimCount = 0 → s.env.ec.Always (fun d => d.ack = true) →
      ∃ t, exec .claim s = .next t ∧ t.claimCount = 1 ∧ t.ecOwns = false ∧ t.result = 0 ∧ t.doneCount = 0 ∧
        t.rdata = 1 ∧ t.phase = .idle ∧ t.trace.getLast? = some .yield) ∧
    (s.claimCount ≠ s.cfg.claimMax → s.claimCount = 0 → s.env.ec.Always (fun d => d.ack = false) →
      ∃ t, exec .claim s = .next t ∧ s.Ended t .busClaimFailed 0 0 ∧ t.ecOwns = s.ecOwns ∧
        t.trace.getLast? = some .yield)

/-- RELEASE (R151, R165): the last one sends RECLAIM and the EC owns the bus; at count 0 it ends IllegalCommand with no
change but RESULT, DONE_COUNT and RDATA. -/
def Obligations.ReleaseCommand : Prop :=
  encode .release = 0x00000015 ∧ ∀ s : State, s.during = [] →
    (s.claimCount = 0 → exec .release s = .next (s.rejected .illegalCommand)) ∧
    (s.claimCount = 1 → exec .release s = .next { s with
      claimCount := 0, ecOwns := true, trace := s.trace ++ [.reclaim], result := 0, doneCount := 0, rdata := 0,
      phase := .idle }) ∧
    (2 ≤ s.claimCount → exec .release s = .next { s with
      claimCount := s.claimCount - 1, result := 0, doneCount := 0, rdata := BitVec.ofNat 32 (s.claimCount - 1),
      phase := .idle })

/-- Claim balance (R153): every command but CLAIM and RELEASE leaves the claim count as it was, on every path; CLAIM adds
one and RELEASE takes one exactly when they end Ok. -/
def Obligations.ClaimsAreBalanced : Prop :=
  ∀ (i : Instr) (s t : State), (∀ m ∈ s.during, m.2.isReset = false) → exec i s = .next t →
    (i ≠ .claim → i ≠ .release → t.claimCount = s.claimCount) ∧
    (i = .claim → t.claimCount = if t.result = 0 then s.claimCount + 1 else s.claimCount) ∧
    (i = .release → t.claimCount = if t.result = 0 then s.claimCount - 1 else s.claimCount)

/-! ### Probe, the prologue, argument checks -/

/-- PROBE in a quiet environment, the chip answering `GENERIC_RDID` by R302 and not busy (R180, R302): JEDEC_ID holds the three
bytes; the first table entry with the code is bound and RDATA holds the bytes; with none the command ends
UnsupportedDevice and nothing is bound. -/
def Obligations.ProbeCompletes : Prop :=
  ∀ s : State, s.Quiet (fun _ => True) → s.CanClaim → s.chip.busyLeft = 0 → s.chip.desc.departs = none →
    s.cfg.genericRdid = s.chip.desc.op.rdid →
    ∃ t, exec .probe s = .next t ∧
      t.jedecId = (0 : BitVec 8) ++ s.chip.mfr ++ s.chip.desc.id ∧
      t.desc = (s.cfg.winbond ++ s.cfg.adesto).find? (fun e => e.id == s.chip.desc.id) ∧
      t.chip = { s.chip with wp := t.chip.wp } ∧
      framesOf t.trace = framesOf s.trace ++ [⟨s.cfg.genericRdid, [], 3⟩] ∧
      (t.desc ≠ none → s.Ended t .ok 0 t.jedecId) ∧ (t.desc = none → s.Ended t .unsupportedDevice 0 0)

/-- A PROBE that fails before it knows the bytes unbinds and keeps JEDEC_ID (R180, R150): NoDevice when the
identification transaction fails, BusClaimFailed when the claim does. -/
def Obligations.ProbeFailureUnbinds : Prop :=
  ∀ s : State, s.during = [] →
    (s.CanClaim → s.env.ec.Always (fun d => d.ack = true) →
      s.env.ctrl.Always (fun d => s.cfg.xferPollLimit ≤ d.busyReads ∨ d.err = true) →
      ∃ t, exec .probe s = .next t ∧ s.Ended t .noDevice 0 0 ∧ t.desc = none ∧ t.jedecId = s.jedecId) ∧
    (s.claimCount = s.cfg.claimMax ∨ (s.claimCount = 0 ∧ s.env.ec.Always (fun d => d.ack = false)) →
      ∃ t, exec .probe s = .next t ∧ s.Ended t .busClaimFailed 0 0 ∧ t.desc = none ∧ t.jedecId = s.jedecId)

/-- The prologue (R175): with no bound descriptor NoDevice; with one that lacks the capability UnsupportedDevice; no
transaction, no claim, nothing else changed. -/
def Obligations.PrologueRejects : Prop :=
  ∀ (s : State) (i : Instr), i ∉ [Instr.probe, .claim, .release] → (∀ op, i ≠ .transfer op) →
    (s.desc = none → exec i s = .next (s.rejected .noDevice)) ∧
    (∀ d, s.desc = some d → d.hasProtect = false →
      i ∈ [Instr.lock, .unlock, .isLocked, .clearRange, .readProtection, .getLockMode, .getHwProtect] ∨
        (∃ k, i = .setRange k) ∨ (∃ m c, i = .setLockMode m c) →
      exec i s = .next (s.rejected .unsupportedDevice)) ∧
    (∀ d, s.desc = some d → d.hasSec = false →
      i = .secStatus ∨ (∃ r, i = .secRead r ∨ i = .secProgram r ∨ i = .secErase r) ∨ (∃ r c, i = .secLock r c) →
      exec i s = .next (s.rejected .unsupportedDevice))

/-- The range check of READ, WRITE and ERASE (R176, R77) and ERASE's alignment check (R190, R75): a command that fails one
ends InvalidRegionOrRange before any transaction and any claim. -/
def Obligations.ArrayRangeIsChecked : Prop :=
  ∀ (s : State) (d : Descriptor), s.desc = some d →
    ((d.totalSize ≤ s.addr.toNat ∨ d.totalSize < s.addr.toNat + s.len.toNat) →
      ∀ i ∈ [Instr.read, .write, .erase], exec i s = .next (s.rejected .invalidRegionOrRange)) ∧
    (s.cfg.bufSize < s.len.toNat →
      ∀ i ∈ [Instr.read, .write], exec i s = .next (s.rejected .invalidRegionOrRange)) ∧
    ((s.addr.toNat % d.sectorSize ≠ 0 ∨ s.len.toNat % d.sectorSize ≠ 0) →
      exec .erase s = .next (s.rejected .invalidRegionOrRange))

/-- The selector, region and confirmation checks (R226, R242, R271, R280, R355): a value outside its set ends
InvalidRegionOrRange, whatever CONFIRM is; then an irreversible lock without CONFIRM ends PermanentLockRequested; no
transaction and no claim in either case. -/
def Obligations.SelectorsAreChecked : Prop :=
  ∀ (s : State) (d : Descriptor), s.desc = some d →
    (d.hasProtect = true →
      (∀ k : BitVec 8, k = 0 ∨ 44 < k.toNat → exec (.setRange k) s = .next (s.rejected .invalidRegionOrRange)) ∧
      (∀ (m : BitVec 8) (c : Bool), 5 < m.toNat →
        exec (.setLockMode m c) s = .next (s.rejected .invalidRegionOrRange)) ∧
      exec (.setLockMode 5 false) s = .next (s.rejected .permanentLockRequested)) ∧
    (d.hasSec = true → ∀ r : BitVec 8,
      ((r = 0 ∨ 3 < r.toNat ∨ 256 < s.addr.toNat + s.len.toNat) →
        ∀ i ∈ [Instr.secRead r, .secProgram r, .secErase r],
          exec i s = .next (s.rejected .invalidRegionOrRange)) ∧
      ((r = 0 ∨ 3 < r.toNat) → ∀ c, exec (.secLock r c) s = .next (s.rejected .invalidRegionOrRange)) ∧
      (r ≠ 0 → r.toNat ≤ 3 → exec (.secLock r false) s = .next (s.rejected .permanentLockRequested)))

/-! ### Read, write, erase -/

/-- READ in a quiet environment (R185): `DBUF[i] = ARRAY[ADDR + i]` for each i below LEN, the rest of DBUF and the chip
as they were, in the frames of the rule. -/
def Obligations.ReadCompletes : Prop :=
  ∀ (s : State) (d : Descriptor), s.Quiet (fun _ => True) → s.CanClaim → s.desc = some d → s.Attached d →
    s.addr.toNat < d.totalSize → s.addr.toNat + s.len.toNat ≤ d.totalSize → s.len.toNat ≤ s.cfg.bufSize →
    ∃ t, exec .read s = .next t ∧ s.Ended t .ok s.len.toNat 0 ∧
      (∀ k, t.dbuf.lookup k =
        if k < s.len.toNat then some (s.chip.arrayByte (s.addr.toNat + k)) else s.dbuf.lookup k) ∧
      t.chip = { s.chip with wp := t.chip.wp } ∧
      framesOf t.trace = framesOf s.trace ++
        (slices s.len.toNat (match s.cfg.gen, s.cfg.readVariant with
          | .yangtzee, _ => 68
          | .legacy, .slow => 5
          | .legacy, .fast => 4)).map fun ch =>
          match s.cfg.readVariant with
          | .slow => ⟨d.op.read, be24 (s.addr.toNat + ch.1), ch.2⟩
          | .fast => ⟨d.op.fastRead, be24 (s.addr.toNat + ch.1) ++ [0x00], ch.2⟩

/-- WRITE in a quiet environment to a range no byte of which is protected (R202, R314): each byte of the range becomes the
AND of what it held and of its DBUF byte; every other byte of the array, the security registers and the status bits
keep their values; DONE_COUNT is LEN, and the chip is ready again. -/
def Obligations.WriteCompletes : Prop :=
  ∀ (s : State) (d : Descriptor), s.Quiet (fun _ => True) → s.CanClaim → s.desc = some d → s.Attached d →
    s.addr.toNat < d.totalSize → s.addr.toNat + s.len.toNat ≤ d.totalSize → s.len.toNat ≤ s.cfg.bufSize →
    s.Loaded s.len.toNat →
    (∀ k < s.len.toNat, ∀ q, protContains d.totalSize s.chip.tuple q (s.addr.toNat + k) = false) →
    ∃ t, exec .write s = .next t ∧ s.Ended t .ok s.len.toNat 0 ∧ t.dbuf = s.dbuf ∧
      (∀ a, t.chip.arrayByte a =
        if s.addr.toNat ≤ a ∧ a < s.addr.toNat + s.len.toNat then
          s.chip.arrayByte a &&& s.dbufAt (a - s.addr.toNat)
        else s.chip.arrayByte a) ∧
      t.chip.secreg = s.chip.secreg ∧ t.chip.sr1 &&& 0xFC = s.chip.sr1 &&& 0xFC ∧ t.chip.sr2 = s.chip.sr2 ∧
      t.chip.busyLeft = 0

/-- WRITE into a range whose every byte is protected, and ERASE of sectors each of which holds a protected byte, end Ok
while the chip leaves the array unchanged (R85, R204e, R315, R353). -/
def Obligations.ProtectedWriteIsSilent : Prop :=
  ∀ (s : State) (d : Descriptor), s.Quiet (fun _ => True) → s.CanClaim → s.desc = some d → s.Attached d →
    s.addr.toNat < d.totalSize → s.addr.toNat + s.len.toNat ≤ d.totalSize →
    (s.len.toNat ≤ s.cfg.bufSize → s.Loaded s.len.toNat →
      (∀ k < s.len.toNat, ∀ q, protContains d.totalSize s.chip.tuple q (s.addr.toNat + k) = true) →
      ∃ t, exec .write s = .next t ∧ s.Ended t .ok s.len.toNat 0 ∧ t.dbuf = s.dbuf ∧ s.chip.SameData t.chip ∧
        t.chip.busyLeft = 0) ∧
    (s.addr.toNat % d.sectorSize = 0 → s.len.toNat % d.sectorSize = 0 →
      (∀ a ∈ sectorsOf s.addr.toNat s.len.toNat d.sectorSize, ∀ q, ∃ j < d.sectorSize,
        protContains d.totalSize s.chip.tuple q (a + j) = true) →
      ∃ t, exec .erase s = .next t ∧ s.Ended t .ok s.len.toNat 0 ∧ t.dbuf = s.dbuf ∧ s.chip.SameData t.chip ∧
        t.chip.busyLeft = 0)

/-- ERASE in a quiet environment of aligned sectors none of which is protected (R190, R315): every byte of the range
becomes 0xFF, every other byte, the security registers and the status bits keep their values; DONE_COUNT is LEN. -/
def Obligations.EraseCompletes : Prop :=
  ∀ (s : State) (d : Descriptor), s.Quiet (fun _ => True) → s.CanClaim → s.desc = some d → s.Attached d →
    s.addr.toNat < d.totalSize → s.addr.toNat + s.len.toNat ≤ d.totalSize →
    s.addr.toNat % d.sectorSize = 0 → s.len.toNat % d.sectorSize = 0 →
    (∀ k < s.len.toNat, ∀ q, protContains d.totalSize s.chip.tuple q (s.addr.toNat + k) = false) →
    ∃ t, exec .erase s = .next t ∧ s.Ended t .ok s.len.toNat 0 ∧
      (∀ a, t.chip.arrayByte a =
        if s.addr.toNat ≤ a ∧ a < s.addr.toNat + s.len.toNat then 0xFF else s.chip.arrayByte a) ∧
      t.chip.secreg = s.chip.secreg ∧ t.chip.sr1 &&& 0xFC = s.chip.sr1 &&& 0xFC ∧ t.chip.sr2 = s.chip.sr2 ∧
      t.chip.busyLeft = 0

/-- The chunk function (R201, R206): for a length above 0 there are `ceil((o mod P + n) / P)` chunks; the first has
`min(n, P - o mod P)` bytes, every one between the first and the last P; they follow one another from `o` on, and their
sizes sum to `n`. The worked scenario gives four chunks. -/
def Obligations.ChunkCount : Prop :=
  (chunks 250 600 256).map (·.2) = [6, 256, 256, 82] ∧ ∀ o n P : Nat, 0 < P → 0 < n →
    (chunks o n P).length = (o % P + n + P - 1) / P ∧
    (chunks o n P).head? = some (o, min n (P - o % P)) ∧
    (∀ j, 0 < j → j + 1 < (chunks o n P).length → ∃ a, (chunks o n P)[j]? = some (a, P)) ∧
    ((chunks o n P).map (·.2)).sum = n ∧
    (∀ j a c a' c', (chunks o n P)[j]? = some (a, c) → (chunks o n P)[j + 1]? = some (a', c') → a' = a + c)

/-- The page-boundary property (R205, R74): in any environment, every PP frame WRITE sends stays inside one page of the
chip. -/
def Obligations.WriteNeverCrossesAPage : Prop :=
  ∀ (s t : State) (d : Descriptor), s.during = [] → s.desc = some d → d.wf s.cfg.gen → exec .write s = .next t →
    ∃ fs, framesOf t.trace = framesOf s.trace ++ fs ∧
      ∀ f ∈ fs, f.op = d.op.pp → ∃ b0 b1 b2 data, f.out = b0 :: b1 :: b2 :: data ∧
        fromBe24 b0 b1 b2 % d.pageSize + data.length ≤ d.pageSize

/-! ### Block protection -/

/-- The preset table (R221, R223): 44 distinct entries; entry k has `cmp = (k > 22)`; entry k + 22 is entry k with
`cmp = 1`; entry 1 sets no bit and entry 23 none but cmp; the SR1 bits of rows 1 to 22; and, for 16 MiB, the protected ranges of rows 1 to 22 as first
address and size, row k + 22 protecting the complement (R222). -/
def Obligations.PresetTable : Prop :=
  presets.length = 44 ∧ presets.Nodup ∧ preset 0 = none ∧ preset 45 = none ∧
  (∀ k, 1 ≤ k → k ≤ 44 → ∃ t, preset k = some t ∧ t.cmp = decide (22 < k) ∧ presetIndex t = k) ∧
  (∀ k, 1 ≤ k → k ≤ 22 → preset (k + 22) = (preset k).map fun t => { t with cmp := true }) ∧
  (∃ t, preset 1 = some t ∧ enc1 t = 0x00 ∧ enc2 t = 0x00) ∧
  (∃ t, preset 23 = some t ∧ enc1 t = 0x00 ∧ enc2 t = 0x40) ∧
  (List.range 22).map (fun k => (preset (k + 1)).map enc1) =
    [some 0x00, some 0x04, some 0x08, some 0x0C, some 0x10, some 0x14, some 0x18, some 0x24, some 0x28, some 0x2C,
     some 0x30, some 0x34, some 0x38, some 0x1C, some 0x44, some 0x48, some 0x4C, some 0x50, some 0x64, some 0x68,
     some 0x6C, some 0x70] ∧
  (List.range 22).map (fun k => (preset (k + 1)).bind (protBase 0x1000000)) =
    [some (0, 0), some (0xFC0000, 0x40000), some (0xF80000, 0x80000), some (0xF00000, 0x100000),
     some (0xE00000, 0x200000), some (0xC00000, 0x400000), some (0x800000, 0x800000), some (0, 0x40000),
     some (0, 0x80000), some (0, 0x100000), some (0, 0x200000), some (0, 0x400000), some (0, 0x800000),
     some (0, 0x1000000), some (0xFFF000, 0x1000), some (0xFFE000, 0x2000), some (0xFFC000, 0x4000),
     some (0xFF8000, 0x8000), some (0, 0x1000), some (0, 0x2000), some (0, 0x4000), some (0, 0x8000)] ∧
  ∀ (k a : Nat) (t u : RangeTuple) (q r : Bool), 1 ≤ k → k ≤ 22 → preset k = some t → preset (k + 22) = some u →
    a < 0x1000000 → protContains 0x1000000 u q a = !protContains 0x1000000 t r a

/-- SET_RANGE k, LOCK (k = 14), CLEAR_RANGE and UNLOCK (all bits 0) in a quiet environment whose WP level lets the status
registers take a write (R226 to R229, R318): bp, tb, sec and cmp become those of the tuple, every other status bit
keeps its value, WEL is clear, the rest of the chip is unchanged. -/
def Obligations.BlockProtectCompletes : Prop :=
  ∀ (s : State) (d : Descriptor) (p : ChipDraw → Prop), s.Quiet p → s.CanClaim → s.desc = some d → s.Attached d →
    d.hasProtect = true → s.chip.srp1 = false → (s.chip.srp0 = false ∨ ∀ x, p x → x.wp = .high) →
    ∀ (i : Instr) (bp : BitVec 3) (tb sec cmp : Bool),
      ((∃ k, i = .setRange k ∧ preset k.toNat = some ⟨cmp, bp, sec, tb⟩) ∨
       (i = .lock ∧ bp = 7 ∧ tb = false ∧ sec = false ∧ cmp = false) ∨
       ((i = .clearRange ∨ i = .unlock) ∧ bp = 0 ∧ tb = false ∧ sec = false ∧ cmp = false)) →
      ∃ t, exec i s = .next t ∧ s.Ended t .ok 0 0 ∧
        t.chip = { s.chip with sr1 := t.chip.sr1, sr2 := t.chip.sr2, wp := t.chip.wp } ∧
        t.chip.sr1 = (s.chip.sr1 &&& 0x81) ||| (bp.zeroExtend 8 <<< 2) ||| bitAt 5 tb ||| bitAt 6 sec ∧
        t.chip.sr2 = (s.chip.sr2 &&& 0xBF) ||| bitAt 6 cmp

/-- IS_LOCKED and READ_PROTECTION in a quiet environment read the live registers and change nothing (R230, R231).
IS_LOCKED: RDATA is 0 exactly when cmp = 0 and bp = 0, or cmp = 1 and bp = 7. READ_PROTECTION: RDATA holds SR1, SR2 and
the index of the preset whose tuple the registers hold, 0 for none; the reserved bit of SR2 reads any value (R48). -/
def Obligations.ProtectionIsReadLive : Prop :=
  ∀ (s : State) (d : Descriptor), s.Quiet (fun _ => True) → s.CanClaim → s.desc = some d → s.Attached d →
    d.hasProtect = true →
    (∃ t, exec .isLocked s = .next t ∧
      s.Ended t .ok 0 (if (s.chip.sr2.getLsbD 6 = false ∧ s.chip.sr1.extractLsb' 2 3 = 0) ∨
        (s.chip.sr2.getLsbD 6 = true ∧ s.chip.sr1.extractLsb' 2 3 = 7) then 0 else 1) ∧
      t.chip = { s.chip with wp := t.chip.wp }) ∧
    ∃ t, exec .readProtection s = .next t ∧ s.Ended t .ok 0 t.rdata ∧ t.chip = { s.chip with wp := t.chip.wp } ∧
      (t.rdata.extractLsb' 0 8) &&& 0xFE = s.chip.sr1 &&& 0xFE ∧ t.rdata.getLsbD 0 = false ∧
      (t.rdata.extractLsb' 8 8) &&& 0xFB = s.chip.sr2 &&& 0xFB ∧
      (∀ k, 1 ≤ k → k ≤ 44 → (preset k = some s.chip.tuple ↔ (t.rdata.extractLsb' 16 16).toNat = k)) ∧
      (t.rdata.extractLsb' 16 16).toNat ≤ 44

/-- A status update while the registers take no write (R225, R241, R398): the chip keeps everything but WEL; the command
ends Ok if every verified bit it asks for is in place already, else StatusWriteVerifyFailed. For SEC_LOCK see its own
statement. -/
def Obligations.FrozenRegistersRefuse : Prop :=
  ∀ (s : State) (d : Descriptor) (p : ChipDraw → Prop), s.Quiet p → s.CanClaim → s.desc = some d → s.Attached d →
    d.hasProtect = true → (s.chip.srp1 = true ∨ (s.chip.srp0 = true ∧ ∀ x, p x → x.wp = .low)) →
    ∀ (i : Instr) (f : Byte → Byte → Byte × Byte), statusUpdate i = some f → (∀ r c, i ≠ .secLock r c) →
      i ≠ .setLockMode 5 false →
      ∃ t, exec i s = .next t ∧ s.chip.SameData t.chip ∧ t.chip.busyLeft = 0 ∧
        s.Ended t (if (f s.chip.sr1 s.chip.sr2).1 &&& 0xFC = s.chip.sr1 &&& 0xFC ∧
          (f s.chip.sr1 s.chip.sr2).2 &&& 0x43 = s.chip.sr2 &&& 0x43 then .ok else .statusWriteVerifyFailed) 0 0

/-! ### Lock modes -/

/-- SET_LOCK_MODE in a quiet environment whose WP level lets the status registers take a write (R240, R242): SRP0 and SRP1
become those of the mode's row, every other status bit keeps its value, WEL is clear. -/
def Obligations.SetLockModeCompletes : Prop :=
  ∀ (s : State) (d : Descriptor) (p : ChipDraw → Prop), s.Quiet p → s.CanClaim → s.desc = some d → s.Attached d →
    d.hasProtect = true → s.chip.srp1 = false → (s.chip.srp0 = false ∨ ∀ x, p x → x.wp = .high) →
    ∀ (m : BitVec 8) (c srp0 srp1 : Bool),
      (m.toNat, srp0, srp1) ∈ [(0, false, false), (1, false, false), (2, true, false), (3, true, false),
        (4, false, true), (5, true, true)] → (m = 5 → c = true) →
      ∃ t, exec (.setLockMode m c) s = .next t ∧ s.Ended t .ok 0 0 ∧
        t.chip = { s.chip with sr1 := t.chip.sr1, sr2 := t.chip.sr2, wp := t.chip.wp } ∧
        t.chip.sr1 = (s.chip.sr1 &&& 0x7D) ||| bitAt 7 srp0 ∧ t.chip.sr2 = (s.chip.sr2 &&& 0xFE) ||| bitAt 0 srp1

/-- GET_LOCK_MODE and GET_HW_PROTECT in a quiet environment; the chip keeps everything but WEL (R245, R250).
GET_LOCK_MODE: OneTimeProgram and PowerSupplyLockdown by SRP1, Unprotected with both bits 0, and for `(1, 0)`
HardwareProtected with WP low, HardwareUnprotected with WP high. GET_HW_PROTECT: inactive when SRP0 is clear; with SRP0
set, active when the clear does not take (SRP1 set, or WP low), inactive with WP high, SRP0 restored. -/
def Obligations.LockModeIsSensed : Prop :=
  ∀ (s : State) (d : Descriptor) (p : ChipDraw → Prop), s.Quiet p → s.CanClaim → s.desc = some d → s.Attached d →
    d.hasProtect = true → ∀ v : Word,
    ((s.chip.srp1 = true ∧ s.chip.srp0 = true ∧ v = 5) ∨ (s.chip.srp1 = true ∧ s.chip.srp0 = false ∧ v = 4) ∨
        (s.chip.srp1 = false ∧ s.chip.srp0 = false ∧ v = 0) ∨
        (s.chip.srp1 = false ∧ s.chip.srp0 = true ∧ (∀ x, p x → x.wp = .low) ∧ v = 2) ∨
        (s.chip.srp1 = false ∧ s.chip.srp0 = true ∧ (∀ x, p x → x.wp = .high) ∧ v = 3) →
      ∃ t, exec .getLockMode s = .next t ∧ s.Ended t .ok 0 v ∧ s.chip.SameData t.chip ∧ t.chip.busyLeft = 0) ∧
    ((s.chip.srp0 = false ∧ v = 0) ∨
        (s.chip.srp0 = true ∧ (s.chip.srp1 = true ∨ ∀ x, p x → x.wp = .low) ∧ v = 1) ∨
        (s.chip.srp0 = true ∧ s.chip.srp1 = false ∧ (∀ x, p x → x.wp = .high) ∧ v = 0) →
      ∃ t, exec .getHwProtect s = .next t ∧ s.Ended t .ok 0 v ∧ s.chip.SameData t.chip ∧ t.chip.busyLeft = 0)

/-! ### Security registers -/

/-- SEC_STATUS in a quiet environment (R272): bit r - 1 of RDATA is LB<r>, all other bits 0. -/
def Obligations.SecStatusCompletes : Prop :=
  ∀ (s : State) (d : Descriptor), s.Quiet (fun _ => True) → s.CanClaim → s.desc = some d → s.Attached d →
    d.hasSec = true →
    ∃ t, exec .secStatus s = .next t ∧ s.Ended t .ok 0 t.rdata ∧ t.chip = { s.chip with wp := t.chip.wp } ∧
      t.rdata.getLsbD 0 = s.chip.lockBit 1 ∧ t.rdata.getLsbD 1 = s.chip.lockBit 2 ∧
      t.rdata.getLsbD 2 = s.chip.lockBit 3 ∧ t.rdata.toNat < 8

/-- SEC_READ in a quiet environment (R273): `DBUF[i] = SECREG[r][ADDR + i]`, whatever the lock bit; the rest of DBUF and
the chip as they were. -/
def Obligations.SecReadCompletes : Prop :=
  ∀ (s : State) (d : Descriptor) (r : BitVec 8), s.Quiet (fun _ => True) → s.CanClaim → s.desc = some d →
    s.Attached d → d.hasSec = true → r ≠ 0 → r.toNat ≤ 3 → s.addr.toNat + s.len.toNat ≤ 256 →
    ∃ t, exec (.secRead r) s = .next t ∧ s.Ended t .ok s.len.toNat 0 ∧ t.chip = { s.chip with wp := t.chip.wp } ∧
      ∀ k, t.dbuf.lookup k =
        if k < s.len.toNat then some (s.chip.secByte r.toNat (s.addr.toNat + k)) else s.dbuf.lookup k

/-- SEC_ERASE and SEC_PROGRAM of a region whose lock bit is set end RegionLocked, with the chip unchanged (R275, R276,
R278, R86). -/
def Obligations.LockedRegionIsRefused : Prop :=
  ∀ (s : State) (d : Descriptor) (r : BitVec 8), s.Quiet (fun _ => True) → s.CanClaim → s.desc = some d →
    s.Attached d → d.hasSec = true → r ≠ 0 → r.toNat ≤ 3 → s.addr.toNat + s.len.toNat ≤ 256 →
    s.chip.lockBit r.toNat = true →
    (∃ t, exec (.secErase r) s = .next t ∧ s.Ended t .regionLocked 0 0 ∧ t.chip = { s.chip with wp := t.chip.wp }) ∧
    (s.len ≠ 0 →
      ∃ t, exec (.secProgram r) s = .next t ∧ s.Ended t .regionLocked 0 0 ∧
        t.chip = { s.chip with wp := t.chip.wp })

/-- SEC_ERASE in a quiet environment of an unlocked region (R276, R316): every byte of the region becomes 0xFF, and
nothing else in the chip changes but WEL; DONE_COUNT is 256. -/
def Obligations.SecEraseCompletes : Prop :=
  ∀ (s : State) (d : Descriptor) (r : BitVec 8), s.Quiet (fun _ => True) → s.CanClaim → s.desc = some d →
    s.Attached d → d.hasSec = true → r ≠ 0 → r.toNat ≤ 3 → s.addr.toNat + s.len.toNat ≤ 256 →
    s.chip.lockBit r.toNat = false →
    ∃ t, exec (.secErase r) s = .next t ∧ s.Ended t .ok 256 0 ∧
      (∀ q o, 1 ≤ q → q ≤ 3 → o < 256 →
        t.chip.secByte q o = if q = r.toNat then 0xFF else s.chip.secByte q o) ∧
      t.chip.array = s.chip.array ∧ t.chip.sr1 &&& 0xFC = s.chip.sr1 &&& 0xFC ∧ t.chip.sr2 = s.chip.sr2 ∧
      t.chip.busyLeft = 0

/-- SEC_PROGRAM in a quiet environment of an unlocked region (R278, R317): region r holds `DBUF[i]` at offset `ADDR + i`
and 0xFF at every other offset; nothing else in the chip changes but WEL. With LEN = 0 it changes nothing. -/
def Obligations.SecProgramCompletes : Prop :=
  ∀ (s : State) (d : Descriptor) (r : BitVec 8), s.Quiet (fun _ => True) → s.CanClaim → s.desc = some d →
    s.Attached d → d.hasSec = true → r ≠ 0 → r.toNat ≤ 3 → s.addr.toNat + s.len.toNat ≤ 256 →
    (s.len = 0 → exec (.secProgram r) s = .next (s.rejected .ok)) ∧
    (s.len ≠ 0 → s.chip.lockBit r.toNat = false → s.Loaded s.len.toNat →
      ∃ t, exec (.secProgram r) s = .next t ∧ s.Ended t .ok s.len.toNat 0 ∧ t.dbuf = s.dbuf ∧
        (∀ q o, 1 ≤ q → q ≤ 3 → o < 256 →
          t.chip.secByte q o =
            if q = r.toNat then
              if s.addr.toNat ≤ o ∧ o < s.addr.toNat + s.len.toNat then s.dbufAt (o - s.addr.toNat) else 0xFF
            else s.chip.secByte q o) ∧
        t.chip.array = s.chip.array ∧ t.chip.sr1 &&& 0xFC = s.chip.sr1 &&& 0xFC ∧ t.chip.sr2 = s.chip.sr2 ∧
        t.chip.busyLeft = 0)

/-- SEC_LOCK with CONFIRM in a quiet environment (R280, R318): where the status registers take a write, LB<r> is set and
every other status bit keeps its value; where they do not, it ends Ok only if LB<r> is set already, else
StatusWriteVerifyFailed. -/
def Obligations.SecLockCompletes : Prop :=
  ∀ (s : State) (d : Descriptor) (p : ChipDraw → Prop) (r : BitVec 8), s.Quiet p → s.CanClaim → s.desc = some d →
    s.Attached d → d.hasSec = true → r ≠ 0 → r.toNat ≤ 3 →
    (s.chip.srp1 = false → (s.chip.srp0 = false ∨ ∀ x, p x → x.wp = .high) →
      ∃ t, exec (.secLock r true) s = .next t ∧ s.Ended t .ok 0 0 ∧
        t.chip = { s.chip with sr1 := t.chip.sr1, sr2 := t.chip.sr2, wp := t.chip.wp } ∧
        t.chip.sr1 = s.chip.sr1 &&& 0xFD ∧ t.chip.sr2 = s.chip.sr2 ||| bitAt (2 + r.toNat) true) ∧
    ((s.chip.srp1 = true ∨ (s.chip.srp0 = true ∧ ∀ x, p x → x.wp = .low)) →
      ∃ t, exec (.secLock r true) s = .next t ∧ s.chip.SameData t.chip ∧ t.chip.busyLeft = 0 ∧
        s.Ended t (if s.chip.lockBit r.toNat = true then .ok else .statusWriteVerifyFailed) 0 0)

/-! ### The chip's answer to one frame -/

/-- Reads while not busy (R302 to R304, R317): RDID, READ, FAST_READ, RDSR1, RDSR2 and SEC_READ with a valid tag
return their bytes and change nothing but the sensed WP level. Of a part whose entry names no difference from these
rules (R332). -/
def Obligations.ChipServesReads : Prop :=
  ∀ (c : Chip) (d : ChipDraw) (a r o n : Nat) (x : Byte), c.desc.departs = none → c.busyLeft = 0 → c.desc.op.wf → a < 2 ^ 24 →
    c.answer d ⟨c.desc.op.rdid, [], 3⟩ =
      ([c.mfr, c.desc.id.extractLsb' 8 8, c.desc.id.extractLsb' 0 8], { c with wp := d.wp }) ∧
    (∀ f ∈ [(⟨c.desc.op.read, be24 a, n⟩ : Frame), ⟨c.desc.op.fastRead, be24 a ++ [x], n⟩],
      (c.answer d f).2 = { c with wp := d.wp } ∧ (c.answer d f).1.length = n ∧
      ∀ i < n, (c.answer d f).1[i]? = some (c.arrayByte ((a + i) % c.desc.totalSize))) ∧
    c.answer d ⟨c.desc.op.rdsr1, [], 1⟩ = ([c.sr1 &&& 0xFE], { c with wp := d.wp }) ∧
    c.answer d ⟨c.desc.op.rdsr2, [], 1⟩ = ([(c.sr2 &&& 0xFB) ||| bitAt 2 d.reserved], { c with wp := d.wp }) ∧
    (1 ≤ r → r ≤ 3 → o < 256 →
      (c.answer d ⟨c.desc.op.secRead, be24 (secAddr r o) ++ [x], n⟩).2 = { c with wp := d.wp } ∧
      ∀ i < n, (c.answer d ⟨c.desc.op.secRead, be24 (secAddr r o) ++ [x], n⟩).1[i]? =
        some (c.secByte r ((o + i) % 256)))

/-- A busy period (R312): while `BUSY_LEFT > 0` every frame lowers it by one and changes no stored byte and no status
bit; WEL is set until it reaches 0 and clear then; RDSR1 shows BUSY = 1. Of a part whose entry names no difference
from these rules (R332). -/
def Obligations.ChipBusyPeriod : Prop :=
  ∀ (c : Chip) (d : ChipDraw) (f : Frame), c.desc.departs = none → 0 < c.busyLeft →
    c.SameData (c.answer d f).2 ∧ (c.answer d f).2.busyLeft = c.busyLeft - 1 ∧
    (c.answer d f).2.wel = (if c.busyLeft = 1 then false else c.wel) ∧
    (c.desc.op.wf → f.op = c.desc.op.rdsr1 → 0 < f.nIn →
      ((c.answer d f).1[0]?).map (fun b => b.getLsbD 0) = some true)

/-- PP accepted (R314): data byte i goes to offset `(a + i) mod page_size` of the page, a later byte overwriting; a
byte of the page keeps only the bits its data byte keeps, a byte with no data its value; the busy period has the
drawn length. Of a part whose entry names no difference from these rules (R332). -/
def Obligations.ChipProgramsAPage : Prop :=
  ∀ (c : Chip) (d : ChipDraw) (a : Nat) (data : List Byte), c.desc.departs = none → c.busyLeft = 0 → c.desc.op.wf → c.wel = true → data ≠ [] →
    0 < c.desc.pageSize → a < c.desc.totalSize → c.desc.totalSize ≤ 2 ^ 24 →
    protContains c.desc.totalSize c.tuple d.touches a = false →
    let t := (c.answer d ⟨c.desc.op.pp, be24 a ++ data, 0⟩).2
    t.busyLeft = d.busy ∧ t.wel = decide (0 < d.busy) ∧ t.secreg = c.secreg ∧ t.sr2 = c.sr2 ∧
    t.sr1 &&& 0xFC = c.sr1 &&& 0xFC ∧
    (∀ x, (x / c.desc.pageSize ≠ a / c.desc.pageSize ∨ ∀ i < data.length, (a + i) % c.desc.pageSize ≠ x % c.desc.pageSize) →
      t.arrayByte x = c.arrayByte x) ∧
    (∀ x i b, x / c.desc.pageSize = a / c.desc.pageSize → data[i]? = some b →
      (a + i) % c.desc.pageSize = x % c.desc.pageSize →
      (∀ j, i < j → j < data.length → (a + j) % c.desc.pageSize ≠ x % c.desc.pageSize) →
      t.arrayByte x = c.arrayByte x &&& b)

/-- SE accepted (R315): the sector that holds the address becomes 0xFF, no other byte changes. Of a part whose entry
names no difference from these rules (R332). -/
def Obligations.ChipErasesASector : Prop :=
  ∀ (c : Chip) (d : ChipDraw) (a : Nat), c.desc.departs = none → c.busyLeft = 0 → c.desc.op.wf → c.wel = true →
    0 < c.desc.sectorSize → a < c.desc.totalSize → c.desc.totalSize ≤ 2 ^ 24 →
    (∀ x, x / c.desc.sectorSize = a / c.desc.sectorSize →
      protContains c.desc.totalSize c.tuple d.touches x = false) →
    let t := (c.answer d ⟨c.desc.op.se, be24 a, 0⟩).2
    t.busyLeft = d.busy ∧ t.secreg = c.secreg ∧ t.sr2 = c.sr2 ∧ t.sr1 &&& 0xFC = c.sr1 &&& 0xFC ∧
    ∀ x, t.arrayByte x = if x / c.desc.sectorSize = a / c.desc.sectorSize then 0xFF else c.arrayByte x

/-- WRSR accepted (R318): SR1[7:2], SRP1, QE and CMP are written, LB1 to LB3 only set, SR2 bit 2 and SUS not written.
Of a part whose entry names no difference from these rules (R332). -/
def Obligations.ChipWritesStatus : Prop :=
  ∀ (c : Chip) (d : ChipDraw) (a b : Byte), c.desc.departs = none → c.busyLeft = 0 → c.desc.op.wf → c.wel = true → c.srp1 = false →
    (c.srp0 = false ∨ d.wp = .high) →
    let t := (c.answer d ⟨c.desc.op.wrsr, [a, b], 0⟩).2
    t.sr1 &&& 0xFC = a &&& 0xFC ∧ t.wel = decide (0 < d.busy) ∧
    t.sr2 = (b &&& 0x43) ||| ((c.sr2 ||| b) &&& 0x38) ||| (c.sr2 &&& 0x84) ∧
    t.busyLeft = d.busy ∧ t.array = c.array ∧ t.secreg = c.secreg

/-- What the chip ignores (R305, R314 to R318, R325, R330, R331): without WEL, in the protected set, with a locked
region or an invalid tag, with frozen status registers, with no data to program, too short, or of an unknown opcode,
a frame changes nothing but WEL, which the environment draws, and starts no busy period. Of a part whose entry names
no difference from these rules (R332). -/
def Obligations.ChipIgnores : Prop :=
  ∀ (c : Chip) (d : ChipDraw) (f : Frame), c.desc.departs = none → c.busyLeft = 0 → c.desc.op.wf → c.desc.totalSize ≤ 2 ^ 24 →
    ((f.op ∉ c.desc.op.bytes) ∨
     (c.wel = false ∧ f.op ∈ [c.desc.op.pp, c.desc.op.se, c.desc.op.wrsr, c.desc.op.secErase, c.desc.op.secProg]) ∨
     (∃ a data, f.op = c.desc.op.pp ∧ f.out = be24 a ++ data ∧ a < c.desc.totalSize ∧
       protContains c.desc.totalSize c.tuple d.touches a = true) ∨
     (∃ a x, f.op = c.desc.op.se ∧ f.out = be24 a ∧ a < c.desc.totalSize ∧
       x / c.desc.sectorSize = a / c.desc.sectorSize ∧
       protContains c.desc.totalSize c.tuple d.touches x = true) ∨
     (f.op = c.desc.op.wrsr ∧ c.srWritable d.wp = false) ∨
     (∃ A data, (f.op = c.desc.op.secErase ∨ f.op = c.desc.op.secProg) ∧ f.out = be24 A ++ data ∧ A < 2 ^ 24 ∧
       ∀ r, 1 ≤ r → r ≤ 3 → (∃ o, o < 256 ∧ A = secAddr r o) → c.lockBit r = true) ∨
     (f.op = c.desc.op.wrsr ∧ f.out.length < 2) ∨
     (f.op = c.desc.op.pp ∧ f.out.length ≤ 3) ∨
     (f.op ∈ [c.desc.op.read, c.desc.op.se, c.desc.op.secErase, c.desc.op.secProg] ∧ f.out.length < 3) ∨
     (f.op ∈ [c.desc.op.fastRead, c.desc.op.secRead] ∧ f.out.length < 4)) →
    c.SameData (c.answer d f).2 ∧ (c.answer d f).2.busyLeft = 0 ∧ (c.answer d f).2.wel = d.wel

/-! ### The machine as a whole -/

/-- Every command ends (R25, R350, R351): whatever the controller, the chip and the EC do, a command whose DBUF bytes are
written ends in a next state, SEQ `Idle`, with a code that its rule can raise, and RDATA = 0 if it fails; DONE_COUNT is
the bytes of the chunks completed before the one that failed (R203, R352, R356). The same state is reached by the acts of
its script one after the other, finitely many of them (R24, R405). -/
def Obligations.EveryCommandEnds : Prop :=
  ∀ (i : Instr) (s : State), s.during = [] → s.Loaded (dbufSent s i) →
    ∃ t c fs, exec i s = .next t ∧ c ∈ codesOf i ∧ t.result = c.number ∧ t.phase = .idle ∧ (c ≠ .ok → t.rdata = 0) ∧
      framesOf t.trace = framesOf s.trace ++ fs ∧ t.doneCount = BitVec.ofNat 32 (bytesDone s c fs i) ∧
      (decode s.cmd = .ok i → ∃ n, advances n s.started = .next t)

/-- What a command may change of SEQ's registers, in any environment with no move landing inside it (R23, R26, R30, R180):
parameters, CMD, ADDR, LEN and the queues stay; JEDEC_ID and DESC change only by PROBE; DBUF changes only by READ,
SEC_READ and TRANSFER, and only below LEN. -/
def Obligations.RegisterFrame : Prop :=
  ∀ (i : Instr) (s t : State), s.during = [] → exec i s = .next t →
    t.cfg = s.cfg ∧ t.cmd = s.cmd ∧ t.addr = s.addr ∧ t.len = s.len ∧ t.inbox = s.inbox ∧ t.during = s.during ∧
    t.hostData = s.hostData ∧
    (i ≠ .probe → t.jedecId = s.jedecId ∧ t.desc = s.desc) ∧
    (fillsDbuf i = false → t.dbuf = s.dbuf) ∧
    ∀ k, s.len.toNat ≤ k → t.dbuf.lookup k = s.dbuf.lookup k

/-- Commands that write nothing to the chip, in any environment that leaves it to SEQ (R80): PROBE, READ, IS_LOCKED,
READ_PROTECTION, SEC_STATUS, SEC_READ, CLAIM and RELEASE change no byte of either store and no status bit but WEL and
BUSY, whatever fails. That a timed-out frame does not reach the chip later is the model's (log entry 12). Of a part
whose entry names no difference from these rules (R332). -/
def Obligations.ReadingKeepsTheChip : Prop :=
  ∀ (i : Instr) (s t : State), s.Unshared → s.chip.desc.op.wf → s.chip.desc.departs = none →
    i ∈ [Instr.probe, .read, .isLocked, .readProtection, .secStatus, .claim, .release] ∨ (∃ r, i = .secRead r) →
    (∀ d, s.desc = some d → s.chip.desc = d) → exec i s = .next t → s.chip.SameData t.chip

/-- Status updates and the WP probe, in any environment that leaves the chip to SEQ (R226 to R250, R280): no byte of
either store changes, and no security lock bit is cleared. That a timed-out frame does not reach the chip later is
the model's (log entry 12). Of a part whose entry names no difference from these rules (R332). -/
def Obligations.StatusUpdatesKeepTheStores : Prop :=
  ∀ (i : Instr) (s t : State) (d : Descriptor), s.Unshared → s.desc = some d → s.chip.desc = d → d.op.wf →
    d.departs = none → (statusUpdate i ≠ none ∨ i = .getLockMode ∨ i = .getHwProtect) → exec i s = .next t →
    t.chip.array = s.chip.array ∧ t.chip.secreg = s.chip.secreg ∧ t.chip.desc = s.chip.desc ∧
    ∀ r, 1 ≤ r → r ≤ 3 → s.chip.lockBit r = true → t.chip.lockBit r = true

/-- WRITE and ERASE, in any environment that leaves the chip to SEQ, whatever fails (R203, R190, R395): no byte
outside the range changes, WRITE only clears bits, ERASE leaves a byte as it was or 0xFF; security registers and
status bits (but WEL and BUSY) keep their values. That a timed-out frame does not reach the chip later is the model's
(log entry 12). Of a part whose entry names no difference from these rules (R332). -/
def Obligations.ArrayWritesKeepTheRest : Prop :=
  ∀ (s t : State) (d : Descriptor), s.Unshared → s.desc = some d → s.chip.desc = d → d.wf s.cfg.gen →
    d.departs = none → (exec .write s = .next t ∨ exec .erase s = .next t) →
    t.chip.secreg = s.chip.secreg ∧ t.chip.sr1 &&& 0xFC = s.chip.sr1 &&& 0xFC ∧ t.chip.sr2 = s.chip.sr2 ∧
    (∀ a, ¬ (s.addr.toNat ≤ a ∧ a < s.addr.toNat + s.len.toNat) → t.chip.arrayByte a = s.chip.arrayByte a) ∧
    (exec .write s = .next t → ∀ a, t.chip.arrayByte a &&& s.chip.arrayByte a = t.chip.arrayByte a) ∧
    (exec .erase s = .next t → ∀ a, t.chip.arrayByte a = s.chip.arrayByte a ∨ t.chip.arrayByte a = 0xFF)

/-- SEC_ERASE and SEC_PROGRAM, in any environment that leaves the chip to SEQ, whatever fails (R276, R278): the
array, the other regions and the status bits (but WEL and BUSY) keep their values. That a timed-out frame does not
reach the chip later is the model's (log entry 12). Of a part whose entry names no difference from these rules
(R332). -/
def Obligations.SecurityWritesKeepTheRest : Prop :=
  ∀ (i : Instr) (r : BitVec 8) (s t : State) (d : Descriptor), s.Unshared → s.desc = some d → s.chip.desc = d → d.op.wf →
    d.departs = none → (i = .secErase r ∨ i = .secProgram r) → exec i s = .next t →
    t.chip.array = s.chip.array ∧ t.chip.sr1 &&& 0xFC = s.chip.sr1 &&& 0xFC ∧ t.chip.sr2 = s.chip.sr2 ∧
    ∀ q o, 1 ≤ q → q ≤ 3 → q ≠ r.toNat → o < 256 → t.chip.secByte q o = s.chip.secByte q o

/-- Every frame a command puts on the bus is one of its script's, its payload the DBUF bytes of the rule or, for a WRSR,
the two bytes of its rule for some status pair (R24, R140, R180 to R280), in any environment: what SEQ sends is fixed by the
command, ADDR, LEN, DBUF, the bound descriptor and the status pair read. One act of a command in flight sends at most one
frame, and PHASE counts it (R24); where that frame is the WRSR of a status update or of the WP probe, its bytes are the
rule's for two consecutive answers the command has heard (R225, R226, R242, R250, R280). -/
def Obligations.OnlyScriptFramesAreSent : Prop :=
  (∀ (i : Instr) (s t : State), s.during = [] → exec i s = .next t →
    ∃ fs, framesOf t.trace = framesOf s.trace ++ fs ∧ ∀ f ∈ fs, MayIssue s i f) ∧
  ∀ (s t : State) (r : Running), s.phase = .running r → step s = .next t →
    (framesOf t.trace = framesOf s.trace ∧ (t.phase = .idle ∨ ∃ r', t.phase = .running r' ∧ r'.step = r.step)) ∨
    ∃ f r', framesOf t.trace = framesOf s.trace ++ [f] ∧ t.phase = .running r' ∧ r'.step = r.step + 1 ∧
      ∀ (i : Instr) (d : Descriptor) (a b : Byte), decode r.cmd = .ok i →
        (statusUpdate i ≠ none ∨ i = .getLockMode ∨ i = .getHwProtect) → s.desc = some d →
        f = ⟨d.op.wrsr, [a, b], 0⟩ → WritesWhatItRead i r.heard a b

/-- OneTimeProgram is terminal (R240, R318, R321, R398): once `(SRP0, SRP1) = (1, 1)`, no step of the machine, be it a
command, a frame of the EC, a reset or a power cycle, changes a bit of SR1[7:2] or SR2[6:0] of a part that departs from no
rule of the chip (R332); the part stays the part it is, so that the same holds of every later step. -/
def Obligations.OtpIsTerminal : Prop :=
  ∀ s t : State, s.chip.desc.departs = none → s.chip.srp0 = true → s.chip.srp1 = true → step s = .next t →
    t.chip.desc = s.chip.desc ∧ t.chip.sr1 &&& 0xFC = s.chip.sr1 &&& 0xFC ∧
    t.chip.sr2 &&& 0x7F = s.chip.sr2 &&& 0x7F

/-- The security lock bits are one-time (R48, R318): no step of the machine clears one, in a part that departs from no rule
of the chip (R332); the part stays the part it is, so that the same holds of every later step. -/
def Obligations.LockBitsAreOneTime : Prop :=
  ∀ (s t : State) (r : Nat), s.chip.desc.departs = none → 1 ≤ r → r ≤ 3 → s.chip.lockBit r = true → step s = .next t →
    t.chip.desc = s.chip.desc ∧ t.chip.lockBit r = true

/-- A locked region is never written again (R86, R270): under the invariant, once LB<r> is set no step of the machine
changes a byte of the region, in a part that departs from no rule of the chip (R332). The part stays the part it is, the
bit stays set, and the invariant is kept (its own statement), so that the same holds of every later step. -/
def Obligations.LockedRegionNeverChanges : Prop :=
  ∀ (s t : State) (r o : Nat), s.Inv → s.chip.desc.departs = none → 1 ≤ r → r ≤ 3 → o < 256 → s.chip.lockBit r = true → step s = .next t →
    t.chip.desc = s.chip.desc ∧ t.chip.lockBit r = true ∧ t.chip.secByte r o = s.chip.secByte r o

/-- The invariant holds at reset. That reset starts with these parameters and this chip is the model's choice (log entries
2 and 5). -/
def Obligations.ResetMeetsTheInvariant : Prop := State.reset.Inv

/-- Every step, of a command in flight or of an idle machine, keeps the invariant of the machine: EC_OWNS exactly at claim count 0 (R33), the count within CLAIM_MAX
(R32), the answers a command in flight has heard those of its script (R24), DESC from CHIP_TABLE (R30), RESULT a code (R110), the stores canonical and
inside their address spaces (R70), WEL set through a busy period (R312). It holds of every part, whatever it does in place
of the rules of the chip (R332); that its status bits and stores then keep the form of every chip's is the model's (log
entry 25). -/
def Obligations.EveryStepKeepsTheInvariant : Prop := ∀ s t : State, s.Inv → step s = .next t → t.Inv

end
end

