-- ==== Sys2Proof/Laws/State.lean ====
section
/-! SUPPORT. What each field reads as after each named update of the state. -/

namespace Sys2Proof.Machine

@[simp] theorem started_cfg (s : State) : (s.started).cfg = s.cfg := rfl
@[simp] theorem started_cmd (s : State) : (s.started).cmd = s.cmd := rfl
@[simp] theorem started_addr (s : State) : (s.started).addr = s.addr := rfl
@[simp] theorem started_len (s : State) : (s.started).len = s.len := rfl
@[simp] theorem started_result (s : State) : (s.started).result = s.result := rfl
@[simp] theorem started_doneCount (s : State) : (s.started).doneCount = s.doneCount := rfl
@[simp] theorem started_rdata (s : State) : (s.started).rdata = s.rdata := rfl
@[simp] theorem started_jedecId (s : State) : (s.started).jedecId = s.jedecId := rfl
@[simp] theorem started_phase (s : State) : (s.started).phase = .running s.latched := rfl
@[simp] theorem started_desc (s : State) : (s.started).desc = s.desc := rfl
@[simp] theorem started_claimCount (s : State) : (s.started).claimCount = s.claimCount := rfl
@[simp] theorem started_ecOwns (s : State) : (s.started).ecOwns = s.ecOwns := rfl
@[simp] theorem started_dbuf (s : State) : (s.started).dbuf = s.dbuf := rfl
@[simp] theorem started_ctrl (s : State) : (s.started).ctrl = s.ctrl := rfl
@[simp] theorem started_chip (s : State) : (s.started).chip = s.chip := rfl
@[simp] theorem started_env (s : State) : (s.started).env = s.env := rfl
@[simp] theorem started_inbox (s : State) : (s.started).inbox = s.inbox := rfl
@[simp] theorem started_during (s : State) : (s.started).during = s.during := rfl
@[simp] theorem started_hostData (s : State) : (s.started).hostData = s.hostData := rfl
@[simp] theorem started_trace (s : State) : (s.started).trace = s.trace := rfl

@[simp] theorem rejected_cfg (s : State) (c : Code) : (s.rejected c).cfg = s.cfg := rfl
@[simp] theorem rejected_cmd (s : State) (c : Code) : (s.rejected c).cmd = s.cmd := rfl
@[simp] theorem rejected_addr (s : State) (c : Code) : (s.rejected c).addr = s.addr := rfl
@[simp] theorem rejected_len (s : State) (c : Code) : (s.rejected c).len = s.len := rfl
@[simp] theorem rejected_result (s : State) (c : Code) : (s.rejected c).result = c.number := rfl
@[simp] theorem rejected_doneCount (s : State) (c : Code) : (s.rejected c).doneCount = 0 := rfl
@[simp] theorem rejected_rdata (s : State) (c : Code) : (s.rejected c).rdata = 0 := rfl
@[simp] theorem rejected_jedecId (s : State) (c : Code) : (s.rejected c).jedecId = s.jedecId := rfl
@[simp] theorem rejected_phase (s : State) (c : Code) : (s.rejected c).phase = .idle := rfl
@[simp] theorem rejected_desc (s : State) (c : Code) : (s.rejected c).desc = s.desc := rfl
@[simp] theorem rejected_claimCount (s : State) (c : Code) : (s.rejected c).claimCount = s.claimCount := rfl
@[simp] theorem rejected_ecOwns (s : State) (c : Code) : (s.rejected c).ecOwns = s.ecOwns := rfl
@[simp] theorem rejected_dbuf (s : State) (c : Code) : (s.rejected c).dbuf = s.dbuf := rfl
@[simp] theorem rejected_ctrl (s : State) (c : Code) : (s.rejected c).ctrl = s.ctrl := rfl
@[simp] theorem rejected_chip (s : State) (c : Code) : (s.rejected c).chip = s.chip := rfl
@[simp] theorem rejected_env (s : State) (c : Code) : (s.rejected c).env = s.env := rfl
@[simp] theorem rejected_inbox (s : State) (c : Code) : (s.rejected c).inbox = s.inbox := rfl
@[simp] theorem rejected_during (s : State) (c : Code) : (s.rejected c).during = s.during := rfl
@[simp] theorem rejected_hostData (s : State) (c : Code) : (s.rejected c).hostData = s.hostData := rfl
@[simp] theorem rejected_trace (s : State) (c : Code) : (s.rejected c).trace = s.trace := rfl

@[simp] theorem seqReset_cfg (s : State) : (seqReset s).cfg = s.cfg := rfl
@[simp] theorem seqReset_cmd (s : State) : (seqReset s).cmd = 0 := rfl
@[simp] theorem seqReset_addr (s : State) : (seqReset s).addr = 0 := rfl
@[simp] theorem seqReset_len (s : State) : (seqReset s).len = 0 := rfl
@[simp] theorem seqReset_result (s : State) : (seqReset s).result = 0 := rfl
@[simp] theorem seqReset_doneCount (s : State) : (seqReset s).doneCount = 0 := rfl
@[simp] theorem seqReset_rdata (s : State) : (seqReset s).rdata = 0 := rfl
@[simp] theorem seqReset_jedecId (s : State) : (seqReset s).jedecId = 0 := rfl
@[simp] theorem seqReset_phase (s : State) : (seqReset s).phase = .idle := rfl
@[simp] theorem seqReset_desc (s : State) : (seqReset s).desc = none := rfl
@[simp] theorem seqReset_claimCount (s : State) : (seqReset s).claimCount = 0 := rfl
@[simp] theorem seqReset_ecOwns (s : State) : (seqReset s).ecOwns = true := rfl
@[simp] theorem seqReset_dbuf (s : State) : (seqReset s).dbuf = [] := rfl
@[simp] theorem seqReset_ctrl (s : State) : (seqReset s).ctrl = { s.ctrl with start := false, busy := false, err := false, unknown := false } := rfl
@[simp] theorem seqReset_chip (s : State) : (seqReset s).chip = s.chip := rfl
@[simp] theorem seqReset_env (s : State) : (seqReset s).env = s.env := rfl
@[simp] theorem seqReset_inbox (s : State) : (seqReset s).inbox = s.inbox := rfl
@[simp] theorem seqReset_during (s : State) : (seqReset s).during = s.during := rfl
@[simp] theorem seqReset_hostData (s : State) : (seqReset s).hostData = s.hostData := rfl
@[simp] theorem seqReset_trace (s : State) : (seqReset s).trace = s.trace := rfl

@[simp] theorem releaseBus_cfg (s : State) : (releaseBus s).cfg = s.cfg := by
  by_cases h : s.claimCount - 1 = 0 <;> simp [releaseBus, h]
@[simp] theorem releaseBus_cmd (s : State) : (releaseBus s).cmd = s.cmd := by
  by_cases h : s.claimCount - 1 = 0 <;> simp [releaseBus, h]
@[simp] theorem releaseBus_addr (s : State) : (releaseBus s).addr = s.addr := by
  by_cases h : s.claimCount - 1 = 0 <;> simp [releaseBus, h]
@[simp] theorem releaseBus_len (s : State) : (releaseBus s).len = s.len := by
  by_cases h : s.claimCount - 1 = 0 <;> simp [releaseBus, h]
@[simp] theorem releaseBus_result (s : State) : (releaseBus s).result = s.result := by
  by_cases h : s.claimCount - 1 = 0 <;> simp [releaseBus, h]
@[simp] theorem releaseBus_doneCount (s : State) : (releaseBus s).doneCount = s.doneCount := by
  by_cases h : s.claimCount - 1 = 0 <;> simp [releaseBus, h]
@[simp] theorem releaseBus_rdata (s : State) : (releaseBus s).rdata = s.rdata := by
  by_cases h : s.claimCount - 1 = 0 <;> simp [releaseBus, h]
@[simp] theorem releaseBus_jedecId (s : State) : (releaseBus s).jedecId = s.jedecId := by
  by_cases h : s.claimCount - 1 = 0 <;> simp [releaseBus, h]
@[simp] theorem releaseBus_phase (s : State) : (releaseBus s).phase = s.phase := by
  by_cases h : s.claimCount - 1 = 0 <;> simp [releaseBus, h]
@[simp] theorem releaseBus_desc (s : State) : (releaseBus s).desc = s.desc := by
  by_cases h : s.claimCount - 1 = 0 <;> simp [releaseBus, h]
@[simp] theorem releaseBus_claimCount (s : State) : (releaseBus s).claimCount = s.claimCount - 1 := by
  by_cases h : s.claimCount - 1 = 0 <;> simp [releaseBus, h]
@[simp] theorem releaseBus_ecOwns (s : State) :
    (releaseBus s).ecOwns = if s.claimCount - 1 = 0 then true else s.ecOwns := by
  by_cases h : s.claimCount - 1 = 0 <;> simp [releaseBus, h]
@[simp] theorem releaseBus_dbuf (s : State) : (releaseBus s).dbuf = s.dbuf := by
  by_cases h : s.claimCount - 1 = 0 <;> simp [releaseBus, h]
@[simp] theorem releaseBus_ctrl (s : State) : (releaseBus s).ctrl = s.ctrl := by
  by_cases h : s.claimCount - 1 = 0 <;> simp [releaseBus, h]
@[simp] theorem releaseBus_chip (s : State) : (releaseBus s).chip = s.chip := by
  by_cases h : s.claimCount - 1 = 0 <;> simp [releaseBus, h]
@[simp] theorem releaseBus_env (s : State) : (releaseBus s).env = s.env := by
  by_cases h : s.claimCount - 1 = 0 <;> simp [releaseBus, h]
@[simp] theorem releaseBus_inbox (s : State) : (releaseBus s).inbox = s.inbox := by
  by_cases h : s.claimCount - 1 = 0 <;> simp [releaseBus, h]
@[simp] theorem releaseBus_during (s : State) : (releaseBus s).during = s.during := by
  by_cases h : s.claimCount - 1 = 0 <;> simp [releaseBus, h]
@[simp] theorem releaseBus_hostData (s : State) : (releaseBus s).hostData = s.hostData := by
  by_cases h : s.claimCount - 1 = 0 <;> simp [releaseBus, h]
@[simp] theorem releaseBus_trace (s : State) :
    (releaseBus s).trace = if s.claimCount - 1 = 0 then s.trace ++ [.reclaim] else s.trace := by
  by_cases h : s.claimCount - 1 = 0 <;> simp [releaseBus, h]

@[simp] theorem latched_addr (s : State) : s.latched.addr = s.addr := rfl
@[simp] theorem latched_len (s : State) : s.latched.len = s.len := rfl
@[simp] theorem started_held (s : State) : s.started.held = 0 := rfl
@[simp] theorem started_done (s : State) : s.started.done = 0 := rfl

@[simp] theorem hear_cfg (s : State) (x : Answer) : (s.hear x).cfg = s.cfg := rfl
@[simp] theorem hear_cmd (s : State) (x : Answer) : (s.hear x).cmd = s.cmd := rfl
@[simp] theorem hear_addr (s : State) (x : Answer) : (s.hear x).addr = s.addr := rfl
@[simp] theorem hear_len (s : State) (x : Answer) : (s.hear x).len = s.len := rfl
@[simp] theorem hear_result (s : State) (x : Answer) : (s.hear x).result = s.result := rfl
@[simp] theorem hear_doneCount (s : State) (x : Answer) : (s.hear x).doneCount = s.doneCount := rfl
@[simp] theorem hear_rdata (s : State) (x : Answer) : (s.hear x).rdata = s.rdata := rfl
@[simp] theorem hear_jedecId (s : State) (x : Answer) : (s.hear x).jedecId = s.jedecId := rfl
@[simp] theorem hear_desc (s : State) (x : Answer) : (s.hear x).desc = s.desc := rfl
@[simp] theorem hear_claimCount (s : State) (x : Answer) : (s.hear x).claimCount = s.claimCount := rfl
@[simp] theorem hear_ecOwns (s : State) (x : Answer) : (s.hear x).ecOwns = s.ecOwns := rfl
@[simp] theorem hear_dbuf (s : State) (x : Answer) : (s.hear x).dbuf = s.dbuf := rfl
@[simp] theorem hear_ctrl (s : State) (x : Answer) : (s.hear x).ctrl = s.ctrl := rfl
@[simp] theorem hear_chip (s : State) (x : Answer) : (s.hear x).chip = s.chip := rfl
@[simp] theorem hear_env (s : State) (x : Answer) : (s.hear x).env = s.env := rfl
@[simp] theorem hear_inbox (s : State) (x : Answer) : (s.hear x).inbox = s.inbox := rfl
@[simp] theorem hear_during (s : State) (x : Answer) : (s.hear x).during = s.during := rfl
@[simp] theorem hear_hostData (s : State) (x : Answer) : (s.hear x).hostData = s.hostData := rfl
@[simp] theorem hear_trace (s : State) (x : Answer) : (s.hear x).trace = s.trace := rfl

@[simp] theorem tally_cfg (s : State) (n : Nat) : (s.tally n).cfg = s.cfg := rfl
@[simp] theorem tally_cmd (s : State) (n : Nat) : (s.tally n).cmd = s.cmd := rfl
@[simp] theorem tally_addr (s : State) (n : Nat) : (s.tally n).addr = s.addr := rfl
@[simp] theorem tally_len (s : State) (n : Nat) : (s.tally n).len = s.len := rfl
@[simp] theorem tally_result (s : State) (n : Nat) : (s.tally n).result = s.result := rfl
@[simp] theorem tally_doneCount (s : State) (n : Nat) : (s.tally n).doneCount = s.doneCount := rfl
@[simp] theorem tally_rdata (s : State) (n : Nat) : (s.tally n).rdata = s.rdata := rfl
@[simp] theorem tally_jedecId (s : State) (n : Nat) : (s.tally n).jedecId = s.jedecId := rfl
@[simp] theorem tally_desc (s : State) (n : Nat) : (s.tally n).desc = s.desc := rfl
@[simp] theorem tally_claimCount (s : State) (n : Nat) : (s.tally n).claimCount = s.claimCount := rfl
@[simp] theorem tally_ecOwns (s : State) (n : Nat) : (s.tally n).ecOwns = s.ecOwns := rfl
@[simp] theorem tally_dbuf (s : State) (n : Nat) : (s.tally n).dbuf = s.dbuf := rfl
@[simp] theorem tally_ctrl (s : State) (n : Nat) : (s.tally n).ctrl = s.ctrl := rfl
@[simp] theorem tally_chip (s : State) (n : Nat) : (s.tally n).chip = s.chip := rfl
@[simp] theorem tally_env (s : State) (n : Nat) : (s.tally n).env = s.env := rfl
@[simp] theorem tally_inbox (s : State) (n : Nat) : (s.tally n).inbox = s.inbox := rfl
@[simp] theorem tally_during (s : State) (n : Nat) : (s.tally n).during = s.during := rfl
@[simp] theorem tally_hostData (s : State) (n : Nat) : (s.tally n).hostData = s.hostData := rfl
@[simp] theorem tally_trace (s : State) (n : Nat) : (s.tally n).trace = s.trace := rfl

@[simp] theorem commit_cfg (s : State) (n : Nat) : (s.commit n).cfg = s.cfg := rfl
@[simp] theorem commit_cmd (s : State) (n : Nat) : (s.commit n).cmd = s.cmd := rfl
@[simp] theorem commit_addr (s : State) (n : Nat) : (s.commit n).addr = s.addr := rfl
@[simp] theorem commit_len (s : State) (n : Nat) : (s.commit n).len = s.len := rfl
@[simp] theorem commit_result (s : State) (n : Nat) : (s.commit n).result = s.result := rfl
@[simp] theorem commit_doneCount (s : State) (n : Nat) : (s.commit n).doneCount = BitVec.ofNat 32 n := rfl
@[simp] theorem commit_rdata (s : State) (n : Nat) : (s.commit n).rdata = s.rdata := rfl
@[simp] theorem commit_jedecId (s : State) (n : Nat) : (s.commit n).jedecId = s.jedecId := rfl
@[simp] theorem commit_desc (s : State) (n : Nat) : (s.commit n).desc = s.desc := rfl
@[simp] theorem commit_claimCount (s : State) (n : Nat) : (s.commit n).claimCount = s.claimCount := rfl
@[simp] theorem commit_ecOwns (s : State) (n : Nat) : (s.commit n).ecOwns = s.ecOwns := rfl
@[simp] theorem commit_dbuf (s : State) (n : Nat) : (s.commit n).dbuf = s.dbuf := rfl
@[simp] theorem commit_ctrl (s : State) (n : Nat) : (s.commit n).ctrl = s.ctrl := rfl
@[simp] theorem commit_chip (s : State) (n : Nat) : (s.commit n).chip = s.chip := rfl
@[simp] theorem commit_env (s : State) (n : Nat) : (s.commit n).env = s.env := rfl
@[simp] theorem commit_inbox (s : State) (n : Nat) : (s.commit n).inbox = s.inbox := rfl
@[simp] theorem commit_during (s : State) (n : Nat) : (s.commit n).during = s.during := rfl
@[simp] theorem commit_hostData (s : State) (n : Nat) : (s.commit n).hostData = s.hostData := rfl
@[simp] theorem commit_trace (s : State) (n : Nat) : (s.commit n).trace = s.trace := rfl

@[simp] theorem issue_cfg (s : State) (op : Byte) (out : List Byte) (n : Nat) :
    (s.issue op out n).cfg = s.cfg := rfl
@[simp] theorem issue_cmd (s : State) (op : Byte) (out : List Byte) (n : Nat) :
    (s.issue op out n).cmd = s.cmd := rfl
@[simp] theorem issue_addr (s : State) (op : Byte) (out : List Byte) (n : Nat) :
    (s.issue op out n).addr = s.addr := rfl
@[simp] theorem issue_len (s : State) (op : Byte) (out : List Byte) (n : Nat) :
    (s.issue op out n).len = s.len := rfl
@[simp] theorem issue_result (s : State) (op : Byte) (out : List Byte) (n : Nat) :
    (s.issue op out n).result = s.result := rfl
@[simp] theorem issue_doneCount (s : State) (op : Byte) (out : List Byte) (n : Nat) :
    (s.issue op out n).doneCount = s.doneCount := rfl
@[simp] theorem issue_rdata (s : State) (op : Byte) (out : List Byte) (n : Nat) :
    (s.issue op out n).rdata = s.rdata := rfl
@[simp] theorem issue_jedecId (s : State) (op : Byte) (out : List Byte) (n : Nat) :
    (s.issue op out n).jedecId = s.jedecId := rfl
@[simp] theorem issue_desc (s : State) (op : Byte) (out : List Byte) (n : Nat) :
    (s.issue op out n).desc = s.desc := rfl
@[simp] theorem issue_claimCount (s : State) (op : Byte) (out : List Byte) (n : Nat) :
    (s.issue op out n).claimCount = s.claimCount := rfl
@[simp] theorem issue_ecOwns (s : State) (op : Byte) (out : List Byte) (n : Nat) :
    (s.issue op out n).ecOwns = s.ecOwns := rfl
@[simp] theorem issue_dbuf (s : State) (op : Byte) (out : List Byte) (n : Nat) :
    (s.issue op out n).dbuf = s.dbuf := rfl
@[simp] theorem issue_ctrl (s : State) (op : Byte) (out : List Byte) (n : Nat) :
    (s.issue op out n).ctrl = s.ctrl.stage op out n := rfl
@[simp] theorem issue_chip (s : State) (op : Byte) (out : List Byte) (n : Nat) :
    (s.issue op out n).chip = s.chip := rfl
@[simp] theorem issue_env (s : State) (op : Byte) (out : List Byte) (n : Nat) :
    (s.issue op out n).env = s.env := rfl
@[simp] theorem issue_inbox (s : State) (op : Byte) (out : List Byte) (n : Nat) :
    (s.issue op out n).inbox = s.inbox := rfl
@[simp] theorem issue_during (s : State) (op : Byte) (out : List Byte) (n : Nat) :
    (s.issue op out n).during = s.during := rfl
@[simp] theorem issue_hostData (s : State) (op : Byte) (out : List Byte) (n : Nat) :
    (s.issue op out n).hostData = s.hostData := rfl
@[simp] theorem issue_trace (s : State) (op : Byte) (out : List Byte) (n : Nat) :
    (s.issue op out n).trace = s.trace ++ [.frame ⟨op, out, n⟩] := rfl

@[simp] theorem releaseOwn_cfg (s : State) : (releaseOwn s).cfg = s.cfg := releaseBus_cfg s
@[simp] theorem releaseOwn_cmd (s : State) : (releaseOwn s).cmd = s.cmd := releaseBus_cmd s
@[simp] theorem releaseOwn_addr (s : State) : (releaseOwn s).addr = s.addr := releaseBus_addr s
@[simp] theorem releaseOwn_len (s : State) : (releaseOwn s).len = s.len := releaseBus_len s
@[simp] theorem releaseOwn_result (s : State) : (releaseOwn s).result = s.result := releaseBus_result s
@[simp] theorem releaseOwn_doneCount (s : State) : (releaseOwn s).doneCount = s.doneCount := releaseBus_doneCount s
@[simp] theorem releaseOwn_rdata (s : State) : (releaseOwn s).rdata = s.rdata := releaseBus_rdata s
@[simp] theorem releaseOwn_jedecId (s : State) : (releaseOwn s).jedecId = s.jedecId := releaseBus_jedecId s
@[simp] theorem releaseOwn_desc (s : State) : (releaseOwn s).desc = s.desc := releaseBus_desc s
@[simp] theorem releaseOwn_dbuf (s : State) : (releaseOwn s).dbuf = s.dbuf := releaseBus_dbuf s
@[simp] theorem releaseOwn_ctrl (s : State) : (releaseOwn s).ctrl = s.ctrl := releaseBus_ctrl s
@[simp] theorem releaseOwn_chip (s : State) : (releaseOwn s).chip = s.chip := releaseBus_chip s
@[simp] theorem releaseOwn_env (s : State) : (releaseOwn s).env = s.env := releaseBus_env s
@[simp] theorem releaseOwn_inbox (s : State) : (releaseOwn s).inbox = s.inbox := releaseBus_inbox s
@[simp] theorem releaseOwn_during (s : State) : (releaseOwn s).during = s.during := releaseBus_during s
@[simp] theorem releaseOwn_hostData (s : State) : (releaseOwn s).hostData = s.hostData := releaseBus_hostData s
@[simp] theorem releaseOwn_claimCount (s : State) : (releaseOwn s).claimCount = s.claimCount - 1 :=
  releaseBus_claimCount s
@[simp] theorem releaseOwn_ecOwns (s : State) :
    (releaseOwn s).ecOwns = if s.claimCount - 1 = 0 then true else s.ecOwns := releaseBus_ecOwns s

@[simp] theorem started_acts (s : State) : s.started.acts = 0 := rfl
@[simp] theorem started_step (s : State) : s.started.step = 0 := rfl
@[simp] theorem latched_context (s : State) :
    s.latched.context s = ⟨s.cfg, s.desc, s.addr.toNat, s.len.toNat⟩ := rfl

theorem releaseHeld_succ (n : Nat) (s : State) : releaseHeld (n + 1) s = releaseHeld n (releaseBus s) := rfl

@[simp] theorem releaseHeld_cfg (n : Nat) (s : State) : (releaseHeld n s).cfg = s.cfg := by
  induction n generalizing s with
  | zero => rfl
  | succ n ih => rw [releaseHeld_succ, ih, releaseBus_cfg]
@[simp] theorem releaseHeld_cmd (n : Nat) (s : State) : (releaseHeld n s).cmd = s.cmd := by
  induction n generalizing s with
  | zero => rfl
  | succ n ih => rw [releaseHeld_succ, ih, releaseBus_cmd]
@[simp] theorem releaseHeld_addr (n : Nat) (s : State) : (releaseHeld n s).addr = s.addr := by
  induction n generalizing s with
  | zero => rfl
  | succ n ih => rw [releaseHeld_succ, ih, releaseBus_addr]
@[simp] theorem releaseHeld_len (n : Nat) (s : State) : (releaseHeld n s).len = s.len := by
  induction n generalizing s with
  | zero => rfl
  | succ n ih => rw [releaseHeld_succ, ih, releaseBus_len]
@[simp] theorem releaseHeld_result (n : Nat) (s : State) : (releaseHeld n s).result = s.result := by
  induction n generalizing s with
  | zero => rfl
  | succ n ih => rw [releaseHeld_succ, ih, releaseBus_result]
@[simp] theorem releaseHeld_doneCount (n : Nat) (s : State) : (releaseHeld n s).doneCount = s.doneCount := by
  induction n generalizing s with
  | zero => rfl
  | succ n ih => rw [releaseHeld_succ, ih, releaseBus_doneCount]
@[simp] theorem releaseHeld_rdata (n : Nat) (s : State) : (releaseHeld n s).rdata = s.rdata := by
  induction n generalizing s with
  | zero => rfl
  | succ n ih => rw [releaseHeld_succ, ih, releaseBus_rdata]
@[simp] theorem releaseHeld_jedecId (n : Nat) (s : State) : (releaseHeld n s).jedecId = s.jedecId := by
  induction n generalizing s with
  | zero => rfl
  | succ n ih => rw [releaseHeld_succ, ih, releaseBus_jedecId]
@[simp] theorem releaseHeld_phase (n : Nat) (s : State) : (releaseHeld n s).phase = s.phase := by
  induction n generalizing s with
  | zero => rfl
  | succ n ih => rw [releaseHeld_succ, ih, releaseBus_phase]
@[simp] theorem releaseHeld_desc (n : Nat) (s : State) : (releaseHeld n s).desc = s.desc := by
  induction n generalizing s with
  | zero => rfl
  | succ n ih => rw [releaseHeld_succ, ih, releaseBus_desc]
@[simp] theorem releaseHeld_dbuf (n : Nat) (s : State) : (releaseHeld n s).dbuf = s.dbuf := by
  induction n generalizing s with
  | zero => rfl
  | succ n ih => rw [releaseHeld_succ, ih, releaseBus_dbuf]
@[simp] theorem releaseHeld_ctrl (n : Nat) (s : State) : (releaseHeld n s).ctrl = s.ctrl := by
  induction n generalizing s with
  | zero => rfl
  | succ n ih => rw [releaseHeld_succ, ih, releaseBus_ctrl]
@[simp] theorem releaseHeld_chip (n : Nat) (s : State) : (releaseHeld n s).chip = s.chip := by
  induction n generalizing s with
  | zero => rfl
  | succ n ih => rw [releaseHeld_succ, ih, releaseBus_chip]
@[simp] theorem releaseHeld_env (n : Nat) (s : State) : (releaseHeld n s).env = s.env := by
  induction n generalizing s with
  | zero => rfl
  | succ n ih => rw [releaseHeld_succ, ih, releaseBus_env]
@[simp] theorem releaseHeld_inbox (n : Nat) (s : State) : (releaseHeld n s).inbox = s.inbox := by
  induction n generalizing s with
  | zero => rfl
  | succ n ih => rw [releaseHeld_succ, ih, releaseBus_inbox]
@[simp] theorem releaseHeld_during (n : Nat) (s : State) : (releaseHeld n s).during = s.during := by
  induction n generalizing s with
  | zero => rfl
  | succ n ih => rw [releaseHeld_succ, ih, releaseBus_during]
@[simp] theorem releaseHeld_hostData (n : Nat) (s : State) : (releaseHeld n s).hostData = s.hostData := by
  induction n generalizing s with
  | zero => rfl
  | succ n ih => rw [releaseHeld_succ, ih, releaseBus_hostData]
@[simp] theorem releaseHeld_claimCount (n : Nat) (s : State) : (releaseHeld n s).claimCount = s.claimCount - n := by
  induction n generalizing s with
  | zero => rfl
  | succ n ih => rw [releaseHeld_succ, ih, releaseBus_claimCount]; omega

@[simp] theorem finish_result (c : Code) (v : Word) (s : State) : (finish c v s).result = c.number := rfl
@[simp] theorem finish_doneCount (c : Code) (v : Word) (s : State) : (finish c v s).doneCount = BitVec.ofNat 32 s.done := rfl
@[simp] theorem finish_rdata (c : Code) (v : Word) (s : State) : (finish c v s).rdata = v := rfl
@[simp] theorem finish_phase (c : Code) (v : Word) (s : State) : (finish c v s).phase = .idle := rfl
@[simp] theorem finish_cfg (c : Code) (v : Word) (s : State) : (finish c v s).cfg = s.cfg :=
  releaseHeld_cfg _ s
@[simp] theorem finish_cmd (c : Code) (v : Word) (s : State) : (finish c v s).cmd = s.cmd :=
  releaseHeld_cmd _ s
@[simp] theorem finish_addr (c : Code) (v : Word) (s : State) : (finish c v s).addr = s.addr :=
  releaseHeld_addr _ s
@[simp] theorem finish_len (c : Code) (v : Word) (s : State) : (finish c v s).len = s.len :=
  releaseHeld_len _ s
@[simp] theorem finish_jedecId (c : Code) (v : Word) (s : State) : (finish c v s).jedecId = s.jedecId :=
  releaseHeld_jedecId _ s
@[simp] theorem finish_desc (c : Code) (v : Word) (s : State) : (finish c v s).desc = s.desc :=
  releaseHeld_desc _ s
@[simp] theorem finish_dbuf (c : Code) (v : Word) (s : State) : (finish c v s).dbuf = s.dbuf :=
  releaseHeld_dbuf _ s
@[simp] theorem finish_ctrl (c : Code) (v : Word) (s : State) : (finish c v s).ctrl = s.ctrl :=
  releaseHeld_ctrl _ s
@[simp] theorem finish_chip (c : Code) (v : Word) (s : State) : (finish c v s).chip = s.chip :=
  releaseHeld_chip _ s
@[simp] theorem finish_env (c : Code) (v : Word) (s : State) : (finish c v s).env = s.env :=
  releaseHeld_env _ s
@[simp] theorem finish_inbox (c : Code) (v : Word) (s : State) : (finish c v s).inbox = s.inbox :=
  releaseHeld_inbox _ s
@[simp] theorem finish_during (c : Code) (v : Word) (s : State) : (finish c v s).during = s.during :=
  releaseHeld_during _ s
@[simp] theorem finish_hostData (c : Code) (v : Word) (s : State) : (finish c v s).hostData = s.hostData :=
  releaseHeld_hostData _ s
@[simp] theorem finish_claimCount (c : Code) (v : Word) (s : State) :
    (finish c v s).claimCount = s.claimCount - s.held := releaseHeld_claimCount _ s

end Sys2Proof.Machine
end

