-- ==== Sys2Proof/Laws/Script.lean ====
section
/-! SUPPORT. How scripts run: the value of `run` on each kind of script, what the acts of a script can do said once for the
whole script (`Script.All`, `run_all`), and that a run is the steps of `advance` one after the other (R24, R405). -/

namespace Sys2Proof.Machine

variable {s t : State}

/-! ### Landing -/

theorem land_alone (h : s.during = []) : land s = .ok s := by rw [land, h]; rfl

theorem landEnd_alone (h : s.during = []) : landEnd s = .ok s := by
  rw [landEnd]; split
  · rfl
  · exact land_alone h

theorem landEnd_started (s : State) : landEnd s.started = .ok s.started := rfl

@[simp] theorem andThen_ok (s : State) (f : State → Host.Outcome State Fault Refusal) : andThen (.ok s) f = f s := rfl

@[simp] theorem andThen_error (o : Host.Outcome State Fault Refusal) (f : State → Host.Outcome State Fault Refusal) :
    andThen (.error o) f = o := rfl

@[simp] theorem afterAct_ok (x : Answer) (s : State) (f : Answer → State → Host.Outcome State Fault Refusal) :
    afterAct (.ok (x, s)) f = f x (s.hear x) := rfl

@[simp] theorem afterAct_error (e : Fault) (f : Answer → State → Host.Outcome State Fault Refusal) :
    afterAct (.error e) f = .fault e := rfl

/-! ### Running -/

theorem run_done (v : Word) (s : State) : run (.done v) s = andThen (landEnd s) fun t => .next (complete v t) := rfl

theorem run_raise (c : Code) (s : State) : run (.raise c) s = andThen (landEnd s) fun t => .next (abort c t) := rfl

theorem run_act (a : Act) (k : Answer → Script) (s : State) :
    run (.act a k) s = andThen (land s) fun t => afterAct (perform a t) fun x u => run (k x) u := rfl

theorem run_done_alone (v : Word) (h : s.during = []) : run (.done v) s = .next (complete v s) := by
  rw [run_done, landEnd_alone h]; rfl

theorem run_raise_alone (c : Code) (h : s.during = []) : run (.raise c) s = .next (abort c s) := by
  rw [run_raise, landEnd_alone h]; rfl

theorem run_act_alone {a : Act} {x : Answer} (k : Answer → Script) (h : s.during = []) (e : perform a s = .ok (x, t)) :
    run (.act a k) s = run (k x) (t.hear x) := by
  rw [run_act, land_alone h, andThen_ok, e, afterAct_ok]

/-- A command whose checks fail before its first act ends at once, with nothing but its results changed (R355). -/
theorem run_raise_started (c : Code) (s : State) : run (.raise c) s.started = .next (s.rejected c) := rfl

theorem require_true {b : Bool} (h : b = true) (c : Code) (k : Script) : require b c k = k := by simp [require, h]

theorem require_false {b : Bool} (h : b = false) (c : Code) (k : Script) : require b c k = .raise c := by
  simp [require, h]

@[simp] theorem each_nil {α : Type} (f : α → Script → Script) (k : Script) : each [] f k = k := rfl

theorem each_cons {α : Type} (x : α) (xs : List α) (f : α → Script → Script) (k : Script) :
    each (x :: xs) f k = f x (each xs f k) := rfl

theorem exec_eq (i : Instr) (s : State) : exec i s = run (scriptOf i (s.latched.context s)) s.started := by
  cases i <;> rfl

/-! ### What a script can do -/

/-- Every act of the script has `A`, where each act's answer has `Y`; it ends with a value with `V` or raises a code with
`E`. -/
def Script.All (A : Act → Prop) (Y : Act → Answer → Prop) (V : Word → Prop) (E : Code → Prop) : Script → Prop
  | .done v => V v
  | .raise c => E c
  | .act a k => A a ∧ ∀ x, Y a x → (k x).All A Y V E

/-- How a run whose acts keep `P` ends: by `return`, by `raise`, or dropped by what landed. -/
def Ended (P : State → Prop) (V : Word → Prop) (E : Code → Prop) (D : State → Prop) (t : State) : Prop :=
  (∃ v u, V v ∧ P u ∧ t = complete v u) ∨ (∃ c u, E c ∧ P u ∧ t = abort c u) ∨ D t

section
variable {P D : State → Prop} {A : Act → Prop} {Y : Act → Answer → Prop} {V : Word → Prop} {E : Code → Prop} {c : Script}

/-- What lands keeps `P`, or ends the command with `D`. -/
def Lands (P D : State → Prop) : Prop :=
  ∀ s, P s → (∀ t, land s = .ok t → P t) ∧ ∀ t, land s = .error (.next t) → D t

theorem Lands.landEnd (h : Lands P D) (hs : P s) :
    (∀ t, landEnd s = .ok t → P t) ∧ ∀ t, landEnd s = .error (.next t) → D t := by
  rw [Machine.landEnd]
  split
  · exact ⟨fun t e => by cases e; exact hs, fun t e => by cases e⟩
  · exact h s hs

theorem lands_alone (h : ∀ s, P s → s.during = []) : Lands P D := by
  intro s hs
  rw [land_alone (h s hs)]
  exact ⟨fun t e => by cases e; exact hs, fun t e => by cases e⟩

/-- A run that answers a next state, in any environment: what its acts keep holds at its end. -/
theorem run_all (hc : c.All A Y V E) (hland : Lands P D)
    (hact : ∀ a s x t, A a → P s → perform a s = .ok (x, t) → Y a x ∧ P (t.hear x)) (hs : P s)
    (h : run c s = .next t) : Ended P V E D t := by
  induction c generalizing s with
  | done v =>
    rw [run_done] at h
    cases e : landEnd s with
    | ok u => rw [e] at h; cases h; exact .inl ⟨v, u, hc, (hland.landEnd hs).1 u e, rfl⟩
    | error o => rw [e] at h; cases h; exact .inr (.inr ((hland.landEnd hs).2 t e))
  | raise k =>
    rw [run_raise] at h
    cases e : landEnd s with
    | ok u => rw [e] at h; cases h; exact .inr (.inl ⟨k, u, hc, (hland.landEnd hs).1 u e, rfl⟩)
    | error o => rw [e] at h; cases h; exact .inr (.inr ((hland.landEnd hs).2 t e))
  | act a k ih =>
    rw [run_act] at h
    cases e : land s with
    | error o => rw [e] at h; cases h; exact .inr (.inr ((hland s hs).2 t e))
    | ok u =>
      rw [e, andThen_ok] at h
      cases e' : perform a u with
      | error f => rw [e'] at h; cases h
      | ok r =>
        obtain ⟨x, w⟩ := r
        rw [e'] at h
        have := hact a u x w hc.1 ((hland s hs).1 u e) e'
        exact ih x (hc.2 x this.1) this.2 h

/-- With no move landing inside it and no act that stops, a run ends in a next state (R25). -/
theorem run_ends (hc : c.All A Y V E) (halone : ∀ s, P s → s.during = [])
    (hact : ∀ a s, A a → P s → ∃ x t, perform a s = .ok (x, t) ∧ Y a x ∧ P (t.hear x)) (hs : P s) :
    ∃ t, run c s = .next t ∧ Ended P V E (fun _ => False) t := by
  induction c generalizing s with
  | done v => exact ⟨_, run_done_alone v (halone s hs), .inl ⟨v, s, hc, hs, rfl⟩⟩
  | raise k => exact ⟨_, run_raise_alone k (halone s hs), .inr (.inl ⟨k, s, hc, hs, rfl⟩)⟩
  | act a k ih =>
    obtain ⟨x, w, e, hx, hw⟩ := hact a s hc.1 hs
    rw [run_act_alone k (halone s hs) e]
    exact ih x (hc.2 x hx) hw

end

theorem Script.All.mono {A A' : Act → Prop} {Y Y' : Act → Answer → Prop} {V V' : Word → Prop} {E E' : Code → Prop}
    {c : Script} (h : c.All A Y V E) (hA : ∀ a, A a → A' a) (hY : ∀ a x, A a → Y' a x → Y a x) (hV : ∀ v, V v → V' v)
    (hE : ∀ c, E c → E' c) : c.All A' Y' V' E' := by
  induction c with
  | done v => exact hV v h
  | raise c => exact hE c h
  | act a k ih => exact ⟨hA a h.1, fun x hx => ih x (h.2 x (hY a x h.1 hx))⟩

/-! ### A run is the steps of `advance` -/

@[simp] theorem Script.after_nil (c : Script) : c.after [] = c := by cases c <;> rfl

@[simp] theorem Script.after_cons (a : Act) (k : Answer → Script) (x : Answer) (xs : List Answer) :
    (Script.act a k).after (x :: xs) = (k x).after xs := rfl

theorem Script.after_append (c : Script) (xs : List Answer) (x : Answer) :
    c.after (xs ++ [x]) = (c.after xs).after [x] := by
  induction xs generalizing c with
  | nil => cases c <;> rfl
  | cons y ys ih => cases c with
    | done v => rfl
    | raise e => rfl
    | act a k => exact ih (k y)

theorem advances_add (m n : Nat) (s : State) :
    advances (m + n) s = match advances m s with
      | .next t => advances n t
      | .fault f => .fault f
      | .refused r => .refused r := by
  induction m generalizing s with
  | zero => rw [Nat.zero_add]; rfl
  | succ m ih =>
    rw [Nat.succ_add, advances, advances]
    cases advance s with
    | next t => exact ih t
    | fault f => rfl
    | refused r => rfl

end Sys2Proof.Machine
end

