-- ==== Sys2Proof/Laws/Transport.lean ====
section
/-! SUPPORT. The laws of the transaction primitive: FIFO staging and read-back, what the controller does with a staged
transaction, and what `xfer` does, in any environment and in a quiet one. -/

namespace Sys2Proof.Machine

/-! ### The FIFO -/

theorem xferOk_bounds {g : Gen} {nOut nIn : Nat} (h : xferOk g nOut nIn = true) : nOut ≤ 71 ∧ nIn ≤ 68 := by
  cases g <;> simp [xferOk] at h <;> omega

theorem xferOk_fifo {g : Gen} {nOut nIn : Nat} (h : xferOk g nOut nIn = true) :
    nOut ≤ g.fifoDepth ∧ nIn ≤ g.fifoDepth := by
  cases g <;> simp [xferOk, Gen.fifoDepth] at h ⊢ <;> omega

theorem xferOk_small (g : Gen) {nOut nIn : Nat} (h : nOut + nIn ≤ 8) : xferOk g nOut nIn = true := by
  cases g <;> simp [xferOk] <;> omega

/-- The frame on the bus is the one SEQ asked for (R141, R143). -/
theorem frame_stage (c : Ctrl) (op : Byte) (out : List Byte) {nIn : Nat} {g : Gen}
    (h : xferOk g out.length nIn = true) : (c.stage op out nIn).frame = ⟨op, out, nIn⟩ := by
  obtain ⟨h1, h2⟩ := xferOk_bounds h
  have e1 : out.length % 256 = out.length := by omega
  have e2 : nIn % 256 = nIn := by omega
  simp [Ctrl.frame, Ctrl.stage, BitVec.toNat_ofNat, e1, e2]

theorem length_stage (c : Ctrl) (op : Byte) (out : List Byte) (nIn : Nat) (h : out.length ≤ c.fifo.length) :
    (c.stage op out nIn).fifo.length = c.fifo.length := by
  simp [Ctrl.stage]; omega

@[simp] theorem length_storeIncoming (g : Gen) (nOut i : Nat) (bs fifo : List Byte) :
    (storeIncoming g nOut i bs fifo).length = fifo.length := by
  induction bs generalizing i fifo with
  | nil => rfl
  | cons b bs ih => rw [storeIncoming, ih, List.length_set]

@[simp] theorem length_readBack (c : Config) (nOut nIn : Nat) (fifo : List Byte) :
    (readBack c nOut nIn fifo).length = nIn := by simp [readBack]

theorem fifoDepth_pos (g : Gen) : 0 < g.fifoDepth := by cases g <;> decide

/-- A place the stores from byte `i` on do not reach keeps its byte. -/
theorem getElem_storeIncoming_other (g : Gen) (nOut i : Nat) (bs fifo : List Byte) (k : Nat)
    (h : ∀ j < bs.length, (nOut + i + j) % g.fifoDepth ≠ k) :
    (storeIncoming g nOut i bs fifo)[k]? = fifo[k]? := by
  induction bs generalizing i fifo with
  | nil => rfl
  | cons b bs ih =>
    rw [storeIncoming, ih]
    · rw [List.getElem?_set_ne]
      exact h 0 (by simp)
    · intro j hj
      have := h (j + 1) (by simp; omega)
      rwa [show nOut + (i + 1) + j = nOut + i + (j + 1) by omega]

theorem mod_ne_of_lt {F a j : Nat} (hj : 0 < j) (hF : j < F) : (a + j) % F ≠ a % F := by
  intro h
  have h1 : (a + j) % F = (a % F + j) % F := by rw [Nat.mod_add_mod]
  have h2 : a % F < F := Nat.mod_lt _ (by omega)
  rw [h1] at h
  by_cases hlt : a % F + j < F
  · rw [Nat.mod_eq_of_lt hlt] at h; omega
  · have h3 : (a % F + j) % F = a % F + j - F := by
      rw [Nat.mod_eq_sub_mod (by omega), Nat.mod_eq_of_lt (by omega)]
    omega

/-- Incoming byte j stands where SEQ looks for it (R142, R143). -/
theorem getElem_storeIncoming (g : Gen) (nOut i : Nat) (bs fifo : List Byte) (hf : fifo.length = g.fifoDepth)
    (hn : bs.length ≤ g.fifoDepth) (j : Nat) (hj : j < bs.length) :
    (storeIncoming g nOut i bs fifo)[(nOut + i + j) % g.fifoDepth]? = bs[j]? := by
  induction bs generalizing i fifo j with
  | nil => simp at hj
  | cons b bs ih =>
    have hF := fifoDepth_pos g
    rw [storeIncoming]
    cases j with
    | zero =>
      rw [getElem_storeIncoming_other]
      · rw [Nat.add_zero, List.getElem?_set_self]
        · rfl
        · rw [hf]; exact Nat.mod_lt _ hF
      · intro j' hj'
        simp only [List.length_cons] at hn
        rw [show nOut + (i + 1) + j' = nOut + i + (j' + 1) by omega, Nat.add_zero]
        exact mod_ne_of_lt (by omega) (by omega)
    | succ j =>
      rw [show nOut + i + (j + 1) = nOut + (i + 1) + j by omega, List.getElem?_cons_succ]
      exact ih (i + 1) _ (by rw [List.length_set, hf]) (by simp only [List.length_cons] at hn; omega) j
        (by simpa using hj)

/-- With the default read-back layout SEQ reads back exactly the bytes the controller received (R142, R143). -/
theorem readBack_storeIncoming (c : Config) (nOut : Nat) (bs fifo : List Byte)
    (hc : ∀ i, rxIndex c nOut i = rxDefault c.gen nOut i) (hf : fifo.length = c.gen.fifoDepth)
    (hn : bs.length ≤ c.gen.fifoDepth) : readBack c nOut bs.length (storeIncoming c.gen nOut 0 bs fifo) = bs := by
  apply List.ext_getElem? ; intro j
  by_cases hj : j < bs.length
  · have := getElem_storeIncoming c.gen nOut 0 bs fifo hf hn j hj
    rw [Nat.add_zero] at this
    simp [readBack, hc, rxDefault, hj, this]
  · have h1 : (readBack c nOut bs.length (storeIncoming c.gen nOut 0 bs fifo)).length ≤ j := by simp; omega
    rw [List.getElem?_eq_none h1, List.getElem?_eq_none (by omega)]

/-! ### The chip's answer -/

@[simp] theorem length_padResponse (n : Nat) (given noise : List Byte) : (padResponse n given noise).length = n := by
  simp [padResponse]

@[simp] theorem length_received (d : CtrlDraw) (nOut nIn : Nat) (s : State) : (received d nOut nIn s).length = nIn := by
  unfold received; split <;> simp

theorem received_known (d : CtrlDraw) (nOut nIn : Nat) {s : State} (h : s.ctrl.unknown = false) :
    received d nOut nIn s = readBack s.cfg nOut nIn s.ctrl.fifo := by simp [received, h]

theorem padResponse_of_length {n : Nat} {given : List Byte} (noise : List Byte) (h : n ≤ given.length) :
    padResponse n given noise = given.take n := by
  apply List.ext_getElem?; intro j
  by_cases hj : j < n
  · have hl : j < given.length := by omega
    simp [padResponse, hj, hl]
  · rw [List.getElem?_eq_none (by simp; omega), List.getElem?_eq_none (by simp; omega)]

theorem length_answer (c : Chip) (d : ChipDraw) (f : Frame) : (c.answer d f).1.length = f.nIn := by
  simp [Chip.answer]

theorem chipFrame_run (f : Frame) (s : State) :
    chipFrame f s = ((s.chip.answer s.env.drawChip.1 f).1,
      { s with env := s.env.drawChip.2, chip := (s.chip.answer s.env.drawChip.1 f).2 }) := rfl

@[simp] theorem length_chipFrame (f : Frame) (s : State) : (chipFrame f s).1.length = f.nIn := by
  rw [chipFrame_run]; exact length_answer _ _ _

/-! ### Draws -/

theorem Feed.next_always {α : Type} {f : Feed α} {p : α → Prop} (h : f.Always p) (free : α) :
    p (f.next free).1 ∧ (f.next free).2.Always p := by
  obtain ⟨script, steady⟩ := f
  obtain ⟨h1, x, h2, h3⟩ := h
  cases script with
  | nil =>
    simp only at h2
    subst h2
    exact ⟨h3, h1, x, rfl, h3⟩
  | cons y rest => exact ⟨h1 y (by simp), fun z hz => h1 z (List.mem_cons_of_mem _ hz), x, h2, h3⟩

theorem drawCtrl_always {e : Env} {p : CtrlDraw → Prop} (h : e.ctrl.Always p) :
    p e.drawCtrl.1 ∧ e.drawCtrl.2.ctrl.Always p := Feed.next_always h _

theorem drawChip_always {e : Env} {p : ChipDraw → Prop} (h : e.chip.Always p) :
    p e.drawChip.1 ∧ e.drawChip.2.chip.Always p := Feed.next_always h _

theorem drawEc_always {e : Env} {p : EcDraw → Prop} (h : e.ec.Always p) :
    p e.drawEc.1 ∧ e.drawEc.2.ec.Always p := Feed.next_always h _

@[simp] theorem drawCtrl_chip (e : Env) : e.drawCtrl.2.chip = e.chip := rfl
@[simp] theorem drawCtrl_ec (e : Env) : e.drawCtrl.2.ec = e.ec := rfl
@[simp] theorem drawChip_ctrl (e : Env) : e.drawChip.2.ctrl = e.ctrl := rfl
@[simp] theorem drawChip_ec (e : Env) : e.drawChip.2.ec = e.ec := rfl
@[simp] theorem drawEc_chip (e : Env) : e.drawEc.2.chip = e.chip := rfl
@[simp] theorem drawEc_ctrl (e : Env) : e.drawEc.2.ctrl = e.ctrl := rfl

theorem Feed.always_mono {α : Type} {f : Feed α} {p q : α → Prop} (h : f.Always p) (hpq : ∀ x, p x → q x) :
    f.Always q := by
  obtain ⟨h1, x, h2, h3⟩ := h
  exact ⟨fun y hy => hpq y (h1 y hy), x, h2, hpq x h3⟩

/-! ### A transaction -/

/-- What the bus part of a transaction can do: the chip answers the frame or does not see it, and `nIn` bytes come in. -/
theorem onBus_cases (d : CtrlDraw) (s : State) :
    ∃ resp : List Byte, resp.length = s.ctrl.frame.nIn ∧
      (onBus d s = (resp, s) ∨ onBus d s = (resp, (chipFrame s.ctrl.frame s).2)) := by
  rw [onBus]
  split
  · refine ⟨_, ?_, .inr rfl⟩
    split <;> simp
  · exact ⟨_, by simp, .inl rfl⟩

/-- What a staged transaction can do (R143, R144): it times out with CTRL_UNKNOWN set, or the controller finishes. -/
theorem runStaged_cases (d : CtrlDraw) (s : State) :
    ∃ (u : State) (resp : List Byte), (u = s ∨ u = (chipFrame s.ctrl.frame s).2) ∧
      resp.length = s.ctrl.frame.nIn ∧
      (runStaged d s = (false, { u with ctrl := { u.ctrl with unknown := true } }) ∨
       runStaged d s =
        (true, { u with ctrl := u.ctrl.finished s.cfg.gen s.ctrl.frame.out.length resp d.err })) := by
  obtain ⟨resp, hl, h⟩ := onBus_cases d s
  have hu : ∃ u, (u = s ∨ u = (chipFrame s.ctrl.frame s).2) ∧ onBus d s = (resp, u) := by
    rcases h with h | h
    · exact ⟨_, .inl rfl, h⟩
    · exact ⟨_, .inr rfl, h⟩
  obtain ⟨u, hu, h⟩ := hu
  refine ⟨u, resp, hu, hl, ?_⟩
  rw [runStaged, h]
  cases timesOut d s
  · exact .inr rfl
  · exact .inl rfl

/-- What `Xfer` can do (R141, R143, R144): it is too large, or it is issued, the chip answers or not, and the controller
times out, reports an error, or gives `nIn` bytes. -/
theorem transact_cases (op : Byte) (out : List Byte) (nIn : Nat) (s : State) :
    (xferOk s.cfg.gen out.length nIn = false ∧ transact op out nIn s = (.failed .transferTooLarge, s)) ∨
    (xferOk s.cfg.gen out.length nIn = true ∧ ∃ (u : State) (c : Ctrl) (x : Answer),
      (u = { s.issue op out nIn with env := s.env.drawCtrl.2 } ∨
        u = (chipFrame ⟨op, out, nIn⟩ { s.issue op out nIn with env := s.env.drawCtrl.2 }).2) ∧
      transact op out nIn s = (x, { u with ctrl := c }) ∧
      c.fifo.length = (s.ctrl.stage op out nIn).fifo.length ∧ (s.ctrl.unknown = true → c.unknown = true) ∧
      ((x = .failed .timeout ∧ c.unknown = true) ∨ x = .failed .commandFailed ∨
        ∃ bs : List Byte, bs.length = nIn ∧ x = .bytes bs)) := by
  rw [transact]
  by_cases hok : xferOk s.cfg.gen out.length nIn = true
  · refine .inr ⟨hok, ?_⟩
    rw [if_pos hok]
    simp only []
    have hfr : (s.issue op out nIn).ctrl.frame = ⟨op, out, nIn⟩ := frame_stage _ _ _ hok
    obtain ⟨u, resp, hu, -, hc⟩ := runStaged_cases (s.issue op out nIn).env.drawCtrl.1
      { s.issue op out nIn with env := (s.issue op out nIn).env.drawCtrl.2 }
    have hu' : u = { s.issue op out nIn with env := s.env.drawCtrl.2 } ∨
        u = (chipFrame ⟨op, out, nIn⟩ { s.issue op out nIn with env := s.env.drawCtrl.2 }).2 := by
      rcases hu with rfl | rfl
      · exact .inl rfl
      · right; rw [← hfr]; rfl
    have hctrl : u.ctrl = s.ctrl.stage op out nIn := by rcases hu' with rfl | rfl <;> rfl
    rcases hc with hc | hc
    · rw [hc]
      exact ⟨u, _, _, hu', rfl, by rw [hctrl], fun _ => rfl, .inl ⟨rfl, rfl⟩⟩
    · rw [hc]
      simp only [Bool.not_true, Bool.false_eq_true, if_false]
      have hl : ∀ g n r e, (u.ctrl.finished g n r e).fifo.length = (s.ctrl.stage op out nIn).fifo.length := by
        intro g n r e; simp [Ctrl.finished, hctrl]
      have hun : ∀ g n r e, s.ctrl.unknown = true → (u.ctrl.finished g n r e).unknown = true := by
        intro g n r e h; simp [Ctrl.finished, hctrl, Ctrl.stage, h]
      split
      · exact ⟨u, _, _, hu', rfl, hl _ _ _ _, hun _ _ _ _, .inr (.inl rfl)⟩
      · exact ⟨u, _, _, hu', rfl, hl _ _ _ _, hun _ _ _ _, .inr (.inr ⟨_, by simp, rfl⟩)⟩
  · have hok' : xferOk s.cfg.gen out.length nIn = false := by simpa using hok
    exact .inl ⟨hok', by rw [if_neg hok]⟩

end Sys2Proof.Machine
end

