-- ==== Sys2Proof/Laws/Acts.lean ====
section
/-! SUPPORT. What each act can do, said once: what it leaves alone, what it answers, and the rule by which a property of the
state is checked against the acts (`Kept`). -/

namespace Sys2Proof.Machine

variable {s t : State}

/-! ### What every act leaves alone -/

/-- The fields that no act changes (R23, R30, R390): parameters, CMD, ADDR, LEN, RESULT, RDATA, the queues of the outside
world and the data HOST read; and, of the command in flight, the latched operands and the answers heard. -/
structure Steady (s t : State) : Prop where
  cfg      : t.cfg = s.cfg
  cmd      : t.cmd = s.cmd
  addr     : t.addr = s.addr
  len      : t.len = s.len
  result   : t.result = s.result
  rdata    : t.rdata = s.rdata
  inbox    : t.inbox = s.inbox
  during   : t.during = s.during
  hostData : t.hostData = s.hostData
  idle     : s.phase = .idle → t.phase = .idle
  running  : ∀ r, s.phase = .running r → ∃ n h d, t.phase = .running { r with step := n, held := h, done := d }

theorem steady_of_phase (h1 : t.cfg = s.cfg) (h2 : t.cmd = s.cmd) (h3 : t.addr = s.addr) (h4 : t.len = s.len)
    (h5 : t.result = s.result) (h6 : t.rdata = s.rdata) (h7 : t.inbox = s.inbox) (h8 : t.during = s.during)
    (h9 : t.hostData = s.hostData) (h : t.phase = s.phase) : Steady s t :=
  ⟨h1, h2, h3, h4, h5, h6, h7, h8, h9, fun e => h.trans e, fun r e => ⟨r.step, r.held, r.done, h.trans e⟩⟩

theorem Steady.refl (s : State) : Steady s s := steady_of_phase rfl rfl rfl rfl rfl rfl rfl rfl rfl rfl

theorem Steady.trans {u : State} (a : Steady s t) (b : Steady t u) : Steady s u where
  cfg      := b.cfg.trans a.cfg
  cmd      := b.cmd.trans a.cmd
  addr     := b.addr.trans a.addr
  len      := b.len.trans a.len
  result   := b.result.trans a.result
  rdata    := b.rdata.trans a.rdata
  inbox    := b.inbox.trans a.inbox
  during   := b.during.trans a.during
  hostData := b.hostData.trans a.hostData
  idle     := fun e => b.idle (a.idle e)
  running  := fun r e => by
    obtain ⟨n, h, d, e'⟩ := a.running r e
    obtain ⟨n', h', d', e''⟩ := b.running _ e'
    exact ⟨n', h', d', e''⟩

theorem steady_map {f : Running → Running} (hf : ∀ r, ∃ n h d, f r = { r with step := n, held := h, done := d })
    (h1 : t.cfg = s.cfg) (h2 : t.cmd = s.cmd) (h3 : t.addr = s.addr) (h4 : t.len = s.len)
    (h5 : t.result = s.result) (h6 : t.rdata = s.rdata) (h7 : t.inbox = s.inbox) (h8 : t.during = s.during)
    (h9 : t.hostData = s.hostData) (h : t.phase = s.phase.map f) : Steady s t :=
  ⟨h1, h2, h3, h4, h5, h6, h7, h8, h9, fun e => by rw [h, e]; rfl, fun r e => by
    obtain ⟨n, k, d, h'⟩ := hf r
    exact ⟨n, k, d, by rw [h, e, ← h']; rfl⟩⟩

theorem steady_ecTraffic (fs : List Frame) (s : State) : Steady s (ecTraffic fs s) := by
  induction fs generalizing s with
  | nil => exact Steady.refl s
  | cons f fs ih =>
    have : Steady s (ecFrame f s) := steady_of_phase rfl rfl rfl rfl rfl rfl rfl rfl rfl rfl
    exact this.trans (ih _)

theorem steady_yieldTo (d : EcDraw) (s : State) : Steady s (yieldTo d s) := by
  rw [yieldTo]
  refine Steady.trans (t := if s.ecOwns = true then ecTraffic d.traffic s else s) ?_
    (steady_of_phase rfl rfl rfl rfl rfl rfl rfl rfl rfl rfl)
  split
  · exact steady_ecTraffic _ s
  · exact Steady.refl s

/-- What `Claim()` can do (R150): at `CLAIM_MAX` it fails; above 0 it counts; at 0 it yields, and the EC acknowledges or
not. -/
theorem claimBus_cases (s : State) :
    (s.claimCount = s.cfg.claimMax ∧ claimBus s = (.failed .busClaimFailed, s)) ∨
    (s.claimCount ≠ s.cfg.claimMax ∧ s.claimCount ≠ 0 ∧
      claimBus s = (.number (s.claimCount + 1), { s with claimCount := s.claimCount + 1 })) ∨
    (s.claimCount ≠ s.cfg.claimMax ∧ s.claimCount = 0 ∧
      ((s.env.drawEc.1.ack = true ∧ claimBus s = (.number 1,
          { yieldTo s.env.drawEc.1 { s with env := s.env.drawEc.2 } with ecOwns := false, claimCount := 1 })) ∨
       (s.env.drawEc.1.ack = false ∧ claimBus s = (.failed .busClaimFailed,
          yieldTo s.env.drawEc.1 { s with env := s.env.drawEc.2 })))) := by
  rw [claimBus]
  by_cases h1 : s.claimCount = s.cfg.claimMax
  · exact .inl ⟨h1, by rw [if_pos h1]⟩
  · rw [if_neg h1]
    by_cases h0 : s.claimCount = 0
    · rw [if_pos h0]
      refine .inr (.inr ⟨h1, h0, ?_⟩)
      cases ha : s.env.drawEc.1.ack
      · exact .inr ⟨rfl, by simp only [ha]; rfl⟩
      · exact .inl ⟨rfl, by simp only [ha]; rfl⟩
    · rw [if_neg h0]
      exact .inr (.inl ⟨h1, h0, rfl⟩)

theorem steady_claimBus (s : State) : Steady s (claimBus s).2 := by
  have hy : Steady s (yieldTo s.env.drawEc.1 { s with env := s.env.drawEc.2 }) :=
    Steady.trans (t := { s with env := s.env.drawEc.2 }) (steady_of_phase rfl rfl rfl rfl rfl rfl rfl rfl rfl rfl)
      (steady_yieldTo _ _)
  rcases claimBus_cases s with ⟨-, e⟩ | ⟨-, -, e⟩ | ⟨-, -, ⟨-, e⟩ | ⟨-, e⟩⟩ <;> rw [e]
  · exact Steady.refl s
  · exact steady_of_phase rfl rfl rfl rfl rfl rfl rfl rfl rfl rfl
  · exact hy.trans (steady_of_phase rfl rfl rfl rfl rfl rfl rfl rfl rfl rfl)
  · exact hy

/-- `Claim()` in a script is `Claim()`, and where it succeeds the command holds one claim more. -/
theorem claimOwn_cases (s : State) :
    (∃ t, claimBus s = (.failed .busClaimFailed, t) ∧ claimOwn s = (.failed .busClaimFailed, t)) ∨
    (∃ n t, claimBus s = (.number n, t) ∧
      claimOwn s = (.number n, { t with phase := t.phase.map fun r => { r with held := r.held + 1 } })) := by
  rcases claimBus_cases s with ⟨-, e⟩ | ⟨-, -, e⟩ | ⟨-, -, ⟨-, e⟩ | ⟨-, e⟩⟩ <;> rw [claimOwn, e]
  · exact .inl ⟨_, rfl, rfl⟩
  · exact .inr ⟨_, _, rfl, rfl⟩
  · exact .inr ⟨_, _, rfl, rfl⟩
  · exact .inl ⟨_, rfl, rfl⟩

theorem steady_releaseBus (s : State) : Steady s (releaseBus s) :=
  steady_of_phase (releaseBus_cfg s) (releaseBus_cmd s) (releaseBus_addr s) (releaseBus_len s) (releaseBus_result s)
    (releaseBus_rdata s) (releaseBus_inbox s) (releaseBus_during s) (releaseBus_hostData s) (releaseBus_phase s)

theorem steady_transact (op : Byte) (out : List Byte) (nIn : Nat) (s : State) :
    Steady s (transact op out nIn s).2 := by
  rcases transact_cases op out nIn s with ⟨-, e⟩ | ⟨-, u, c, x, hu, e, -⟩ <;> rw [e]
  · exact Steady.refl s
  · have h1 : Steady s (s.issue op out nIn) :=
      steady_map (fun r => ⟨r.step + 1, r.held, r.done, rfl⟩) rfl rfl rfl rfl rfl rfl rfl rfl rfl rfl
    have h2 : Steady (s.issue op out nIn) { u with ctrl := c } := by
      rcases hu with rfl | rfl <;> exact steady_of_phase rfl rfl rfl rfl rfl rfl rfl rfl rfl rfl
    exact h1.trans h2

/-- No act changes what `Steady` names. -/
theorem perform_steady {a : Act} {x : Answer} (h : perform a s = .ok (x, t)) : Steady s t := by
  cases a with
  | xfer op out n =>
    have e : transact op out n s = (x, t) := by simpa [perform] using h
    have := steady_transact op out n s
    rwa [e] at this
  | claim =>
    have e : claimOwn s = (x, t) := by simpa [perform] using h
    rcases claimOwn_cases s with ⟨u, e1, e2⟩ | ⟨n, u, e1, e2⟩ <;> rw [e2] at e <;> cases e <;>
      have := steady_claimBus s <;> rw [e1] at this
    · exact this
    · exact this.trans (steady_map (fun r => ⟨r.step, r.held + 1, r.done, rfl⟩) rfl rfl rfl rfl rfl rfl rfl rfl rfl rfl)
  | release =>
    cases h
    exact (steady_releaseBus s).trans
      (steady_map (fun r => ⟨r.step, r.held - 1, r.done, rfl⟩) rfl rfl rfl rfl rfl rfl rfl rfl rfl rfl)
  | hostClaim =>
    have e : claimBus s = (x, t) := by simpa [perform] using h
    have := steady_claimBus s
    rwa [e] at this
  | hostRelease =>
    have e : releaseHost s = (x, t) := by simpa [perform] using h
    rw [releaseHost] at e
    split at e <;> cases e
    · exact Steady.refl s
    · exact steady_releaseBus s
  | memRead i n =>
    simp only [perform] at h
    split at h <;> cases h
    exact Steady.refl s
  | memWrite i bs => cases h; exact steady_of_phase rfl rfl rfl rfl rfl rfl rfl rfl rfl rfl
  | commit n =>
    cases h; exact steady_map (fun r => ⟨r.step, r.held, n, rfl⟩) rfl rfl rfl rfl rfl rfl rfl rfl rfl rfl
  | tally n =>
    cases h; exact steady_map (fun r => ⟨r.step, r.held, n, rfl⟩) rfl rfl rfl rfl rfl rfl rfl rfl rfl rfl
  | unbind => cases h; exact steady_of_phase rfl rfl rfl rfl rfl rfl rfl rfl rfl rfl
  | bind d => cases h; exact steady_of_phase rfl rfl rfl rfl rfl rfl rfl rfl rfl rfl
  | identify w => cases h; exact steady_of_phase rfl rfl rfl rfl rfl rfl rfl rfl rfl rfl

/-- An act changes `DESC` only by `bind` and `unbind` (R30). -/
theorem perform_desc {a : Act} {x : Answer} (h : perform a s = .ok (x, t)) (h1 : a ≠ .unbind)
    (h2 : ∀ d, a ≠ .bind d) : t.desc = s.desc := by
  have hec : ∀ fs (s : State), (ecTraffic fs s).desc = s.desc := by
    intro fs; induction fs with
    | nil => intro s; rfl
    | cons f fs ih => intro s; exact ih _
  have hy : ∀ d (s : State), (yieldTo d s).desc = s.desc := by
    intro d s; rw [yieldTo]; show (ite _ _ _ : State).desc = _; split
    · exact hec _ s
    · rfl
  have hc : (claimBus s).2.desc = s.desc := by
    rcases claimBus_cases s with ⟨-, e⟩ | ⟨-, -, e⟩ | ⟨-, -, ⟨-, e⟩ | ⟨-, e⟩⟩ <;> rw [e]
    · exact hy _ _
    · exact hy _ _
  cases a with
  | xfer op out n =>
    have e : transact op out n s = (x, t) := by simpa [perform] using h
    rcases transact_cases op out n s with ⟨-, e'⟩ | ⟨-, u, c, y, hu, e', -⟩ <;> rw [e'] at e <;> cases e
    · rfl
    · rcases hu with rfl | rfl <;> rfl
  | claim =>
    have e : claimOwn s = (x, t) := by simpa [perform] using h
    rcases claimOwn_cases s with ⟨u, e1, e2⟩ | ⟨n, u, e1, e2⟩ <;> rw [e2] at e <;> cases e <;> rw [e1] at hc <;> exact hc
  | release => cases h; exact releaseBus_desc s
  | hostClaim =>
    have e : claimBus s = (x, t) := by simpa [perform] using h
    rwa [e] at hc
  | hostRelease =>
    have e : releaseHost s = (x, t) := by simpa [perform] using h
    rw [releaseHost] at e
    split at e <;> cases e
    · rfl
    · exact releaseBus_desc s
  | memRead i n =>
    simp only [perform] at h
    split at h <;> cases h
    rfl
  | memWrite i bs => cases h; rfl
  | commit n => cases h; rfl
  | tally n => cases h; rfl
  | unbind => exact absurd rfl h1
  | bind d => exact absurd rfl (h2 d)
  | identify w => cases h; rfl

/-! ### What acts answer -/

theorem dbufBytes_length {s : State} {n i : Nat} {bs : List Byte} (h : dbufBytes s i n = .ok bs) : bs.length = n := by
  induction n generalizing i bs with
  | zero => cases h; rfl
  | succ n ih =>
    rw [dbufBytes] at h
    split at h
    · cases h
    · split at h
      · cases h
      · cases h; simp [ih ‹_›]

theorem dbufBytes_ok {s : State} {i n : Nat} (h : ∀ j < n, ∃ b, s.dbuf.lookup (i + j) = some b) :
    dbufBytes s i n = .ok (s.dbufSlice i n) := by
  induction n generalizing i with
  | zero => rfl
  | succ n ih =>
    obtain ⟨b, hb⟩ := h 0 (by omega)
    rw [Nat.add_zero] at hb
    have h1 : s.dbuf.read .dbuf i = some b := by simp [Memory.read, hb]
    have h2 := ih (i := i + 1) fun j hj => by
      rw [show i + 1 + j = i + (j + 1) by omega]; exact h (j + 1) (by omega)
    have h3 : s.dbufAt (i + 0) = b := by simp [State.dbufAt, hb]
    simp only [dbufBytes, h1, h2, State.dbufSlice, List.range_succ_eq_map, List.map_cons, List.map_map, h3]
    congr 2
    apply List.map_congr_left
    intro j _
    show s.dbufAt (i + 1 + j) = s.dbufAt (i + (j + 1))
    congr 1; omega

/-- Bytes that `MemRead` gives are those DBUF holds. -/
theorem dbufBytes_slice {s : State} {n i : Nat} {bs : List Byte} (h : dbufBytes s i n = .ok bs) :
    bs = s.dbufSlice i n := by
  have hl : ∀ n i bs, dbufBytes s i n = .ok bs → ∀ j < n, ∃ b, s.dbuf.lookup (i + j) = some b := by
    intro n
    induction n with
    | zero => intro i bs _ j hj; omega
    | succ n ih =>
      intro i bs h j hj
      rw [dbufBytes] at h
      split at h
      · cases h
      · rename_i b hb
        split at h
        · cases h
        · rename_i cs hcs
          cases j with
          | zero =>
            rw [Nat.add_zero]
            rw [Memory.read] at hb
            split at hb
            · exact ⟨_, ‹_›⟩
            · cases hb
          | succ j => rw [show i + (j + 1) = i + 1 + j by omega]; exact ih (i + 1) cs hcs j (by omega)
  have := dbufBytes_ok (hl n i bs h)
  rw [h] at this
  cases this
  rfl

/-- The answers acts give (R141, R150, R165). -/
def Act.Answers : Act → Answer → Prop
  | .xfer _ _ n, x  =>
    x = .failed .transferTooLarge ∨ x = .failed .timeout ∨ x = .failed .commandFailed ∨
      ∃ bs : List Byte, bs.length = n ∧ x = .bytes bs
  | .claim, x       => x = .failed .busClaimFailed ∨ ∃ n, x = .number n
  | .hostClaim, x   => x = .failed .busClaimFailed ∨ ∃ n, x = .number n
  | .hostRelease, x => x = .failed .illegalCommand ∨ ∃ n, x = .number n
  | .memRead _ n, x => ∃ bs : List Byte, bs.length = n ∧ x = .bytes bs
  | _, x            => x = .done

theorem perform_answers {a : Act} {x : Answer} (h : perform a s = .ok (x, t)) : a.Answers x := by
  have hb : ∀ x t, claimBus s = (x, t) → x = .failed .busClaimFailed ∨ ∃ n, x = .number n := by
    intro x t e
    rcases claimBus_cases s with ⟨-, e'⟩ | ⟨-, -, e'⟩ | ⟨-, -, ⟨-, e'⟩ | ⟨-, e'⟩⟩ <;> rw [e'] at e <;> cases e
    · exact .inl rfl
    · exact .inr ⟨_, rfl⟩
    · exact .inr ⟨_, rfl⟩
    · exact .inl rfl
  cases a with
  | xfer op out n =>
    have e : transact op out n s = (x, t) := by simpa [perform] using h
    rcases transact_cases op out n s with ⟨-, e'⟩ | ⟨-, u, c, y, hu, e', -, -, hy⟩ <;> rw [e'] at e <;> cases e
    · exact .inl rfl
    · rcases hy with ⟨h, -⟩ | h | h
      · exact .inr (.inl h)
      · exact .inr (.inr (.inl h))
      · exact .inr (.inr (.inr h))
  | claim =>
    have e : claimOwn s = (x, t) := by simpa [perform] using h
    rcases claimOwn_cases s with ⟨u, e1, e2⟩ | ⟨n, u, e1, e2⟩ <;> rw [e2] at e <;> cases e
    · exact .inl rfl
    · exact .inr ⟨_, rfl⟩
  | hostClaim => exact hb x t (by simpa [perform] using h)
  | hostRelease =>
    have e : releaseHost s = (x, t) := by simpa [perform] using h
    rw [releaseHost] at e
    split at e <;> cases e
    · exact .inl rfl
    · exact .inr ⟨_, rfl⟩
  | memRead i n =>
    simp only [perform] at h
    split at h
    · cases h; exact ⟨_, dbufBytes_length ‹_›, rfl⟩
    · cases h
  | release => cases h; rfl
  | memWrite i bs => cases h; rfl
  | commit n => cases h; rfl
  | tally n => cases h; rfl
  | unbind => cases h; rfl
  | bind d => cases h; rfl
  | identify w => cases h; rfl

/-- The answer an act gives is one it admits. -/
theorem Act.Answers.admits {a : Act} {x : Answer} (h : a.Answers x) : a.admits x := by
  cases a with
  | xfer op out n =>
    rcases h with rfl | rfl | rfl | ⟨bs, hl, rfl⟩
    · trivial
    · trivial
    · trivial
    · exact hl
  | memRead i n => obtain ⟨bs, hl, rfl⟩ := h; exact hl
  | _ => cases x <;> trivial

/-! ### Properties the acts keep -/

/-- `P` is kept by what the acts with `A` are made of. -/
structure Kept (P : State → Prop) (A : Act → Prop) : Prop where
  issue    : ∀ s op out n, A (.xfer op out n) → xferOk s.cfg.gen out.length n = true → P s → P (s.issue op out n)
  drawCtrl : ∀ s, P s → P { s with env := s.env.drawCtrl.2 }
  frame    : ∀ s op out n, A (.xfer op out n) → P s → P (chipFrame ⟨op, out, n⟩ s).2
  ctrl     : ∀ s c, c.fifo.length = s.ctrl.fifo.length → (s.ctrl.unknown = true → c.unknown = true) → P s →
    P { s with ctrl := c }
  claim    : ∀ s, A .claim → P s → P (claimOwn s).2
  release  : ∀ s, A .release → P s → P (releaseOwn s)
  host     : ∀ s, A .hostClaim → P s → P (claimBus s).2
  unhost   : ∀ s, A .hostRelease → s.claimCount ≠ 0 → P s → P (releaseBus s)
  memWrite : ∀ s i bs, A (.memWrite i bs) → P s → P { s with dbuf := s.dbuf.writeList .dbuf i bs }
  commit   : ∀ s n, A (.commit n) → P s → P (s.commit n)
  tally    : ∀ s n, A (.tally n) → P s → P (s.tally n)
  unbind   : ∀ s, A .unbind → P s → P { s with desc := none }
  bind     : ∀ s d, A (.bind d) → P s → P { s with desc := some d }
  identify : ∀ s w, A (.identify w) → P s → P { s with jedecId := w }
  hear     : ∀ s x, P s → P (s.hear x)

/-- What the acts are made of keeps `P`, so the acts do. -/
theorem Kept.perform {P : State → Prop} {A : Act → Prop} (K : Kept P A) {a : Act} {x : Answer} (ha : A a) (hs : P s)
    (h : perform a s = .ok (x, t)) : P (t.hear x) := by
  apply K.hear
  cases a with
  | xfer op out n =>
    have e : transact op out n s = (x, t) := by simpa [Machine.perform] using h
    rcases transact_cases op out n s with ⟨-, e'⟩ | ⟨hok, u, c, y, hu, e', h1, h2, -⟩ <;> rw [e'] at e <;> cases e
    · exact hs
    · have hi := K.drawCtrl _ (K.issue s op out n ha hok hs)
      rcases hu with rfl | rfl
      · exact K.ctrl _ c h1 h2 hi
      · exact K.ctrl _ c h1 h2 (K.frame _ op out n ha hi)
  | claim =>
    have e : claimOwn s = (x, t) := by simpa [Machine.perform] using h
    have := K.claim s ha hs
    rwa [e] at this
  | release => cases h; exact K.release s ha hs
  | hostClaim =>
    have e : claimBus s = (x, t) := by simpa [Machine.perform] using h
    have := K.host s ha hs
    rwa [e] at this
  | hostRelease =>
    have e : releaseHost s = (x, t) := by simpa [Machine.perform] using h
    rw [releaseHost] at e
    split at e <;> cases e
    · exact hs
    · exact K.unhost s ha ‹_› hs
  | memRead i n =>
    simp only [Machine.perform] at h
    split at h <;> cases h
    exact hs
  | memWrite i bs => cases h; exact K.memWrite s i bs ha hs
  | commit n => cases h; exact K.commit s n ha hs
  | tally n => cases h; exact K.tally s n ha hs
  | unbind => cases h; exact K.unbind s ha hs
  | bind d => cases h; exact K.bind s d ha hs
  | identify w => cases h; exact K.identify s w ha hs

end Sys2Proof.Machine
end

