-- ==== Sys2Proof/Laws/Chip.lean ====
section
/-! SUPPORT. The laws of the chip responder: the opcode dispatch of a well-formed opcode set, status-register fields
after a write, and the answer to each kind of frame. -/

namespace Sys2Proof.Machine

/-! ### Dispatch -/

section
variable {o : OpSet} (h : o.wf)
include h

omit h in
theorem roleOf_rdid : roleOf o o.rdid = some .rdid := by simp [roleOf]
theorem roleOf_read : roleOf o o.read = some .read := by
  simp [OpSet.wf, OpSet.bytes] at h; simp [roleOf, h, eq_comm]
theorem roleOf_fastRead : roleOf o o.fastRead = some .fastRead := by
  simp [OpSet.wf, OpSet.bytes] at h; simp [roleOf, h, eq_comm]
theorem roleOf_rdsr1 : roleOf o o.rdsr1 = some .rdsr1 := by
  simp [OpSet.wf, OpSet.bytes] at h; simp [roleOf, h, eq_comm]
theorem roleOf_rdsr2 : roleOf o o.rdsr2 = some .rdsr2 := by
  simp [OpSet.wf, OpSet.bytes] at h; simp [roleOf, h, eq_comm]
theorem roleOf_wren : roleOf o o.wren = some .wren := by
  simp [OpSet.wf, OpSet.bytes] at h; simp [roleOf, h, eq_comm]
theorem roleOf_wrsr : roleOf o o.wrsr = some .wrsr := by
  simp [OpSet.wf, OpSet.bytes] at h; simp [roleOf, h, eq_comm]
theorem roleOf_pp : roleOf o o.pp = some .pp := by
  simp [OpSet.wf, OpSet.bytes] at h; simp [roleOf, h, eq_comm]
theorem roleOf_se : roleOf o o.se = some .se := by
  simp [OpSet.wf, OpSet.bytes] at h; simp [roleOf, h, eq_comm]
theorem roleOf_secErase : roleOf o o.secErase = some .secErase := by
  simp [OpSet.wf, OpSet.bytes] at h; simp [roleOf, h, eq_comm]
theorem roleOf_secProg : roleOf o o.secProg = some .secProg := by
  simp [OpSet.wf, OpSet.bytes] at h; simp [roleOf, h, eq_comm]
theorem roleOf_secRead : roleOf o o.secRead = some .secRead := by
  simp [OpSet.wf, OpSet.bytes] at h; simp [roleOf, h, eq_comm]

end

/-! ### Bits of a status register -/

theorem getLsbD_bitAt (n : Nat) (v : Bool) {i : Nat} (hi : i < 8) :
    (bitAt n v).getLsbD i = (decide (i = n) && v) := by
  cases v with
  | false => simp [bitAt]
  | true =>
    rw [bitAt, if_pos rfl, BitVec.getLsbD_twoPow]
    by_cases h : i = n
    · subst h; simp [hi]
    · simp [h, Ne.symm h]

theorem getElem_bitAt (n : Nat) (v : Bool) {i : Nat} (hi : i < 8) : (bitAt n v)[i] = (decide (i = n) && v) := by
  rw [← BitVec.getLsbD_eq_getElem]
  exact getLsbD_bitAt n v hi

/-- Two bytes with the same eight bits are the same. -/
theorem byte_ext {x y : Byte} (h : ∀ i : Fin 8, x.getLsbD i.val = y.getLsbD i.val) : x = y :=
  BitVec.eq_of_getLsbD_eq fun i hi => h ⟨i, hi⟩

namespace Chip

/-- The chip with the WP pin at a level. -/
def atPin (c : Chip) (l : Level) : Chip := { c with wp := l }

/-- The chip when its busy period, if any, is over (R312). -/
def settled (c : Chip) : Chip :=
  if c.busyLeft = 0 then c else ({ c with busyLeft := 0, inFlight := .none } : Chip).setWel false

@[simp] theorem atPin_desc (c : Chip) (l : Level) : (c.atPin l).desc = c.desc := rfl
@[simp] theorem atPin_array (c : Chip) (l : Level) : (c.atPin l).array = c.array := rfl
@[simp] theorem atPin_secreg (c : Chip) (l : Level) : (c.atPin l).secreg = c.secreg := rfl
@[simp] theorem atPin_sr1 (c : Chip) (l : Level) : (c.atPin l).sr1 = c.sr1 := rfl
@[simp] theorem atPin_sr2 (c : Chip) (l : Level) : (c.atPin l).sr2 = c.sr2 := rfl
@[simp] theorem atPin_busyLeft (c : Chip) (l : Level) : (c.atPin l).busyLeft = c.busyLeft := rfl
@[simp] theorem atPin_inFlight (c : Chip) (l : Level) : (c.atPin l).inFlight = c.inFlight := rfl
@[simp] theorem atPin_atPin (c : Chip) (l m : Level) : (c.atPin l).atPin m = c.atPin m := rfl
@[simp] theorem atPin_wp (c : Chip) : c.atPin c.wp = c := rfl
@[simp] theorem setWel_desc (c : Chip) (v : Bool) : (c.setWel v).desc = c.desc := rfl
@[simp] theorem setWel_mfr (c : Chip) (v : Bool) : (c.setWel v).mfr = c.mfr := rfl
@[simp] theorem setWel_array (c : Chip) (v : Bool) : (c.setWel v).array = c.array := rfl
@[simp] theorem setWel_secreg (c : Chip) (v : Bool) : (c.setWel v).secreg = c.secreg := rfl
@[simp] theorem setWel_sr2 (c : Chip) (v : Bool) : (c.setWel v).sr2 = c.sr2 := rfl
@[simp] theorem setWel_busyLeft (c : Chip) (v : Bool) : (c.setWel v).busyLeft = c.busyLeft := rfl
@[simp] theorem setWel_inFlight (c : Chip) (v : Bool) : (c.setWel v).inFlight = c.inFlight := rfl
@[simp] theorem setWel_wp (c : Chip) (v : Bool) : (c.setWel v).wp = c.wp := rfl

theorem sr1_setWel (c : Chip) (v : Bool) (i : Nat) :
    (c.setWel v).sr1.getLsbD i = if i = 1 then v else c.sr1.getLsbD i := by
  rw [setWel]
  by_cases h : i < 8
  · interval_cases i <;> simp [getElem_bitAt]
  · have h1 : i ≠ 1 := by omega
    simp [BitVec.getLsbD_of_ge _ _ (Nat.not_lt.1 h), h1]

@[simp] theorem wel_setWel (c : Chip) (v : Bool) : (c.setWel v).wel = v := by
  rw [wel, sr1_setWel, if_pos rfl]

@[simp] theorem setWel_setWel (c : Chip) (v w : Bool) : (c.setWel v).setWel w = c.setWel w := by
  have : ((c.setWel v).setWel w).sr1 = (c.setWel w).sr1 := byte_ext fun i => by
    simp only [sr1_setWel]; split <;> rfl
  rw [show (c.setWel v).setWel w = { c.setWel w with sr1 := ((c.setWel v).setWel w).sr1 } from rfl, this]

theorem setWel_self {c : Chip} {v : Bool} (h : c.wel = v) : c.setWel v = c := by
  have : (c.setWel v).sr1 = c.sr1 := byte_ext fun i => by
    rw [sr1_setWel]
    split
    · rename_i hi; rw [hi]; exact h.symm
    · rfl
  rw [show c.setWel v = { c with sr1 := (c.setWel v).sr1 } from rfl, this]

@[simp] theorem srp0_setWel (c : Chip) (v : Bool) : (c.setWel v).srp0 = c.srp0 := by
  rw [srp0, sr1_setWel]; rfl
@[simp] theorem srp1_setWel (c : Chip) (v : Bool) : (c.setWel v).srp1 = c.srp1 := rfl
@[simp] theorem lockBit_setWel (c : Chip) (v : Bool) (r : Nat) : (c.setWel v).lockBit r = c.lockBit r := rfl
@[simp] theorem srWritable_setWel (c : Chip) (v : Bool) (l : Level) :
    (c.setWel v).srWritable l = c.srWritable l := by simp [srWritable]

theorem tuple_setWel (c : Chip) (v : Bool) : (c.setWel v).tuple = c.tuple := by
  have e : ∀ i, 2 ≤ i → (c.setWel v).sr1.getLsbD i = c.sr1.getLsbD i := fun i hi => by
    rw [sr1_setWel, if_neg (by omega)]
  simp only [tuple, decTuple, RangeTuple.mk.injEq]
  refine ⟨rfl, ?_, e 6 (by omega), e 5 (by omega)⟩
  apply BitVec.eq_of_getLsbD_eq
  intro i hi
  simp only [BitVec.getLsbD_extractLsb', e (2 + i) (by omega)]

@[simp] theorem srp0_atPin (c : Chip) (l : Level) : (c.atPin l).srp0 = c.srp0 := rfl
@[simp] theorem srp1_atPin (c : Chip) (l : Level) : (c.atPin l).srp1 = c.srp1 := rfl
@[simp] theorem wel_atPin (c : Chip) (l : Level) : (c.atPin l).wel = c.wel := rfl
@[simp] theorem tuple_atPin (c : Chip) (l : Level) : (c.atPin l).tuple = c.tuple := rfl
@[simp] theorem lockBit_atPin (c : Chip) (l : Level) (r : Nat) : (c.atPin l).lockBit r = c.lockBit r := rfl
@[simp] theorem sr1Read_atPin (c : Chip) (l : Level) : (c.atPin l).sr1Read = c.sr1Read := rfl
@[simp] theorem sr2Read_atPin (c : Chip) (l : Level) (b : Bool) : (c.atPin l).sr2Read b = c.sr2Read b := rfl
@[simp] theorem srWritable_atPin (c : Chip) (l m : Level) : (c.atPin l).srWritable m = c.srWritable m := rfl
theorem setWel_atPin (c : Chip) (l : Level) (v : Bool) : (c.atPin l).setWel v = (c.setWel v).atPin l := rfl

theorem sr1Read_bit (c : Chip) (i : Nat) :
    c.sr1Read.getLsbD i = if i = 0 then decide (0 < c.busyLeft) else c.sr1.getLsbD i := by
  rw [sr1Read]
  by_cases h : i < 8
  · interval_cases i <;> simp [getElem_bitAt]
  · have h1 : i ≠ 0 := by omega
    simp [BitVec.getLsbD_of_ge _ _ (Nat.not_lt.1 h), h1]

theorem sr2Read_bit (c : Chip) (b : Bool) (i : Nat) :
    (c.sr2Read b).getLsbD i = if i = 2 then b else c.sr2.getLsbD i := by
  rw [sr2Read]
  by_cases h : i < 8
  · interval_cases i <;> simp [getElem_bitAt]
  · have h1 : i ≠ 2 := by omega
    simp [BitVec.getLsbD_of_ge _ _ (Nat.not_lt.1 h), h1]

theorem writeStatus_sr1_bit (c : Chip) (a b : Byte) (i : Nat) :
    (c.writeStatus a b).sr1.getLsbD i = if 2 ≤ i then a.getLsbD i else c.sr1.getLsbD i := by
  rw [writeStatus]
  by_cases h : i < 8
  · interval_cases i <;> simp
  · have h1 : 2 ≤ i := by omega
    simp [BitVec.getLsbD_of_ge _ _ (Nat.not_lt.1 h), h1]

theorem writeStatus_sr2_bit (c : Chip) (a b : Byte) (i : Nat) :
    (c.writeStatus a b).sr2.getLsbD i =
      if i = 0 ∨ i = 1 ∨ i = 6 then b.getLsbD i
      else if i = 3 ∨ i = 4 ∨ i = 5 then (c.sr2.getLsbD i || b.getLsbD i)
      else c.sr2.getLsbD i := by
  rw [writeStatus]
  by_cases h : i < 8
  · interval_cases i <;> simp
  · have h1 : i ≠ 0 ∧ i ≠ 1 ∧ i ≠ 6 := by omega
    have h2 : i ≠ 3 ∧ i ≠ 4 ∧ i ≠ 5 := by omega
    simp [BitVec.getLsbD_of_ge _ _ (Nat.not_lt.1 h), h1, h2]

/-- WEL is no part of what a status write writes. -/
theorem writeStatus_setWel (c : Chip) (a b : Byte) (v w : Bool) :
    ((c.setWel v).writeStatus a b).setWel w = (c.writeStatus a b).setWel w := by
  have : (((c.setWel v).writeStatus a b).setWel w).sr1 = ((c.writeStatus a b).setWel w).sr1 := byte_ext fun i => by
    simp only [sr1_setWel, writeStatus_sr1_bit]
    split
    · rfl
    · split
      · rfl
      · rfl
  rw [show ((c.setWel v).writeStatus a b).setWel w =
    { (c.writeStatus a b).setWel w with sr1 := (((c.setWel v).writeStatus a b).setWel w).sr1 } from rfl, this]

/-! ### Answers -/

theorem departure_plain {c : Chip} (hp : c.desc.departs = none) (x : Stimulus) : c.departure x = none := by
  rw [departure, hp]; rfl

theorem powerCycle_plain {c : Chip} (hp : c.desc.departs = none) (noise : List Byte) :
    c.powerCycle noise = c.restarted noise := by
  rw [powerCycle, departure_plain hp]

theorem answer_idle {c : Chip} (hp : c.desc.departs = none) (h : c.busyLeft = 0) (d : ChipDraw) (f : Frame) :
    c.answer d f =
      (padResponse f.nIn ((c.atPin d.wp).serve d f).1 d.noise, ((c.atPin d.wp).serve d f).2) := by
  have e : respond (c.atPin d.wp) d f = (c.atPin d.wp).serve d f := by
    rw [respond, departure_plain (show (c.atPin d.wp).desc.departs = none from hp)]
    exact if_neg (by rw [atPin_busyLeft]; omega)
  rw [← e]; rfl

theorem answer_busy {c : Chip} (hp : c.desc.departs = none) (h : 0 < c.busyLeft) (d : ChipDraw) (f : Frame) :
    c.answer d f =
      (padResponse f.nIn ((c.atPin d.wp).serveBusy d f).1 d.noise, ((c.atPin d.wp).serveBusy d f).2) := by
  have e : respond (c.atPin d.wp) d f = (c.atPin d.wp).serveBusy d f := by
    rw [respond, departure_plain (show (c.atPin d.wp).desc.departs = none from hp)]
    exact if_pos h
  rw [← e]; rfl

/-- A departing part answers as its difference says (R332). -/
theorem answer_departs {c : Chip} {d : ChipDraw} {f : Frame} {x : Departure}
    (h : (c.atPin d.wp).departure (.frame d f) = some x) :
    c.answer d f = (padResponse f.nIn x.given d.noise, (c.atPin d.wp).departed x) := by
  have e : respond (c.atPin d.wp) d f = (x.given, (c.atPin d.wp).departed x) := by rw [respond, h]
  show (padResponse f.nIn (respond (c.atPin d.wp) d f).1 d.noise, (respond (c.atPin d.wp) d f).2) = _
  rw [e]

theorem padResponse_one (x : Byte) (noise : List Byte) : padResponse 1 [x] noise = [x] := rfl

theorem serveBusy_snd (c : Chip) (d : ChipDraw) (f : Frame) : (c.serveBusy d f).2 = c.tick := by
  rw [serveBusy]; split <;> rfl

variable {c : Chip} (hp : c.desc.departs = none) (hw : c.desc.op.wf)
include hp hw

theorem answer_rdsr1 (h : c.busyLeft = 0) (d : ChipDraw) :
    c.answer d ⟨c.desc.op.rdsr1, [], 1⟩ = ([c.sr1Read], c.atPin d.wp) := by
  rw [answer_idle hp h]
  simp [serve, roleOf_rdsr1 hw, padResponse_one]

theorem answer_rdsr1_busy (h : 0 < c.busyLeft) (d : ChipDraw) :
    c.answer d ⟨c.desc.op.rdsr1, [], 1⟩ = ([c.sr1Read], (c.atPin d.wp).tick) := by
  rw [answer_busy hp h]
  simp [serveBusy, roleOf_rdsr1 hw, padResponse_one]

theorem answer_rdsr2 (h : c.busyLeft = 0) (d : ChipDraw) :
    c.answer d ⟨c.desc.op.rdsr2, [], 1⟩ = ([c.sr2Read d.reserved], c.atPin d.wp) := by
  rw [answer_idle hp h]
  simp [serve, roleOf_rdsr2 hw, padResponse_one]

theorem answer_wren (h : c.busyLeft = 0) (d : ChipDraw) :
    (c.answer d ⟨c.desc.op.wren, [], 0⟩).2 = (c.atPin d.wp).setWel true := by
  rw [answer_idle hp h]
  simp [serve, roleOf_wren hw]

theorem answer_wrsr (h : c.busyLeft = 0) (d : ChipDraw) (a b : Byte) :
    (c.answer d ⟨c.desc.op.wrsr, [a, b], 0⟩).2 = (c.atPin d.wp).statusWrite d a b := by
  rw [answer_idle hp h]
  simp [serve, roleOf_wrsr hw]

end Chip

end Sys2Proof.Machine
end

