-- ==== Sys2Proof/Laws/Memory.lean ====
section
/-! SUPPORT. The laws of the byte stores: what one byte reads as after each operation, and that every operation keeps
the canonical form. -/

namespace Sys2Proof.Machine.Memory

@[simp] theorem lookup_nil (a : Nat) : lookup [] a = none := rfl

@[simp] theorem lookup_cons (c : Host.Cell) (m : Memory) (a : Nat) :
    lookup (c :: m) a = if c.1 = a then some c.2 else lookup m a := rfl

theorem lookup_append (m n : Memory) (a : Nat) :
    lookup (m ++ n) a = (lookup m a).or (lookup n a) := by
  induction m with
  | nil => simp
  | cons c m ih => by_cases h : c.1 = a <;> simp [h, ih]

theorem lookup_filter (q : Nat → Bool) (m : Memory) (a : Nat) :
    lookup (m.filter fun c => q c.1) a = if q a then lookup m a else none := by
  induction m with
  | nil => simp
  | cons c m ih =>
    by_cases h : c.1 = a
    · subst h
      by_cases hq : q c.1 <;> simp [hq, ih]
    · by_cases hq : q c.1 <;> simp [hq, h, ih]

theorem lookup_listing (sp : Space) (lo : Nat) (bs : List Byte) (a : Nat) :
    lookup (listing sp lo bs) a =
      if lo ≤ a then (bs[a - lo]?).filter (fun b => sp.fill ≠ some b) else none := by
  induction bs generalizing lo with
  | nil => simp [listing]
  | cons b bs ih =>
    rcases Nat.lt_trichotomy lo a with h | h | h
    · obtain ⟨k, rfl⟩ : ∃ k, a = lo + 1 + k := ⟨a - lo - 1, by omega⟩
      have h1 : lo + 1 + k - lo = k + 1 := by omega
      have h2 : lo ≠ lo + 1 + k := by omega
      by_cases hf : sp.fill = some b <;>
        simp [listing, hf, ih, h1, h2, Nat.le_of_lt h]
    · subst h
      by_cases hf : sp.fill = some b <;> simp [listing, hf, ih, Option.filter]
    · have h2 : lo ≠ a := by omega
      have h3 : ¬ lo ≤ a := by omega
      have h4 : ¬ lo + 1 ≤ a := by omega
      by_cases hf : sp.fill = some b <;> simp [listing, hf, ih, h2, h3, h4]

theorem lookup_writeList (sp : Space) (m : Memory) (lo : Nat) (bs : List Byte) (a : Nat) :
    lookup (m.writeList sp lo bs) a =
      if lo ≤ a ∧ a < lo + bs.length then (bs[a - lo]?).filter (fun b => sp.fill ≠ some b)
      else lookup m a := by
  have e1 : lookup (m.filter fun c => decide (c.1 < lo)) a = if a < lo then lookup m a else none := by
    simpa using lookup_filter (fun k => decide (k < lo)) m a
  have e2 : lookup (m.filter fun c => decide (lo + bs.length ≤ c.1)) a =
      if lo + bs.length ≤ a then lookup m a else none := by
    simpa using lookup_filter (fun k => decide (lo + bs.length ≤ k)) m a
  rw [writeList, lookup_append, lookup_append, e1, e2, lookup_listing]
  by_cases h1 : a < lo
  · have : ¬ lo ≤ a := by omega
    have h3 : ¬ (lo + bs.length ≤ a) := by omega
    simp [h1, this, h3]
  · have h2 : lo ≤ a := by omega
    by_cases h3 : lo + bs.length ≤ a
    · have h4 : ¬ a < lo + bs.length := by omega
      have h5 : bs[a - lo]? = none := by
        rw [List.getElem?_eq_none_iff]; omega
      simp [h1, h2, h3, h4, h5]
    · have h4 : a < lo + bs.length := by omega
      simp [h1, h2, h3, h4]

/-- What a byte reads as after a write of consecutive bytes. -/
theorem read_writeList (sp : Space) (m : Memory) (lo : Nat) (bs : List Byte) (a : Nat) :
    (m.writeList sp lo bs).read sp a =
      if lo ≤ a ∧ a < lo + bs.length then bs[a - lo]? else m.read sp a := by
  rw [read, lookup_writeList]
  by_cases h : lo ≤ a ∧ a < lo + bs.length
  · have hl : a - lo < bs.length := by omega
    rw [if_pos h, if_pos h, List.getElem?_eq_getElem hl]
    by_cases hf : sp.fill = some (bs[a - lo]'hl)
    · simp [Option.filter, hf]
    · simp [Option.filter, hf]
  · rw [if_neg h, if_neg h, read]

/-- A flash store's byte is its read, the fill of the two flash stores being an erased byte. -/
theorem byte_eq_read (sp : Space) (h : sp.fill = some erasedByte) (m : Memory) (a : Nat) :
    m.byte a = (m.read sp a).getD erasedByte := by
  rw [byte, read]
  cases m.lookup a <;> simp [h]

/-- What a flash byte reads as after a write of consecutive bytes. -/
theorem byte_writeList (sp : Space) (h : sp.fill = some erasedByte) (m : Memory) (lo : Nat) (bs : List Byte)
    (a : Nat) :
    (m.writeList sp lo bs).byte a =
      if lo ≤ a ∧ a < lo + bs.length then (bs[a - lo]?).getD erasedByte else m.byte a := by
  rw [byte_eq_read sp h, byte_eq_read sp h, read_writeList]
  split <;> rfl

/-- What a flash byte reads as after an erase. -/
theorem byte_clearRange (m : Memory) (lo n a : Nat) :
    (m.clearRange lo n).byte a = if lo ≤ a ∧ a < lo + n then erasedByte else m.byte a := by
  have e := lookup_filter (fun k => decide (¬ (lo ≤ k ∧ k < lo + n))) m a
  rw [byte, clearRange, e, byte]
  by_cases h : lo ≤ a ∧ a < lo + n <;> simp [h]

/-- What a flash byte reads as after a program: bits are only cleared. -/
theorem byte_program (sp : Space) (h : sp.fill = some erasedByte) (m : Memory) (lo : Nat) (buf : List Byte)
    (a : Nat) :
    (m.program sp lo buf).byte a = m.byte a &&& (if lo ≤ a then (buf[a - lo]?).getD erasedByte else erasedByte) := by
  have ones : ∀ x : Byte, x &&& erasedByte = x := by decide
  rw [program, byte_writeList sp h, List.length_mapIdx]
  by_cases hl : lo ≤ a
  · by_cases hb : a < lo + buf.length
    · have hi : a - lo < buf.length := by omega
      have ha : lo + (a - lo) = a := by omega
      simp [hl, hb, hi, ha]
    · have hn : buf[a - lo]? = none := by rw [List.getElem?_eq_none_iff]; omega
      simp [hl, hb, hn, ones]
  · simp [hl, ones]

/-! ### The canonical form -/

theorem wf_filter {sp : Space} {m : Memory} (q : Host.Cell → Bool) (h : m.wf sp) : wf sp (m.filter q) :=
  ⟨h.1.filter q, fun c hc => h.2 c (List.mem_of_mem_filter hc)⟩

theorem listing_bounds (sp : Space) (lo : Nat) (bs : List Byte) :
    ∀ c ∈ listing sp lo bs, lo ≤ c.1 ∧ c.1 < lo + bs.length := by
  induction bs generalizing lo with
  | nil => simp [listing]
  | cons b bs ih =>
    intro c hc
    rw [listing] at hc
    split at hc
    · have := ih (lo + 1) c hc
      simp only [List.length_cons]; omega
    · rcases List.mem_cons.1 hc with rfl | hc
      · simp
      · have := ih (lo + 1) c hc
        simp only [List.length_cons]; omega

theorem wf_listing (sp : Space) (lo : Nat) (bs : List Byte) : wf sp (listing sp lo bs) := by
  induction bs generalizing lo with
  | nil => simp [listing, wf]
  | cons b bs ih =>
    rw [listing]
    split
    · exact ih (lo + 1)
    · rename_i hf
      refine ⟨List.pairwise_cons.2 ⟨fun c hc => ?_, (ih (lo + 1)).1⟩, fun c hc => ?_⟩
      · have := listing_bounds sp (lo + 1) bs c hc
        show lo < c.1
        omega
      · rcases List.mem_cons.1 hc with rfl | hc
        · exact hf
        · exact (ih (lo + 1)).2 c hc

/-- Writing keeps the canonical form. -/
theorem wf_writeList {sp : Space} {m : Memory} (lo : Nat) (bs : List Byte) (h : m.wf sp) :
    wf sp (m.writeList sp lo bs) := by
  obtain ⟨hp1, hf1⟩ := wf_filter (fun c => decide (c.1 < lo)) h
  obtain ⟨hp2, hf2⟩ := wf_listing sp lo bs
  obtain ⟨hp3, hf3⟩ := wf_filter (fun c => decide (lo + bs.length ≤ c.1)) h
  have hb := listing_bounds sp lo bs
  refine ⟨?_, ?_⟩
  · rw [writeList, List.pairwise_append, List.pairwise_append]
    refine ⟨⟨hp1, hp2, fun x hx y hy => ?_⟩, hp3, fun x hx y hy => ?_⟩
    · have hx : x.1 < lo := by simpa using (List.mem_filter.1 hx).2
      have := hb y hy
      omega
    · have hy : lo + bs.length ≤ y.1 := by simpa using (List.mem_filter.1 hy).2
      rcases List.mem_append.1 hx with hx | hx
      · have hx : x.1 < lo := by simpa using (List.mem_filter.1 hx).2
        omega
      · have := hb x hx
        omega
  · intro c hc
    rw [writeList, List.mem_append, List.mem_append] at hc
    rcases hc with (hc | hc) | hc
    · exact hf1 c hc
    · exact hf2 c hc
    · exact hf3 c hc

theorem wf_write {sp : Space} {m : Memory} (a : Nat) (b : Byte) (h : m.wf sp) : wf sp (m.write sp a b) :=
  wf_writeList a [b] h

theorem wf_writeEach {sp : Space} {m : Memory} (ws : List (Nat × Byte)) (h : m.wf sp) : wf sp (m.writeEach sp ws) := by
  induction ws generalizing m with
  | nil => exact h
  | cons w ws ih => exact ih (wf_write w.1 w.2 h)

theorem wf_clearRange {sp : Space} {m : Memory} (lo n : Nat) (h : m.wf sp) : wf sp (m.clearRange lo n) :=
  wf_filter _ h

theorem wf_program {sp : Space} {m : Memory} (lo : Nat) (buf : List Byte) (h : m.wf sp) :
    wf sp (m.program sp lo buf) :=
  wf_writeList lo _ h

/-- Where a store's entries lie after a write. -/
theorem mem_writeList {sp : Space} {m : Memory} {lo : Nat} {bs : List Byte} {c : Host.Cell}
    (hc : c ∈ m.writeList sp lo bs) : c ∈ m ∨ (lo ≤ c.1 ∧ c.1 < lo + bs.length) := by
  rw [writeList, List.mem_append, List.mem_append] at hc
  rcases hc with (hc | hc) | hc
  · exact .inl (List.mem_of_mem_filter hc)
  · exact .inr (listing_bounds sp lo bs c hc)
  · exact .inl (List.mem_of_mem_filter hc)

/-- Where a store's entries lie after single writes. -/
theorem mem_writeEach {sp : Space} {m : Memory} {ws : List (Nat × Byte)} {c : Host.Cell} (hc : c ∈ m.writeEach sp ws) :
    c ∈ m ∨ ∃ w ∈ ws, c.1 = w.1 := by
  induction ws generalizing m with
  | nil => exact .inl hc
  | cons w ws ih =>
    rcases ih hc with h | ⟨v, hv, e⟩
    · rcases mem_writeList h with h | h
      · exact .inl h
      · exact .inr ⟨w, List.mem_cons_self .., by simp only [List.length_singleton] at h; omega⟩
    · exact .inr ⟨v, List.mem_cons_of_mem _ hv, e⟩

end Sys2Proof.Machine.Memory
end

