-- ==== Sys2Proof/Laws/ChipStores.lean ====
section
/-! SUPPORT. The laws of the chip's stores: bus addresses, the page and region buffers, what a byte of either store is
after each operation, and the answers to the frames that read, program and erase. -/

namespace Sys2Proof.Machine

/-! ### Bus addresses -/

/-- The chip reads back the address that three bytes spell (R14, R303). -/
theorem fromBe24_be24 {a : Nat} (h : a < 2 ^ 24) :
    fromBe24 (BitVec.ofNat 8 (a / 2 ^ 16)) (BitVec.ofNat 8 (a / 2 ^ 8)) (BitVec.ofNat 8 a) = a := by
  simp only [fromBe24, BitVec.toNat_ofNat]
  omega

/-- A region's bus address as a sum (R72). -/
theorem secAddr_eq {r o : Nat} (ho : o < 2 ^ 12) : secAddr r o = r * 4096 + o := by
  rw [secAddr, Nat.shiftLeft_eq, Nat.mul_comm, ← Nat.two_pow_add_eq_or_of_lt ho]

theorem secAddr_lt {r o : Nat} (hr : r ≤ 3) (ho : o < 256) : secAddr r o < 2 ^ 24 := by
  rw [secAddr_eq (by omega)]
  omega

theorem secAddr_mod {r o : Nat} (ho : o < 256) : secAddr r o % secRegionSize = o := by
  rw [secAddr_eq (by omega), secRegionSize]
  omega

theorem secAddr_split {r o : Nat} (ho : o < 256) : secAddr r o = secAddr r 0 + o := by
  rw [secAddr_eq (by omega), secAddr_eq (by omega)]
  omega

/-- Two region bytes have one address only if they are one byte. -/
theorem secAddr_inj {r o q p : Nat} (ho : o < 256) (hp : p < 256) (h : secAddr r o = secAddr q p) : r = q ∧ o = p := by
  rw [secAddr_eq (by omega), secAddr_eq (by omega)] at h
  omega

/-- The tag check of R316, as division. -/
theorem regionOf_eq (A : Nat) :
    Chip.regionOf A =
      if (A / 4096 = 1 ∨ A / 4096 = 2 ∨ A / 4096 = 3) ∧ A / 256 = A / 4096 * 16 then some (A / 4096) else none := by
  simp only [Chip.regionOf, Nat.shiftRight_eq_div_pow, Nat.shiftLeft_eq]

theorem regionOf_secAddr {r o : Nat} (h1 : 1 ≤ r) (h3 : r ≤ 3) (ho : o < 256) :
    Chip.regionOf (secAddr r o) = some r := by
  have e : secAddr r o / 4096 = r := by rw [secAddr_eq (by omega)]; omega
  have e2 : secAddr r o / 256 = r * 16 := by rw [secAddr_eq (by omega)]; omega
  rw [regionOf_eq, e, e2, if_pos ⟨by omega, rfl⟩]

/-- A valid tag names a region and an offset in it. -/
theorem regionOf_some {A r : Nat} (h : Chip.regionOf A = some r) :
    1 ≤ r ∧ r ≤ 3 ∧ A % secRegionSize < 256 ∧ A = secAddr r (A % secRegionSize) := by
  rw [regionOf_eq] at h
  split at h
  · rename_i hc
    cases h
    have hm : A % secRegionSize < 256 := Nat.mod_lt _ (by decide)
    refine ⟨by omega, by omega, hm, ?_⟩
    rw [secAddr_eq (by omega), secRegionSize]
    omega
  · cases h

/-! ### Buffers -/

namespace Chip

theorem length_loadBuffer (g : Byte → Byte → Byte) (size off i : Nat) (data buf : List Byte) :
    (loadBuffer g size off i data buf).length = buf.length := by
  induction data generalizing i buf with
  | nil => rfl
  | cons x xs ih => simp [loadBuffer, ih]

@[simp] theorem length_pageBuffer (page off : Nat) (data : List Byte) : (pageBuffer page off data).length = page := by
  simp [pageBuffer, length_loadBuffer]

@[simp] theorem length_regionBuffer (off : Nat) (data : List Byte) :
    (regionBuffer off data).length = secRegionSize := by
  simp [regionBuffer, length_loadBuffer]

/-- A cell that no data byte goes to keeps what it held. -/
theorem getElem_loadBuffer_other (g : Byte → Byte → Byte) (size off i : Nat) (data buf : List Byte) (k : Nat)
    (h : ∀ j < data.length, (off + i + j) % size ≠ k) : (loadBuffer g size off i data buf)[k]? = buf[k]? := by
  induction data generalizing i buf with
  | nil => rfl
  | cons x xs ih =>
    rw [loadBuffer, ih (i + 1)]
    · have h0 := h 0 (by simp)
      rw [Nat.add_zero] at h0
      rw [List.getElem?_set_ne h0]
    · intro j hj
      have := h (j + 1) (by simpa using hj)
      rwa [show off + (i + 1) + j = off + i + (j + 1) by omega]

/-- The cell that data byte `j` goes to, when no later data byte goes there: `j`'s byte combined with what the earlier
bytes left. -/
theorem getElem_loadBuffer_last (g : Byte → Byte → Byte) (size off i : Nat) (data buf : List Byte) (j : Nat) (b : Byte)
    (hs : buf.length = size) (hsize : 0 < size) (hb : data[j]? = some b)
    (h : ∀ l, j < l → l < data.length → (off + i + l) % size ≠ (off + i + j) % size) :
    ∃ x, (loadBuffer g size off i data buf)[(off + i + j) % size]? = some (g x b) ∧
      (buf[(off + i + j) % size]? = some x ∨ ∃ l < j, (off + i + l) % size = (off + i + j) % size) := by
  induction data generalizing i j buf with
  | nil => simp at hb
  | cons y ys ih =>
    have hk : (off + i) % size < buf.length := by rw [hs]; exact Nat.mod_lt _ hsize
    cases j with
    | zero =>
      cases Option.some.inj (by simpa using hb : some y = some b)
      rw [Nat.add_zero]
      refine ⟨(buf[(off + i) % size]?).getD erasedByte, ?_, .inl ?_⟩
      · rw [loadBuffer, getElem_loadBuffer_other]
        · simp [hk]
        · intro l hl
          have := h (l + 1) (by omega) (by simpa using hl)
          rw [Nat.add_zero] at this
          rwa [show off + (i + 1) + l = off + i + (l + 1) by omega]
      · simp [hk]
    | succ j =>
      have hb' : ys[j]? = some b := by simpa using hb
      obtain ⟨x, hx, hor⟩ := ih (i + 1) (buf.set ((off + i) % size) (g ((buf[(off + i) % size]?).getD erasedByte) y)) j
        (by simpa using hs) hb' (by
          intro l hjl hl
          have := h (l + 1) (by omega) (by simpa using hl)
          rwa [show off + i + (l + 1) = off + (i + 1) + l by omega,
            show off + i + (j + 1) = off + (i + 1) + j by omega] at this)
      rw [show off + i + (j + 1) = off + (i + 1) + j by omega]
      refine ⟨x, hx, ?_⟩
      rcases hor with hbuf | ⟨l, hl, e⟩
      · by_cases e : (off + i) % size = (off + (i + 1) + j) % size
        · exact .inr ⟨0, by omega, by rw [Nat.add_zero]; exact e⟩
        · rw [List.getElem?_set_ne e] at hbuf
          exact .inl hbuf
      · exact .inr ⟨l + 1, by omega, by rw [show off + i + (l + 1) = off + (i + 1) + l by omega]; exact e⟩

/-- Data that stays inside its page or region: data byte `k - off` at `k`, elsewhere what was there. -/
theorem getElem_loadBuffer_inside (g : Byte → Byte → Byte) (size off : Nat) (data buf : List Byte) (k : Nat)
    (hs : buf.length = size) (hin : off + data.length ≤ size) (hk : k < size) :
    (loadBuffer g size off 0 data buf)[k]? =
      if off ≤ k ∧ k < off + data.length then (buf[k]?).bind fun x => (data[k - off]?).map (g x) else buf[k]? := by
  by_cases h : off ≤ k ∧ k < off + data.length
  · have hj : k - off < data.length := by omega
    have hmod : ∀ l, l < data.length → (off + 0 + l) % size = off + l := fun l hl => Nat.mod_eq_of_lt (by omega)
    have e : (off + 0 + (k - off)) % size = k := by rw [hmod _ hj]; omega
    obtain ⟨x, hx, hor⟩ := getElem_loadBuffer_last g size off 0 data buf (k - off) data[k - off] hs (by omega)
      (List.getElem?_eq_getElem hj) (by
        intro l hl hl'
        rw [hmod l hl', e]
        omega)
    rw [e] at hx hor
    rcases hor with hb | ⟨l, hl, e'⟩
    · rw [if_pos h, hx, hb, List.getElem?_eq_getElem hj]
      rfl
    · rw [hmod l (by omega)] at e'
      omega
  · rw [if_neg h]
    refine getElem_loadBuffer_other g size off 0 data buf k fun j hj => ?_
    rw [Nat.add_zero, Nat.mod_eq_of_lt (by omega)]
    omega

/-- The page buffer of data that stays inside the page. -/
theorem getElem_pageBuffer {page off : Nat} {data : List Byte} (hin : off + data.length ≤ page) {k : Nat} (hk : k < page) :
    (pageBuffer page off data)[k]? =
      some (if off ≤ k ∧ k < off + data.length then (data[k - off]?).getD erasedByte else erasedByte) := by
  rw [pageBuffer, getElem_loadBuffer_inside _ page off data _ k (by simp) hin hk]
  have hr : (List.replicate page erasedByte)[k]? = some erasedByte := by simp [hk]
  by_cases h : off ≤ k ∧ k < off + data.length
  · have hj : k - off < data.length := by omega
    simp [h, hr, hj]
  · simp [h, hr]

/-- The region buffer of data that stays inside the region. -/
theorem getElem_regionBuffer {off : Nat} {data : List Byte} (hin : off + data.length ≤ 256) {k : Nat} (hk : k < 256) :
    (regionBuffer off data)[k]? =
      some (if off ≤ k ∧ k < off + data.length then (data[k - off]?).getD erasedByte else erasedByte) := by
  have ones : ∀ x : Byte, erasedByte &&& x = x := by decide
  rw [regionBuffer, getElem_loadBuffer_inside _ secRegionSize off data _ k (by simp) hin hk]
  have hr : (List.replicate secRegionSize erasedByte)[k]? = some erasedByte := by
    simp [show k < secRegionSize from hk]
  by_cases h : off ≤ k ∧ k < off + data.length
  · have hj : k - off < data.length := by omega
    simp [h, hr, hj, ones]
  · simp [h, hr]

/-! ### What a byte is after a program or an erase -/

theorem and_erasedByte (x : Byte) : x &&& erasedByte = x := by revert x; decide

/-- A byte outside the programmed page keeps its value. -/
theorem byte_programPage_other (c : Chip) {a x : Nat} (hp : 0 < c.desc.pageSize) (data : List Byte)
    (h : x / c.desc.pageSize ≠ a / c.desc.pageSize) : (c.programPage a data).byte x = c.arrayByte x := by
  rw [programPage, Memory.byte_program .array rfl]
  have hd := Nat.div_add_mod a c.desc.pageSize
  have hx := Nat.div_add_mod x c.desc.pageSize
  have hm := Nat.mod_lt x hp
  by_cases hl : a - a % c.desc.pageSize ≤ x
  · have hn : (pageBuffer c.desc.pageSize (a % c.desc.pageSize) data)[x - (a - a % c.desc.pageSize)]? = none := by
      rw [List.getElem?_eq_none_iff, length_pageBuffer]
      refine Nat.le_of_not_lt fun hlt => h ?_
      have hb : a - a % c.desc.pageSize = c.desc.pageSize * (a / c.desc.pageSize) := by omega
      rw [hb] at hlt hl
      obtain ⟨y, hy⟩ : ∃ y, x = c.desc.pageSize * (a / c.desc.pageSize) + y :=
        ⟨x - c.desc.pageSize * (a / c.desc.pageSize), by omega⟩
      have hyp : y < c.desc.pageSize := by omega
      rw [hy, Nat.mul_add_div hp, Nat.div_eq_of_lt hyp, Nat.add_zero]
    rw [if_pos hl, hn]
    exact and_erasedByte _
  · rw [if_neg hl]
    exact and_erasedByte _

/-- A page program that stays inside its page: the data bytes are ANDed in, every other byte keeps its value. -/
theorem byte_programPage (c : Chip) {a : Nat} (data : List Byte)
    (hin : a % c.desc.pageSize + data.length ≤ c.desc.pageSize) (x : Nat) :
    (c.programPage a data).byte x =
      if a ≤ x ∧ x < a + data.length then c.arrayByte x &&& (data[x - a]?).getD erasedByte else c.arrayByte x := by
  have hd := Nat.div_add_mod a c.desc.pageSize
  have hle := Nat.mod_le a c.desc.pageSize
  rw [programPage, Memory.byte_program .array rfl]
  by_cases hl : a - a % c.desc.pageSize ≤ x
  · rw [if_pos hl]
    by_cases hk : x - (a - a % c.desc.pageSize) < c.desc.pageSize
    · rw [getElem_pageBuffer hin hk]
      by_cases h : a ≤ x ∧ x < a + data.length
      · have h' : a % c.desc.pageSize ≤ x - (a - a % c.desc.pageSize) ∧
            x - (a - a % c.desc.pageSize) < a % c.desc.pageSize + data.length := by omega
        rw [if_pos h, if_pos h', show x - (a - a % c.desc.pageSize) - a % c.desc.pageSize = x - a by omega]
        rfl
      · have h' : ¬ (a % c.desc.pageSize ≤ x - (a - a % c.desc.pageSize) ∧
            x - (a - a % c.desc.pageSize) < a % c.desc.pageSize + data.length) := by omega
        rw [if_neg h, if_neg h']
        exact and_erasedByte _
    · have hn : (pageBuffer c.desc.pageSize (a % c.desc.pageSize) data)[x - (a - a % c.desc.pageSize)]? = none := by
        rw [List.getElem?_eq_none_iff, length_pageBuffer]; omega
      have h : ¬ (a ≤ x ∧ x < a + data.length) := by omega
      rw [hn, if_neg h]
      exact and_erasedByte _
  · have h : ¬ (a ≤ x ∧ x < a + data.length) := by omega
    rw [if_neg hl, if_neg h]
    exact and_erasedByte _

/-- In the programmed page: a byte no data byte goes to keeps its value, a byte keeps only the bits of the last data byte
that goes to it. -/
theorem byte_programPage_wrap (c : Chip) {a x : Nat} (data : List Byte)
    (h : x / c.desc.pageSize = a / c.desc.pageSize) :
    (c.programPage a data).byte x = c.arrayByte x &&&
      ((pageBuffer c.desc.pageSize (a % c.desc.pageSize) data)[x % c.desc.pageSize]?).getD erasedByte := by
  have hd := Nat.div_add_mod a c.desc.pageSize
  have hx := Nat.div_add_mod x c.desc.pageSize
  have hb : a - a % c.desc.pageSize = c.desc.pageSize * (a / c.desc.pageSize) := by omega
  rw [h] at hx
  rw [programPage, Memory.byte_program .array rfl, if_pos (by omega), hb]
  rw [show x - c.desc.pageSize * (a / c.desc.pageSize) = x % c.desc.pageSize by omega]
  rfl

/-- A region program that stays inside its region: the data bytes are ANDed in, every other byte keeps its value. -/
theorem secByte_programRegion (c : Chip) {r o : Nat} (data : List Byte) (hin : o + data.length ≤ 256) {q p : Nat}
    (hp : p < 256) :
    (c.programRegion r o data).byte (secAddr q p) =
      if q = r ∧ o ≤ p ∧ p < o + data.length then c.secByte q p &&& (data[p - o]?).getD erasedByte
      else c.secByte q p := by
  rw [programRegion, Memory.byte_program .secreg rfl, show c.secreg.byte (secAddr q p) = c.secByte q p from rfl]
  have e1 : secAddr q p = q * 4096 + p := secAddr_eq (by omega)
  have e2 : secAddr r 0 = r * 4096 + 0 := secAddr_eq (by omega)
  by_cases hq : q = r
  · subst hq
    rw [if_pos (by omega), show secAddr q p - secAddr q 0 = p by omega, getElem_regionBuffer hin hp]
    by_cases h : o ≤ p ∧ p < o + data.length
    · rw [if_pos h, if_pos ⟨rfl, h⟩]
      rfl
    · rw [if_neg h, if_neg fun hh => h hh.2]
      exact and_erasedByte _
  · have hne : ¬ (q = r ∧ o ≤ p ∧ p < o + data.length) := fun hh => hq hh.1
    rw [if_neg hne]
    by_cases hl : secAddr r 0 ≤ secAddr q p
    · have hn : (regionBuffer o data)[secAddr q p - secAddr r 0]? = none := by
        rw [List.getElem?_eq_none_iff, length_regionBuffer, secRegionSize]
        omega
      rw [if_pos hl, hn]
      exact and_erasedByte _
    · rw [if_neg hl]
      exact and_erasedByte _

/-- A sector erase: the sector becomes 0xFF, every other byte keeps its value. -/
theorem byte_sector (c : Chip) (s x : Nat) :
    (c.array.clearRange s c.desc.sectorSize).byte x =
      if s ≤ x ∧ x < s + c.desc.sectorSize then erasedByte else c.arrayByte x :=
  Memory.byte_clearRange _ _ _ _

/-- A region erase. -/
theorem secByte_clearRegion (c : Chip) (r : Nat) {q p : Nat} (hp : p < 256) :
    (c.secreg.clearRange (secAddr r 0) secRegionSize).byte (secAddr q p) =
      if q = r then erasedByte else c.secByte q p := by
  rw [Memory.byte_clearRange, secAddr_eq (show p < 2 ^ 12 by omega), secAddr_eq (show 0 < 2 ^ 12 by omega), secRegionSize]
  by_cases h : q = r
  · rw [if_pos (by omega), if_pos h]
  · rw [if_neg (by omega), if_neg h, secByte, secAddr_eq (by omega)]

/-! ### The protected set -/

/-- A range of which no byte is protected, whatever the draw, touches no protected byte. -/
theorem touches_of_contains {S : Nat} {t : RangeTuple} {q : Bool} {s n : Nat} (hn : 0 < n) (hS : s + n ≤ S)
    (h : ∀ x, s ≤ x → x < s + n → protContains S t q x = false) : protTouches S t q s n = false := by
  unfold protTouches
  unfold protContains at h
  cases hb : protBase S t with
  | none => simpa [hb] using h s (Nat.le_refl _) (by omega)
  | some w =>
    obtain ⟨lo, k⟩ := w
    simp only [hb] at h
    have hm : min (s + n) S = s + n := by omega
    simp only [hm]
    cases hc : t.cmp
    · simp only [Bool.false_eq_true, if_false, decide_eq_false_iff_not]
      intro hlt
      have := h (max s lo) (by omega) (by omega)
      simp [hc] at this
      omega
    · simp only [if_true, decide_eq_false_iff_not]
      intro ⟨_, hne⟩
      have h1 := h s (Nat.le_refl _) (by omega)
      have h2 := h (s + n - 1) (by omega) (by omega)
      simp [hc] at h1 h2
      omega

/-- A range of which a byte is protected touches a protected byte. -/
theorem touches_of_mem {S : Nat} {t : RangeTuple} {q : Bool} {s n x : Nat} (h1 : s ≤ x) (h2 : x < s + n)
    (h : protContains S t q x = true) : protTouches S t q s n = true := by
  unfold protTouches
  unfold protContains at h
  cases hb : protBase S t with
  | none => simpa [hb] using h
  | some w =>
    obtain ⟨lo, k⟩ := w
    simp only [hb] at h
    cases hc : t.cmp
    · simp [hc] at h ⊢
      omega
    · simp [hc] at h ⊢
      omega

/-! ### Departures -/

/-- Whatever a part does in place of the rules (R332), its chip keeps the invariant. -/
theorem departed_inv {g : Gen} {c : Chip} (h : c.Inv g) (x : Departure) : (c.departed x).Inv g where
  desc     := h.desc
  array    := Memory.wf_writeEach _ h.array
  inArray  := fun e he => by
    rcases Memory.mem_writeEach he with he | ⟨w, hw, e1⟩
    · exact h.inArray e he
    · rw [e1]
      exact of_decide_eq_true (List.mem_filter.1 hw).2
  secreg   := Memory.wf_writeEach _ h.secreg
  inSecreg := fun e he => by
    rcases Memory.mem_writeEach he with he | ⟨w, hw, e1⟩
    · exact h.inSecreg e he
    · obtain ⟨r, hr⟩ := Option.isSome_iff_exists.1 (List.mem_filter.1 hw).2
      obtain ⟨h1, h3, ho, e2⟩ := regionOf_some hr
      exact ⟨r, _, h1, h3, ho, e1.trans e2⟩
  busyBit  := by simp [departed, getElem_bitAt]
  reserved := by simp [departed]
  suspend  := by simp [departed]
  welBusy  := fun hb => by
    have : 0 < x.busyLeft := hb
    simp [departed, wel, getElem_bitAt, this]
  inFlight := fun _ => rfl
  inside   := trivial
  unlocked := fun _ _ _ _ _ e => by cases e

/-! ### Answers -/

theorem length_readArray (c : Chip) (a n : Nat) : (c.readArray a n).length = n := by simp [readArray]

theorem length_readRegion (c : Chip) (r o n : Nat) : (c.readRegion r o n).length = n := by simp [readRegion]

theorem padResponse_exact {n : Nat} {given : List Byte} (noise : List Byte) (h : given.length = n) :
    padResponse n given noise = given := by
  subst h
  apply List.ext_getElem
  · simp [padResponse]
  · intro i h1 h2
    simp [padResponse, h2]

variable {c : Chip} (hp : c.desc.departs = none) (hw : c.desc.op.wf)
include hp

theorem answer_rdid (h : c.busyLeft = 0) (d : ChipDraw) : c.answer d ⟨c.desc.op.rdid, [], 3⟩ = (c.rdid, c.atPin d.wp) := by
  rw [answer_idle hp h]
  simp only [serve, atPin_desc, roleOf_rdid]
  exact congrArg (·, _) (padResponse_exact _ rfl)

include hw

theorem answer_read (h : c.busyLeft = 0) (d : ChipDraw) {a : Nat} (ha : a < 2 ^ 24) (n : Nat) :
    c.answer d ⟨c.desc.op.read, be24 a, n⟩ = (c.readArray (a % c.desc.totalSize) n, c.atPin d.wp) := by
  rw [answer_idle hp h]
  simp only [serve, atPin_desc, roleOf_read hw, be24, arrayAddr, fromBe24_be24 ha]
  exact congrArg (·, _) (padResponse_exact _ (length_readArray _ _ _))

theorem answer_fastRead (h : c.busyLeft = 0) (d : ChipDraw) {a : Nat} (ha : a < 2 ^ 24) (x : Byte) (n : Nat) :
    c.answer d ⟨c.desc.op.fastRead, be24 a ++ [x], n⟩ = (c.readArray (a % c.desc.totalSize) n, c.atPin d.wp) := by
  rw [answer_idle hp h]
  simp only [serve, atPin_desc, roleOf_fastRead hw, be24, List.cons_append, List.nil_append, arrayAddr, fromBe24_be24 ha]
  exact congrArg (·, _) (padResponse_exact _ (length_readArray _ _ _))

theorem answer_secRead (h : c.busyLeft = 0) (d : ChipDraw) {r o : Nat} (h1 : 1 ≤ r) (h3 : r ≤ 3) (ho : o < 256)
    (x : Byte) (n : Nat) :
    c.answer d ⟨c.desc.op.secRead, be24 (secAddr r o) ++ [x], n⟩ = (c.readRegion r o n, c.atPin d.wp) := by
  rw [answer_idle hp h]
  simp only [serve, atPin_desc, roleOf_secRead hw, be24, List.cons_append, List.nil_append,
    fromBe24_be24 (secAddr_lt h3 ho), regionOf_secAddr h1 h3 ho, secAddr_mod ho]
  exact congrArg (·, _) (padResponse_exact _ (length_readRegion _ _ _ _))

theorem answer_pp (h : c.busyLeft = 0) (d : ChipDraw) {a : Nat} (ha : a < 2 ^ 24) (data : List Byte) :
    (c.answer d ⟨c.desc.op.pp, be24 a ++ data, 0⟩).2 = (c.atPin d.wp).pageProgram d (a % c.desc.totalSize) data := by
  rw [answer_idle hp h]
  simp only [serve, atPin_desc, roleOf_pp hw, be24, List.cons_append, List.nil_append, arrayAddr, fromBe24_be24 ha]

theorem answer_se (h : c.busyLeft = 0) (d : ChipDraw) {a : Nat} (ha : a < 2 ^ 24) :
    (c.answer d ⟨c.desc.op.se, be24 a, 0⟩).2 = (c.atPin d.wp).sectorErase d (a % c.desc.totalSize) := by
  rw [answer_idle hp h]
  simp only [serve, atPin_desc, roleOf_se hw, be24, arrayAddr, fromBe24_be24 ha]

theorem answer_secErase (h : c.busyLeft = 0) (d : ChipDraw) {A : Nat} (ha : A < 2 ^ 24) :
    (c.answer d ⟨c.desc.op.secErase, be24 A, 0⟩).2 = (c.atPin d.wp).regionErase d A := by
  rw [answer_idle hp h]
  simp only [serve, atPin_desc, roleOf_secErase hw, be24, fromBe24_be24 ha]

theorem answer_secProg (h : c.busyLeft = 0) (d : ChipDraw) {A : Nat} (ha : A < 2 ^ 24) (data : List Byte) :
    (c.answer d ⟨c.desc.op.secProg, be24 A ++ data, 0⟩).2 = (c.atPin d.wp).regionProgram d A data := by
  rw [answer_idle hp h]
  simp only [serve, atPin_desc, roleOf_secProg hw, be24, List.cons_append, List.nil_append, fromBe24_be24 ha]

end Chip

end Sys2Proof.Machine
end

