-- ==== Sys2Proof/Laws/Chunks.lean ====
section
/-! SUPPORT. The laws of chunking (R185, R190, R201): where the pieces of a read, a write and an erase lie. -/

namespace Sys2Proof.Machine

/-- Pieces of a read lie in it, in chunks of 1 to `ch` bytes. -/
theorem slicesFrom_mem {fuel n ch done : Nat} (hch : 0 < ch) {x : Nat × Nat} (hx : x ∈ slicesFrom fuel n ch done) :
    done ≤ x.1 ∧ 0 < x.2 ∧ x.2 ≤ ch ∧ x.1 + x.2 ≤ n := by
  induction fuel generalizing done with
  | zero => cases hx
  | succ fuel ih =>
    rw [slicesFrom] at hx
    split at hx
    · rcases List.mem_cons.1 hx with rfl | hx
      · refine ⟨Nat.le_refl _, ?_, ?_, ?_⟩ <;> simp only [] <;> omega
      · have := ih hx
        omega
    · cases hx

theorem slices_mem {n ch : Nat} (hch : 0 < ch) {x : Nat × Nat} (hx : x ∈ slices n ch) :
    0 < x.2 ∧ x.2 ≤ ch ∧ x.1 + x.2 ≤ n := (slicesFrom_mem hch hx).2

/-- A read chunk holds at least one byte, for the address forms of R185 and R273. -/
theorem maxIncoming_pos (g : Gen) {nAddr : Nat} (h : nAddr ≤ 7) : 0 < maxIncoming g nAddr := by
  cases g <;> simp [maxIncoming]; omega

/-- `CH` is admitted with `n_addr` address bytes, and no larger count is (R185). -/
theorem maxIncoming_largest (g : Gen) {nAddr : Nat} (h : nAddr ≤ 8) (n : Nat) :
    xferOk g nAddr n = true ↔ n ≤ maxIncoming g nAddr := by
  cases g <;> simp [maxIncoming, xferOk] <;> omega

theorem readForm_length (v : ReadVariant) (o : OpSet) : (readForm v o).2.length ≤ 1 := by
  cases v <;> simp [readForm]

/-- Pieces of a write lie in it, hold at least one byte, and stay inside one P-aligned window (R201, R205). -/
theorem chunksFrom_mem {fuel o n P done : Nat} (hP : 0 < P) {x : Nat × Nat}
    (hx : x ∈ chunksFrom fuel o n P done) :
    o + done ≤ x.1 ∧ 0 < x.2 ∧ x.1 % P + x.2 ≤ P ∧ x.1 + x.2 ≤ o + n := by
  induction fuel generalizing done with
  | zero => cases hx
  | succ fuel ih =>
    rw [chunksFrom] at hx
    split at hx
    · have hm := Nat.mod_lt (o + done) hP
      rcases List.mem_cons.1 hx with rfl | hx
      · refine ⟨Nat.le_refl _, ?_, ?_, ?_⟩ <;> simp only [] <;> omega
      · have := ih hx
        omega
    · cases hx

theorem chunks_mem {o n P : Nat} (hP : 0 < P) {x : Nat × Nat} (hx : x ∈ chunks o n P) :
    o ≤ x.1 ∧ 0 < x.2 ∧ x.1 % P + x.2 ≤ P ∧ x.1 + x.2 ≤ o + n := chunksFrom_mem hP hx

theorem effectivePage_pos (g : Gen) (d : Descriptor) : 0 < effectivePage g d := by
  have h1 : 0 < d.pageSize := Nat.two_pow_pos _
  have h2 : 0 < g.pageLimit := by cases g <;> decide
  rw [effectivePage]; omega

theorem sectorsOf_mem {o len ss a : Nat} (ha : a ∈ sectorsOf o len ss) :
    ∃ i, i < len / ss ∧ a = o + i * ss := by
  rw [sectorsOf, List.mem_map] at ha
  obtain ⟨i, hi, rfl⟩ := ha
  exact ⟨i, List.mem_range.1 hi, rfl⟩

end Sys2Proof.Machine
end

