-- ==== Sys2Proof/Laws/Steps.lean ====
section
/-! SUPPORT. What can land inside a command, and that a run of a command is the steps of `advance` one after the other (R24,
R405). -/

namespace Sys2Proof.Machine

variable {s t : State}

/-! ### Landing -/

/-- What a move that is no reset event does while a command is in flight: HOST read something, or the EC put a frame on
the bus it owns. -/
theorem plainMove_running {m : Move} (hr : m.isReset = false) (hp : s.phase ≠ .idle) (h : plainMove m s = .ok t) :
    (∃ w, t = { s with hostData := w }) ∨ ∃ f, s.ecOwns = true ∧ t = ecFrame f s := by
  have busy : ∀ a u, notBusy s a u = .error (.refused (.hostWriteWhileBusy a)) := fun a u => by rw [notBusy, if_neg hp]
  cases m with
  | read32 a =>
    simp only [plainMove] at h
    cases e : hostRead32 s a with
    | error x => rw [e] at h; cases h
    | ok w => rw [e] at h; cases h; exact .inl ⟨w, rfl⟩
  | read8 a =>
    simp only [plainMove] at h
    cases e : hostRead8 s a with
    | error x => rw [e] at h; cases h
    | ok w => rw [e] at h; cases h; exact .inl ⟨_, rfl⟩
  | write32 a w =>
    simp only [plainMove, hostWrite32, busy] at h
    split at h <;> first | (cases h; exact .inl ⟨_, rfl⟩) | cases h
  | write8 a b =>
    simp only [plainMove, hostWrite8, busy] at h
    split at h <;> cases h
  | badWidth n a => cases h
  | seqReset => cases hr
  | powerCycle => cases hr
  | ecFrame f =>
    simp only [plainMove, ecMove] at h
    split at h
    · cases h; exact .inr ⟨f, ‹_›, rfl⟩
    · cases h

/-- Landing keeps what each landed move keeps; a reset event ends the command with `D`. -/
theorem lands_of {P D : State → Prop} (hphase : ∀ s, P s → s.phase ≠ .idle) (hd : ∀ s l, P s → P { s with during := l })
    (hread : ∀ s w, P s → P { s with hostData := w }) (hec : ∀ s f, s.ecOwns = true → P s → P (ecFrame f s))
    (hreset : ∀ s, P s → D (seqReset s)) (hpower : ∀ s, P s → D (powerCycle s)) : Lands P D := by
  have move : ∀ m s, P s → (∀ t, landMove m s = .ok t → P t) ∧ ∀ t, landMove m s = .error (.next t) → D t := by
    intro m s hs
    rw [landMove]
    cases e : plainMove m s with
    | error h =>
      constructor
      · intro t e; cases e
      · intro t e; cases h <;> cases e
    | ok u =>
      cases hi : m.isReset with
      | false =>
        refine ⟨?_, ?_⟩
        swap
        · intro t e'; cases e'
        intro t e'
        cases e'
        rcases plainMove_running hi (hphase s hs) e with ⟨w, rfl⟩ | ⟨f, ho, rfl⟩
        · exact hread s w hs
        · exact hec s f ho hs
      | true =>
        refine ⟨?_, ?_⟩
        · intro t e'; cases e'
        intro t e'
        cases e'
        cases m with
        | seqReset => cases e; exact hreset s hs
        | powerCycle => cases e; exact hpower s hs
        | _ => cases hi
  have all : ∀ l s, P s → (∀ t, landFrom l s = .ok t → P t) ∧ ∀ t, landFrom l s = .error (.next t) → D t := by
    intro l
    induction l with
    | nil =>
      intro s hs
      constructor
      · intro t e; cases e; exact hs
      · intro t e; cases e
    | cons x rest ih =>
      obtain ⟨k, m⟩ := x
      intro s hs
      rw [landFrom]
      split
      · have := move m _ (hd s rest hs)
        cases e : landMove m { s with during := rest } with
        | ok u => exact ih u (this.1 u e)
        | error o =>
          constructor
          · intro t e'; cases e'
          · intro t e'; cases e'; exact this.2 t e
      · constructor
        · intro t e; cases e; exact hs
        · intro t e; cases e
  exact fun s hs => all s.during s hs

/-! ### Single steps -/

theorem advance_running {r : Running} (h : s.phase = .running r) : advance s = proceed r s := by
  rw [advance]; split
  · rename_i e; rw [h] at e; cases e
  · rename_i r' e; rw [h] at e; cases e; rfl

theorem proceed_due {r : Running} {m : Move} (h : s.due (r.rest s) = some (m, t)) :
    proceed r s = andThen (landMove m t) .next := by rw [proceed, h]

theorem proceed_free {r : Running} (h : s.due (r.rest s) = none) : proceed r s = (r.rest s).next s := by
  rw [proceed, h]

theorem advances_one (s : State) : advances 1 s = advance s := by
  rw [advances]; cases advance s <;> rfl

/-- A step, then more of them. -/
theorem advances_step {n : Nat} {o : Host.Outcome State Fault Refusal} (h : advance s = .next t) (h' : advances n t = o) :
    advances (n + 1) s = o := by rw [advances, h]; exact h'

theorem advances_idle (n : Nat) (h : s.phase = .idle) : advances n s = .next s := by
  induction n with
  | zero => rfl
  | succ n ih =>
    have : advance s = .next s := by rw [advance, h]
    exact advances_step this ih

/-- The rest of a script depends on the state only through the parameters and, but for PROBE, the bound descriptor. -/
theorem rest_congr {r : Running} {w : Word} (hw : r.cmd = w) (hc : t.cfg = s.cfg)
    (hd : t.desc = s.desc ∨ decode w = .ok .probe) : r.rest t = r.rest s := by
  have h : wordScript r.cmd (r.context t) = wordScript r.cmd (r.context s) := by
    rcases hd with hd | hd
    · rw [show r.context t = r.context s by simp only [Running.context, hc, hd]]
    · rw [wordScript, wordScript, hw, hd]
      simp only [scriptOf, probeScript, Running.context, hc]
  rw [Running.rest, Running.rest, h]

/-- The acts a script does that change DESC are PROBE's. -/
def DescOnly (w : Word) (a : Act) : Prop := (a ≠ .unbind ∧ ∀ d, a ≠ .bind d) ∨ decode w = .ok .probe

/-- What a command still lands before its next act or its end, step by step. -/
theorem land_steps {r : Running} {c : Script} (hp : s.phase = .running r) (hr : r.rest s = c)
    (hn : (c.ended && s.acts == 0) = false) :
    (∃ n u, land s = .ok u ∧ advances n s = .next u ∧ u.phase = .running r ∧ r.rest u = c ∧ u.due c = none) ∨
    ∃ n o, land s = .error o ∧ advances n s = o := by
  have main : ∀ l (s : State), s.during = l → s.phase = .running r → r.rest s = c → (c.ended && s.acts == 0) = false →
      (∃ n u, landFrom l s = .ok u ∧ advances n s = .next u ∧ u.phase = .running r ∧ r.rest u = c ∧ u.due c = none) ∨
      ∃ n o, landFrom l s = .error o ∧ advances n s = o := by
    intro l
    induction l with
    | nil => exact fun s hl hp hr hn => .inl ⟨0, s, rfl, rfl, hp, hr, by rw [State.due, hl]⟩
    | cons x rest ih =>
      obtain ⟨k, m⟩ := x
      intro s hl hp hr hn
      rw [landFrom]
      by_cases hk : k = s.acts
      · have hdue : s.due (r.rest s) = some (m, { s with during := rest }) := by
          rw [State.due, hl, hr]
          simp only [hk, if_true, hn, Bool.false_eq_true, if_false]
        have hadv : advance s = andThen (landMove m { s with during := rest }) .next := by
          rw [advance_running hp, proceed_due hdue]
        rw [if_pos hk]
        cases e : landMove m { s with during := rest } with
        | error o => rw [e] at hadv; exact .inr ⟨1, o, rfl, by rw [advances_one, hadv]; rfl⟩
        | ok u =>
          rw [e] at hadv
          have hu : u.phase = s.phase ∧ u.cfg = s.cfg ∧ u.desc = s.desc ∧ u.during = rest := by
            rw [landMove] at e
            cases e' : plainMove m { s with during := rest } with
            | error h => rw [e'] at e; cases e
            | ok v =>
              rw [e'] at e
              cases hi : m.isReset with
              | true => rw [hi] at e; cases e
              | false =>
                rw [hi] at e; cases e
                rcases plainMove_running hi (by simp [hp]) e' with ⟨w, rfl⟩ | ⟨f, -, rfl⟩ <;> exact ⟨rfl, rfl, rfl, rfl⟩
          have hr' : r.rest u = c := by rw [rest_congr rfl hu.2.1 (.inl hu.2.2.1), hr]
          have hacts : u.acts = s.acts := by rw [State.acts, hu.1, State.acts]
          rcases ih u hu.2.2.2 (hu.1.trans hp) hr' (by rw [hacts]; exact hn) with ⟨n, v, h1, h2, h3⟩ | ⟨n, o, h1, h2⟩
          · exact .inl ⟨n + 1, v, h1, advances_step hadv h2, h3⟩
          · exact .inr ⟨n + 1, o, h1, advances_step hadv h2⟩
      · rw [if_neg hk]
        exact .inl ⟨0, s, rfl, rfl, hp, hr, by rw [State.due, hl]; simp [hk]⟩
  exact main s.during s rfl hp hr hn

/-- The run of a command in flight is its steps (R24, R405). -/
theorem run_steps {c : Script} {w : Word} (hc : c.All (DescOnly w) (fun _ _ => True) (fun _ => True) (fun _ => True))
    {r : Running} (hw : r.cmd = w) (hp : s.phase = .running r) (hr : r.rest s = c) :
    ∃ n, advances n s = run c s := by
  have stop : ∀ {c : Script} {s : State} {r : Running} (f : State → State), c.ended = true →
      (∀ u, c.next u = .next (f u)) → (run c s = andThen (landEnd s) fun t => .next (f t)) → s.phase = .running r →
      r.rest s = c → ∃ n, advances n s = run c s := by
    intro c s r f he hnext hrun hp hr
    rw [hrun]
    by_cases h0 : s.acts = 0
    · refine ⟨1, ?_⟩
      rw [advances_one, landEnd, if_pos h0, andThen_ok, advance_running hp]
      have : s.due (r.rest s) = none := by
        rw [State.due, hr, he, h0]
        cases s.during with
        | nil => rfl
        | cons x l => simp
      rw [proceed_free this, hr]
      exact hnext s
    · rw [landEnd, if_neg h0]
      rcases land_steps hp hr (by simp [h0]) with ⟨n, u, h1, h2, h3, h4, h5⟩ | ⟨n, o, h1, h2⟩
      · refine ⟨n + 1, ?_⟩
        rw [advances_add, h2, h1, andThen_ok]
        show advances 1 u = _
        rw [advances_one, advance_running h3, proceed_free (by rw [h4, h5]), h4]
        exact hnext u
      · exact ⟨n, by rw [h2, h1]; rfl⟩
  induction c generalizing s r with
  | done v => exact stop (complete v) rfl (fun _ => rfl) (run_done v s) hp hr
  | raise k => exact stop (abort k) rfl (fun _ => rfl) (run_raise k s) hp hr
  | act a k ih =>
    rw [run_act]
    rcases land_steps hp hr rfl with ⟨n, u, h1, h2, h3, h4, h5⟩ | ⟨n, o, h1, h2⟩
    · rw [h1, andThen_ok]
      have hadv : advance u = afterAct (perform a u) fun _ t => .next t := by
        rw [advance_running h3, proceed_free (by rw [h4, h5]), h4]
        rfl
      cases e : perform a u with
      | error f =>
        refine ⟨n + 1, ?_⟩
        rw [advances_add, h2]
        show advances 1 u = _
        rw [advances_one, hadv, e]
        rfl
      | ok y =>
        obtain ⟨x, v⟩ := y
        rw [e, afterAct_ok] at hadv
        have hst := perform_steady e
        obtain ⟨n', h', d', hv⟩ := hst.running r h3
        have hph : (v.hear x).phase = .running { r with step := n', held := h', done := d', heard := r.heard ++ [x] } := by
          rw [State.hear]; simp only [hv, Phase.map]
        have hrest : Running.rest { r with step := n', held := h', done := d', heard := r.heard ++ [x] } (v.hear x) = k x := by
          have hd : v.desc = u.desc ∨ decode w = .ok .probe := by
            rcases hc.1 with h | h
            · exact .inl (perform_desc e h.1 h.2)
            · exact .inr h
          have h6 := rest_congr (r := { r with step := n', held := h', done := d', heard := r.heard ++ [x] }) (s := u)
            (t := v.hear x) hw hst.cfg hd
          rw [h6, Running.rest, Script.after_append]
          have : (wordScript r.cmd (r.context u)).after r.heard = .act a k := h4
          show ((wordScript r.cmd (r.context u)).after r.heard).after [x] = k x
          rw [this, Script.after_cons, Script.after_nil]
        obtain ⟨q, hq⟩ := ih x (hc.2 x trivial) (s := v.hear x) (r := { r with step := n', held := h', done := d', heard := r.heard ++ [x] }) hw hph hrest
        refine ⟨n + (q + 1), ?_⟩
        rw [advances_add, h2, afterAct_ok]
        exact advances_step hadv hq
    · exact ⟨n, by rw [h2, h1]; rfl⟩

/-! ### Steps of the machine -/

theorem step_idle (h : s.phase = .idle) : step s = idleStep s := by rw [step, h]

theorem step_running {r : Running} (h : s.phase = .running r) : step s = proceed r s := by
  rw [← advance_running h, step]
  split
  · rename_i e; rw [h] at e; cases e
  · rfl

/-- A move inside a command is taken as `landMove` says (R381). -/
theorem step_inside {r : Running} {m : Move} {rest : List (Nat × Move)} (hp : s.phase = .running r)
    (h : r.heard ≠ [] ∨ (r.rest s).ended = false) (hd : s.during = (r.heard.length, m) :: rest) :
    step s = andThen (landMove m { s with during := rest }) .next := by
  have ha : s.acts = r.heard.length := by rw [State.acts, hp]
  have hn : ((r.rest s).ended && s.acts == 0) = false := by
    rcases h with h | h
    · have : s.acts ≠ 0 := by rw [ha]; exact fun e => h (List.eq_nil_of_length_eq_zero e)
      simp [this]
    · simp [h]
  rw [step_running hp, proceed_due (m := m) (t := { s with during := rest })]
  rw [State.due, hd]
  simp only [ha] at hn ⊢
  simp [hn]

/-- A move that SEQ takes while it waits, and that starts no command. -/
theorem step_waiting {m : Move} {rest : List Move} (hp : s.phase = .idle) (hi : s.inbox = m :: rest)
    (hm : startsCommand { s with inbox := rest } m = none) :
    step s = moveOutcome (plainMove m { s with inbox := rest }) := by
  rw [step_idle hp, idleStep, hi]
  show takeMove m _ = _
  rw [takeMove, hm]

end Sys2Proof.Machine
end

