-- ==== Sys2Proof/Laws/Commands.lean ====
section
/-! SUPPORT. Commands as wholes: what each command's script can do, said once (`script_all`): the acts it does, the answers it
gets, the codes it raises. A claim about any environment follows from it by `run_all` or `run_ends`. -/

namespace Sys2Proof.Machine

/-- The need of a command's prologue; `none` for the commands without one (R175). -/
def needOf : Instr → Option Need
  | .probe           => none
  | .read            => some .anyDevice
  | .write           => some .anyDevice
  | .erase           => some .anyDevice
  | .lock            => some .protection
  | .unlock          => some .protection
  | .isLocked        => some .protection
  | .setRange _      => some .protection
  | .clearRange      => some .protection
  | .readProtection  => some .protection
  | .setLockMode _ _ => some .protection
  | .getLockMode     => some .protection
  | .getHwProtect    => some .protection
  | .secStatus       => some .security
  | .secRead _       => some .security
  | .secProgram _    => some .security
  | .secErase _      => some .security
  | .secLock _ _     => some .security
  | .transfer _      => none
  | .claim           => none
  | .release         => none

/-- Without a bound descriptor the prologue raises NoDevice (R175). -/
theorem script_unbound {i : Instr} {n : Need} (h : needOf i = some n) {x : Context} (hx : x.desc = none) :
    scriptOf i x = .raise .noDevice := by
  cases i <;> cases h <;> exact (show prologue _ x _ = _ by rw [prologue, hx])

/-- A bound descriptor that lacks what the command needs raises UnsupportedDevice (R175). -/
theorem script_unsupported {i : Instr} {n : Need} (h : needOf i = some n) {x : Context} {d : Descriptor}
    (hx : x.desc = some d) (hn : n.metBy d = false) : scriptOf i x = .raise .unsupportedDevice := by
  cases i <;> cases h <;> exact (show prologue _ x _ = _ by rw [prologue, hx]; exact require_false hn _ _)

/-- The prologue of a command whose need is met. -/
theorem prologue_met {n : Need} {x : Context} {d : Descriptor} (hx : x.desc = some d) (hn : n.metBy d = true)
    (k : Descriptor → Script) : prologue n x k = k d := by
  rw [prologue, hx]; exact require_true hn _ _

/-! ### The acts of a command -/

/-- The acts command `i` may do when it starts in `s`. -/
def ActOf (s : State) (i : Instr) : Act → Prop
  | .xfer op out n => MayIssue s i ⟨op, out, n⟩ ∧ xferOk s.cfg.gen out.length n = true
  | .claim         => i ≠ .claim ∧ i ≠ .release
  | .release       => i ≠ .claim ∧ i ≠ .release
  | .hostClaim     => i = .claim
  | .hostRelease   => i = .release
  | .memRead k n   => k + n ≤ dbufSent s i
  | .memWrite k bs =>
    fillsDbuf i = true ∧ k + bs.length ≤ s.len.toNat ∧ s.len.toNat ≤ max s.cfg.bufSize secRegionSize
  | .commit n      => n ≤ s.len.toNat
  | .tally _       => True
  | .unbind        => i = .probe
  | .bind d        => i = .probe ∧ d ∈ s.cfg.winbond ++ s.cfg.adesto
  | .identify _    => i = .probe

/-- The answers those acts get: a transaction a script issues is never too large, and `MemRead` gives the bytes `s` holds. -/
def Said (s : State) (a : Act) (x : Answer) : Prop :=
  a.Answers x ∧
    match a with
    | .xfer _ _ _  => x ≠ .failed .transferTooLarge
    | .memRead i n => x = .bytes (s.dbufSlice i n)
    | _            => True

section
variable {s : State} {A : Act → Prop} {V : Word → Prop} {E : Code → Prop}

theorem all_xfer {op : Byte} {out : List Byte} {n : Nat} {k : List Byte → Script} (ha : A (.xfer op out n))
    (h1 : E .timeout) (h2 : E .commandFailed)
    (hk : ∀ bs : List Byte, bs.length = n → (k bs).All A (Said s) V E) : (xfer op out n k).All A (Said s) V E := by
  refine ⟨ha, fun x hx => ?_⟩
  rcases hx with ⟨rfl | rfl | rfl | ⟨bs, hl, rfl⟩, hne⟩
  · exact absurd rfl hne
  · exact h1
  · exact h2
  · exact hk bs hl

theorem all_xferAs {c : Code} {op : Byte} {out : List Byte} {n : Nat} {k : List Byte → Script} (ha : A (.xfer op out n))
    (hc : E c) (hk : ∀ bs : List Byte, bs.length = n → (k bs).All A (Said s) V E) :
    (xferAs c op out n k).All A (Said s) V E := by
  refine ⟨ha, fun x hx => ?_⟩
  rcases hx with ⟨rfl | rfl | rfl | ⟨bs, hl, rfl⟩, hne⟩
  · exact absurd rfl hne
  · exact hc
  · exact hc
  · exact hk bs hl

theorem all_claim {k : Script} (ha : A .claim) (h : E .busClaimFailed) (hk : k.All A (Said s) V E) :
    (claim k).All A (Said s) V E := by
  refine ⟨ha, fun x hx => ?_⟩
  rcases hx with ⟨rfl | ⟨n, rfl⟩, -⟩
  · exact h
  · exact hk

theorem all_release {k : Script} (ha : A .release) (hk : k.All A (Said s) V E) : (release k).All A (Said s) V E :=
  ⟨ha, fun _ _ => hk⟩

theorem all_memRead {i n : Nat} {k : List Byte → Script} (ha : A (.memRead i n))
    (hk : (k (s.dbufSlice i n)).All A (Said s) V E) : (memRead i n k).All A (Said s) V E := by
  refine ⟨ha, fun x hx => ?_⟩
  obtain ⟨-, rfl⟩ := hx
  exact hk

theorem all_memWrite {i : Nat} {bs : List Byte} {k : Script} (ha : A (.memWrite i bs)) (hk : k.All A (Said s) V E) :
    (memWrite i bs k).All A (Said s) V E := ⟨ha, fun _ _ => hk⟩

theorem all_commit {n : Nat} {k : Script} (ha : A (.commit n)) (hk : k.All A (Said s) V E) :
    (commit n k).All A (Said s) V E := ⟨ha, fun _ _ => hk⟩

theorem all_tally {n : Nat} {k : Script} (ha : A (.tally n)) (hk : k.All A (Said s) V E) :
    (tally n k).All A (Said s) V E := ⟨ha, fun _ _ => hk⟩

theorem all_require {b : Bool} {c : Code} {k : Script} (hc : E c) (hk : b = true → k.All A (Said s) V E) :
    (require b c k).All A (Said s) V E := by
  cases b with
  | true => exact hk rfl
  | false => exact hc

theorem all_each {α : Type} {xs : List α} {f : α → Script → Script} {k : Script}
    (hf : ∀ x ∈ xs, ∀ k, k.All A (Said s) V E → (f x k).All A (Said s) V E) (hk : k.All A (Said s) V E) :
    (each xs f k).All A (Said s) V E := by
  induction xs with
  | nil => exact hk
  | cons x xs ih => exact hf x (by simp) _ (ih fun y hy => hf y (by simp [hy]))

variable {o : OpSet} {W : Byte → Byte → Byte → Byte → Prop}

theorem all_readSR1 {k : Byte → Script} (ha : A (.xfer o.rdsr1 [] 1)) (hc : E .statusReadFailed)
    (hk : ∀ b, (k b).All A (Said s) V E) : (readSR1 o k).All A (Said s) V E := all_xferAs ha hc fun _ _ => hk _

theorem all_readSR2 {k : Byte → Script} (ha : A (.xfer o.rdsr2 [] 1)) (hc : E .statusReadFailed)
    (hk : ∀ b, (k b).All A (Said s) V E) : (readSR2 o k).All A (Said s) V E := all_xferAs ha hc fun _ _ => hk _

theorem all_writeEnable {k : Script} (ha : A (.xfer o.wren [] 0)) (h1 : E .timeout) (h2 : E .commandFailed)
    (hk : k.All A (Said s) V E) : (writeEnable o k).All A (Said s) V E := all_xfer ha h1 h2 fun _ _ => hk

theorem all_pollReady {n : Nat} {k : Script} (ha : A (.xfer o.rdsr1 [] 1)) (h1 : E .timeout) (h2 : E .commandFailed)
    (hk : k.All A (Said s) V E) : (pollReady o n k).All A (Said s) V E := by
  induction n with
  | zero => exact h1
  | succ n ih =>
    refine all_xfer ha h1 h2 fun r _ => ?_
    split
    · exact hk
    · exact ih

theorem all_writeSR {n : Nat} {a b : Byte} {k : Script} (hw : A (.xfer o.wren [] 0)) (hs : A (.xfer o.wrsr [a, b] 0))
    (hr : A (.xfer o.rdsr1 [] 1)) (h1 : E .timeout) (h2 : E .commandFailed) (hk : k.All A (Said s) V E) :
    (writeSR o n a b k).All A (Said s) V E :=
  all_writeEnable hw h1 h2 (all_xfer hs h1 h2 fun _ _ => all_pollReady hr h1 h2 hk)

/-- The acts of a status update that writes what `W` allows for the pair it read. -/
structure UpdateActs (A : Act → Prop) (o : OpSet) (W : Byte → Byte → Byte → Byte → Prop) : Prop where
  sr1  : A (.xfer o.rdsr1 [] 1)
  sr2  : A (.xfer o.rdsr2 [] 1)
  wren : A (.xfer o.wren [] 0)
  wrsr : ∀ s1 s2 a b, W s1 s2 a b → A (.xfer o.wrsr [a, b] 0)

/-- The codes of a status update. -/
structure UpdateCodes (E : Code → Prop) : Prop where
  read   : E .statusReadFailed
  time   : E .timeout
  fail   : E .commandFailed
  verify : E .statusWriteVerifyFailed

theorem all_updateSR {n : Nat} {f : Byte → Byte → Byte × Byte} {k : Byte → Byte → Script} (ha : UpdateActs A o W)
    (hf : ∀ s1 s2, W s1 s2 (f s1 s2).1 (f s1 s2).2) (hE : UpdateCodes E) (hk : ∀ a b, (k a b).All A (Said s) V E) : (updateSR o n f k).All A (Said s) V E :=
  all_readSR1 ha.sr1 hE.read fun _ => all_readSR2 ha.sr2 hE.read fun _ =>
    all_writeSR ha.wren (ha.wrsr _ _ _ _ (hf _ _)) ha.sr1 hE.time hE.fail <|
    all_readSR1 ha.sr1 hE.read fun _ => all_readSR2 ha.sr2 hE.read fun _ =>
    all_require hE.verify fun _ => hk _ _

theorem all_hwProbe {n : Nat} {k : Bool → Script} (ha : UpdateActs A o W)
    (hf : ∀ s1 s2 : Byte, s1.getLsbD 7 = true → W s1 s2 (s1 &&& 0x7F) s2 ∧ W s1 s2 s1 s2) (hE : UpdateCodes E)
    (hk : ∀ b, (k b).All A (Said s) V E) : (hwProbe o n k).All A (Said s) V E := by
  refine all_readSR1 ha.sr1 hE.read fun s1 => all_readSR2 ha.sr2 hE.read fun s2 => ?_
  split
  · exact hk _
  · obtain ⟨h1, h2⟩ := hf s1 s2 (by simpa using ‹¬ s1.getLsbD 7 = false›)
    refine all_writeSR ha.wren (ha.wrsr _ _ _ _ h1) ha.sr1 hE.time hE.fail (all_readSR1 ha.sr1 hE.read fun _ => ?_)
    split
    · exact hk _
    · exact all_writeSR ha.wren (ha.wrsr _ _ _ _ h2) ha.sr1 hE.time hE.fail (all_readSR1 ha.sr1 hE.read fun _ =>
        all_require hE.verify fun _ => hk _)

theorem all_applyUpdate {x : Context} {f : Byte → Byte → Byte × Byte} {k : Script} (ha : UpdateActs A o W)
    (hf : ∀ s1 s2, W s1 s2 (f s1 s2).1 (f s1 s2).2) (hE : UpdateCodes E) (hc : A .claim) (hr : A .release) (hb : E .busClaimFailed) (hk : k.All A (Said s) V E) :
    (applyUpdate o x f k).All A (Said s) V E :=
  all_claim hc hb (all_updateSR ha hf hE fun _ _ => all_release hr hk)

theorem all_liveStatus {k : Byte → Byte → Script} (h1 : A (.xfer o.rdsr1 [] 1)) (h2 : A (.xfer o.rdsr2 [] 1))
    (hE : E .statusReadFailed) (hc : A .claim) (hr : A .release) (hb : E .busClaimFailed)
    (hk : ∀ a b, (k a b).All A (Said s) V E) : (liveStatus o k).All A (Said s) V E :=
  all_claim hc hb (all_readSR1 h1 hE fun _ => all_readSR2 h2 hE fun _ => all_release hr (hk _ _))

theorem all_eraseRegion {n r : Nat} {k : Script} (hw : A (.xfer o.wren [] 0))
    (he : A (.xfer o.secErase (be24 (secAddr r 0)) 0)) (hr : A (.xfer o.rdsr1 [] 1)) (h1 : E .timeout)
    (h2 : E .commandFailed) (hk : k.All A (Said s) V E) : (eraseRegion o n r k).All A (Said s) V E :=
  all_writeEnable hw h1 h2 (all_xfer he h1 h2 fun _ _ => all_pollReady hr h1 h2 hk)

theorem all_secLockedCheck {r : Nat} {k : Script} (ha : A (.xfer o.rdsr2 [] 1)) (h1 : E .statusReadFailed)
    (h2 : E .regionLocked) (hk : k.All A (Said s) V E) : (secLockedCheck o r k).All A (Said s) V E :=
  all_readSR2 ha h1 fun _ => all_require h2 fun _ => hk

theorem all_rangeCheck {d : Descriptor} {x : Context} {b : Bool} {k : Script} (hE : E .invalidRegionOrRange)
    (hk : x.addr < d.totalSize → x.addr + x.len ≤ d.totalSize → (b = true → x.len ≤ x.cfg.bufSize) →
      k.All A (Said s) V E) : (rangeCheck d x b k).All A (Said s) V E :=
  all_require hE fun h1 => all_require hE fun h2 => all_require hE fun h3 =>
    hk (of_decide_eq_true h1) (of_decide_eq_true h2) fun hb => by subst hb; simpa using h3

theorem all_secCheck {r : Nat} {x : Context} {k : Script} (hE : E .invalidRegionOrRange)
    (hk : 1 ≤ r → r ≤ 3 → x.addr + x.len ≤ secRegionSize → k.All A (Said s) V E) :
    (secCheck r x k).All A (Said s) V E :=
  all_require hE fun h1 => all_require hE fun h2 =>
    hk (of_decide_eq_true h1).1 (of_decide_eq_true h1).2 (of_decide_eq_true h2)

end

theorem xferOk_page (g : Gen) {n : Nat} (h : n ≤ g.pageLimit) : xferOk g (3 + n) 0 = true := by
  cases g <;> simp [xferOk, Gen.pageLimit] at * <;> omega

@[simp] theorem length_be24 (a : Nat) : (be24 a).length = 3 := rfl

@[simp] theorem length_dbufSlice (s : State) (i n : Nat) : (s.dbufSlice i n).length = n := by simp [State.dbufSlice]

/-- The pair a status update writes is its rule's (R225). -/
theorem writes_update {i : Instr} {f : Byte → Byte → Byte × Byte} (h : statusUpdate i = some f) (s1 s2 : Byte) :
    WritesPair i s1 s2 (f s1 s2).1 (f s1 s2).2 := .inl ⟨f, h, rfl⟩

/-- The pairs the probe of the WP pin writes are its rule's (R250). -/
theorem writes_probe {i : Instr} (h : i = .getLockMode ∨ i = .getHwProtect) (s1 s2 : Byte) (h7 : s1.getLsbD 7 = true) :
    WritesPair i s1 s2 (s1 &&& 0x7F) s2 ∧ WritesPair i s1 s2 s1 s2 :=
  ⟨.inr ⟨h, h7, rfl, .inl rfl⟩, .inr ⟨h, h7, rfl, .inr rfl⟩⟩

theorem statusUpdate_lock {t : RangeTuple} (h : preset (14 : BitVec 8).toNat = some t) :
    statusUpdate .lock = some (withTuple t) := congrArg (Option.map withTuple) h

theorem statusUpdate_setRange {k : BitVec 8} {t : RangeTuple} (h : preset k.toNat = some t) :
    statusUpdate (.setRange k) = some (withTuple t) := congrArg (Option.map withTuple) h

theorem statusUpdate_setLockMode {m : BitVec 8} {c : Bool} {b : Bool × Bool} (h : lockModeBits m.toNat = some b) :
    statusUpdate (.setLockMode m c) = some (withLockBits b.1 b.2) :=
  by
  rw [statusUpdate, h]; rfl

/-- What a command's script can do: its acts are those of `ActOf`, its codes those of `codesOf` (R351). -/
theorem script_all (i : Instr) (s : State) :
    (scriptOf i ⟨s.cfg, s.desc, s.addr.toNat, s.len.toNat⟩).All (ActOf s i) (Said s) (fun _ => True)
      (fun c => c ∈ codesOf i) := by
  have small : ∀ (f : Frame), MayIssue s i f → f.out.length + f.nIn ≤ 8 → ActOf s i (.xfer f.op f.out f.nIn) :=
    fun f h hl => ⟨h, xferOk_small _ hl⟩
  cases hn : needOf i with
  | none =>
    cases i with
    | probe =>
      refine ⟨rfl, fun _ _ => all_claim ⟨nofun, nofun⟩ (by decide) (all_xferAs (small ⟨_, [], 3⟩ rfl (by simp))
        (by decide) fun r _ => all_release ⟨nofun, nofun⟩ ⟨rfl, fun _ _ => ?_⟩)⟩
      split
      · exact ⟨⟨rfl, List.mem_of_find?_eq_some ‹_›⟩, fun _ _ => trivial⟩
      · show Code.unsupportedDevice ∈ _; decide
    | transfer op =>
      refine all_require (by simp [codesOf]) fun h1 => all_require (by simp [codesOf]) fun h2 => all_claim ⟨nofun, nofun⟩ (by simp [codesOf])
        (all_memRead (by show _ ≤ _; simp [dbufSent]) (all_xfer ⟨rfl, by simpa using h2⟩ (by simp [codesOf]) (by simp [codesOf]) fun bs hl =>
        all_release ⟨nofun, nofun⟩ (all_memWrite ⟨rfl, ?_, ?_⟩ (all_tally trivial trivial))))
      · rw [Nat.zero_add, hl]
      · exact Nat.le_trans (of_decide_eq_true h1).2 (Nat.le_max_left _ _)
    | claim =>
      refine ⟨rfl, fun x hx => ?_⟩
      rcases hx with ⟨rfl | ⟨n, rfl⟩, -⟩
      · show Code.busClaimFailed ∈ _; decide
      · trivial
    | release =>
      refine ⟨rfl, fun x hx => ?_⟩
      rcases hx with ⟨rfl | ⟨n, rfl⟩, -⟩
      · show Code.illegalCommand ∈ _; decide
      · trivial
    | _ => cases hn
  | some n =>
    cases hd : s.desc with
    | none =>
      rw [script_unbound hn rfl]
      cases i <;> cases hn <;> show Code.noDevice ∈ _ <;> simp [codesOf]
    | some d =>
      by_cases hm : n.metBy d = false
      · rw [script_unsupported hn (d := d) rfl hm]
        cases i <;> cases hn <;> first | cases hm | (show Code.unsupportedDevice ∈ _; simp [codesOf])
      · have hm' : n.metBy d = true := by simpa using hm
        have may : ∀ f, (match i with
            | .probe => False
            | .transfer _ => False
            | _ => ScriptFrame s d i f) → MayIssue s i f := by
          intro f hf
          cases i <;> first | exact ⟨d, hd, hf⟩ | cases hf
        have update : (∀ f, IsStatusUpdate d.op i f → MayIssue s i f) → UpdateActs (ActOf s i) d.op (WritesPair i) := fun h =>
          ⟨small ⟨_, [], 1⟩ (h _ (.inl (.inl rfl))) (by simp), small ⟨_, [], 1⟩ (h _ (.inl (.inr rfl))) (by simp),
            small ⟨_, [], 0⟩ (h _ (.inr (.inl rfl))) (by simp),
            fun s1 s2 a b hw => small ⟨_, [a, b], 0⟩ (h _ (.inr (.inr ⟨s1, s2, a, b, hw, rfl⟩))) (by simp)⟩
        have met : ∀ k, prologue n ⟨s.cfg, some d, s.addr.toNat, s.len.toNat⟩ k = k d := fun k => prologue_met rfl hm' k
        have wrap : (∀ f, IsWrapping d.op f → MayIssue s i f) →
            ActOf s i (.xfer d.op.wren [] 0) ∧ ActOf s i (.xfer d.op.rdsr1 [] 1) := fun h =>
          ⟨small ⟨_, [], 0⟩ (h _ (.inl rfl)) (by simp), small ⟨_, [], 1⟩ (h _ (.inr rfl)) (by simp)⟩
        cases i with
        | read =>
          cases hn
          simp only [scriptOf, readScript]
          rw [met]
          refine all_rangeCheck (by decide) fun _ _ hb => all_each (fun ch hch k hk => ?_) trivial
          have hl := readForm_length s.cfg.readVariant d.op
          have hp := maxIncoming_pos s.cfg.gen (nAddr := 3 + (readForm s.cfg.readVariant d.op).2.length) (by omega)
          have hm := slices_mem hp hch
          refine all_claim ⟨nofun, nofun⟩ (by decide) (all_xfer ⟨may _ ⟨ch, hch, rfl⟩, ?_⟩ (by decide) (by decide) fun bs hbs =>
            all_release ⟨nofun, nofun⟩ (all_memWrite ⟨rfl, ?_, ?_⟩ (all_commit ?_ hk)))
          · rw [List.length_append, length_be24]
            exact (maxIncoming_largest s.cfg.gen (by omega) _).2 hm.2.1
          · rw [hbs]; exact hm.2.2
          · exact Nat.le_trans (hb rfl) (Nat.le_max_left _ _)
          · exact hm.2.2
        | write =>
          cases hn
          simp only [scriptOf, writeScript]
          rw [met]
          obtain ⟨hw, hr⟩ := wrap fun f hf => may _ (.inl hf)
          refine all_rangeCheck (by decide) fun _ _ hb => all_each (fun ch hch k hk => ?_) trivial
          have hm := chunks_mem (effectivePage_pos s.cfg.gen d) hch
          refine all_claim ⟨nofun, nofun⟩ (by decide) (all_writeEnable hw (by decide) (by decide)
            (all_memRead ?_ (all_xfer ⟨may _ (.inr ⟨ch, hch, rfl⟩), ?_⟩ (by decide) (by decide) fun _ _ =>
            all_pollReady hr (by decide) (by decide) (all_release ⟨nofun, nofun⟩ (all_commit ?_ hk)))))
          · show _ ≤ s.len.toNat; omega
          · rw [List.length_append, length_be24, length_dbufSlice]
            have hl : effectivePage s.cfg.gen d ≤ s.cfg.gen.pageLimit := Nat.min_le_right _ _
            exact xferOk_page _ (by omega)
          · show _ ≤ s.len.toNat; omega
        | erase =>
          cases hn
          simp only [scriptOf, eraseScript]
          rw [met]
          obtain ⟨hw, hr⟩ := wrap fun f hf => may _ (.inl hf)
          refine all_rangeCheck (by decide) fun _ _ _ => all_require (by decide) fun _ => all_each (fun a ha k hk => ?_) trivial
          refine all_claim ⟨nofun, nofun⟩ (by decide) (all_writeEnable hw (by decide) (by decide)
            (all_xfer (small ⟨_, _, 0⟩ (may _ (.inr ⟨a, ha, rfl⟩)) (by simp)) (by decide) (by decide) fun _ _ =>
            all_pollReady hr (by decide) (by decide) (all_release ⟨nofun, nofun⟩ (all_commit ?_ hk))))
          simp only [sectorsOf, List.mem_map, List.mem_range] at ha
          obtain ⟨j, hj, rfl⟩ := ha
          have := Nat.div_mul_le_self s.len.toNat d.sectorSize
          have h2 : (j + 1) * d.sectorSize ≤ s.len.toNat / d.sectorSize * d.sectorSize := Nat.mul_le_mul_right _ hj
          show s.addr.toNat + j * d.sectorSize - s.addr.toNat + d.sectorSize ≤ s.len.toNat
          rw [Nat.add_mul] at h2
          omega
        | lock => 
          cases hn
          simp only [scriptOf, setRangeScript]
          rw [met]
          split
          · show Code.invalidRegionOrRange ∈ _; exact absurd ‹preset _ = none› (by decide)
          · exact all_applyUpdate (update may) (writes_update (statusUpdate_lock ‹_›)) ⟨by decide, by decide, by decide, by decide⟩ ⟨nofun, nofun⟩ ⟨nofun, nofun⟩
              (by decide) trivial
        | setRange k =>
          cases hn
          simp only [scriptOf, setRangeScript]
          rw [met]
          split
          · show Code.invalidRegionOrRange ∈ _; simp [codesOf]
          · exact all_applyUpdate (update may) (writes_update (statusUpdate_setRange ‹_›)) ⟨by simp [codesOf], by simp [codesOf], by simp [codesOf], by simp [codesOf]⟩
              ⟨nofun, nofun⟩ ⟨nofun, nofun⟩ (by simp [codesOf]) trivial
        | unlock =>
          cases hn
          simp only [scriptOf, clearRangeScript]
          rw [met]
          exact all_applyUpdate (update may) (writes_update rfl) ⟨by decide, by decide, by decide, by decide⟩ ⟨nofun, nofun⟩ ⟨nofun, nofun⟩
              (by decide) trivial
        | clearRange =>
          cases hn
          simp only [scriptOf, clearRangeScript]
          rw [met]
          exact all_applyUpdate (update may) (writes_update rfl) ⟨by decide, by decide, by decide, by decide⟩ ⟨nofun, nofun⟩ ⟨nofun, nofun⟩
              (by decide) trivial
        | isLocked =>
          cases hn
          simp only [scriptOf, isLockedScript]
          rw [met]
          exact all_liveStatus (small ⟨_, [], 1⟩ (may _ (.inl rfl)) (by simp)) (small ⟨_, [], 1⟩ (may _ (.inr rfl)) (by simp))
            (by decide) ⟨nofun, nofun⟩ ⟨nofun, nofun⟩ (by decide) fun _ _ => trivial
        | readProtection =>
          cases hn
          simp only [scriptOf, readProtectionScript]
          rw [met]
          exact all_liveStatus (small ⟨_, [], 1⟩ (may _ (.inl rfl)) (by simp)) (small ⟨_, [], 1⟩ (may _ (.inr rfl)) (by simp))
            (by decide) ⟨nofun, nofun⟩ ⟨nofun, nofun⟩ (by decide) fun _ _ => trivial
        | setLockMode m c =>
          cases hn
          simp only [scriptOf, setLockModeScript]
          rw [met]
          split
          · show Code.invalidRegionOrRange ∈ _; simp [codesOf]
          · exact all_require (by simp [codesOf]) fun _ => all_applyUpdate (update may) (writes_update (statusUpdate_setLockMode ‹_›))
              ⟨by simp [codesOf], by simp [codesOf], by simp [codesOf], by simp [codesOf]⟩
              ⟨nofun, nofun⟩ ⟨nofun, nofun⟩ (by simp [codesOf]) trivial
        | getLockMode =>
          cases hn
          simp only [scriptOf, getLockModeScript]
          rw [met]
          have hu := update may
          refine all_claim ⟨nofun, nofun⟩ (by decide) (all_readSR1 hu.sr1 (by decide) fun _ => all_readSR2 hu.sr2 (by decide) fun _ => ?_)
          split
          · exact all_release ⟨nofun, nofun⟩ trivial
          · split
            · exact all_release ⟨nofun, nofun⟩ trivial
            · exact all_hwProbe hu (writes_probe (.inl rfl)) ⟨by decide, by decide, by decide, by decide⟩ fun _ => all_release ⟨nofun, nofun⟩ trivial
        | getHwProtect =>
          cases hn
          simp only [scriptOf, getHwProtectScript]
          rw [met]
          exact all_claim ⟨nofun, nofun⟩ (by decide) (all_hwProbe (update may) (writes_probe (.inr rfl)) ⟨by decide, by decide, by decide, by decide⟩
            fun _ => all_release ⟨nofun, nofun⟩ trivial)
        | secStatus =>
          cases hn
          simp only [scriptOf, secStatusScript]
          rw [met]
          exact all_claim ⟨nofun, nofun⟩ (by decide) (all_readSR2 (small ⟨_, [], 1⟩ (may _ rfl) (by simp)) (by decide) fun _ =>
            all_release ⟨nofun, nofun⟩ trivial)
        | secRead r =>
          cases hn
          simp only [scriptOf, secReadScript]
          rw [met]
          refine all_secCheck (by simp [codesOf]) fun _ _ hb => all_each (fun ch hch k hk => ?_) trivial
          have hm := slices_mem (maxIncoming_pos s.cfg.gen (nAddr := 4) (by omega)) hch
          refine all_claim ⟨nofun, nofun⟩ (by simp [codesOf]) (all_xfer ⟨may _ ⟨ch, hch, rfl⟩, ?_⟩ (by simp [codesOf])
            (by simp [codesOf]) fun bs hbs =>
            all_release ⟨nofun, nofun⟩ (all_memWrite ⟨rfl, ?_, ?_⟩ (all_commit ?_ hk)))
          · rw [List.length_append, length_be24]
            exact (maxIncoming_largest s.cfg.gen (by simp) _).2 hm.2.1
          · rw [hbs]; exact hm.2.2
          · have hb' : s.addr.toNat + s.len.toNat ≤ secRegionSize := hb
            have := Nat.le_max_right s.cfg.bufSize secRegionSize
            omega
          · exact hm.2.2
        | secErase r =>
          cases hn
          simp only [scriptOf, secEraseScript]
          rw [met]
          obtain ⟨hw, hr⟩ := wrap fun f hf => may _ (.inl hf)
          exact all_secCheck (by simp [codesOf]) fun _ _ _ => all_claim ⟨nofun, nofun⟩ (by simp [codesOf])
            (all_secLockedCheck (small ⟨_, [], 1⟩ (may _ (.inr (.inl rfl))) (by simp)) (by simp [codesOf]) (by simp [codesOf])
            (all_eraseRegion hw (small ⟨_, _, 0⟩ (may _ (.inr (.inr rfl))) (by simp)) hr (by simp [codesOf]) (by simp [codesOf])
            (all_release ⟨nofun, nofun⟩ (all_tally trivial trivial))))
        | secProgram r =>
          cases hn
          simp only [scriptOf, secProgramScript]
          rw [met]
          obtain ⟨hw, hr⟩ := wrap fun f hf => may _ (.inl hf)
          refine all_secCheck (by simp [codesOf]) fun _ _ hb => ?_
          split
          · trivial
          · refine all_claim ⟨nofun, nofun⟩ (by simp [codesOf])
              (all_secLockedCheck (small ⟨_, [], 1⟩ (may _ (.inr (.inl rfl))) (by simp)) (by simp [codesOf]) (by simp [codesOf])
              (all_eraseRegion hw (small ⟨_, _, 0⟩ (may _ (.inr (.inr (.inl rfl)))) (by simp)) hr (by simp [codesOf])
              (by simp [codesOf]) (all_each (fun ch hch k hk => ?_) (all_release ⟨nofun, nofun⟩ trivial))))
            have hp : 0 < min secRegionSize s.cfg.gen.pageLimit := by cases s.cfg.gen <;> decide
            have hm := chunks_mem hp hch
            refine all_writeEnable hw (by simp [codesOf]) (by simp [codesOf])
              (all_memRead ?_ (all_xfer ⟨may _ (.inr (.inr (.inr ⟨ch, hch, rfl⟩))), ?_⟩ (by simp [codesOf]) (by simp [codesOf])
              fun _ _ => all_pollReady hr (by simp [codesOf]) (by simp [codesOf]) (all_commit ?_ hk)))
            · show _ ≤ s.len.toNat; omega
            · rw [List.length_append, length_be24, length_dbufSlice]
              have hl := Nat.min_le_right secRegionSize s.cfg.gen.pageLimit
              exact xferOk_page _ (by omega)
            · show _ ≤ s.len.toNat; omega
        | secLock r c =>
          cases hn
          simp only [scriptOf, secLockScript]
          rw [met]
          exact all_require (by simp [codesOf]) fun _ => all_require (by simp [codesOf]) fun _ =>
            all_claim ⟨nofun, nofun⟩ (by simp [codesOf]) (all_updateSR (update may) (writes_update rfl)
              ⟨by simp [codesOf], by simp [codesOf], by simp [codesOf], by simp [codesOf]⟩ fun _ _ =>
            all_require (by simp [codesOf]) fun _ => all_release ⟨nofun, nofun⟩ trivial)
        | _ => cases hn

/-! ### A command is its steps -/

/-- Every act of the script, whatever the answers, leaves DESC alone. -/
abbrev Script.KeepsDesc : Script → Prop :=
  Script.All (fun a => a ≠ .unbind ∧ ∀ d, a ≠ .bind d) (fun _ _ => True) (fun _ => True) fun _ => True

theorem all_true (c : Script) {A : Act → Prop} (h : ∀ a, A a) :
    c.All A (fun _ _ => True) (fun _ => True) fun _ => True := by
  induction c with
  | done v => trivial
  | raise c => trivial
  | act a k ih => exact ⟨h a, fun x _ => ih x⟩

section
variable {o : OpSet} {x : Context} {k : Script}

theorem keeps_unlessFailed {c : Code → Code} {k : Answer → Script} (hk : ∀ x, (k x).KeepsDesc) (x : Answer) :
    (unlessFailed c k x).KeepsDesc := by
  cases x <;> first | exact hk _ | trivial

theorem keeps_xfer {op : Byte} {out : List Byte} {n : Nat} {k : List Byte → Script} (hk : ∀ r, (k r).KeepsDesc) :
    (xfer op out n k).KeepsDesc := ⟨⟨nofun, nofun⟩, fun x _ => keeps_unlessFailed (fun _ => hk _) x⟩

theorem keeps_xferAs {c : Code} {op : Byte} {out : List Byte} {n : Nat} {k : List Byte → Script}
    (hk : ∀ r, (k r).KeepsDesc) : (xferAs c op out n k).KeepsDesc :=
  ⟨⟨nofun, nofun⟩, fun x _ => keeps_unlessFailed (fun _ => hk _) x⟩

theorem keeps_claim (hk : k.KeepsDesc) : (claim k).KeepsDesc :=
  ⟨⟨nofun, nofun⟩, fun x _ => keeps_unlessFailed (fun _ => hk) x⟩

theorem keeps_release (hk : k.KeepsDesc) : (release k).KeepsDesc := ⟨⟨nofun, nofun⟩, fun _ _ => hk⟩

theorem keeps_memRead {i n : Nat} {k : List Byte → Script} (hk : ∀ r, (k r).KeepsDesc) : (memRead i n k).KeepsDesc :=
  ⟨⟨nofun, nofun⟩, fun _ _ => hk _⟩

theorem keeps_memWrite {i : Nat} {bs : List Byte} (hk : k.KeepsDesc) : (memWrite i bs k).KeepsDesc :=
  ⟨⟨nofun, nofun⟩, fun _ _ => hk⟩

theorem keeps_commit {n : Nat} (hk : k.KeepsDesc) : (commit n k).KeepsDesc := ⟨⟨nofun, nofun⟩, fun _ _ => hk⟩

theorem keeps_tally {n : Nat} (hk : k.KeepsDesc) : (tally n k).KeepsDesc := ⟨⟨nofun, nofun⟩, fun _ _ => hk⟩

theorem keeps_require {b : Bool} {c : Code} (hk : k.KeepsDesc) : (require b c k).KeepsDesc := by
  cases b
  · trivial
  · exact hk

theorem keeps_each {α : Type} {xs : List α} {f : α → Script → Script}
    (hf : ∀ x (k : Script), k.KeepsDesc → (f x k).KeepsDesc) (hk : k.KeepsDesc) : (each xs f k).KeepsDesc := by
  induction xs with
  | nil => exact hk
  | cons x xs ih => exact hf x _ ih

theorem keeps_prologue {n : Need} {k : Descriptor → Script} (hk : ∀ d, (k d).KeepsDesc) : (prologue n x k).KeepsDesc := by
  rw [prologue]; split
  · trivial
  · exact keeps_require (hk _)

theorem keeps_writeEnable (hk : k.KeepsDesc) : (writeEnable o k).KeepsDesc := keeps_xfer fun _ => hk

theorem keeps_pollReady {n : Nat} (hk : k.KeepsDesc) : (pollReady o n k).KeepsDesc := by
  induction n with
  | zero => trivial
  | succ n ih => exact keeps_xfer fun r => by split <;> assumption

theorem keeps_readSR1 {k : Byte → Script} (hk : ∀ b, (k b).KeepsDesc) : (readSR1 o k).KeepsDesc :=
  keeps_xferAs fun _ => hk _

theorem keeps_readSR2 {k : Byte → Script} (hk : ∀ b, (k b).KeepsDesc) : (readSR2 o k).KeepsDesc :=
  keeps_xferAs fun _ => hk _

theorem keeps_writeSR {n : Nat} {a b : Byte} (hk : k.KeepsDesc) : (writeSR o n a b k).KeepsDesc :=
  keeps_writeEnable (keeps_xfer fun _ => keeps_pollReady hk)

theorem keeps_updateSR {n : Nat} {f : Byte → Byte → Byte × Byte} {k : Byte → Byte → Script}
    (hk : ∀ a b, (k a b).KeepsDesc) : (updateSR o n f k).KeepsDesc :=
  keeps_readSR1 fun _ => keeps_readSR2 fun _ => keeps_writeSR (keeps_readSR1 fun _ => keeps_readSR2 fun _ =>
    keeps_require (hk _ _))

theorem keeps_hwProbe {n : Nat} {k : Bool → Script} (hk : ∀ b, (k b).KeepsDesc) : (hwProbe o n k).KeepsDesc := by
  refine keeps_readSR1 fun _ => keeps_readSR2 fun _ => ?_
  split
  · exact hk _
  · refine keeps_writeSR (keeps_readSR1 fun _ => ?_)
    split
    · exact hk _
    · exact keeps_writeSR (keeps_readSR1 fun _ => keeps_require (hk _))

theorem keeps_applyUpdate {f : Byte → Byte → Byte × Byte} (hk : k.KeepsDesc) : (applyUpdate o x f k).KeepsDesc :=
  keeps_claim (keeps_updateSR fun _ _ => keeps_release hk)

theorem keeps_liveStatus {k : Byte → Byte → Script} (hk : ∀ a b, (k a b).KeepsDesc) : (liveStatus o k).KeepsDesc :=
  keeps_claim (keeps_readSR1 fun _ => keeps_readSR2 fun _ => keeps_release (hk _ _))

theorem keeps_rangeCheck {d : Descriptor} {b : Bool} (hk : k.KeepsDesc) : (rangeCheck d x b k).KeepsDesc :=
  keeps_require (keeps_require (keeps_require hk))

theorem keeps_secCheck {r : Nat} (hk : k.KeepsDesc) : (secCheck r x k).KeepsDesc := keeps_require (keeps_require hk)

theorem keeps_secLockedCheck {r : Nat} (hk : k.KeepsDesc) : (secLockedCheck o r k).KeepsDesc :=
  keeps_readSR2 fun _ => keeps_require hk

theorem keeps_eraseRegion {n r : Nat} (hk : k.KeepsDesc) : (eraseRegion o n r k).KeepsDesc :=
  keeps_writeEnable (keeps_xfer fun _ => keeps_pollReady hk)

end

theorem keeps_setRange (k : BitVec 8) (x : Context) : (setRangeScript k x).KeepsDesc :=
  keeps_prologue fun d => by split <;> first | trivial | exact keeps_applyUpdate trivial

theorem keeps_clearRange (x : Context) : (clearRangeScript x).KeepsDesc := keeps_prologue fun _ => keeps_applyUpdate trivial

/-- No command but PROBE binds or unbinds a descriptor (R30). -/
theorem script_keeps_desc (i : Instr) (hi : i ≠ .probe) (x : Context) : (scriptOf i x).KeepsDesc := by
  cases i with
  | probe => exact absurd rfl hi
  | read =>
    exact keeps_prologue fun _ => keeps_rangeCheck (keeps_each (fun _ _ hk => keeps_claim (keeps_xfer fun _ =>
      keeps_release (keeps_memWrite (keeps_commit hk)))) trivial)
  | write =>
    exact keeps_prologue fun _ => keeps_rangeCheck (keeps_each (fun _ _ hk => keeps_claim (keeps_writeEnable
      (keeps_memRead fun _ => keeps_xfer fun _ => keeps_pollReady (keeps_release (keeps_commit hk))))) trivial)
  | erase =>
    exact keeps_prologue fun _ => keeps_rangeCheck (keeps_require (keeps_each (fun _ _ hk => keeps_claim (keeps_writeEnable
      (keeps_xfer fun _ => keeps_pollReady (keeps_release (keeps_commit hk))))) trivial))
  | lock => exact keeps_setRange 14 x
  | unlock => exact keeps_clearRange x
  | isLocked => exact keeps_prologue fun _ => keeps_liveStatus fun _ _ => trivial
  | setRange k => exact keeps_setRange k x
  | clearRange => exact keeps_clearRange x
  | readProtection => exact keeps_prologue fun _ => keeps_liveStatus fun _ _ => trivial
  | setLockMode m c =>
    exact keeps_prologue fun _ => by split <;> first | trivial | exact keeps_require (keeps_applyUpdate trivial)
  | getLockMode =>
    refine keeps_prologue fun _ => keeps_claim (keeps_readSR1 fun _ => keeps_readSR2 fun _ => ?_)
    split
    · exact keeps_release trivial
    · split
      · exact keeps_release trivial
      · exact keeps_hwProbe fun _ => keeps_release trivial
  | getHwProtect => exact keeps_prologue fun _ => keeps_claim (keeps_hwProbe fun _ => keeps_release trivial)
  | secStatus => exact keeps_prologue fun _ => keeps_claim (keeps_readSR2 fun _ => keeps_release trivial)
  | secRead r =>
    exact keeps_prologue fun _ => keeps_secCheck (keeps_each (fun _ _ hk => keeps_claim (keeps_xfer fun _ =>
      keeps_release (keeps_memWrite (keeps_commit hk)))) trivial)
  | secProgram r =>
    refine keeps_prologue fun _ => keeps_secCheck ?_
    split
    · trivial
    · exact keeps_claim (keeps_secLockedCheck (keeps_eraseRegion (keeps_each (fun _ _ hk => keeps_writeEnable
        (keeps_memRead fun _ => keeps_xfer fun _ => keeps_pollReady (keeps_commit hk))) (keeps_release trivial))))
  | secErase r =>
    exact keeps_prologue fun _ => keeps_secCheck (keeps_claim (keeps_secLockedCheck (keeps_eraseRegion
      (keeps_release (keeps_tally trivial)))))
  | secLock r c =>
    exact keeps_prologue fun _ => keeps_require (keeps_require (keeps_claim (keeps_updateSR fun _ _ =>
      keeps_require (keeps_release trivial))))
  | transfer op =>
    exact keeps_require (keeps_require (keeps_claim (keeps_memRead fun _ => keeps_xfer fun _ => keeps_release
      (keeps_memWrite (keeps_tally trivial)))))
  | claim =>
    exact ⟨⟨nofun, nofun⟩, fun x _ => keeps_unlessFailed (k := fun x => .done (BitVec.ofNat 32 x.count)) (fun _ => trivial) x⟩
  | release =>
    exact ⟨⟨nofun, nofun⟩, fun x _ => keeps_unlessFailed (k := fun x => .done (BitVec.ofNat 32 x.count)) (fun _ => trivial) x⟩

/-- A command is its steps: from `Running(cmd, 0)` on, SEQ's acts one after the other end as `exec` does (R24, R405). -/
theorem exec_steps {i : Instr} {s : State} (h : decode s.cmd = .ok i) : ∃ n, advances n s.started = exec i s := by
  have hw : wordScript s.cmd (s.latched.context s.started) = scriptOf i (s.latched.context s) := by
    rw [wordScript, h]; rfl
  have hc : (scriptOf i (s.latched.context s)).All (DescOnly s.cmd) (fun _ _ => True) (fun _ => True) fun _ => True := by
    by_cases hi : i = .probe
    · exact all_true _ fun _ => .inr (by rw [h, hi])
    · exact (script_keeps_desc i hi _).mono (fun a ha => .inl ha) (fun _ _ _ h => h) (fun _ h => h) fun _ h => h
  rw [exec_eq]
  exact run_steps (w := s.cmd) (r := s.latched) hc rfl rfl ((Script.after_nil _).trans hw)

end Sys2Proof.Machine
end

