-- ==== Sys2Proof/Laws/PerInstr.lean ====
section
/-! SUPPORT. Laws stated per instruction: the encoder puts each command in its own row of the command table, with
every field where the command word has it (R100 to R102). -/

namespace Sys2Proof.Laws.Encoding

/-- The word of a command: it matches the command's table row (R101), and its three fields are the command's. -/
def Statement (i : Instr) : Prop :=
  encode i &&& i.tableMask = i.tableMatch ∧ fieldOp (encode i) = i.code ∧ fieldSel (encode i) = i.sel ∧
    fieldConfirm (encode i) = i.confirm

/-- The bits of a word laid out as R100 says: OP, SEL, CONFIRM, zeros. -/
theorem bit (c s : BitVec 8) (b : Bool) (i : Nat) :
    BitVec.getLsbD ((0 : BitVec 15) ++ BitVec.ofBool b ++ s ++ c) i =
      if i < 8 then c.getLsbD i else if i < 16 then s.getLsbD (i - 8) else decide (i = 16) && b := by
  simp only [BitVec.getLsbD_append]
  by_cases h1 : i < 8
  · simp [h1]
  · by_cases h2 : i < 16
    · have : i - 8 < 8 := by omega
      simp [h1, h2, this]
    · have h3 : ¬ i - 8 < 8 := by omega
      by_cases h4 : i = 16
      · subst h4
        simp
      · have h5 : ¬ i - 8 - 8 < 1 := by omega
        simp [h1, h2, h3, h4, h5]

/-- Fields of a word put together as R100 lays them out. -/
theorem fields (c s : BitVec 8) (b : Bool) :
    let w : Word := (0 : BitVec 15) ++ BitVec.ofBool b ++ s ++ c
    fieldOp w = c ∧ fieldSel w = s ∧ fieldConfirm w = b := by
  refine ⟨BitVec.eq_of_getLsbD_eq fun i hi => ?_, BitVec.eq_of_getLsbD_eq fun i hi => ?_, (bit c s b 16).trans rfl⟩
  · rw [fieldOp, BitVec.getLsbD_extractLsb', decide_eq_true hi, Bool.true_and, Nat.zero_add]
    exact (bit c s b i).trans (if_pos hi)
  · rw [fieldSel, BitVec.getLsbD_extractLsb', decide_eq_true hi, Bool.true_and]
    refine (bit c s b (8 + i)).trans ?_
    rw [if_neg (by omega), if_pos (by omega), Nat.add_sub_cancel_left]

/-- The masked word, for each class: bits 7:0 stay, the bits the class must have zero are zero. -/
theorem masked (k : OpClass) (c s : BitVec 8) (b : Bool) (hs : k = .N → s = 0) (hb : k ≠ .SC → b = false) :
    ((0 : BitVec 15) ++ BitVec.ofBool b ++ s ++ c : Word) &&& (k.mustBeZero ||| 0xFF) = c.zeroExtend 32 := by
  have key : ∀ i : Fin 32, (k.mustBeZero ||| 0xFF).getLsbD i.val =
      (decide (i.val < 8) || (decide (16 ≤ i.val) && (decide (i.val ≠ 16) || decide (k ≠ .SC))) ||
        (decide (8 ≤ i.val) && decide (k = .N))) := by
    cases k <;> decide
  refine BitVec.eq_of_getLsbD_eq fun i hi => ?_
  rw [BitVec.getLsbD_and, key ⟨i, hi⟩, BitVec.getLsbD_setWidth, decide_eq_true hi, Bool.true_and]
  refine (congrArg (· && _) (bit c s b i)).trans ?_
  dsimp only
  by_cases h1 : i < 8
  · simp [h1]
  · have hc : c.getLsbD i = false := BitVec.getLsbD_of_ge c i (by omega)
    by_cases h2 : i < 16
    · by_cases hk : k = .N
      · simp [h1, h2, hc, hs hk]
      · have : ¬ 16 ≤ i := by omega
        simp [h1, h2, hc, hk, this]
    · by_cases h3 : i = 16
      · by_cases hk : k = .SC
        · simp [h3, hk]
        · simp [h3, hb hk]
      · simp [h1, h2, h3, hc]

/-- A command whose table row and class agree with its fields. -/
theorem of_class (i : Instr) (hs : i.cls = .N → i.sel = 0) (hb : i.cls ≠ .SC → i.confirm = false) : Statement i :=
  ⟨masked i.cls i.code i.sel i.confirm hs hb, fields i.code i.sel i.confirm⟩

theorem probe : Statement .probe := of_class _ (by simp [Instr.cls, Instr.sel]) (by simp [Instr.cls, Instr.confirm])

theorem read : Statement .read := of_class _ (by simp [Instr.cls, Instr.sel]) (by simp [Instr.cls, Instr.confirm])

theorem write : Statement .write := of_class _ (by simp [Instr.cls, Instr.sel]) (by simp [Instr.cls, Instr.confirm])

theorem erase : Statement .erase := of_class _ (by simp [Instr.cls, Instr.sel]) (by simp [Instr.cls, Instr.confirm])

theorem lock : Statement .lock := of_class _ (by simp [Instr.cls, Instr.sel]) (by simp [Instr.cls, Instr.confirm])

theorem unlock : Statement .unlock := of_class _ (by simp [Instr.cls, Instr.sel]) (by simp [Instr.cls, Instr.confirm])

theorem isLocked : Statement .isLocked := of_class _ (by simp [Instr.cls, Instr.sel]) (by simp [Instr.cls, Instr.confirm])

theorem setRange (k : BitVec 8) : Statement (.setRange k) := of_class _ (by simp [Instr.cls, Instr.sel]) (by simp [Instr.cls, Instr.confirm])

theorem clearRange : Statement .clearRange := of_class _ (by simp [Instr.cls, Instr.sel]) (by simp [Instr.cls, Instr.confirm])

theorem readProtection : Statement .readProtection := of_class _ (by simp [Instr.cls, Instr.sel]) (by simp [Instr.cls, Instr.confirm])

theorem setLockMode (mode : BitVec 8) (confirm : Bool) : Statement (.setLockMode mode confirm) := of_class _ (by simp [Instr.cls, Instr.sel]) (by simp [Instr.cls, Instr.confirm])

theorem getLockMode : Statement .getLockMode := of_class _ (by simp [Instr.cls, Instr.sel]) (by simp [Instr.cls, Instr.confirm])

theorem getHwProtect : Statement .getHwProtect := of_class _ (by simp [Instr.cls, Instr.sel]) (by simp [Instr.cls, Instr.confirm])

theorem secStatus : Statement .secStatus := of_class _ (by simp [Instr.cls, Instr.sel]) (by simp [Instr.cls, Instr.confirm])

theorem secRead (region : BitVec 8) : Statement (.secRead region) := of_class _ (by simp [Instr.cls, Instr.sel]) (by simp [Instr.cls, Instr.confirm])

theorem secProgram (region : BitVec 8) : Statement (.secProgram region) := of_class _ (by simp [Instr.cls, Instr.sel]) (by simp [Instr.cls, Instr.confirm])

theorem secErase (region : BitVec 8) : Statement (.secErase region) := of_class _ (by simp [Instr.cls, Instr.sel]) (by simp [Instr.cls, Instr.confirm])

theorem secLock (region : BitVec 8) (confirm : Bool) : Statement (.secLock region confirm) := of_class _ (by simp [Instr.cls, Instr.sel]) (by simp [Instr.cls, Instr.confirm])

theorem transfer (op : BitVec 8) : Statement (.transfer op) := of_class _ (by simp [Instr.cls, Instr.sel]) (by simp [Instr.cls, Instr.confirm])

theorem claim : Statement .claim := of_class _ (by simp [Instr.cls, Instr.sel]) (by simp [Instr.cls, Instr.confirm])

theorem release : Statement .release := of_class _ (by simp [Instr.cls, Instr.sel]) (by simp [Instr.cls, Instr.confirm])

end Sys2Proof.Laws.Encoding
end

