-- ==== Sys2Proof/Laws/Quiet.lean ====
section
/-! SUPPORT. Scripts in a quiet environment: what each act and each device helper does there, said of the state's core,
that is of everything but the controller, the environment's draws, the trace, the transaction counter and the answers
heard. -/

namespace Sys2Proof.Machine

/-- The record of the command in flight without its transaction counter and the answers it heard. -/
def Phase.core : Phase → Phase := Phase.map fun r => { r with step := 0, heard := [] }

/-- The state without what every act changes: the controller, the draws, the trace, the transaction counter, the answers
heard. -/
def State.core (s : State) : State :=
  { s with ctrl := Ctrl.atReset, env := Env.free, trace := [], phase := s.phase.core }

variable {p : ChipDraw → Prop} {v s t : State}

/-- A quiet state with the core of `v`. -/
structure Calm (p : ChipDraw → Prop) (v s : State) : Prop where
  quiet : s.Quiet p
  core  : s.core = v.core

theorem Calm.refl (h : s.Quiet p) : Calm p s s := ⟨h, rfl⟩

theorem Calm.congr {v w : State} (h : v.core = w.core) (hs : Calm p v s) : Calm p w s := ⟨hs.quiet, hs.core.trans h⟩

section
variable (h : s.core = t.core)
include h
theorem core_cfg : s.cfg = t.cfg := (congrArg State.cfg h :)
theorem core_cmd : s.cmd = t.cmd := (congrArg State.cmd h :)
theorem core_addr : s.addr = t.addr := (congrArg State.addr h :)
theorem core_len : s.len = t.len := (congrArg State.len h :)
theorem core_result : s.result = t.result := (congrArg State.result h :)
theorem core_doneCount : s.doneCount = t.doneCount := (congrArg State.doneCount h :)
theorem core_rdata : s.rdata = t.rdata := (congrArg State.rdata h :)
theorem core_jedecId : s.jedecId = t.jedecId := (congrArg State.jedecId h :)
theorem core_phase : s.phase.core = t.phase.core := (congrArg State.phase h :)
theorem core_desc : s.desc = t.desc := (congrArg State.desc h :)
theorem core_claimCount : s.claimCount = t.claimCount := (congrArg State.claimCount h :)
theorem core_ecOwns : s.ecOwns = t.ecOwns := (congrArg State.ecOwns h :)
theorem core_dbuf : s.dbuf = t.dbuf := (congrArg State.dbuf h :)
theorem core_chip : s.chip = t.chip := (congrArg State.chip h :)
theorem core_inbox : s.inbox = t.inbox := (congrArg State.inbox h :)
theorem core_during : s.during = t.during := (congrArg State.during h :)
theorem core_hostData : s.hostData = t.hostData := (congrArg State.hostData h :)
end

theorem phase_core_map (f : Running → Running)
    (hf : ∀ r, { f r with step := 0, heard := [] } = f { r with step := 0, heard := [] })
    {a b : Phase} (h : a.core = b.core) : (a.map f).core = (b.map f).core := by
  cases a <;> cases b <;> simp only [Phase.core, Phase.map, Phase.running.injEq, reduceCtorEq] at h ⊢
  rw [hf, hf, h]

theorem core_held (h : s.core = t.core) : s.held = t.held := by
  have := core_phase h
  rw [State.held, State.held]
  generalize s.phase = a at *
  generalize t.phase = b at *
  cases a <;> cases b <;> simp only [Phase.core, Phase.map, Phase.running.injEq, reduceCtorEq] at this ⊢
  exact (congrArg Running.held this :)

theorem core_done (h : s.core = t.core) : s.done = t.done := by
  have := core_phase h
  rw [State.done, State.done]
  generalize s.phase = a at *
  generalize t.phase = b at *
  cases a <;> cases b <;> simp only [Phase.core, Phase.map, Phase.running.injEq, reduceCtorEq] at this ⊢
  exact (congrArg Running.done this :)

/-- A quiet environment stays quiet when nothing it speaks of changes. -/
theorem Quiet.mono (h : s.Quiet p) (h1 : t.during = s.during) (h2 : t.ctrl.unknown = s.ctrl.unknown)
    (h3 : t.ctrl.fifo.length = s.ctrl.fifo.length) (h4 : t.cfg = s.cfg) (h5 : t.env.ctrl = s.env.ctrl)
    (h6 : t.env.ec = s.env.ec) (h7 : t.env.chip = s.env.chip) : t.Quiet p := by
  obtain ⟨a, b, l, c, d, e, f⟩ := h
  exact ⟨h1.trans a, h2.trans b, by rw [h4]; exact l, by rw [h3, h4, c], by rw [h4, h5]; exact d, by rw [h6]; exact e,
    by rw [h4, h7]; exact f⟩

/-- Cores agree when everything but what every act changes does. -/
theorem core_of (h1 : s.cfg = t.cfg) (h2 : s.cmd = t.cmd) (h3 : s.addr = t.addr) (h4 : s.len = t.len)
    (h5 : s.result = t.result) (h6 : s.doneCount = t.doneCount) (h7 : s.rdata = t.rdata) (h8 : s.jedecId = t.jedecId)
    (h9 : s.phase.core = t.phase.core) (h10 : s.desc = t.desc) (h11 : s.claimCount = t.claimCount)
    (h12 : s.ecOwns = t.ecOwns) (h13 : s.dbuf = t.dbuf) (h14 : s.chip = t.chip) (h15 : s.inbox = t.inbox)
    (h16 : s.during = t.during) (h17 : s.hostData = t.hostData) : s.core = t.core := by
  simp only [State.core, h1, h2, h3, h4, h5, h6, h7, h8, h9, h10, h11, h12, h13, h14, h15, h16, h17]

theorem core_hear (s : State) (x : Answer) : (s.hear x).core = s.core := by
  refine core_of rfl rfl rfl rfl rfl rfl rfl rfl ?_ rfl rfl rfl rfl rfl rfl rfl rfl
  rw [State.hear]
  show (s.phase.map _).core = _
  cases s.phase <;> rfl

theorem Calm.hear (h : Calm p v s) (x : Answer) : Calm p v (s.hear x) :=
  ⟨Quiet.mono h.quiet rfl rfl rfl rfl rfl rfl rfl, (core_hear s x).trans h.core⟩

/-! ### Runs that end -/

/-- From a quiet state with the core of `v` the script ends in a next state with `Q`. -/
def Leads (p : ChipDraw → Prop) (v : State) (c : Script) (Q : State → Prop) : Prop :=
  ∀ s, Calm p v s → ∃ t, run c s = .next t ∧ Q t

variable {Q : State → Prop} {k : Script}

theorem Leads.congr {c : Script} {w : State} (h : v.core = w.core) (hc : Leads p w c Q) : Leads p v c Q :=
  fun s hs => hc s (hs.congr h)

theorem leads_done {x : Word} (h : ∀ t, Calm p v t → Q (complete x t)) : Leads p v (.done x) Q :=
  fun s hs => ⟨_, run_done_alone x hs.quiet.alone, h s hs⟩

theorem leads_raise {c : Code} (h : ∀ t, Calm p v t → Q (abort c t)) : Leads p v (.raise c) Q :=
  fun s hs => ⟨_, run_raise_alone c hs.quiet.alone, h s hs⟩

/-- An act, and what comes after it from the core it leaves. -/
theorem leads_act {a : Act} {k : Answer → Script}
    (h : ∀ s, Calm p v s → ∃ x t w, perform a s = .ok (x, t) ∧ Calm p w t ∧ Leads p w (k x) Q) :
    Leads p v (.act a k) Q := by
  intro s hs
  obtain ⟨x, t, w, e, ht, hk⟩ := h s hs
  obtain ⟨u, hu, hq⟩ := hk _ (ht.hear x)
  exact ⟨u, by rw [run_act_alone k hs.quiet.alone e, hu], hq⟩

theorem leads_require {b : Bool} {c : Code} (h : b = true) (hk : Leads p v k Q) : Leads p v (require b c k) Q := by
  rw [require_true h]; exact hk

theorem leads_require_not {b : Bool} {c : Code} (h : b = false) (hk : Leads p v (.raise c) Q) :
    Leads p v (require b c k) Q := by
  rw [require_false h]; exact hk

/-- An act that changes what it changes of the core, and nothing a quiet environment speaks of. -/
theorem leads_plain {a : Act} {k : Answer → Script} {x : Answer} (f : State → State) (w : State)
    (ha : ∀ s, s.core = v.core → perform a s = .ok (x, f s)) (hf : ∀ s, s.core = v.core → (f s).core = w.core)
    (hq : ∀ s, (f s).during = s.during ∧ (f s).ctrl = s.ctrl ∧ (f s).cfg = s.cfg ∧ (f s).env = s.env)
    (hk : Leads p w (k x) Q) : Leads p v (.act a k) Q :=
  leads_act fun s hs => by
    obtain ⟨h1, h2, h3, h4⟩ := hq s
    exact ⟨x, f s, w, ha s hs.core, ⟨Quiet.mono hs.quiet h1 (by rw [h2]) (by rw [h2]) h3 (by rw [h4]) (by rw [h4])
      (by rw [h4]), hf s hs.core⟩, hk⟩

/-! ### A transaction -/

/-- What a quiet environment draws for a frame at the chip. -/
def CalmDraw (p : ChipDraw → Prop) (v : State) (d : ChipDraw) : Prop := d.busy < v.cfg.readyPollLimit ∧ p d

/-- `v` after the chip answered a frame with draw `d`. -/
def State.served (v : State) (d : ChipDraw) (f : Frame) : State := { v with chip := (v.chip.answer d f).2 }

/-- In a quiet environment a transaction gives the chip's answer (R141 to R143). -/
theorem transact_calm (op : Byte) (out : List Byte) (nIn : Nat) (hok : xferOk v.cfg.gen out.length nIn = true)
    (hs : Calm p v s) : ∃ d t, CalmDraw p v d ∧
      transact op out nIn s = (.bytes (v.chip.answer d ⟨op, out, nIn⟩).1, t) ∧ Calm p (v.served d ⟨op, out, nIn⟩) t := by
  obtain ⟨hq, hc⟩ := hs
  have hcfg := core_cfg hc
  have hchip := core_chip hc
  rw [← hcfg] at hok
  rw [transact, if_pos hok]
  simp only []
  obtain ⟨hd, hctrl'⟩ := drawCtrl_always (e := s.env) hq.ctrl
  set u : State := { s.issue op out nIn with env := s.env.drawCtrl.2 } with hu
  have hfr : u.ctrl.frame = ⟨op, out, nIn⟩ := frame_stage s.ctrl op out hok
  have hunk : u.ctrl.unknown = false := hq.known
  have hfifo : u.ctrl.fifo.length = s.cfg.gen.fifoDepth := by
    rw [← hq.fifo]
    exact length_stage s.ctrl op out nIn (by rw [hq.fifo]; exact (xferOk_fifo hok).1)
  have hto : timesOut s.env.drawCtrl.1 u = false := by
    have h1 : s.env.drawCtrl.1.busyReads < u.cfg.xferPollLimit := hd.1
    simp only [timesOut, decide_eq_false_iff_not]
    exact Nat.not_le.2 h1
  have hperf : isPerformed s.env.drawCtrl.1 u = true := by
    simp [isPerformed, hto, hd.2, hunk]
  obtain ⟨hcd, hchip'⟩ := drawChip_always (e := s.env.drawCtrl.2) (p := fun d => d.busy < s.cfg.readyPollLimit ∧ p d)
    (by rw [drawCtrl_chip]; exact hq.chip)
  have hbus : onBus s.env.drawCtrl.1 u = chipFrame ⟨op, out, nIn⟩ u := by
    rw [onBus, if_pos hperf, hunk, hfr]; rfl
  have hrun : runStaged s.env.drawCtrl.1 u =
      (true, { (chipFrame ⟨op, out, nIn⟩ u).2 with
        ctrl := u.ctrl.finished s.cfg.gen out.length (chipFrame ⟨op, out, nIn⟩ u).1 s.env.drawCtrl.1.err }) := by
    rw [runStaged, hto, hbus, hfr]; rfl
  have e : runStaged (s.issue op out nIn).env.drawCtrl.1
      { s.issue op out nIn with env := (s.issue op out nIn).env.drawCtrl.2 } =
      runStaged s.env.drawCtrl.1 u := rfl
  rw [e, hrun]
  have herr : (u.ctrl.finished s.cfg.gen out.length (chipFrame ⟨op, out, nIn⟩ u).1 s.env.drawCtrl.1.err).err = false :=
    hd.2
  simp only [herr, Bool.not_true, Bool.false_eq_true, if_false]
  have hlen : (chipFrame ⟨op, out, nIn⟩ u).1.length = nIn := length_chipFrame _ _
  have hrb : readBack s.cfg out.length nIn (storeIncoming s.cfg.gen out.length 0
      (chipFrame ⟨op, out, nIn⟩ u).1 u.ctrl.fifo) = (chipFrame ⟨op, out, nIn⟩ u).1 := by
    have := readBack_storeIncoming s.cfg out.length (chipFrame ⟨op, out, nIn⟩ u).1 u.ctrl.fifo (hq.layout _) hfifo
      (by rw [hlen]; exact (xferOk_fifo hok).2)
    rwa [hlen] at this
  have hrcv : ∀ w : State, w.cfg = s.cfg → w.ctrl = u.ctrl.finished s.cfg.gen out.length
      (chipFrame ⟨op, out, nIn⟩ u).1 s.env.drawCtrl.1.err →
      received s.env.drawCtrl.1 out.length nIn w = (chipFrame ⟨op, out, nIn⟩ u).1 := by
    intro w h1 h2
    rw [received_known _ _ _ (by rw [h2]; exact hunk), h1, h2]
    exact hrb
  refine ⟨u.env.drawChip.1, { (chipFrame ⟨op, out, nIn⟩ u).2 with
    ctrl := u.ctrl.finished s.cfg.gen out.length (chipFrame ⟨op, out, nIn⟩ u).1 s.env.drawCtrl.1.err }, ?_, ?_, ?_⟩
  · exact ⟨by rw [← hcfg]; exact hcd.1, hcd.2⟩
  · rw [← hchip]
    exact Prod.ext (congrArg Answer.bytes (hrcv _ rfl rfl)) rfl
  · refine ⟨⟨hq.alone, hunk, hq.layout, ?_, hctrl', hq.ec, hchip'⟩, ?_⟩
    · exact (length_storeIncoming _ _ _ _ _).trans hfifo
    · refine core_of (hcfg :) (core_cmd hc :) (core_addr hc :) (core_len hc :) (core_result hc :) (core_doneCount hc :) (core_rdata hc :)
        (core_jedecId hc :) ?_ (core_desc hc :) (core_claimCount hc :) (core_ecOwns hc :) (core_dbuf hc :) ?_ (core_inbox hc :)
        (core_during hc :) (core_hostData hc :)
      · rw [show (v.served _ _).phase = v.phase from rfl, ← core_phase hc]
        show (s.phase.map _).core = _
        cases s.phase <;> rfl
      · show (s.chip.answer u.env.drawChip.1 _).2 = (v.chip.answer u.env.drawChip.1 _).2
        rw [hchip]

theorem leads_xferAct {op : Byte} {out : List Byte} {n : Nat} {c : Code → Code} {k : List Byte → Script}
    (hok : xferOk v.cfg.gen out.length n = true)
    (hk : ∀ d, CalmDraw p v d → Leads p (v.served d ⟨op, out, n⟩) (k (v.chip.answer d ⟨op, out, n⟩).1) Q) :
    Leads p v (.act (.xfer op out n) (unlessFailed c fun x => k x.data)) Q :=
  leads_act fun s hs => by
    obtain ⟨d, t, hd, e, ht⟩ := transact_calm op out n hok hs
    exact ⟨.bytes (v.chip.answer d ⟨op, out, n⟩).1, t, _, by rw [perform, e], ht, hk d hd⟩

theorem leads_xfer {op : Byte} {out : List Byte} {n : Nat} {k : List Byte → Script}
    (hok : xferOk v.cfg.gen out.length n = true)
    (hk : ∀ d, CalmDraw p v d → Leads p (v.served d ⟨op, out, n⟩) (k (v.chip.answer d ⟨op, out, n⟩).1) Q) :
    Leads p v (xfer op out n k) Q := leads_xferAct hok hk

theorem leads_xferAs {c : Code} {op : Byte} {out : List Byte} {n : Nat} {k : List Byte → Script}
    (hok : xferOk v.cfg.gen out.length n = true)
    (hk : ∀ d, CalmDraw p v d → Leads p (v.served d ⟨op, out, n⟩) (k (v.chip.answer d ⟨op, out, n⟩).1) Q) :
    Leads p v (xferAs c op out n k) Q := leads_xferAct hok hk

/-! ### Claim and release -/

/-- `v` with one more claim, taken by the command (R150). -/
def State.claimed (v : State) : State :=
  { v with
    claimCount := v.claimCount + 1
    ecOwns := if v.claimCount = 0 then false else v.ecOwns
    phase := v.phase.map fun r => { r with held := r.held + 1 } }

/-- `v` with one claim fewer, released by the command (R151). -/
def State.freed (v : State) : State :=
  { v with
    claimCount := v.claimCount - 1
    ecOwns := if v.claimCount - 1 = 0 then true else v.ecOwns
    phase := v.phase.map fun r => { r with held := r.held - 1 } }

theorem leads_claim (h : v.CanClaim) (hk : Leads p v.claimed k Q) : Leads p v (claim k) Q :=
  leads_act fun s hs => by
    obtain ⟨hq, hc⟩ := hs
    have hph : (s.phase.map fun r => { r with held := r.held + 1 }).core =
        (v.phase.map fun r => { r with held := r.held + 1 }).core := phase_core_map _ (fun _ => rfl) (core_phase hc :)
    have hne : s.claimCount ≠ s.cfg.claimMax := by
      have : v.claimCount < v.cfg.claimMax := h
      rw [core_cfg hc, core_claimCount hc]; omega
    obtain ⟨hd, hec⟩ := drawEc_always (e := s.env) hq.ec
    have hy : yieldTo s.env.drawEc.1 { s with env := s.env.drawEc.2 } =
        { s with env := s.env.drawEc.2, trace := s.trace ++ [.yield] } := by
      rw [yieldTo, hd.1]
      cases s.ecOwns <;> rfl
    rcases claimBus_cases s with ⟨h1, -⟩ | ⟨-, h0, e⟩ | ⟨-, h0, ⟨-, e⟩ | ⟨ha, -⟩⟩
    · exact absurd h1 hne
    · refine ⟨.number (s.claimCount + 1), { s with
        claimCount := s.claimCount + 1
        phase := s.phase.map fun r => { r with held := r.held + 1 } }, v.claimed, by rw [perform, claimOwn, e], ⟨⟨hq.alone, hq.known, hq.layout, hq.fifo, hq.ctrl, hq.ec,
        hq.chip⟩, ?_⟩, hk⟩
      refine core_of (core_cfg hc :) (core_cmd hc :) (core_addr hc :) (core_len hc :) (core_result hc :) (core_doneCount hc :)
        (core_rdata hc :) (core_jedecId hc :) hph (core_desc hc :) ?_ ?_ (core_dbuf hc :) (core_chip hc :) (core_inbox hc :)
        (core_during hc :) (core_hostData hc :)
      · show s.claimCount + 1 = v.claimCount + 1
        rw [core_claimCount hc]
      · show s.ecOwns = if v.claimCount = 0 then false else v.ecOwns
        rw [if_neg (by rw [← core_claimCount hc]; exact h0), core_ecOwns hc]
    · rw [hy] at e
      refine ⟨.number 1, { s with
        env := s.env.drawEc.2
        trace := s.trace ++ [.yield]
        ecOwns := false
        claimCount := 1
        phase := s.phase.map fun r => { r with held := r.held + 1 } }, v.claimed, by rw [perform, claimOwn, e], ⟨⟨hq.alone, hq.known, hq.layout, hq.fifo, hq.ctrl, hec,
        hq.chip⟩, ?_⟩, hk⟩
      have h0' : v.claimCount = 0 := by rw [← core_claimCount hc]; exact h0
      refine core_of (core_cfg hc :) (core_cmd hc :) (core_addr hc :) (core_len hc :) (core_result hc :) (core_doneCount hc :)
        (core_rdata hc :) (core_jedecId hc :) hph (core_desc hc :) ?_ ?_ (core_dbuf hc :) (core_chip hc :) (core_inbox hc :)
        (core_during hc :) (core_hostData hc :)
      · show 1 = v.claimCount + 1
        rw [h0']
      · show false = if v.claimCount = 0 then false else v.ecOwns
        rw [if_pos h0']
    · rw [hd.2] at ha; cases ha

theorem leads_release (hk : Leads p v.freed k Q) : Leads p v (release k) Q :=
  leads_act fun s hs => by
    obtain ⟨hq, hc⟩ := hs
    have hph : (s.phase.map fun r => { r with held := r.held - 1 }).core =
        (v.phase.map fun r => { r with held := r.held - 1 }).core := phase_core_map _ (fun _ => rfl) (core_phase hc :)
    have hcc := core_claimCount hc
    refine ⟨.done, releaseOwn s, v.freed, rfl, ⟨Quiet.mono hq (by simp) (by simp) (by simp) (by simp) (by simp) (by simp)
      (by simp), ?_⟩, hk⟩
    refine core_of (by simpa [State.freed] using core_cfg hc) (by simpa [State.freed] using core_cmd hc) (by simpa [State.freed] using core_addr hc)
      (by simpa [State.freed] using core_len hc) (by simpa [State.freed] using core_result hc) (by simpa [State.freed] using core_doneCount hc)
      (by simpa [State.freed] using core_rdata hc) (by simpa [State.freed] using core_jedecId hc) ?_ (by simpa [State.freed] using core_desc hc) ?_ ?_
      (by simpa [State.freed] using core_dbuf hc) (by simpa [State.freed] using core_chip hc) (by simpa [State.freed] using core_inbox hc)
      (by simpa [State.freed] using core_during hc) (by simpa [State.freed] using core_hostData hc)
    · rw [releaseOwn]
      simp only [releaseBus_phase]
      exact hph
    · rw [releaseOwn]
      simp only [releaseBus_claimCount]
      show _ = v.claimCount - 1
      rw [hcc]
    · rw [releaseOwn]
      simp only [releaseBus_ecOwns]
      show _ = if v.claimCount - 1 = 0 then true else v.ecOwns
      rw [hcc, core_ecOwns hc]

/-- What a claim span that changes only the chip leaves: the chip changed, and the EC owning the bus if it did. -/
def State.spanned (v : State) (c : Chip) : State :=
  { v with chip := c, ecOwns := if v.claimCount = 0 then true else v.ecOwns }

theorem freed_claimed (v : State) (c : Chip) : ({ v.claimed with chip := c } : State).freed = v.spanned c := by
  have h1 : ∀ ph : Phase, (ph.map fun r => { r with held := r.held + 1 }).map (fun r => { r with held := r.held - 1 }) =
      ph := by intro ph; cases ph <;> rfl
  simp only [State.freed, State.claimed, State.spanned, h1, Nat.add_sub_cancel]
  by_cases h : v.claimCount = 0 <;> simp [h]

/-! ### The data buffer -/

/-- `v` with `n` bytes committed, DONE_COUNT to be written at the end. -/
def State.tallied (v : State) (n : Nat) : State := { v with phase := v.phase.map fun r => { r with done := n } }

theorem leads_tally {n : Nat} (hk : Leads p (v.tallied n) k Q) : Leads p v (tally n k) Q :=
  leads_plain (x := .done) (fun s => s.tally n) (v.tallied n) (fun _ _ => rfl) (fun s hc => by
    refine core_of (core_cfg hc :) (core_cmd hc :) (core_addr hc :) (core_len hc :) (core_result hc :) (core_doneCount hc :)
      (core_rdata hc :) (core_jedecId hc :) (phase_core_map _ (fun _ => rfl) (core_phase hc :)) (core_desc hc :)
      (core_claimCount hc :) (core_ecOwns hc :) (core_dbuf hc :) (core_chip hc :) (core_inbox hc :) (core_during hc :)
      (core_hostData hc :)) (fun _ => ⟨rfl, rfl, rfl, rfl⟩) hk

/-- `v` with `n` bytes committed. -/
def State.committed (v : State) (n : Nat) : State := { v.tallied n with doneCount := BitVec.ofNat 32 n }

theorem leads_commit {n : Nat} (hk : Leads p (v.committed n) k Q) : Leads p v (commit n k) Q :=
  leads_plain (x := .done) (fun s => s.commit n) (v.committed n) (fun _ _ => rfl) (fun s hc => by
    refine core_of (core_cfg hc :) (core_cmd hc :) (core_addr hc :) (core_len hc :) (core_result hc :) rfl
      (core_rdata hc :) (core_jedecId hc :) (phase_core_map _ (fun _ => rfl) (core_phase hc :)) (core_desc hc :)
      (core_claimCount hc :) (core_ecOwns hc :) (core_dbuf hc :) (core_chip hc :) (core_inbox hc :) (core_during hc :)
      (core_hostData hc :)) (fun _ => ⟨rfl, rfl, rfl, rfl⟩) hk

theorem leads_memWrite {i : Nat} {bs : List Byte} (hk : Leads p { v with dbuf := v.dbuf.writeList .dbuf i bs } k Q) :
    Leads p v (memWrite i bs k) Q :=
  leads_plain (x := .done) (fun s => { s with dbuf := s.dbuf.writeList .dbuf i bs }) { v with dbuf := v.dbuf.writeList .dbuf i bs } (fun _ _ => rfl) (fun s hc => by
    refine core_of (core_cfg hc :) (core_cmd hc :) (core_addr hc :) (core_len hc :) (core_result hc :) (core_doneCount hc :)
      (core_rdata hc :) (core_jedecId hc :) (core_phase hc :) (core_desc hc :) (core_claimCount hc :) (core_ecOwns hc :) ?_
      (core_chip hc :) (core_inbox hc :) (core_during hc :) (core_hostData hc :)
    show Memory.writeList _ s.dbuf _ _ = Memory.writeList _ v.dbuf _ _
    rw [core_dbuf hc]) (fun _ => ⟨rfl, rfl, rfl, rfl⟩) hk

theorem leads_memRead {i n : Nat} {k : List Byte → Script} (h : ∀ j < n, ∃ b, v.dbuf.lookup (i + j) = some b)
    (hk : Leads p v (k (v.dbufSlice i n)) Q) : Leads p v (memRead i n k) Q :=
  leads_act fun s hs => by
    have hd := core_dbuf hs.core
    have e : dbufBytes s i n = .ok (v.dbufSlice i n) := by
      rw [dbufBytes_ok (by rw [hd]; exact h)]
      simp only [State.dbufSlice, State.dbufAt, hd]
    exact ⟨.bytes (v.dbufSlice i n), s, v, by rw [perform, e], hs, hk⟩

/-- `DESC <- d` (R180). -/
theorem leads_bind {d : Descriptor} {k : Answer → Script} (hk : Leads p { v with desc := some d } (k .done) Q) :
    Leads p v (.act (.bind d) k) Q :=
  leads_plain (x := .done) (fun s => { s with desc := some d }) { v with desc := some d } (fun _ _ => rfl) (fun _ hc =>
    core_of (core_cfg hc :) (core_cmd hc :) (core_addr hc :) (core_len hc :) (core_result hc :) (core_doneCount hc :)
      (core_rdata hc :) (core_jedecId hc :) (core_phase hc :) rfl (core_claimCount hc :) (core_ecOwns hc :) (core_dbuf hc :)
      (core_chip hc :) (core_inbox hc :) (core_during hc :) (core_hostData hc :)) (fun _ => ⟨rfl, rfl, rfl, rfl⟩) hk

/-- `DESC <- none` (R180). -/
theorem leads_unbind {k : Answer → Script} (hk : Leads p { v with desc := none } (k .done) Q) :
    Leads p v (.act .unbind k) Q :=
  leads_plain (x := .done) (fun s => { s with desc := none }) { v with desc := none } (fun _ _ => rfl) (fun _ hc =>
    core_of (core_cfg hc :) (core_cmd hc :) (core_addr hc :) (core_len hc :) (core_result hc :) (core_doneCount hc :)
      (core_rdata hc :) (core_jedecId hc :) (core_phase hc :) rfl (core_claimCount hc :) (core_ecOwns hc :) (core_dbuf hc :)
      (core_chip hc :) (core_inbox hc :) (core_during hc :) (core_hostData hc :)) (fun _ => ⟨rfl, rfl, rfl, rfl⟩) hk

/-- `JEDEC_ID <- w` (R180). -/
theorem leads_identify {w : Word} {k : Answer → Script} (hk : Leads p { v with jedecId := w } (k .done) Q) :
    Leads p v (.act (.identify w) k) Q :=
  leads_plain (x := .done) (fun s => { s with jedecId := w }) { v with jedecId := w } (fun _ _ => rfl) (fun _ hc =>
    core_of (core_cfg hc :) (core_cmd hc :) (core_addr hc :) (core_len hc :) (core_result hc :) (core_doneCount hc :)
      (core_rdata hc :) rfl (core_phase hc :) (core_desc hc :) (core_claimCount hc :) (core_ecOwns hc :) (core_dbuf hc :)
      (core_chip hc :) (core_inbox hc :) (core_during hc :) (core_hostData hc :)) (fun _ => ⟨rfl, rfl, rfl, rfl⟩) hk

/-! ### Device helpers -/

/-- The chip on the bus answers SEQ's opcodes: its opcode set is the bound one and well formed, and its part
departs from no rule (R332). -/
structure Speaks (v : State) (o : OpSet) : Prop where
  op    : v.chip.desc.op = o
  wf    : o.wf
  plain : v.chip.desc.departs = none

variable {o : OpSet}

/-- The part speaks on after a change that leaves its descriptor alone. -/
theorem Speaks.keep {u : State} (ho : Speaks v o) (h : u.chip.desc = v.chip.desc) : Speaks u o :=
  ⟨by rw [h, ho.op], ho.wf, by rw [h, ho.plain]⟩

/-- A WP level the environment may drive. -/
def CalmPin (p : ChipDraw → Prop) (v : State) (l : Level) : Prop := ∃ d, CalmDraw p v d ∧ d.wp = l

theorem leads_readSR1 {k : Byte → Script} (ho : Speaks v o) (hb : v.chip.busyLeft = 0)
    (hk : ∀ l, CalmPin p v l → Leads p { v with chip := v.chip.atPin l } (k v.chip.sr1Read) Q) :
    Leads p v (readSR1 o k) Q := by
  obtain ⟨rfl, hw, hp⟩ := ho
  refine leads_xferAs (xferOk_small _ (by simp)) fun d hd => ?_
  rw [State.served, Chip.answer_rdsr1 hp hw hb]
  exact hk d.wp ⟨d, hd, rfl⟩

theorem leads_readSR2 {k : Byte → Script} (ho : Speaks v o) (hb : v.chip.busyLeft = 0)
    (hk : ∀ l q, CalmPin p v l → Leads p { v with chip := v.chip.atPin l } (k (v.chip.sr2Read q)) Q) :
    Leads p v (readSR2 o k) Q := by
  obtain ⟨rfl, hw, hp⟩ := ho
  refine leads_xferAs (xferOk_small _ (by simp)) fun d hd => ?_
  rw [State.served, Chip.answer_rdsr2 hp hw hb]
  exact hk d.wp d.reserved ⟨d, hd, rfl⟩

theorem leads_writeEnable (ho : Speaks v o) (hb : v.chip.busyLeft = 0)
    (hk : ∀ l, CalmPin p v l → Leads p { v with chip := (v.chip.setWel true).atPin l } k Q) :
    Leads p v (writeEnable o k) Q := by
  obtain ⟨rfl, hw, hp⟩ := ho
  refine leads_xfer (xferOk_small _ (by simp)) fun d hd => ?_
  rw [State.served, Chip.answer_wren hp hw hb]
  have := hk d.wp ⟨d, hd, rfl⟩
  simpa only [Chip.setWel_atPin] using this

theorem leads_pollReady {n : Nat} (ho : Speaks v o) (hn : v.chip.busyLeft < n)
    (hk : ∀ l, CalmPin p v l → Leads p { v with chip := v.chip.settled.atPin l } k Q) :
    Leads p v (pollReady o n k) Q := by
  induction n generalizing v with
  | zero => omega
  | succ n ih =>
    obtain ⟨rfl, hw, hp⟩ := ho
    refine leads_xfer (xferOk_small _ (by simp)) fun d hd => ?_
    by_cases hb : v.chip.busyLeft = 0
    · rw [State.served, Chip.answer_rdsr1 hp hw hb]
      have h0 : (firstByte [v.chip.sr1Read]).getLsbD 0 = false := by
        show v.chip.sr1Read.getLsbD 0 = false
        rw [Chip.sr1Read_bit]; simp [hb]
      rw [if_pos h0]
      have := hk d.wp ⟨d, hd, rfl⟩
      simpa only [Chip.settled, hb, if_true] using this
    · have hpos : 0 < v.chip.busyLeft := by omega
      have hans := Chip.answer_rdsr1_busy hp hw hpos d
      rw [State.served, hans]
      have h0 : ¬ (firstByte [v.chip.sr1Read]).getLsbD 0 = false := by
        show ¬ v.chip.sr1Read.getLsbD 0 = false
        rw [Chip.sr1Read_bit]; simp [hpos]
      rw [if_neg h0]
      have hdesc : (v.chip.atPin d.wp).tick.desc = v.chip.desc := by
        rw [Chip.tick]; split <;> rfl
      have hbl : (v.chip.atPin d.wp).tick.busyLeft = v.chip.busyLeft - 1 := by
        rw [Chip.tick]; split
        · rename_i h1; rw [Chip.atPin_busyLeft] at h1; simp [h1]
        · rfl
      refine ih (v := { v with chip := (v.chip.atPin d.wp).tick }) (Speaks.keep ⟨rfl, hw, hp⟩ hdesc)
        (by show (v.chip.atPin d.wp).tick.busyLeft < n; omega) fun l hl => ?_
      have hs : ((v.chip.atPin d.wp).tick.settled).atPin l = v.chip.settled.atPin l := by
        by_cases h1 : v.chip.busyLeft = 1
        · simp [Chip.tick, Chip.settled, h1]; rfl
        · have h2 : v.chip.busyLeft - 1 ≠ 0 := by omega
          simp [Chip.tick, Chip.settled, h1, hb, h2]; rfl
      have := hk l hl
      rw [← hs] at this
      exact this

/-- What a status write leaves (R312, R318): the new status bits with WEL clear where the registers take a write at the
level of the WRSR frame, else the old ones with WEL any value. -/
def Chip.Written (p : ChipDraw → Prop) (v : State) (a b : Byte) (c' : Chip) : Prop :=
  ∃ l l', CalmPin p v l ∧ CalmPin p v l' ∧
    ((v.chip.srWritable l = true ∧ c' = ((v.chip.writeStatus a b).setWel false).atPin l') ∨
     (v.chip.srWritable l = false ∧ ∃ w, c' = (v.chip.setWel w).atPin l'))

theorem leads_writeSR {a b : Byte} (ho : Speaks v o) (hb : v.chip.busyLeft = 0) (hf : v.chip.inFlight = .none)
    (hk : ∀ c', Chip.Written p v a b c' → Leads p { v with chip := c' } k Q) :
    Leads p v (writeSR o v.cfg.readyPollLimit a b k) Q := by
  have hop := ho.op
  have hw := ho.wf
  refine leads_writeEnable ho hb fun l0 hl0 => ?_
  set c1 : Chip := (v.chip.setWel true).atPin l0 with hc1
  have hw1 : c1.desc.op.wf := by rw [hc1]; simpa [hop] using hw
  have hb1 : c1.busyLeft = 0 := by rw [hc1]; simpa using hb
  have hop1 : c1.desc.op = o := by rw [hc1]; simpa using hop
  have hp1 : c1.desc.departs = none := by rw [hc1]; simpa using ho.plain
  refine leads_xfer (v := { v with chip := c1 }) (xferOk_small _ (by simp)) fun d hd => ?_
  have hans : (c1.answer d ⟨o.wrsr, [a, b], 0⟩).2 = (c1.atPin d.wp).statusWrite d a b := by
    rw [← hop1]; exact Chip.answer_wrsr hp1 hw1 hb1 d a b
  have hwel : (c1.atPin d.wp).wel = true := by rw [hc1]; simp
  have hwr : (c1.atPin d.wp).srWritable d.wp = v.chip.srWritable d.wp := by rw [hc1]; simp
  simp only [State.served, hans]
  by_cases hsw : v.chip.srWritable d.wp = true
  · have e1 : (c1.atPin d.wp).statusWrite d a b = ((c1.atPin d.wp).writeStatus a b).startBusy d.busy .none := by
      rw [Chip.statusWrite, if_neg (by rw [hwel]; simp), if_neg (by rw [hwr, hsw]; simp)]
    rw [e1]
    have hbl : (((c1.atPin d.wp).writeStatus a b).startBusy d.busy .none).busyLeft = d.busy := rfl
    have hset : (((c1.atPin d.wp).writeStatus a b).startBusy d.busy .none).settled =
        ((v.chip.writeStatus a b).setWel false).atPin d.wp := by
      have e2 : ((c1.atPin d.wp).writeStatus a b) = ((v.chip.setWel true).writeStatus a b).atPin d.wp := rfl
      rw [Chip.settled, hbl, e2]
      have e3 : ({ ((v.chip.setWel true).writeStatus a b).atPin d.wp with busyLeft := 0, inFlight := .none } : Chip) =
          ((v.chip.setWel true).writeStatus a b).atPin d.wp := by
        rw [← hb, ← hf]; rfl
      have e4 : (((v.chip.setWel true).writeStatus a b).atPin d.wp).setWel false =
          ((v.chip.writeStatus a b).setWel false).atPin d.wp := by
        rw [Chip.setWel_atPin, Chip.writeStatus_setWel]
      by_cases h0 : d.busy = 0
      · simp only [h0, if_true, Chip.startBusy, Nat.lt_irrefl, decide_false, if_true]
        rw [e3, e4]
      · rw [if_neg h0]
        have e5 : ({ (((v.chip.setWel true).writeStatus a b).atPin d.wp).startBusy d.busy .none with
            busyLeft := 0, inFlight := .none } : Chip) =
            ({ ((v.chip.setWel true).writeStatus a b).atPin d.wp with busyLeft := 0, inFlight := .none } : Chip).setWel
              (decide (0 < d.busy)) := rfl
        rw [e5, Chip.setWel_setWel, e3, e4]
    refine leads_pollReady (v := { v with chip := _ }) (ho.keep (by
      show Chip.desc _ = _
      simp [Chip.startBusy, Chip.writeStatus, hc1])) (by show _ < v.cfg.readyPollLimit; exact hd.1)
      fun l' hl' => ?_
    have := hk _ ⟨d.wp, l', ⟨d, hd, rfl⟩, hl', .inl ⟨hsw, rfl⟩⟩
    simpa only [hset, Chip.atPin_atPin] using this
  · have hsw' : v.chip.srWritable d.wp = false := by simpa using hsw
    have e1 : (c1.atPin d.wp).statusWrite d a b = (v.chip.setWel d.wel).atPin d.wp := by
      rw [Chip.statusWrite, if_neg (by rw [hwel]; simp), if_pos (by rw [hwr, hsw']), Chip.ignored, hc1,
        Chip.atPin_atPin, Chip.setWel_atPin, Chip.setWel_setWel]
    rw [e1]
    have hlim : v.chip.busyLeft < v.cfg.readyPollLimit := by
      have h1 : d.busy < v.cfg.readyPollLimit := hd.1
      omega
    refine leads_pollReady (v := { v with chip := _ }) (ho.keep (by
      show Chip.desc _ = _
      simp)) hlim fun l' hl' => ?_
    have := hk _ ⟨d.wp, l', ⟨d, hd, rfl⟩, hl', .inr ⟨hsw', d.wel, rfl⟩⟩
    simpa only [Chip.settled, Chip.atPin_busyLeft, Chip.setWel_busyLeft, hb, if_true, Chip.atPin_atPin] using this

theorem Written.desc {a b : Byte} {c' : Chip} (h : Chip.Written p v a b c') :
    c'.desc = v.chip.desc ∧ c'.busyLeft = v.chip.busyLeft ∧ c'.inFlight = v.chip.inFlight := by
  obtain ⟨l, l', -, -, ⟨-, rfl⟩ | ⟨-, w, rfl⟩⟩ := h <;> exact ⟨rfl, rfl, rfl⟩

/-- What UpdateSR compares (R224, R225). -/
def verified (t1 t2 n1 n2 : Byte) : Bool := (t1 &&& vmask1) == (n1 &&& vmask1) && (t2 &&& vmask2) == (n2 &&& vmask2)

/-- `UpdateSR(f)` in a quiet environment (R225): the chip takes the write or not, and the read-back decides. -/
theorem leads_updateSR {f : Byte → Byte → Byte × Byte} {k : Byte → Byte → Script} (ho : Speaks v o)
    (hb : v.chip.busyLeft = 0) (hf : v.chip.inFlight = .none)
    (hk : ∀ q q' l c' n1 n2, CalmPin p v l → f v.chip.sr1Read (v.chip.sr2Read q) = (n1, n2) → Chip.Written p v n1 n2 c' →
      (verified c'.sr1Read (c'.sr2Read q') n1 n2 = true →
        Leads p { v with chip := c'.atPin l } (k c'.sr1Read (c'.sr2Read q')) Q) ∧
      (verified c'.sr1Read (c'.sr2Read q') n1 n2 = false →
        Leads p { v with chip := c'.atPin l } (.raise .statusWriteVerifyFailed) Q)) :
    Leads p v (updateSR o v.cfg.readyPollLimit f k) Q := by
  refine leads_readSR1 ho hb fun l1 _ => ?_
  refine leads_readSR2 (v := { v with chip := v.chip.atPin l1 }) (ho.keep rfl) hb fun l2 q _ => ?_
  simp only [Chip.atPin_atPin, Chip.sr2Read_atPin]
  refine leads_writeSR (v := { v with chip := v.chip.atPin l2 }) (ho.keep rfl) hb hf fun c' hc' => ?_
  obtain ⟨hd', hb', hf'⟩ := Written.desc hc'
  have hW : Chip.Written p v (f v.chip.sr1Read (v.chip.sr2Read q)).1 (f v.chip.sr1Read (v.chip.sr2Read q)).2 c' := by
    obtain ⟨l, l', h1, h2, ⟨h3, h4⟩ | ⟨h3, x, h4⟩⟩ := hc'
    · exact ⟨l, l', h1, h2, .inl ⟨h3, h4⟩⟩
    · exact ⟨l, l', h1, h2, .inr ⟨h3, x, h4⟩⟩
  have hbl : c'.busyLeft = 0 := by rw [hb']; exact hb
  refine leads_readSR1 (v := { v with chip := c' }) (ho.keep hd') hbl fun l3 _ => ?_
  refine leads_readSR2 (v := { v with chip := c'.atPin l3 }) (ho.keep hd') hbl fun l4 q' hl4 => ?_
  simp only [Chip.atPin_atPin, Chip.sr2Read_atPin]
  obtain ⟨h1, h2⟩ := hk q q' l4 c' _ _ hl4 rfl hW
  cases e : verified c'.sr1Read (c'.sr2Read q') (f v.chip.sr1Read (v.chip.sr2Read q)).1
      (f v.chip.sr1Read (v.chip.sr2Read q)).2 with
  | true => exact leads_require e (h1 e)
  | false => exact leads_require_not e (h2 e)

/-! ### Status updates where the registers take a write -/

/-- The read-back of a status write the chip took verifies (R224, R318). -/
theorem verified_written (c : Chip) (a b : Byte) (w q : Bool) (l : Level) :
    verified (((c.writeStatus a b).setWel w).atPin l).sr1Read ((((c.writeStatus a b).setWel w).atPin l).sr2Read q) a b =
      true := by
  have h1 : ((c.writeStatus a b).setWel w).sr1Read &&& vmask1 = a &&& vmask1 := byte_ext fun i => by
    simp only [BitVec.getLsbD_and, Chip.sr1Read_bit, Chip.sr1_setWel, Chip.writeStatus_sr1_bit]
    fin_cases i <;> simp [vmask1]
  have h2 : ((c.writeStatus a b).setWel w).sr2Read q &&& vmask2 = b &&& vmask2 := byte_ext fun i => by
    simp only [BitVec.getLsbD_and, Chip.sr2Read_bit, Chip.setWel_sr2, Chip.writeStatus_sr2_bit]
    fin_cases i <;> simp [vmask2]
  simp [verified, h1, h2]

/-- `UpdateSR(f)` in a quiet environment, the registers writable at every level the WP pin takes. -/
theorem leads_updateSR_writable {f : Byte → Byte → Byte × Byte} {k : Byte → Byte → Script} (ho : Speaks v o)
    (hb : v.chip.busyLeft = 0) (hf : v.chip.inFlight = .none) (hwr : ∀ l, CalmPin p v l → v.chip.srWritable l = true)
    (hk : ∀ q q' l c', CalmPin p v l → c' = (v.chip.writeStatus (f v.chip.sr1Read (v.chip.sr2Read q)).1
        (f v.chip.sr1Read (v.chip.sr2Read q)).2).setWel false →
      Leads p { v with chip := c'.atPin l } (k c'.sr1Read (c'.sr2Read q')) Q) :
    Leads p v (updateSR o v.cfg.readyPollLimit f k) Q := by
  refine leads_updateSR ho hb hf fun q q' l c' n1 n2 hl hn hW => ?_
  obtain ⟨m, m', hm, -, ⟨-, rfl⟩ | ⟨h, -⟩⟩ := hW
  · refine ⟨fun _ => ?_, fun hv => ?_⟩
    · have := hk q q' l _ hl rfl
      rw [hn] at this
      simpa only [Chip.atPin_atPin, Chip.sr2Read_atPin, Chip.sr1Read_atPin] using this
    · rw [verified_written] at hv; cases hv
  · rw [hwr m hm] at h; cases h

/-! ### A command as a whole -/

theorem quiet_started (h : s.Quiet p) : s.started.Quiet p :=
  ⟨h.alone, h.known, h.layout, h.fifo, h.ctrl, h.ec, h.chip⟩

/-- A command in a quiet environment ends as its script leads to. -/
theorem Leads.exec {i : Instr} (h : Leads p s.started (scriptOf i (s.latched.context s)) Q) (hq : s.Quiet p) :
    ∃ t, exec i s = .next t ∧ Q t := by
  rw [exec_eq]
  exact h s.started (Calm.refl (quiet_started hq))

theorem finish_unheld {c : Code} {r : Word} {t : State} (h : t.held = 0) :
    finish c r t =
      { t with result := c.number, doneCount := BitVec.ofNat 32 t.done, rdata := r, phase := .idle } := by
  rw [finish, h]; rfl

theorem leads_prologue {d : Descriptor} {n : Need} {x : Context} {k : Descriptor → Script} (h : x.desc = some d)
    (hn : n.metBy d = true) (hf : Leads p v (k d) Q) : Leads p v (prologue n x k) Q := by
  rw [prologue, h]
  exact leads_require hn hf

/-- What a quiet command leaves of the claims it took and gave back. -/
theorem owns_spanned {c : Chip} (ht : Calm p (s.started.spanned c) t) (h : s.ecOwns = decide (s.claimCount = 0)) :
    t.ecOwns = s.ecOwns := by
  rw [core_ecOwns ht.core]
  show (if s.claimCount = 0 then true else s.ecOwns) = _
  by_cases h0 : s.claimCount = 0
  · rw [if_pos h0, h]; simp [h0]
  · rw [if_neg h0]

/-- `return` after one claim span, which only changed the chip (R356). -/
theorem complete_spanned {c : Chip} (x : Word) (ht : Calm p (s.started.spanned c) t) :
    s.Ended (complete x t) .ok 0 x ∧ (complete x t).chip = c ∧ (complete x t).dbuf = s.dbuf := by
  have hheld : t.held = 0 := by rw [core_held ht.core]; rfl
  have hdone : t.done = 0 := by rw [core_done ht.core]; rfl
  rw [complete, finish_unheld hheld]
  exact ⟨⟨rfl, by rw [hdone], rfl, rfl, (core_claimCount ht.core :), (owns_spanned ht :)⟩, (core_chip ht.core :),
    (core_dbuf ht.core :)⟩

theorem speaks_attached {d : Descriptor} (h : s.Attached d) : Speaks s.started.claimed d.op :=
  ⟨by show s.chip.desc.op = _; rw [h.desc], h.wf.2.2.2, by show s.chip.desc.departs = none; rw [h.desc, h.plain]⟩

/-- `raise` inside the claim span of a command that has committed nothing (R356). -/
theorem abort_in_span {c : Chip} (e : Code) (ht : Calm p { s.started.claimed with chip := c } t) :
    s.Ended (abort e t) e 0 0 ∧ (abort e t).chip = c ∧ (abort e t).dbuf = s.dbuf := by
  have hheld : t.held = 1 := by rw [core_held ht.core]; rfl
  have hdone : t.done = 0 := by rw [core_done ht.core]; rfl
  have hcc : t.claimCount = s.claimCount + 1 := core_claimCount ht.core
  have heo : t.ecOwns = if s.claimCount = 0 then false else s.ecOwns := core_ecOwns ht.core
  have hchip : t.chip = c := core_chip ht.core
  have hdbuf : t.dbuf = s.dbuf := (core_dbuf ht.core :)
  have e1 : abort e t = { releaseBus t with
      result := e.number, doneCount := BitVec.ofNat 32 t.done, rdata := 0, phase := .idle } := by
    rw [abort, finish, hheld]; rfl
  have hrc : (releaseBus t).claimCount = s.claimCount := by rw [releaseBus_claimCount, hcc]; rfl
  have hro : (releaseBus t).ecOwns = if s.claimCount = 0 then true else s.ecOwns := by
    rw [releaseBus_ecOwns, hcc, heo]
    by_cases h : s.claimCount = 0 <;> simp [h]
  have hrchip : (releaseBus t).chip = t.chip := releaseBus_chip t
  have hrd : (releaseBus t).dbuf = t.dbuf := releaseBus_dbuf t
  rw [e1]
  refine ⟨⟨rfl, by rw [hdone], rfl, rfl, hrc, ?_⟩, hrchip.trans hchip, hrd.trans hdbuf⟩
  intro h
  show (releaseBus t).ecOwns = s.ecOwns
  rw [hro, h]
  by_cases h0 : s.claimCount = 0 <;> simp [h0]

end Sys2Proof.Machine
end

