-- ==== Sys2Proof/Laws/StatusWrites.lean ====
section
/-! SUPPORT. What a command that updates the status registers writes is a function of a pair it read (R225, R250): said of
the acts of its script together with the answers before them. -/

namespace Sys2Proof.Machine

/-- Every act of the script has `P`, with the answers heard before it, after `h`. -/
def Script.Past (P : List Answer → Act → Prop) : List Answer → Script → Prop
  | _, .done _  => True
  | _, .raise _ => True
  | h, .act a k => P h a ∧ ∀ x, (k x).Past P (h ++ [x])

theorem Script.Past.act_after {P : List Answer → Act → Prop} {c : Script} {h : List Answer} (hc : c.Past P h)
    {xs : List Answer} {a : Act} {k : Answer → Script} (e : c.after xs = .act a k) : P (h ++ xs) a := by
  induction xs generalizing c h with
  | nil =>
    rw [Script.after_nil] at e
    subst e
    rw [List.append_nil]
    exact hc.1
  | cons x xs ih =>
    cases c with
    | done v => cases e
    | raise v => cases e
    | act b k' =>
      have := ih (hc.2 x) e
      rwa [List.append_assoc] at this

/-- A WRSR act of command `i` writes what the command writes for a pair it read. -/
def Wrote (i : Instr) (o : OpSet) (h : List Answer) (a : Act) : Prop :=
  ∀ b1 b2, a = .xfer o.wrsr [b1, b2] 0 → WritesWhatItRead i h b1 b2

section
variable {i : Instr} {o : OpSet} {h : List Answer} {k : Script}

theorem past_unlessFailed {c : Code → Code} {k : Answer → Script} {P : List Answer → Act → Prop} {x : Answer}
    (hk : (k x).Past P h) : (unlessFailed c k x).Past P h := by
  cases x <;> first | exact hk | trivial

/-- A frame without data is no status write. -/
theorem wrote_empty (op : Byte) (n : Nat) : Wrote i o h (.xfer op [] n) := by
  intro b1 b2 e
  injection e with _ e
  cases e

theorem past_claim (hk : ∀ x, k.Past (Wrote i o) (h ++ [x])) : (claim k).Past (Wrote i o) h :=
  ⟨nofun, fun x => past_unlessFailed (hk x)⟩

theorem past_release (hk : ∀ x, k.Past (Wrote i o) (h ++ [x])) : (release k).Past (Wrote i o) h :=
  ⟨nofun, fun x => hk x⟩

theorem past_require {b : Bool} {c : Code} (hk : k.Past (Wrote i o) h) : (require b c k).Past (Wrote i o) h := by
  cases b
  · trivial
  · exact hk

theorem past_prologue {n : Need} {x : Context} {d : Descriptor} (hx : x.desc = some d) {k : Descriptor → Script}
    (hk : (k d).Past (Wrote i o) h) : (prologue n x k).Past (Wrote i o) h := by
  rw [prologue, hx]
  exact past_require hk

theorem past_readSR1 {k : Byte → Script} (hk : ∀ x : Answer, (k (firstByte x.data)).Past (Wrote i o) (h ++ [x])) :
    (readSR1 o k).Past (Wrote i o) h := ⟨wrote_empty _ _, fun x => past_unlessFailed (hk x)⟩

theorem past_readSR2 {k : Byte → Script} (hk : ∀ x : Answer, (k (firstByte x.data)).Past (Wrote i o) (h ++ [x])) :
    (readSR2 o k).Past (Wrote i o) h := ⟨wrote_empty _ _, fun x => past_unlessFailed (hk x)⟩

theorem past_writeEnable (hk : ∀ x, k.Past (Wrote i o) (h ++ [x])) : (writeEnable o k).Past (Wrote i o) h :=
  ⟨wrote_empty _ _, fun x => past_unlessFailed (hk x)⟩

theorem past_pollReady {n : Nat} (hk : ∀ later, k.Past (Wrote i o) (h ++ later)) :
    (pollReady o n k).Past (Wrote i o) h := by
  induction n generalizing h with
  | zero => trivial
  | succ n ih =>
    refine ⟨wrote_empty _ _, fun x => past_unlessFailed ?_⟩
    dsimp only
    split
    · exact hk [x]
    · exact ih fun later => by rw [List.append_assoc]; exact hk _

/-- A status write of a pair that was read. -/
theorem past_writeSR {n : Nat} {a b : Byte} (hw : ∀ later, WritesWhatItRead i (h ++ later) a b)
    (hk : ∀ later, k.Past (Wrote i o) (h ++ later)) : (writeSR o n a b k).Past (Wrote i o) h := by
  refine past_writeEnable fun x => ⟨fun b1 b2 e => ?_, fun y => past_unlessFailed (past_pollReady fun later => ?_)⟩
  · cases e
    exact hw [x]
  · rw [List.append_assoc, List.append_assoc]
    exact hk _

theorem writesWhatItRead {x y : Answer} {a b : Byte} (hp : WritesPair i (firstByte x.data) (firstByte y.data) a b)
    (later : List Answer) : WritesWhatItRead i (h ++ [x] ++ [y] ++ later) a b :=
  ⟨h, x, y, later, by simp, hp⟩

theorem past_updateSR {n : Nat} {f : Byte → Byte → Byte × Byte} {k : Byte → Byte → Script} (hf : statusUpdate i = some f)
    (hk : ∀ a b later, (k a b).Past (Wrote i o) (h ++ later)) : (updateSR o n f k).Past (Wrote i o) h := by
  refine past_readSR1 fun x => past_readSR2 fun y => past_writeSR (writesWhatItRead (writes_update hf _ _)) fun later =>
    past_readSR1 fun z => past_readSR2 fun w => past_require ?_
  simp only [List.append_assoc]
  exact hk _ _ _

theorem past_hwProbe {n : Nat} {k : Bool → Script} (hi : i = .getLockMode ∨ i = .getHwProtect)
    (hk : ∀ b later, (k b).Past (Wrote i o) (h ++ later)) : (hwProbe o n k).Past (Wrote i o) h := by
  refine past_readSR1 fun x => past_readSR2 fun y => ?_
  split
  · rw [List.append_assoc]
    exact hk _ _
  · have hw := writes_probe hi (firstByte x.data) (firstByte y.data) (by simpa using ‹¬ _ = false›)
    refine past_writeSR (writesWhatItRead hw.1) fun later => past_readSR1 fun z => ?_
    split
    · simp only [List.append_assoc]
      exact hk _ _
    · refine past_writeSR (fun l => ?_) fun l => past_readSR1 fun w => past_require ?_
      · have := writesWhatItRead (h := h) hw.2 (later ++ [z] ++ l)
        simpa only [List.append_assoc] using this
      · simp only [List.append_assoc]
        exact hk _ _

theorem past_applyUpdate {x : Context} {f : Byte → Byte → Byte × Byte} (hf : statusUpdate i = some f)
    (hk : ∀ later, k.Past (Wrote i o) (h ++ later)) : (applyUpdate o x f k).Past (Wrote i o) h :=
  past_claim fun _ => past_updateSR hf fun _ _ _ => past_release fun _ => by
    simp only [List.append_assoc]
    exact hk _

end

theorem past_setRange {i : Instr} {k : BitVec 8} {x : Context} {d : Descriptor} (hx : x.desc = some d)
    (hi : ∀ t, preset k.toNat = some t → statusUpdate i = some (withTuple t)) :
    (setRangeScript k x).Past (Wrote i d.op) [] := by
  refine past_prologue hx ?_
  split
  · trivial
  · exact past_applyUpdate (hi _ ‹_›) fun _ => trivial

theorem past_clearRange {i : Instr} {x : Context} {d : Descriptor} (hx : x.desc = some d)
    (hi : statusUpdate i = some (withTuple emptyTuple)) : (clearRangeScript x).Past (Wrote i d.op) [] :=
  past_prologue hx (past_applyUpdate hi fun _ => trivial)

/-- The status writes of a command's script: each is the command's pair for two consecutive reads before it (R225 to R250,
R280). -/
theorem script_writes {i : Instr} (hi : statusUpdate i ≠ none ∨ i = .getLockMode ∨ i = .getHwProtect) {x : Context}
    {d : Descriptor} (hx : x.desc = some d) : (scriptOf i x).Past (Wrote i d.op) [] := by
  cases i with
  | lock => exact past_setRange hx fun _ h => statusUpdate_lock h
  | setRange k => exact past_setRange hx fun _ h => statusUpdate_setRange h
  | unlock => exact past_clearRange hx rfl
  | clearRange => exact past_clearRange hx rfl
  | setLockMode m c =>
    refine past_prologue hx ?_
    split
    · trivial
    · exact past_require (past_applyUpdate (statusUpdate_setLockMode ‹_›) fun _ => trivial)
  | secLock r c =>
    exact past_prologue hx (past_require (past_require (past_claim fun _ => past_updateSR rfl fun _ _ _ =>
      past_require (past_release fun _ => trivial))))
  | getLockMode =>
    refine past_prologue hx (past_claim fun _ => past_readSR1 fun _ => past_readSR2 fun _ => ?_)
    split
    · exact past_release fun _ => trivial
    · split
      · exact past_release fun _ => trivial
      · exact past_hwProbe (.inl rfl) fun _ _ => past_release fun _ => trivial
  | getHwProtect =>
    exact past_prologue hx (past_claim fun _ => past_hwProbe (.inr rfl) fun _ _ => past_release fun _ => trivial)
  | _ => rcases hi with h | h | h <;> first | exact absurd rfl h | cases h

end Sys2Proof.Machine
end

