-- ==== Sys2Proof/Machine/Assembly.lean ====
section
/-! DEFINITION. The assembly lines of R130 and the pseudo-instructions of R131, as the HOST moves they stand for. -/

namespace Sys2Proof.Machine

/-- The lowercase mnemonic of a command (R102, R130). -/
def mnemonic : Instr → String
  | .probe           => "probe"
  | .read            => "read"
  | .write           => "write"
  | .erase           => "erase"
  | .lock            => "lock"
  | .unlock          => "unlock"
  | .isLocked        => "is_locked"
  | .setRange _      => "set_range"
  | .clearRange      => "clear_range"
  | .readProtection  => "read_protection"
  | .setLockMode _ _ => "set_lock_mode"
  | .getLockMode     => "get_lock_mode"
  | .getHwProtect    => "get_hw_protect"
  | .secStatus       => "sec_status"
  | .secRead _       => "sec_read"
  | .secProgram _    => "sec_program"
  | .secErase _      => "sec_erase"
  | .secLock _ _     => "sec_lock"
  | .transfer _      => "transfer"
  | .claim           => "claim"
  | .release         => "release"

/-- The lock-mode code a `<sel>` name of SET_LOCK_MODE stands for (R130, R112). -/
def lockModeNamed (name : String) : Option (BitVec 8) :=
  if name = "unprotected" then some 0
  else if name = "software" then some 1
  else if name = "hw_protected" then some 2
  else if name = "hw_unprotected" then some 3
  else if name = "psl" then some 4
  else if name = "otp" then some 5
  else none

/-- One line of a host program (R130): the directives, a command with its optional operands, or a pseudo-instruction
of R131. `menuL` carries the mode the menu's number selects, which the spec leaves to the menu. -/
inductive AsmLine where
  | ldAddr (v : Word)
  | ldLen (v : Word)
  | ldbuf (i : Nat) (bytes : List Byte)
  | wait
  | command (i : Instr) (addr len : Option Word)
  | rawCommand (op : BitVec 8) (n : Word)
  | rawCommandWrite (op : BitVec 8) (n : Word)
  | init
  | menuP
  | menuR
  | menuB (n : BitVec 8)
  | menuC
  | menuS
  | menuL (mode : BitVec 8) (confirm : Bool)
  | menuQ
  deriving DecidableEq, Repr

/-- A HOST write of the register at an offset (R20). -/
def writeReg (c : Config) (off : Nat) (v : Word) : Move := .write32 (c.seqBase + off) v

/-- HOST writes of consecutive DBUF bytes. -/
def ldbufMoves (c : Config) : Nat → List Byte → List Move
  | _, [] => []
  | i, b :: bs => .write8 (c.seqBase + 0x1000 + i) b :: ldbufMoves c (i + 1) bs

/-- A command line: the `ld` writes it needs, then the CMD write `OP | sel << 8 | confirm << 16` (R130). -/
def commandMoves (c : Config) (i : Instr) (addr len : Option Word) : List Move :=
  (match addr with
    | some v => [writeReg c 0x04 v]
    | none   => []) ++
  (match len with
    | some v => [writeReg c 0x08 v]
    | none   => []) ++
  [writeReg c 0x00 (encode i)]

/-- The HOST moves of a line (R130, R131). `wait` is a read of STATUS: a command is over when its step is, so the
first poll reads BUSY = 0. DEDUCED (log entry 20). safe -/
def AsmLine.moves (c : Config) : AsmLine → List Move
  | .ldAddr v              => [writeReg c 0x04 v]
  | .ldLen v               => [writeReg c 0x08 v]
  | .ldbuf i bytes         => ldbufMoves c i bytes
  | .wait                  => [.read32 (c.seqBase + 0x0C)]
  | .command i addr len    => commandMoves c i addr len
  | .rawCommand op n       => commandMoves c (.transfer op) (some 0) (some n)
  | .rawCommandWrite op n  => commandMoves c (.transfer op) (some n) (some 0)
  | .init                  => commandMoves c .probe none none
  | .menuP                 => commandMoves c .readProtection none none
  | .menuR                 => commandMoves c .readProtection none none
  | .menuB n               => commandMoves c (.setRange n) none none
  | .menuC                 => commandMoves c .clearRange none none
  | .menuS                 => commandMoves c .getLockMode none none
  | .menuL mode confirm    => commandMoves c (.setLockMode mode confirm) none none
  | .menuQ                 => []

end Sys2Proof.Machine
end

