-- ==== Sys2Proof/Tests/Slice0.lean ====
section
/-! SUPPORT. The model's own tests: words and runs whose results file 95 of the spec gives (T and P name its vectors),
ill-formed terms that well-formedness refuses, and for each obligation with hypotheses a state that meets them. -/

-- One theorem after the other: the kernel evaluations below, taken in parallel, use up the threads of one process.
set_option Elab.async false

namespace Sys2Proof.Tests

open Sys2Proof Sys2Proof.Machine

/-! ### Decoding: words written out from R100 to R102, one of each row -/

theorem test_decode_probe : decode 0b00000000000000000000000000000001#32 = .ok .probe := by decide
theorem test_decode_read : decode 0b00000000000000000000000000000010#32 = .ok .read := by decide
theorem test_decode_write : decode 0b00000000000000000000000000000011#32 = .ok .write := by decide
theorem test_decode_erase : decode 0b00000000000000000000000000000100#32 = .ok .erase := by decide
theorem test_decode_lock : decode 0b00000000000000000000000000000101#32 = .ok .lock := by decide
theorem test_decode_unlock : decode 0b00000000000000000000000000000110#32 = .ok .unlock := by decide
theorem test_decode_isLocked : decode 0b00000000000000000000000000000111#32 = .ok .isLocked := by decide
theorem test_decode_setRange : decode 0b00000000000000000010110000001000#32 = .ok (.setRange 44) := by decide
theorem test_decode_clearRange : decode 0b00000000000000000000000000001001#32 = .ok .clearRange := by decide
theorem test_decode_readProtection : decode 0b00000000000000000000000000001010#32 = .ok .readProtection := by decide
theorem test_decode_setLockMode : decode 0b00000000000000010000010100001011#32 = .ok (.setLockMode 5 true) := by decide
theorem test_decode_getLockMode : decode 0b00000000000000000000000000001100#32 = .ok .getLockMode := by decide
theorem test_decode_getHwProtect : decode 0b00000000000000000000000000001101#32 = .ok .getHwProtect := by decide
theorem test_decode_secStatus : decode 0b00000000000000000000000000001110#32 = .ok .secStatus := by decide
theorem test_decode_secRead : decode 0b00000000000000000000001000001111#32 = .ok (.secRead 2) := by decide
theorem test_decode_secProgram : decode 0b00000000000000000000001100010000#32 = .ok (.secProgram 3) := by decide
theorem test_decode_secErase : decode 0b00000000000000000000000100010001#32 = .ok (.secErase 1) := by decide
theorem test_decode_secLock : decode 0b00000000000000010000001000010010#32 = .ok (.secLock 2 true) := by decide
theorem test_decode_transfer : decode 0b00000000000000001001111100010011#32 = .ok (.transfer 0x9F) := by decide
theorem test_decode_claim : decode 0b00000000000000000000000000010100#32 = .ok .claim := by decide
theorem test_decode_release : decode 0b00000000000000000000000000010101#32 = .ok .release := by decide

/-- T140 to T146, T55: OP outside the table, SEL or CONFIRM on class N, CONFIRM on class S, reserved bits. -/
theorem test_decode_illegal :
    decode 0x00000000 = .error .unknownOp ∧ decode 0x00000016 = .error .unknownOp ∧
    decode 0x000000FF = .error .unknownOp ∧ decode 0x00000101 = .error .reservedBits ∧
    decode 0x80000001 = .error .reservedBits ∧ decode 0x00020012 = .error .reservedBits ∧
    decode 0x00010005 = .error .reservedBits ∧ decode 0x00011708 = .error .reservedBits := by decide

/-- The bytes of `set_range 23` as the host bus carries them (R71d). -/
theorem test_decodeBytes : decodeBytes [0x08, 0x17, 0x00, 0x00, 0xAA] = some (.ok (.setRange 23), [0xAA]) := by decide

theorem test_decodeTableWord :
    decodeTableWord 32 0x1050B = some (.setLockMode 5 true) ∧ decodeTableWord 32 0x20012 = none := by decide

/-! ### Well-formedness refuses ill-formed terms -/

/-- Two names of R120 on one opcode byte. -/
theorem test_wf_opset : ¬ { OpSet.standard with read := 0x9F }.wf := by decide

/-- A page smaller than the controller's page limit (R11). -/
theorem test_wf_descriptor_page : ¬ { w25q128 with pageShift := 5, pagesPerSector := 128 }.wf .yangtzee := by decide

/-- More bytes than a 24-bit address spells (R10). -/
theorem test_wf_descriptor_size : ¬ { w25q128 with nrBlocks := 512 }.wf .yangtzee := by decide

theorem test_wf_descriptor_empty : ¬ { w25q128 with nrBlocks := 0 }.wf .yangtzee := by decide

/-- BUF_SIZE, CLAIM_MAX and the poll limits out of their ranges, the fixed table entry missing, of another size or departing, an
Adesto chip in the Winbond table, a read-back place outside the FIFO (R9, R41, R142). -/
theorem test_wf_config :
    [{ Config.standard with bufSize := 255 }, { Config.standard with claimMax := 256 },
     { Config.standard with xferPollLimit := 0 }, { Config.standard with readyPollLimit := 0 },
     { Config.standard with winbond := [] }, { Config.standard with winbond := [{ w25q128 with nrBlocks := 128 }] },
     { Config.standard with winbond := [{ w25q128 with departs := some 0 }] },
     { Config.standard with adesto := [w25q128] }, { Config.standard with rxOther := [(3, 0, 71)] }].all
      (fun c => !decide c.wf) = true := by decide

theorem test_wf_standard : Config.standard.wf := by decide

/-- What R9 leaves OPEN is open: a buffer beyond 32 bits, other opcode bytes of the fixed entry, another read-back
place, an entry whose part behaves differently (R332). -/
theorem test_wf_open :
    { Config.standard with
      bufSize := 2 ^ 33
      winbond := [{ w25q128 with op := { OpSet.standard with pp := 0x12 }, name := "" }]
      adesto := [{ w25q128 with vendor := .adesto, id := 0x1F, departs := some 7 }]
      rxOther := [(3, 0, 70)] }.wf := by decide

/-- Selectors outside the sets of R104. -/
theorem test_selDefined :
    (Instr.setRange 0).selDefined = false ∧ (Instr.setRange 45).selDefined = false ∧
    (Instr.setLockMode 6 true).selDefined = false ∧ (Instr.secRead 0).selDefined = false ∧
    (Instr.secLock 4 true).selDefined = false ∧ (Instr.setRange 44).selDefined = true := by decide

/-- A memory that lists a byte an unlisted address reads as, or lists addresses out of order. -/
theorem test_wf_memory :
    ¬ Memory.wf .array [(3, 0xFF)] ∧ ¬ Memory.wf .dbuf [(4, 0), (3, 0)] ∧ Memory.wf .dbuf [(3, 0xFF)] := by decide

/-! ### The bench: the common assumptions of file 95 -/

/-- The EC acknowledges and sends no frames, CTRL is quick and reports no error, each busy period is empty, WP is at a
level. -/
def calm (l : Level) : Env where
  chip  := { script := [], steady := some ⟨l, 0, false, false, false, []⟩ }
  ctrl  := { script := [], steady := some ⟨0, false, true, []⟩ }
  ec    := { script := [], steady := some ⟨[], true⟩ }
  drawn := 0

/-- The chip of R41 with given status registers. -/
def chipWith (sr1 sr2 : Byte) : Chip := { Chip.initial with sr1 := sr1, sr2 := sr2 }

/-- SEQ with the R41 chip bound and ADDR, LEN, DBUF set. -/
def bench (l : Level) (sr1 sr2 : Byte) (addr len : Word) (dbuf : Memory) : State :=
  { State.reset with
    desc := some w25q128
    env := calm l
    chip := chipWith sr1 sr2
    addr := addr
    len := len
    dbuf := dbuf }

/-- The step that takes a command word answers a next state with a property. -/
def ends (w : Nat) (s : State) (p : State → Bool) : Bool :=
  match step (s.withFetchWord 32 w) with
  | .next t    => p t
  | .fault _   => false
  | .refused _ => false

/-- A step answers a next state. -/
def moves (s : State) : Bool :=
  match step s with
  | .next _    => true
  | .fault _   => false
  | .refused _ => false

theorem next_of_moves {s : State} (h : moves s = true) : ∃ t, step s = .next t := by
  unfold moves at h
  split at h
  · exact ⟨_, ‹_›⟩
  · cases h
  · cases h

/-- RESULT, DONE_COUNT and RDATA. -/
def outcome (t : State) : Word × Word × Word := (t.result, t.doneCount, t.rdata)

/-- SR1 but WEL and BUSY, and SR2. -/
def status (t : State) : Byte × Byte := (t.chip.sr1 &&& 0xFC, t.chip.sr2)

theorem next_of_ends {w : Nat} {s : State} {p : State → Bool} (h : ends w s p = true) :
    ∃ t, step (s.withFetchWord 32 w) = .next t ∧ p t = true := by
  unfold ends at h
  split at h
  · exact ⟨_, ‹_›, h⟩
  · cases h
  · cases h

/-! ### One step each -/

/-- T20. -/
theorem test_probe : ends 0x1 { bench .high 0 0 0 0 [] with desc := none } (fun t =>
    outcome t == (0, 0, 0x00EF4018) && t.jedecId == 0x00EF4018 && t.desc == some w25q128) = true := by
  decide +kernel

/-- T22: a failed PROBE unbinds and keeps the three bytes. -/
theorem test_probe_unknown :
    ends 0x1 { bench .high 0 0 0 0 [] with
        chip := { chipWith 0 0 with mfr := 0xC2, desc := { w25q128 with id := 0x2018 } } } (fun t =>
      outcome t == (7, 0, 0) && t.jedecId == 0x00C22018 && t.desc == none) = true := by
  decide +kernel

/-- T26, with two bytes that are not erased. -/
theorem test_read :
    ends 0x2 { bench .high 0 0 0x100 100 [] with
        chip := { chipWith 0 0 with array := [(0x100, 0x11), (0x144, 0x22)] } } (fun t =>
      outcome t == (0, 100, 0) && t.dbuf.lookup 0 == some 0x11 && t.dbuf.lookup 68 == some 0x22 &&
      t.dbuf.lookup 99 == some 0xFF && t.dbuf.lookup 100 == none &&
      framesOf t.trace == [⟨0x03, [0x00, 0x01, 0x00], 68⟩, ⟨0x03, [0x00, 0x01, 0x44], 32⟩]) = true := by
  decide +kernel

/-- T29a: past the end. -/
theorem test_read_past_end : ends 0x2 (bench .high 0 0 0xFFFFFF 2 []) (fun t =>
    outcome t == (8, 0, 0) && t.trace == []) = true := by decide +kernel

/-- T31, with d_i = i. -/
theorem test_write_legacy :
    ends 0x3 { bench .high 0 0 0xFE 6 [(0, 0), (1, 1), (2, 2), (3, 3), (4, 4), (5, 5)] with
        cfg := { Config.standard with gen := .legacy }
        ctrl := { Ctrl.atReset with fifo := List.replicate 8 0 } } (fun t =>
      outcome t == (0, 6, 0) &&
      t.chip.array == [(0xFE, 0), (0xFF, 1), (0x100, 2), (0x101, 3), (0x102, 4), (0x103, 5)] &&
      framesOf t.trace == [⟨0x06, [], 0⟩, ⟨0x02, [0, 0, 0xFE, 0, 1], 0⟩, ⟨0x05, [], 1⟩,
        ⟨0x06, [], 0⟩, ⟨0x02, [0, 1, 0, 2, 3, 4, 5], 0⟩, ⟨0x05, [], 1⟩]) = true := by
  decide +kernel

/-- T35: programming only clears bits. -/
theorem test_write_clears :
    ends 0x3 { bench .high 0 0 0x10 1 [(0, 0x3C)] with chip := { chipWith 0 0 with array := [(0x10, 0xF0)] } }
      (fun t => outcome t == (0, 1, 0) && t.chip.array == [(0x10, 0x30)]) = true := by
  decide +kernel

/-- T40, with bytes inside and outside the range. -/
theorem test_erase :
    ends 0x4 { bench .high 0 0 0x1000 0x2000 [] with
        chip := { chipWith 0 0 with array := [(0xFFF, 1), (0x1000, 2), (0x2FFF, 3), (0x3000, 4)] } } (fun t =>
      outcome t == (0, 0x2000, 0) && t.chip.array == [(0xFFF, 1), (0x3000, 4)]) = true := by
  decide +kernel

/-- T46: a protected sector is kept, and the command still ends Ok. -/
theorem test_erase_protected :
    ends 0x4 { bench .high 0x04 0 0xFFF000 0x1000 [] with chip := { chipWith 0x04 0 with array := [(0xFFF000, 7)] } }
      (fun t => outcome t == (0, 0x1000, 0) && t.chip.array == [(0xFFF000, 7)]) = true := by
  decide +kernel

/-- T57. -/
theorem test_lock : ends 0x5 (bench .high 0 0 0 0 []) (fun t =>
    outcome t == (0, 0, 0) && status t == (0x1C, 0)) = true := by decide +kernel

/-- T58. -/
theorem test_unlock : ends 0x6 (bench .high 0x1C 0 0 0 []) (fun t =>
    outcome t == (0, 0, 0) && status t == (0, 0)) = true := by decide +kernel

/-- T66: the undefined tuple counts as locked. -/
theorem test_isLocked : ends 0x7 (bench .high 0x58 0 0 0 []) (fun t => outcome t == (0, 0, 1)) = true := by
  decide +kernel

/-- T63: everything complemented is nothing. -/
theorem test_isLocked_complement :
    ends 0x7 (bench .high 0x1C 0x40 0 0 []) (fun t => outcome t == (0, 0, 0)) = true := by decide +kernel

/-- T59: the lock bits stay. -/
theorem test_setRange : ends 0x808 (bench .high 0x1C 0x38 0 0 []) (fun t =>
    outcome t == (0, 0, 0) && status t == (0x24, 0x38)) = true := by decide +kernel

/-- T52: WP low freezes the registers. -/
theorem test_setRange_frozen : ends 0x208 (bench .low 0x80 0x02 0 0 []) (fun t =>
    outcome t == (6, 0, 0) && status t == (0x80, 0x02)) = true := by decide +kernel

/-- T56. -/
theorem test_clearRange : ends 0x9 (bench .high 0x5C 0x42 0 0 []) (fun t =>
    outcome t == (0, 0, 0) && status t == (0, 0x02)) = true := by decide +kernel

/-- T69. -/
theorem test_readProtection :
    ends 0xA (bench .high 0x9C 0x09 0 0 []) (fun t => outcome t == (0, 0, 0x000E099C)) = true := by decide +kernel

/-- T77. -/
theorem test_setLockMode_otp : ends 0x1050B (bench .high 0 0 0 0 []) (fun t =>
    outcome t == (0, 0, 0) && status t == (0x80, 0x01)) = true := by decide +kernel

/-- T76. -/
theorem test_setLockMode_unconfirmed : ends 0x50B (bench .high 0 0 0 0 []) (fun t =>
    outcome t == (9, 0, 0) && status t == (0, 0) && t.trace == []) = true := by decide +kernel

/-- T92. -/
theorem test_getLockMode_wp_high : ends 0xC (bench .high 0x80 0 0 0 []) (fun t =>
    outcome t == (0, 0, 3) && status t == (0x80, 0)) = true := by decide +kernel

/-- T91. -/
theorem test_getLockMode_wp_low : ends 0xC (bench .low 0x80 0 0 0 []) (fun t =>
    outcome t == (0, 0, 2) && status t == (0x80, 0)) = true := by decide +kernel

/-- T94: the clear fails in OTP. -/
theorem test_getHwProtect : ends 0xD (bench .high 0x80 0x01 0 0 []) (fun t =>
    outcome t == (0, 0, 1) && status t == (0x80, 0x01)) = true := by decide +kernel

/-- T95: the restore write fails and leaves SRP0 clear. -/
theorem test_getHwProtect_restore_fails :
    ends 0xD { bench .high 0x80 0 0 0 [] with
        env := { calm .high with
          ctrl := { script := List.replicate 7 ⟨0, false, true, []⟩ ++ [⟨0, true, false, []⟩]
                    steady := some ⟨0, false, true, []⟩ } } } (fun t =>
      outcome t == (3, 0, 0) && status t == (0, 0)) = true := by
  decide +kernel

/-- T108. -/
theorem test_secStatus : ends 0xE (bench .high 0 0x2F 0 0 []) (fun t => outcome t == (0, 0, 0x5)) = true := by
  decide +kernel

/-- T100. -/
theorem test_secRead :
    ends 0x10F { bench .high 0 0 0x10 4 [] with chip := { chipWith 0 0 with secreg := [(0x1010, 9), (0x1013, 8)] } }
      (fun t => outcome t == (0, 4, 0) && t.dbuf == [(0, 9), (1, 0xFF), (2, 0xFF), (3, 8)] &&
        framesOf t.trace == [⟨0x48, [0x00, 0x10, 0x10, 0x00], 4⟩]) = true := by
  decide +kernel

/-- T86, with other bytes in the region and a byte of the next one. -/
theorem test_secProgram :
    ends 0x210 { bench .high 0 0 0x10 3 [(0, 0xAA), (1, 0xBB), (2, 0xCC)] with
        chip := { chipWith 0 0 with secreg := [(0x2010, 0), (0x20FF, 0), (0x3000, 0)] } } (fun t =>
      outcome t == (0, 3, 0) && t.chip.secreg == [(0x2010, 0xAA), (0x2011, 0xBB), (0x2012, 0xCC), (0x3000, 0)]) =
      true := by
  decide +kernel

/-- T88. -/
theorem test_secProgram_locked : ends 0x110 (bench .high 0 0x08 0 1 []) (fun t =>
    outcome t == (0xB, 0, 0) && framesOf t.trace == [⟨0x35, [], 1⟩]) = true := by decide +kernel

/-- T103. -/
theorem test_secErase :
    ends 0x311 { bench .high 0 0 0 0 [] with chip := { chipWith 0 0 with secreg := [(0x20FF, 1), (0x3000, 2)] } }
      (fun t => outcome t == (0, 256, 0) && t.chip.secreg == [(0x20FF, 1)]) = true := by
  decide +kernel

/-- T110. -/
theorem test_secLock : ends 0x10212 (bench .high 0 0 0 0 []) (fun t =>
    outcome t == (0, 0, 0) && status t == (0, 0x10)) = true := by decide +kernel

/-- T113: the masked compare passes and the check of LB1 fails. -/
theorem test_secLock_frozen : ends 0x10112 (bench .high 0 0x01 0 0 []) (fun t =>
    outcome t == (6, 0, 0) && status t == (0, 0x01)) = true := by decide +kernel

/-- T121. -/
theorem test_transfer : ends 0x9F13 { bench .high 0 0 0 3 [] with desc := none } (fun t =>
    outcome t == (0, 3, 0) && t.dbuf == [(0, 0xEF), (1, 0x40), (2, 0x18)]) = true := by decide +kernel

/-- T123: the sizes are checked before the claim. -/
theorem test_transfer_too_large : ends 0x213 (bench .high 0 0 72 0 []) (fun t =>
    outcome t == (2, 0, 0) && t.trace == []) = true := by decide +kernel

/-- T126. -/
theorem test_claim : ends 0x14 (bench .high 0 0 0 0 []) (fun t =>
    outcome t == (0, 0, 1) && t.ecOwns == false && t.trace == [.yield]) = true := by decide +kernel

/-- T128. -/
theorem test_claim_max :
    ends 0x14 { bench .high 0 0 0 0 [] with claimCount := 255, ecOwns := false } (fun t =>
      outcome t == (1, 0, 0) && t.claimCount == 255 && t.trace == []) = true := by
  decide +kernel

/-- T130. -/
theorem test_release :
    ends 0x15 { bench .high 0 0 0 0 [] with claimCount := 1, ecOwns := false } (fun t =>
      outcome t == (0, 0, 0) && t.ecOwns && t.trace == [.reclaim]) = true := by
  decide +kernel

/-- T129. -/
theorem test_release_unclaimed :
    ends 0x15 (bench .high 0 0 0 0 []) (fun t => outcome t == (0xC, 0, 0) && t.claimCount == 0) = true := by
  decide +kernel

/-- T25: out of reset nothing is bound. -/
theorem test_reset_unbound : ends 0x2 State.reset (fun t => outcome t == (0xA, 0, 0)) = true := by decide +kernel

/-- A reset inside a command, before its third act (the second transaction), drops it and the claim (R380). -/
theorem test_reset_inside :
    ends 0x1708 { bench .high 0 0 0 0 [] with during := [(2, .seqReset)] } (fun t =>
      outcome t == (0, 0, 0) && t.claimCount == 0 && t.ecOwns && t.phase == .idle && t.desc == none && t.during == [] &&
      framesOf t.trace == [⟨0x05, [], 1⟩]) = true := by
  decide +kernel

/-- A HOST read of STATUS between two claim spans of a WRITE sees BUSY = 1 and EC_OWNS = 1 (R22, R79): acts 0 to 6 are the
first chunk. -/
theorem test_status_inside :
    ends 0x3 { bench .high 0 0 0xFF 2 [(0, 1), (1, 1)] with during := [(7, .read32 0x0C)] } (fun t =>
      t.hostData &&& 0x11 == 0x11 && t.during == []) = true := by
  decide +kernel

/-- The fourth step of that WRITE is its second transaction (R24, R405). -/
theorem test_advance :
    (match advances 4 { bench .high 0 0 0xFF 2 [(0, 1), (1, 1)] with cmd := 3 }.started with
      | .next t => framesOf t.trace == [⟨0x06, [], 0⟩, ⟨0x02, [0, 0, 0xFF, 1], 0⟩] && t.step == 2
      | .fault _ => false
      | .refused _ => false) = true := by
  decide +kernel

/-! ### The chip, by hand from R312 to R331 -/

/-- T150, cut to a page of 8 bytes: the address wraps inside the page, a later byte overwrites. -/
theorem test_chip_wrap :
    Chip.pageBuffer 8 6 [1, 2, 3] = [3, 0xFF, 0xFF, 0xFF, 0xFF, 0xFF, 1, 2] := by decide

/-- T152, T153: LB1 stays, SR2 bit 2 is not written. -/
theorem test_chip_wrsr :
    (((chipWith 0x02 0x08).answer ⟨.high, 0, false, false, false, []⟩ ⟨0x01, [0x00, 0x04], 0⟩).2.sr2) = 0x08 := by
  decide +kernel

/-- T155: a busy period of two frames. -/
theorem test_chip_busy :
    let c := ((chipWith 0x02 0).answer ⟨.high, 2, false, false, false, []⟩ ⟨0x20, [0, 0, 0], 0⟩).2
    let c' := (c.answer ⟨.high, 0, false, false, false, []⟩ ⟨0x03, [0, 0, 0], 1⟩).2
    let r := c'.answer ⟨.high, 0, false, false, false, []⟩ ⟨0x05, [], 1⟩
    c.busyLeft = 2 ∧ c'.busyLeft = 1 ∧ r.1 = [0x03] ∧ r.2.sr1Read = 0x00 := by
  decide +kernel

/-- T154: an invalid tag. -/
theorem test_chip_tag : Chip.regionOf 0x1100 = none ∧ Chip.regionOf 0x30FF = some 3 := by decide

/-- A departure changes only what a chip holds (R45, R47, R48, R332): the byte past the array and the one with no valid tag
are dropped, the stored bits are written. -/
theorem test_departed :
    let c := (chipWith 0x80 0).departed ⟨[], [(0xFFFFFF, 0x12), (0x1000000, 0x34)], [(0x3001, 0x56), (0x4000, 0x78)], 0x05,
      0xFF, 1⟩
    c.array = [(0xFFFFFF, 0x12)] ∧ c.secreg = [(0x3001, 0x56)] ∧ c.sr1Read = 0x07 ∧ c.sr2 = 0x7B ∧ c.desc = w25q128 := by
  decide +kernel

/-- A power cycle clears a lock-down and keeps OTP (R321). -/
theorem test_chip_power :
    ((chipWith 0x02 0x81).powerCycle []).sr2 = 0x00 ∧ ((chipWith 0x80 0x01).powerCycle []).sr2 = 0x01 := by
  decide +kernel

/-- T5 to T8, and a parameter that is not the default (R142). -/
theorem test_rxIndex :
    rxDefault .yangtzee 3 67 = 70 ∧ rxDefault .yangtzee 10 61 = 0 ∧ rxDefault .legacy 3 4 = 7 ∧
    rxIndex Config.standard 10 61 = 0 ∧ rxIndex { Config.standard with rxOther := [(10, 61, 7)] } 10 61 = 7 := by decide

/-- While CTRL_UNKNOWN is set a read-back layout that points at the byte sent, 0x11, does not show it: the draw byte 0xA5
comes back (R144). -/
theorem test_unknown_returns_draw :
    (transact 0x05 [0x11] 1 { State.reset with
      cfg := { Config.standard with rxOther := [(1, 0, 0)] }
      env := { calm .high with ctrl := ⟨[], some ⟨0, false, false, [0xA5]⟩⟩ }
      ctrl := { Ctrl.atReset with unknown := true } }).1 = .bytes [0xA5] := by decide +kernel

/-- T13. -/
theorem test_chunks : chunks 250 600 256 = [(250, 6), (256, 256), (512, 256), (768, 82)] := by decide +kernel

/-- P4's `sec_lock 2, confirm` as an assembly line (R130). -/
theorem test_asm :
    (AsmLine.command (.secLock 2 true) (some 0) none).moves Config.standard = [.write32 4 0, .write32 0 0x00010212] := by
  decide

/-! ### Witnesses: states that meet the hypotheses of the obligations

Each theorem is named after its obligation; a suffix names the clause. -/

theorem always_steady {α : Type} {p : α → Prop} {x : α} (h : p x) :
    ({ script := [], steady := some x } : Feed α).Always p :=
  ⟨by simp, x, rfl, h⟩

/-- The calm environment is quiet. -/
theorem quiet_of {s : State} {l : Level} (hd : s.during = []) (hc : s.ctrl = Ctrl.atReset) (he : s.env = calm l)
    (hg : s.cfg = Config.standard) : s.Quiet (fun d => d.wp = l) where
  alone  := hd
  known  := by rw [hc]; rfl
  layout := fun _ _ => by rw [hg]; rfl
  fifo  := by rw [hc, hg]; rfl
  ctrl  := by rw [he, hg]; exact always_steady (by decide)
  ec    := by rw [he]; exact always_steady (by decide)
  chip  := by rw [he, hg]; exact always_steady ⟨show 0 < 1000 by decide, rfl⟩

theorem quiet_any {s : State} {p : ChipDraw → Prop} (h : s.Quiet p) : s.Quiet (fun _ => True) where
  alone  := h.alone
  known  := h.known
  layout := h.layout
  fifo  := h.fifo
  ctrl  := h.ctrl
  ec    := h.ec
  chip  := ⟨fun x hx => ⟨(h.chip.1 x hx).1, trivial⟩, h.chip.2.imp fun _ hx => ⟨hx.1, hx.2.1, trivial⟩⟩

theorem bench_quiet (l : Level) (a b : Byte) (addr len : Word) (m : Memory) :
    (bench l a b addr len m).Quiet (fun d => d.wp = l) :=
  quiet_of rfl rfl rfl rfl

theorem bench_calm (l : Level) (a b : Byte) (addr len : Word) (m : Memory) :
    (bench l a b addr len m).Quiet (fun _ => True) :=
  quiet_any (bench_quiet l a b addr len m)

theorem bench_attached (l : Level) (a b : Byte) (addr len : Word) (m : Memory) :
    (bench l a b addr len m).Attached w25q128 :=
  ⟨rfl, show w25q128.wf .yangtzee by decide, rfl, rfl, rfl⟩

theorem bench_canClaim (l : Level) (a b : Byte) (addr len : Word) (m : Memory) :
    (bench l a b addr len m).CanClaim := by
  show 0 < 255
  decide

theorem loaded_one (b : Byte) : ∀ i < 1, ∃ x, Memory.lookup [(0, b)] i = some x := by
  intro i hi
  obtain rfl : i = 0 := by omega
  exact ⟨b, rfl⟩

theorem witness_IllegalWordChangesNothing : State.reset.phase = .idle ∧ ∀ i, encode i ≠ 0x00000101 := by
  refine ⟨rfl, fun i h => ?_⟩
  have hc : fieldOp (encode i) = i.code ∧ fieldSel (encode i) = i.sel := by
    have := Laws.Encoding.of_class i (by cases i <;> simp [Instr.cls, Instr.sel])
      (by cases i <;> simp [Instr.cls, Instr.confirm])
    exact ⟨this.2.1, this.2.2.1⟩
  rw [h] at hc
  cases i <;> revert hc <;> simp [fieldOp, fieldSel, Instr.code, Instr.sel]

theorem witness_StepRunsDecodedCommand :
    ∃ (s : State) (w : Word) (i : Instr) (rest : List Move), s.phase = .idle ∧
      s.inbox = .write32 s.cfg.seqBase w :: rest ∧ decode w = .ok i :=
  ⟨State.reset.withFetchWord 32 0x1050B, 0x1050B, .setLockMode 5 true, [], rfl, rfl, by decide⟩

theorem witness_StatusFields : ∃ s : State, s.claimCount ≤ 255 ∧ s.status = 0x0000FF06 :=
  ⟨{ bench .high 0 0 0 0 [] with claimCount := 255, ecOwns := false }, by decide, by decide⟩

/-- Reads: the last register, the first and the last reserved offset. -/
theorem witness_HostAccessesRegisters_read :
    RegisterValue (bench .high 0 0 0 0 []) 0x1C 0 ∧ RegisterValue (bench .high 0 0 0 0 []) 0x20 0 ∧
    RegisterValue (bench .high 0 0 0 0 []) 0xFFC 0 :=
  ⟨.jedecId, .reserved _ (by decide) (by decide) (by decide), .reserved _ (by decide) (by decide) (by decide)⟩

/-- A READ of four bytes has an act to do. -/
theorem reads : (Running.rest ⟨2, 0, 4, 0, [], 0, 0⟩ (bench .high 0 0 0 4 [])).ended = false := by decide +kernel

/-- Writes of STATUS, of the last reserved offset, of ADDR and LEN; inside a command, before its first act and after one,
of CMD, of LEN and of the last DBUF bytes; and a READ that has an act to do. -/
theorem witness_HostAccessesRegisters_write :
    (∀ m ∈ [Move.write32 0x0C 7, .write32 0xFFC 7, .write32 0x04 7, .write32 0x08 7],
      ∃ s u : State, s.NextMove m u ∧ s.phase = .idle ∧ s.cfg.seqBase = 0) ∧
    (∀ m ∈ [Move.write32 0 7, .write32 0x08 7, .write32 0x1FFC 7, .write8 0x1FFF 1, .read32 0x0C],
      (∃ s u : State, s.NextMove m u ∧ s.phase = .running { s.latched with heard := [] } ∧ s.cfg.seqBase = 0) ∧
      ∃ s u : State, s.NextMove m u ∧ s.phase = .running { s.latched with heard := [.number 1] } ∧ s.cfg.seqBase = 0) ∧
    0x1FFC + 4 ≤ 0x1000 + Config.standard.bufSize ∧ 0x1FFF < 0x1000 + Config.standard.bufSize ∧
    (scriptOf .read ((bench .high 0 0 0 4 []).latched.context (bench .high 0 0 0 4 []))).ended = false := by
  refine ⟨fun m _ => ⟨{ State.reset with inbox := [m] }, _, .waiting [] rfl rfl, rfl, rfl⟩, fun m _ => ⟨?_, ?_⟩, by decide,
    by decide, by decide +kernel⟩
  · let s : State := { bench .high 0 0 0 4 [] with cmd := 2, during := [(0, m)] }
    exact ⟨s.started, _, .inside _ [] rfl (.inr reads) rfl, rfl, rfl⟩
  · let s : State := { bench .high 0 0 0 4 [] with cmd := 2, during := [(1, m)] }
    exact ⟨{ s with phase := .running { s.latched with heard := [.number 1] } }, _, .inside _ [] rfl (.inl (by simp)) rfl,
      rfl, rfl⟩

/-- The last word and the last byte of DBUF. -/
theorem witness_HostAccessesDbuf :
    (∃ (s : State) (w : Word), s.phase = .idle ∧ 4092 % 4 = 0 ∧ 4092 + 4 ≤ s.cfg.bufSize ∧
      s.inbox = [.write32 (s.cfg.seqBase + 0x1000 + 4092) w, .read32 (s.cfg.seqBase + 0x1000 + 4092)]) ∧
    ∃ (s : State) (b : Byte), s.phase = .idle ∧ 4095 < s.cfg.bufSize ∧
      s.inbox = [.write8 (s.cfg.seqBase + 0x1000 + 4095) b, .read8 (s.cfg.seqBase + 0x1000 + 4095)] :=
  ⟨⟨{ State.reset with inbox := [.write32 0x1FFC 1, .read32 0x1FFC] }, 1, rfl, by decide, by decide, rfl⟩,
   ⟨{ State.reset with inbox := [.write8 0x1FFF 1, .read8 0x1FFF] }, 1, rfl, by decide, rfl⟩⟩

/-- A misaligned read, a word across the end of DBUF, a byte access of a register, another width, an address past the
block. -/
theorem witness_OtherAccessesAreRefused :
    (∀ m ∈ [Move.read32 0x02, .read32 0x2000, .write8 0x0FFF 0, .badWidth 2 0, .write32 0x100000 0],
      ∃ s u : State, s.NextMove m u ∧ ¬ SpellsAccess s.cfg m) ∧
    ∀ owns : Bool, ∃ s u : State, s.NextMove (.ecFrame ⟨0x06, [], 0⟩) u ∧ s.ecOwns = owns := by
  refine ⟨?_, fun owns => ⟨{ State.reset with inbox := [.ecFrame ⟨0x06, [], 0⟩], ecOwns := owns }, _, .waiting [] rfl rfl, rfl⟩⟩
  intro m hm
  refine ⟨{ State.reset with inbox := [m] }, _, .waiting [] rfl rfl, ?_⟩
  simp only [List.mem_cons, List.not_mem_nil, or_false] at hm
  rcases hm with rfl | rfl | rfl | rfl | rfl <;> simp [SpellsAccess, State.reset, Config.standard]

/-- DBUF byte 2 is the first unwritten one, for a word read at 0, a TRANSFER of three bytes, and a WRITE and a SEC_PROGRAM
of three; byte 4095 for a byte read. -/
theorem witness_UnwrittenDbufFaults :
    let s := bench .high 0 0 3 3 [(0, 1), (1, 1)]
    s.dbuf.lookup (0 + 2) = none ∧ (∀ j < 2, s.dbuf.lookup (0 + j) ≠ none) ∧ 0 + 4 ≤ s.cfg.bufSize ∧
    s.during = [] ∧ s.env.ec.Always (fun d => d.ack = true) ∧ s.CanClaim ∧ s.addr.toNat ≤ s.cfg.bufSize ∧
    s.len.toNat ≤ s.cfg.bufSize ∧ xferOk s.cfg.gen s.addr.toNat s.len.toNat = true ∧ 2 < s.addr.toNat ∧
    2 < s.len.toNat ∧ s.Quiet (fun _ => True) ∧ s.desc = some w25q128 ∧ s.Attached w25q128 ∧
    s.addr.toNat < w25q128.totalSize ∧ s.addr.toNat + s.len.toNat ≤ 256 ∧ w25q128.hasSec = true ∧
    s.chip.lockBit (3 : BitVec 8).toNat = false ∧
    (∃ u, { s with inbox := [.read32 0x1000] }.NextMove (.read32 0x1000) u) ∧
    ∃ t u : State, t.dbuf.lookup (4095 + 0) = none ∧ t.NextMove (.read8 (t.cfg.seqBase + 0x1000 + 4095)) u ∧
      4095 < t.cfg.bufSize :=
  ⟨rfl, by decide, by decide, rfl, always_steady rfl, bench_canClaim .high 0 0 3 3 _, by decide, by decide, by decide,
    by decide, by decide, bench_calm .high 0 0 3 3 _, rfl, bench_attached .high 0 0 3 3 _, by decide, by decide, rfl, rfl,
    ⟨_, .waiting [] rfl rfl⟩, { State.reset with inbox := [.read8 0x1FFF] }, _, rfl, .waiting [] rfl rfl, by decide⟩

/-- A reset between commands, one inside a command, and a command one lands in. -/
theorem witness_SeqResetSequence :
    (∃ s u : State, s.NextMove .seqReset u ∧ s.phase = .idle ∧ s.desc ≠ none ∧ s.dbuf ≠ []) ∧
    (∃ s u : State, s.NextMove .seqReset u ∧ s.phase ≠ .idle) ∧
    ∃ s t : State, s.during = [(2, .seqReset)] ∧ exec (.setRange 23) s = .next t ∧ t.during = [] := by
  refine ⟨⟨{ bench .high 0x1C 0 1 1 [(0, 1)] with inbox := [.seqReset] }, _, .waiting [] rfl rfl, rfl, by decide,
    by decide⟩, ?_, ?_⟩
  · let s : State := { bench .high 0 0 0 4 [] with cmd := 2, during := [(0, .seqReset)] }
    exact ⟨s.started, _, .inside _ [] rfl (.inr reads) rfl, by simp [State.started]⟩
  · obtain ⟨t, ht, hp⟩ := next_of_ends (w := 0x1708)
      (s := { bench .high 0 0 0 0 [] with during := [(2, .seqReset)] }) (p := fun t => t.during == []) (by decide +kernel)
    exact ⟨{ bench .high 0 0 0 0 [] with during := [(2, .seqReset)], cmd := 0x1708 }, t, rfl, ht, eq_of_beq hp⟩

/-- A page program in progress at the last page; its window is hit, its neighbour is not. -/
theorem witness_PowerCycleKeepsTheRest :
    ∃ s u : State, s.NextMove .powerCycle u ∧ s.chip.desc.departs = none ∧ s.chip.inFlight.hitsArray 0xFFFFFF = true ∧
      s.chip.inFlight.hitsArray 0xFFFEFF = false ∧ s.chip.inFlight.hitsSecreg 0x10FF = false :=
  ⟨{ bench .high 0x02 0 0 0 [] with
      inbox := [.powerCycle]
      chip := { chipWith 0x02 0 with busyLeft := 2, inFlight := .array 0xFFFF00 256 0xFF 1 } }, _,
    .waiting [] rfl rfl, rfl, by decide, by decide, by decide⟩

/-- The largest transfer of a Yangtzee controller. -/
theorem witness_TransferCompletes :
    let s := bench .high 0 0 71 68 ((List.range 71).map fun i => (i, 0x11))
    s.Quiet (fun _ => True) ∧ s.CanClaim ∧ s.addr.toNat ≤ s.cfg.bufSize ∧ s.len.toNat ≤ s.cfg.bufSize ∧
    xferOk s.cfg.gen s.addr.toNat s.len.toNat = true ∧ s.Loaded s.addr.toNat := by
  refine ⟨bench_calm .high 0 0 71 68 _, bench_canClaim .high 0 0 71 68 _, by decide, by decide, by decide, fun i hi => ?_⟩
  have : ∀ i : Fin 71, Memory.lookup ((List.range 71).map fun i => (i, (0x11 : Byte))) i.val = some 0x11 := by
    decide +kernel
  exact ⟨_, this ⟨i, hi⟩⟩

theorem witness_TransferChecksSizes :
    Config.standard.bufSize < (bench .high 0 0 4097 0 []).addr.toNat ∧
    Config.standard.bufSize < (bench .high 0 0 0 4097 []).len.toNat ∧
    xferOk Config.standard.gen (bench .high 0 0 72 0 []).addr.toNat 0 = false ∧
    xferOk Config.standard.gen 0 (bench .high 0 0 0 69 []).len.toNat = false := by decide

/-- A controller that answers every transaction with one draw. -/
def controller (d : CtrlDraw) : Env := { calm .high with ctrl := { script := [], steady := some d } }

theorem witness_TransferReportsTheController :
    let s : State := { bench .high 0 0 1 1 [(0, 0x9F)] with env := controller ⟨1000, false, false, []⟩ }
    let u : State := { bench .high 0 0 1 1 [(0, 0x9F)] with env := controller ⟨999, true, false, []⟩ }
    let v : State := { bench .high 0 0 1 1 [(0, 0x9F)] with
      env := controller ⟨999, false, false, [0xA5]⟩, ctrl := { Ctrl.atReset with unknown := true } }
    s.during = [] ∧ s.env.ec.Always (fun d => d.ack = true) ∧ s.CanClaim ∧ s.addr.toNat ≤ s.cfg.bufSize ∧
    s.len.toNat ≤ s.cfg.bufSize ∧ xferOk s.cfg.gen s.addr.toNat s.len.toNat = true ∧ s.Loaded s.addr.toNat ∧
    s.env.ctrl.Always (fun d => s.cfg.xferPollLimit ≤ d.busyReads) ∧
    u.env.ctrl.Always (fun d => d.busyReads < u.cfg.xferPollLimit ∧ d.err = true) ∧
    v.ctrl.unknown = true ∧ v.env.ctrl.Always (fun d => d.busyReads < v.cfg.xferPollLimit ∧ d.err = false) :=
  ⟨rfl, always_steady rfl, bench_canClaim .high 0 0 1 1 [], by decide, by decide, by decide, loaded_one _, always_steady (by decide),
    always_steady (by decide), rfl, always_steady (by decide)⟩

theorem witness_ControllerUnknownIsSticky :
    ∃ (i : Instr) (s t : State), s.during = [] ∧ s.ctrl.unknown = true ∧ exec i s = .next t :=
  ⟨.read, { State.reset with ctrl := { Ctrl.atReset with unknown := true } },
    _, rfl, rfl, rfl⟩

/-- At CLAIM_MAX, one below it, and at 0 with an EC that acknowledges and one that refuses. -/
theorem witness_ClaimCommand :
    (∃ s : State, s.during = [] ∧ s.claimCount = s.cfg.claimMax) ∧
    (∃ s : State, s.during = [] ∧ s.claimCount ≠ s.cfg.claimMax ∧ s.claimCount ≠ 0 ∧ s.claimCount + 1 = s.cfg.claimMax) ∧
    (∃ s : State, s.during = [] ∧ s.claimCount ≠ s.cfg.claimMax ∧ s.claimCount = 0 ∧
      s.env.ec.Always (fun d => d.ack = true)) ∧
    ∃ s : State, s.during = [] ∧ s.claimCount ≠ s.cfg.claimMax ∧ s.claimCount = 0 ∧
      s.env.ec.Always (fun d => d.ack = false) :=
  ⟨⟨{ State.reset with claimCount := 255 }, rfl, rfl⟩,
   ⟨{ State.reset with claimCount := 254 }, rfl, by decide, by decide, rfl⟩,
   ⟨bench .high 0 0 0 0 [], rfl, by decide, rfl, always_steady rfl⟩,
   ⟨{ State.reset with env := { calm .high with ec := { script := [], steady := some ⟨[], false⟩ } } }, rfl, by decide,
     rfl, always_steady rfl⟩⟩

theorem witness_ReleaseCommand :
    ∀ n, ∃ s : State, s.during = [] ∧ s.claimCount = n :=
  fun n => ⟨{ State.reset with claimCount := n }, rfl, rfl⟩

/-- A RELEASE with a HOST read inside it. -/
theorem witness_ClaimsAreBalanced :
    ∃ (i : Instr) (s t : State), (∀ m ∈ s.during, m.2.isReset = false) ∧ exec i s = .next t ∧ s.during ≠ [] :=
  ⟨.release, { State.reset with claimCount := 1, during := [(1, .read32 0x0C)] }, _, by decide, rfl, by decide⟩

theorem witness_ProbeCompletes :
    let s := { bench .high 0 0 0 0 [] with desc := none }
    s.Quiet (fun _ => True) ∧ s.CanClaim ∧ s.chip.busyLeft = 0 ∧ s.chip.desc.departs = none ∧
    s.cfg.genericRdid = s.chip.desc.op.rdid :=
  ⟨quiet_any (quiet_of (l := .high) rfl rfl rfl rfl), bench_canClaim .high 0 0 0 0 [], rfl, rfl, rfl⟩

theorem witness_ProbeFailureUnbinds :
    (∃ s : State, s.during = [] ∧ s.CanClaim ∧ s.env.ec.Always (fun d => d.ack = true) ∧
      s.env.ctrl.Always (fun d => s.cfg.xferPollLimit ≤ d.busyReads ∨ d.err = true)) ∧
    (∃ s : State, s.during = [] ∧ s.claimCount = s.cfg.claimMax) ∧
    ∃ s : State, s.during = [] ∧ s.claimCount = 0 ∧ s.env.ec.Always (fun d => d.ack = false) :=
  ⟨⟨{ bench .high 0 0 0 0 [] with env := controller ⟨0, true, true, []⟩ }, rfl,
     bench_canClaim .high 0 0 0 0 [], always_steady rfl,
     always_steady (by decide)⟩,
   ⟨{ State.reset with claimCount := 255 }, rfl, rfl⟩,
   ⟨{ State.reset with env := { calm .high with ec := { script := [], steady := some ⟨[], false⟩ } } }, rfl, rfl,
     always_steady rfl⟩⟩

theorem witness_PrologueRejects :
    (∃ (s : State) (i : Instr), i ∉ [Instr.probe, .claim, .release] ∧ (∀ op, i ≠ .transfer op) ∧ s.desc = none) ∧
    (∃ (s : State) (d : Descriptor), s.desc = some d ∧ d.hasProtect = false) ∧
    ∃ (s : State) (d : Descriptor), s.desc = some d ∧ d.hasSec = false :=
  ⟨⟨State.reset, .read, by decide, by simp, rfl⟩,
   ⟨{ State.reset with desc := some { w25q128 with hasProtect := false } }, _, rfl, rfl⟩,
   ⟨{ State.reset with desc := some { w25q128 with hasSec := false } }, _, rfl, rfl⟩⟩

/-- ADDR at the end of the array, one byte past it, LEN over BUF_SIZE, ADDR and LEN not aligned. -/
theorem witness_ArrayRangeIsChecked :
    (bench .high 0 0 0 0 []).desc = some w25q128 ∧
    w25q128.totalSize ≤ (bench .high 0 0 0x1000000 0 []).addr.toNat ∧
    w25q128.totalSize < (bench .high 0 0 0xFFFFFF 2 []).addr.toNat + (bench .high 0 0 0xFFFFFF 2 []).len.toNat ∧
    Config.standard.bufSize < (bench .high 0 0 0 4097 []).len.toNat ∧
    (bench .high 0 0 0x800 0 []).addr.toNat % w25q128.sectorSize ≠ 0 ∧
    (bench .high 0 0 0 0x800 []).len.toNat % w25q128.sectorSize ≠ 0 :=
  ⟨rfl, by decide, by decide, by decide, by decide, by decide⟩

/-- k = 45, mode 6, region 4, and a range one byte past the region. -/
theorem witness_SelectorsAreChecked :
    let s := bench .high 0 0 0xFF 2 []
    s.desc = some w25q128 ∧ w25q128.hasProtect = true ∧ w25q128.hasSec = true ∧ 44 < (45 : BitVec 8).toNat ∧
    5 < (6 : BitVec 8).toNat ∧ 3 < (4 : BitVec 8).toNat ∧ 256 < s.addr.toNat + s.len.toNat :=
  ⟨rfl, rfl, rfl, by decide, by decide, by decide, by decide⟩

/-- The last byte of the array. -/
theorem witness_ReadCompletes :
    let s := bench .high 0 0 0xFFFFFF 1 []
    s.Quiet (fun _ => True) ∧ s.CanClaim ∧ s.desc = some w25q128 ∧ s.Attached w25q128 ∧
    s.addr.toNat < w25q128.totalSize ∧ s.addr.toNat + s.len.toNat ≤ w25q128.totalSize ∧ s.len.toNat ≤ s.cfg.bufSize :=
  ⟨bench_calm _ _ _ _ _ _, bench_canClaim _ _ _ _ _ _, rfl, bench_attached _ _ _ _ _ _, by decide, by decide, by decide⟩

/-- The last byte of the array, with only the lower 256 KiB protected (entry 8). -/
theorem witness_WriteCompletes :
    let s := bench .high 0x24 0 0xFFFFFF 1 [(0, 0x55)]
    s.Quiet (fun _ => True) ∧ s.CanClaim ∧ s.desc = some w25q128 ∧ s.Attached w25q128 ∧
    s.addr.toNat < w25q128.totalSize ∧ s.addr.toNat + s.len.toNat ≤ w25q128.totalSize ∧ s.len.toNat ≤ s.cfg.bufSize ∧
    s.Loaded s.len.toNat ∧
    ∀ k < s.len.toNat, ∀ q, protContains w25q128.totalSize s.chip.tuple q (s.addr.toNat + k) = false :=
  ⟨bench_calm _ _ _ _ _ _, bench_canClaim _ _ _ _ _ _, rfl, bench_attached _ _ _ _ _ _, by decide, by decide, by decide,
    loaded_one _, by decide +kernel⟩

/-- Everything is protected (entry 14), for a WRITE of the last byte and an ERASE of the last
sector. -/
theorem witness_ProtectedWriteIsSilent :
    let s := bench .high 0x1C 0 0xFFFFFF 1 [(0, 0x55)]
    let u := bench .high 0x1C 0 0xFFF000 0x1000 []
    s.Quiet (fun _ => True) ∧ s.CanClaim ∧ s.desc = some w25q128 ∧ s.Attached w25q128 ∧
    s.addr.toNat < w25q128.totalSize ∧ s.addr.toNat + s.len.toNat ≤ w25q128.totalSize ∧ s.len.toNat ≤ s.cfg.bufSize ∧
    s.Loaded s.len.toNat ∧
    (∀ k < s.len.toNat, ∀ q, protContains w25q128.totalSize s.chip.tuple q (s.addr.toNat + k) = true) ∧
    u.addr.toNat + u.len.toNat ≤ w25q128.totalSize ∧ u.addr.toNat % w25q128.sectorSize = 0 ∧
    u.len.toNat % w25q128.sectorSize = 0 ∧ u.len ≠ 0 ∧
    ∀ a ∈ sectorsOf u.addr.toNat u.len.toNat w25q128.sectorSize, ∀ q, ∃ j < w25q128.sectorSize,
      protContains w25q128.totalSize u.chip.tuple q (a + j) = true :=
  ⟨bench_calm _ _ _ _ _ _, bench_canClaim _ _ _ _ _ _, rfl, bench_attached _ _ _ _ _ _, by decide, by decide, by decide,
    loaded_one _, by decide +kernel, by decide, by decide, by decide, by decide,
    fun a ha q => ⟨0, by decide, by
      have h : sectorsOf (0xFFF000 : Word).toNat (0x1000 : Word).toNat w25q128.sectorSize = [0xFFF000] := by decide +kernel
      have ha' : a ∈ sectorsOf (0xFFF000 : Word).toNat (0x1000 : Word).toNat w25q128.sectorSize := ha
      rw [h, List.mem_singleton] at ha'
      subst ha'
      revert q
      decide +kernel⟩⟩

/-- The last sector, nothing protected. -/
theorem witness_EraseCompletes :
    let s := bench .high 0 0 0xFFF000 0x1000 []
    s.Quiet (fun _ => True) ∧ s.CanClaim ∧ s.desc = some w25q128 ∧ s.Attached w25q128 ∧
    s.addr.toNat < w25q128.totalSize ∧ s.addr.toNat + s.len.toNat ≤ w25q128.totalSize ∧
    s.addr.toNat % w25q128.sectorSize = 0 ∧ s.len.toNat % w25q128.sectorSize = 0 ∧ s.len ≠ 0 ∧
    ∀ k < s.len.toNat, ∀ q, protContains w25q128.totalSize s.chip.tuple q (s.addr.toNat + k) = false := by
  refine ⟨bench_calm _ _ _ _ _ _, bench_canClaim _ _ _ _ _ _, rfl, bench_attached _ _ _ _ _ _, by decide, by decide,
    by decide, by decide, by decide, fun k _ q => ?_⟩
  have h : (bench .high 0 0 0xFFF000 0x1000 []).chip.tuple = ⟨false, 0, false, false⟩ := by decide
  rw [h]
  simp [protContains, protBase]

theorem witness_ChunkCount : 0 < 256 ∧ 0 < 600 ∧ (chunks 250 600 256).length = 4 := by decide +kernel

/-- A write of two bytes across a page boundary. -/
theorem witness_WriteNeverCrossesAPage :
    ∃ s t : State, s.during = [] ∧ s.desc = some w25q128 ∧ w25q128.wf s.cfg.gen ∧ exec .write s = .next t ∧
      (framesOf t.trace).length = 6 := by
  obtain ⟨t, ht, hp⟩ := next_of_ends (w := 0x3) (s := bench .high 0 0 0xFF 2 [(0, 1), (1, 1)])
    (p := fun t => (framesOf t.trace).length == 6) (by decide +kernel)
  exact ⟨{ bench .high 0 0 0xFF 2 [(0, 1), (1, 1)] with cmd := 3 }, t, rfl, rfl, show w25q128.wf .yangtzee by decide, ht,
    eq_of_beq hp⟩

/-- Entry 44; LOCK; CLEAR_RANGE; with SRP0 set and WP high. -/
theorem witness_BlockProtectCompletes :
    let s := bench .high 0x80 0 0 0 []
    s.Quiet (fun x => x.wp = .high) ∧ s.CanClaim ∧ s.desc = some w25q128 ∧ s.Attached w25q128 ∧
    w25q128.hasProtect = true ∧ s.chip.srp1 = false ∧ (∀ x : ChipDraw, x.wp = .high → x.wp = .high) ∧
    preset (44 : BitVec 8).toNat = some ⟨true, 4, true, true⟩ ∧ preset (1 : BitVec 8).toNat = some ⟨false, 0, false, false⟩ :=
  ⟨bench_quiet _ _ _ _ _ _, bench_canClaim _ _ _ _ _ _, rfl, bench_attached _ _ _ _ _ _, rfl, rfl, fun _ h => h, rfl, rfl⟩

theorem witness_ProtectionIsReadLive :
    let s := bench .high 0x9C 0x09 0 0 []
    s.Quiet (fun _ => True) ∧ s.CanClaim ∧ s.desc = some w25q128 ∧ s.Attached w25q128 ∧ w25q128.hasProtect = true :=
  ⟨bench_calm _ _ _ _ _ _, bench_canClaim _ _ _ _ _ _, rfl, bench_attached _ _ _ _ _ _, rfl⟩

/-- SRP1 set; SRP0 set with WP low. -/
theorem witness_FrozenRegistersRefuse :
    let s := bench .high 0 0x01 0 0 []
    let u := bench .low 0x80 0 0 0 []
    s.Quiet (fun x => x.wp = .high) ∧ s.CanClaim ∧ s.desc = some w25q128 ∧ s.Attached w25q128 ∧
    w25q128.hasProtect = true ∧ s.chip.srp1 = true ∧
    u.Quiet (fun x => x.wp = .low) ∧ u.CanClaim ∧ u.desc = some w25q128 ∧ u.Attached w25q128 ∧ u.chip.srp0 = true ∧
    statusUpdate (.setRange 2) = some (withTuple ⟨false, 1, false, false⟩) :=
  ⟨bench_quiet _ _ _ _ _ _, bench_canClaim _ _ _ _ _ _, rfl, bench_attached _ _ _ _ _ _, rfl, rfl,
    bench_quiet _ _ _ _ _ _, bench_canClaim _ _ _ _ _ _, rfl, bench_attached _ _ _ _ _ _, rfl, rfl⟩

/-- Mode 5 with CONFIRM, from SRP0 clear. -/
theorem witness_SetLockModeCompletes :
    let s := bench .low 0 0 0 0 []
    s.Quiet (fun x => x.wp = .low) ∧ s.CanClaim ∧ s.desc = some w25q128 ∧ s.Attached w25q128 ∧
    w25q128.hasProtect = true ∧ s.chip.srp1 = false ∧ s.chip.srp0 = false ∧
    ((5 : BitVec 8).toNat, true, true) ∈ [(0, false, false), (1, false, false), (2, true, false), (3, true, false),
        (4, false, true), (5, true, true)] :=
  ⟨bench_quiet _ _ _ _ _ _, bench_canClaim _ _ _ _ _ _, rfl, bench_attached _ _ _ _ _ _, rfl, rfl, rfl, by decide⟩

/-- The five lock states, and both levels of WP. -/
theorem witness_LockModeIsSensed :
    (∀ (l : Level) (a b : Byte), (bench l a b 0 0 []).Quiet (fun x => x.wp = l) ∧ (bench l a b 0 0 []).CanClaim ∧
      (bench l a b 0 0 []).desc = some w25q128 ∧ (bench l a b 0 0 []).Attached w25q128) ∧
    (chipWith 0x80 0x01).srp0 = true ∧ (chipWith 0x80 0x01).srp1 = true ∧ (chipWith 0 0x01).srp0 = false ∧
    (chipWith 0 0x01).srp1 = true ∧ (chipWith 0 0).srp0 = false ∧ (chipWith 0 0).srp1 = false ∧
    (chipWith 0x80 0).srp0 = true ∧ (chipWith 0x80 0).srp1 = false :=
  ⟨fun _ _ _ => ⟨bench_quiet _ _ _ _ _ _, bench_canClaim _ _ _ _ _ _, rfl, bench_attached _ _ _ _ _ _⟩,
    by decide, by decide, by decide, by decide, by decide, by decide, by decide, by decide⟩

theorem witness_SecStatusCompletes :
    let s := bench .high 0 0x28 0 0 []
    s.Quiet (fun _ => True) ∧ s.CanClaim ∧ s.desc = some w25q128 ∧ s.Attached w25q128 ∧ w25q128.hasSec = true :=
  ⟨bench_calm _ _ _ _ _ _, bench_canClaim _ _ _ _ _ _, rfl, bench_attached _ _ _ _ _ _, rfl⟩

/-- Region 3 up to its last byte, for SEC_READ; unlocked, for SEC_ERASE and SEC_PROGRAM. -/
theorem witness_SecReadCompletes :
    let s := bench .high 0 0 0xFF 1 [(0, 0x55)]
    s.Quiet (fun _ => True) ∧ s.CanClaim ∧ s.desc = some w25q128 ∧ s.Attached w25q128 ∧ w25q128.hasSec = true ∧
    (3 : BitVec 8) ≠ 0 ∧ (3 : BitVec 8).toNat ≤ 3 ∧ s.addr.toNat + s.len.toNat ≤ 256 :=
  ⟨bench_calm _ _ _ _ _ _, bench_canClaim _ _ _ _ _ _, rfl, bench_attached _ _ _ _ _ _, rfl, by decide, by decide,
    by decide⟩

theorem witness_SecEraseCompletes : (bench .high 0 0 0xFF 1 [(0, 0x55)]).chip.lockBit (3 : BitVec 8).toNat = false :=
  rfl

theorem witness_SecProgramCompletes :
    (bench .high 0 0 0xFF 1 [(0, 0x55)]).len ≠ 0 ∧ (bench .high 0 0 0x100 0 []).len = 0 ∧
    (bench .high 0 0 0x100 0 []).addr.toNat + (bench .high 0 0 0x100 0 []).len.toNat ≤ 256 ∧
    (bench .high 0 0 0xFF 1 [(0, 0x55)]).Loaded 1 :=
  ⟨by decide, rfl, by decide, loaded_one _⟩

/-- Region 3 with LB3 set. -/
theorem witness_LockedRegionIsRefused :
    let s := bench .high 0 0x20 0xFF 1 []
    s.Quiet (fun _ => True) ∧ s.CanClaim ∧ s.desc = some w25q128 ∧ s.Attached w25q128 ∧ w25q128.hasSec = true ∧
    (3 : BitVec 8) ≠ 0 ∧ (3 : BitVec 8).toNat ≤ 3 ∧ s.addr.toNat + s.len.toNat ≤ 256 ∧
    s.chip.lockBit (3 : BitVec 8).toNat = true ∧ s.len ≠ 0 :=
  ⟨bench_calm _ _ _ _ _ _, bench_canClaim _ _ _ _ _ _, rfl, bench_attached _ _ _ _ _ _, rfl, by decide, by decide,
    by decide, rfl, by decide⟩

/-- Region 1; writable with SRP0 set and WP high, frozen by SRP1 and by WP. -/
theorem witness_SecLockCompletes :
    (∀ (l : Level) (a b : Byte), (bench l a b 0 0 []).Quiet (fun x => x.wp = l) ∧ (bench l a b 0 0 []).CanClaim ∧
      (bench l a b 0 0 []).desc = some w25q128 ∧ (bench l a b 0 0 []).Attached w25q128) ∧ w25q128.hasSec = true ∧
    (1 : BitVec 8) ≠ 0 ∧ (1 : BitVec 8).toNat ≤ 3 ∧
    (bench .high 0x80 0 0 0 []).chip.srp1 = false ∧ (bench .high 0x80 0 0 0 []).chip.srp0 = true ∧
    (bench .high 0 0x01 0 0 []).chip.srp1 = true ∧ (bench .low 0x80 0 0 0 []).chip.srp0 = true :=
  ⟨fun _ _ _ => ⟨bench_quiet _ _ _ _ _ _, bench_canClaim _ _ _ _ _ _, rfl, bench_attached _ _ _ _ _ _⟩, rfl, by decide,
    by decide, rfl, rfl, rfl, rfl⟩

/-- The initial chip at the last address of the array and of region 3. -/
theorem witness_ChipServesReads :
    Chip.initial.desc.departs = none ∧ Chip.initial.busyLeft = 0 ∧ Chip.initial.desc.op.wf ∧ 0xFFFFFF < 2 ^ 24 ∧ (1 ≤ 3 ∧ 3 ≤ 3 ∧ 255 < 256) := by decide

theorem witness_ChipBusyPeriod : ∃ c : Chip, c.desc.departs = none ∧ c.busyLeft = 1 ∧ c.wel = true ∧ c.desc.op.wf :=
  ⟨{ chipWith 0x02 0 with busyLeft := 1 }, rfl, rfl, by decide, by decide⟩

theorem witness_ChipProgramsAPage :
    let c := chipWith 0x26 0
    c.desc.departs = none ∧ c.busyLeft = 0 ∧ c.desc.op.wf ∧ c.wel = true ∧ ([0x55] : List Byte) ≠ [] ∧ 0 < c.desc.pageSize ∧
    0xFFFFFF < c.desc.totalSize ∧ c.desc.totalSize ≤ 2 ^ 24 ∧
    ∀ q, protContains c.desc.totalSize c.tuple q 0xFFFFFF = false := by decide +kernel

theorem witness_ChipErasesASector :
    let c := chipWith 0x02 0
    c.desc.departs = none ∧ c.busyLeft = 0 ∧ c.desc.op.wf ∧ c.wel = true ∧ 0 < c.desc.sectorSize ∧ 0xFFFFFF < c.desc.totalSize ∧
    ∀ q x, protContains c.desc.totalSize c.tuple q x = false := by
  refine ⟨rfl, rfl, by decide, by decide, by decide, by decide, fun q x => ?_⟩
  have h : (chipWith 0x02 0).tuple = ⟨false, 0, false, false⟩ := by decide
  rw [h]
  simp [protContains, protBase]

theorem witness_ChipWritesStatus :
    let c := chipWith 0x82 0x38
    c.desc.departs = none ∧ c.busyLeft = 0 ∧ c.desc.op.wf ∧ c.wel = true ∧ c.srp1 = false ∧ c.srp0 = true ∧
    (⟨.high, 3, false, false, false, []⟩ : ChipDraw).wp = .high := by decide

/-- One chip and draw for each cause: an unknown opcode, no WEL, the protected set, a partly protected sector, frozen
registers, a locked region, a bad tag; the opcodes of frames that are too short. -/
theorem witness_ChipIgnores :
    w25q128.departs = none ∧ (0xAB : Byte) ∉ w25q128.op.bytes ∧ (chipWith 0 0).wel = false ∧
    protContains w25q128.totalSize (chipWith 0x06 0).tuple false 0xFC0000 = true ∧
    0xFC0000 / w25q128.sectorSize = 0xFC0FFF / w25q128.sectorSize ∧
    (chipWith 0x82 0).srWritable .low = false ∧ (chipWith 0x02 0x08).lockBit 1 = true ∧
    (∀ r o : Nat, r ≤ 3 → o < 256 → 0x1100 ≠ secAddr r o) := by
  refine ⟨rfl, by decide, by decide, by decide +kernel, by decide, by decide, by decide, fun r o hr ho => ?_⟩
  have : ∀ r : Fin 4, ∀ o : Fin 256, 0x1100 ≠ secAddr r.val o.val := by decide +kernel
  exact this ⟨r, by omega⟩ ⟨o, ho⟩

/-- A WRITE of one written byte, in the free environment. -/
theorem witness_EveryCommandEnds :
    let s := { State.reset with cmd := 3, len := 1, desc := some w25q128, dbuf := [(0, 0x55)] }
    s.during = [] ∧ s.Loaded (dbufSent s .write) ∧ decode s.cmd = .ok .write :=
  ⟨rfl, loaded_one _, by decide⟩

/-- A WRITE of two chunks whose second page program fails: the DONE_COUNT of R203 is that of the first chunk. -/
theorem test_bytesDone :
    let fs := [⟨0x06, [], 0⟩, ⟨0x02, [0, 0, 0xFF, 1], 0⟩, ⟨0x05, [], 1⟩, ⟨0x06, [], 0⟩, ⟨0x02, [0, 1, 0, 2], 0⟩]
    ends 0x3 { bench .high 0 0 0xFF 2 [(0, 1), (1, 2)] with
        env := { calm .high with
          ctrl := { script := List.replicate 4 ⟨0, false, true, []⟩ ++ [⟨0, true, false, []⟩]
                    steady := some ⟨0, false, true, []⟩ } } } (fun t =>
      outcome t == (3, 1, 0) && framesOf t.trace == fs) = true ∧
    bytesDone (bench .high 0 0 0xFF 2 []) .commandFailed fs .write = 1 := by
  decide +kernel

theorem unshared_of {s : State} (hd : s.during = []) (he : s.env = calm .high) : s.Unshared :=
  ⟨hd, by rw [he]; exact always_steady rfl⟩

/-- A command of the bench that ends in a next state. -/
theorem bench_next (i : Instr) (w : Nat) (s : State) (hd : decode (BitVec.ofNat 32 (w % 2 ^ 32)) = .ok i)
    (hs : s.cfg = Config.standard) (h : ends w s (fun _ => true) = true) :
    ∃ t, exec i { s with phase := .idle, cmd := BitVec.ofNat 32 (w % 2 ^ 32) } = .next t := by
  obtain ⟨t, ht, -⟩ := next_of_ends h
  refine ⟨t, Eq.trans ?_ ht⟩
  have hc : startsCommand { s with phase := .idle } (.write32 s.cfg.seqBase (BitVec.ofNat 32 (w % 2 ^ 32))) =
      some (BitVec.ofNat 32 (w % 2 ^ 32)) := by
    rw [hs]
    simp [startsCommand, cell32, registerAt, Config.standard]
  show _ = takeMove _ { s with phase := .idle }
  unfold takeMove
  rw [hc]
  show _ = startCommand _ _
  unfold startCommand
  rw [hd]

theorem witness_RegisterFrame :
    ∃ s t : State, s.during = [] ∧ exec (.secRead 1) s = .next t ∧ s.len = 4 :=
  let ⟨t, h⟩ := bench_next (.secRead 1) 0x10F (bench .high 0 0 0 4 []) (by decide) rfl (by decide +kernel)
  ⟨_, t, rfl, h, rfl⟩

theorem witness_ReadingKeepsTheChip :
    ∃ s t : State, s.Unshared ∧ s.chip.desc.op.wf ∧ s.chip.desc.departs = none ∧ (∀ d, s.desc = some d → s.chip.desc = d) ∧ exec .read s = .next t :=
  let ⟨t, h⟩ := bench_next .read 0x2 (bench .high 0 0 0 4 []) (by decide) rfl (by decide +kernel)
  ⟨_, t, unshared_of rfl rfl, by decide, rfl, fun d hd => by cases hd; rfl, h⟩

theorem witness_StatusUpdatesKeepTheStores :
    ∃ s t : State, s.Unshared ∧ s.desc = some w25q128 ∧ s.chip.desc = w25q128 ∧ w25q128.op.wf ∧
      w25q128.departs = none ∧ statusUpdate .lock ≠ none ∧ exec .lock s = .next t ∧ s.chip.lockBit 1 = true :=
  let ⟨t, h⟩ := bench_next .lock 0x5 (bench .high 0 0x08 0 0 []) (by decide) rfl (by decide +kernel)
  ⟨_, t, unshared_of rfl rfl, rfl, rfl, by decide, rfl, by decide, h, by decide⟩

theorem witness_ArrayWritesKeepTheRest :
    (∃ s t : State, s.Unshared ∧ s.desc = some w25q128 ∧ s.chip.desc = w25q128 ∧ w25q128.wf s.cfg.gen ∧
      w25q128.departs = none ∧ exec .write s = .next t ∧ s.len = 1) ∧
    ∃ s t : State, s.Unshared ∧ s.desc = some w25q128 ∧ s.chip.desc = w25q128 ∧ w25q128.wf s.cfg.gen ∧
      w25q128.departs = none ∧ exec .erase s = .next t ∧ s.len = 0x1000 :=
  let ⟨t, h⟩ := bench_next .write 0x3 (bench .high 0 0 0 1 [(0, 1)]) (by decide) rfl (by decide +kernel)
  let ⟨u, k⟩ := bench_next .erase 0x4 (bench .high 0 0 0 0x1000 []) (by decide) rfl (by decide +kernel)
  ⟨⟨_, t, unshared_of rfl rfl, rfl, rfl, by decide, rfl, h, rfl⟩,
    ⟨_, u, unshared_of rfl rfl, rfl, rfl, by decide, rfl, k, rfl⟩⟩

theorem witness_SecurityWritesKeepTheRest :
    ∃ s t : State, s.Unshared ∧ s.desc = some w25q128 ∧ s.chip.desc = w25q128 ∧ w25q128.op.wf ∧
      w25q128.departs = none ∧ exec (.secProgram 2) s = .next t ∧ s.len = 1 :=
  let ⟨t, h⟩ := bench_next (.secProgram 2) 0x210 (bench .high 0 0 0 1 [(0, 1)]) (by decide) rfl (by decide +kernel)
  ⟨_, t, unshared_of rfl rfl, rfl, rfl, by decide, rfl, h, rfl⟩

theorem witness_OnlyScriptFramesAreSent :
    (∃ s t : State, s.during = [] ∧ exec .probe s = .next t) ∧
    ∃ (s t : State) (r : Running), s.phase = .running r ∧ step s = .next t ∧ decode r.cmd = .ok .unlock ∧
      statusUpdate .unlock ≠ none ∧ s.desc = some w25q128 ∧
      framesOf t.trace = framesOf s.trace ++ [⟨w25q128.op.wrsr, [0x80, 0x01], 0⟩] := by
  obtain ⟨t, h⟩ := bench_next .probe 0x1 (bench .high 0 0 0 0 []) (by decide) rfl (by decide +kernel)
  refine ⟨⟨_, t, rfl, h⟩, ?_⟩
  let s : State := { bench .high 0 0 0 0 [] with cmd := 0x6, claimCount := 1, ecOwns := false }
  let r : Running := { s.latched with heard := [.number 1, .bytes [0x9C], .bytes [0x41], .bytes []], held := 1, step := 3 }
  have hs : (match step { s with phase := .running r } with
      | .next t => framesOf t.trace == [⟨w25q128.op.wrsr, [0x80, 0x01], 0⟩]
      | .fault _ => false
      | .refused _ => false) = true := by decide +kernel
  split at hs
  · exact ⟨_, _, r, rfl, ‹_›, by decide, by decide, rfl, eq_of_beq hs⟩
  · cases hs
  · cases hs

/-- The bytes UNLOCK writes after it read 0x9C and 0x41, by the mask of R227, and what the probe writes (R250). -/
theorem test_writesWhatItRead :
    WritesWhatItRead .unlock [.number 1, .bytes [0x9C], .bytes [0x41], .bytes []] 0x80 0x01 ∧
    WritesWhatItRead .getHwProtect [.number 1, .bytes [0x9C], .bytes [0x41], .bytes []] 0x1C 0x41 :=
  ⟨⟨[.number 1], _, _, [.bytes []], rfl, .inl ⟨_, rfl, by decide⟩⟩,
    ⟨[.number 1], _, _, [.bytes []], rfl, .inr ⟨.inr rfl, by decide, rfl, .inl (by decide)⟩⟩⟩

/-- A status write by a raw TRANSFER after a WREN, in the mode OTP with LB3 set. -/
theorem witness_OtpIsTerminal :
    ∃ s t : State, s.chip.desc.departs = none ∧ s.chip.srp0 = true ∧ s.chip.srp1 = true ∧ s.chip.lockBit 3 = true ∧ step s = .next t := by
  obtain ⟨t, ht, -⟩ := next_of_ends (w := 0x113) (s := bench .high 0x82 0x21 2 0 [(0, 0), (1, 0)])
    (p := fun _ => true) (by decide +kernel)
  exact ⟨_, t, rfl, by decide, by decide, by decide, ht⟩

theorem bench_inv (l : Level) (addr len : Word) : (bench l 0x80 0x21 addr len []).Inv where
  cfg    := test_wf_standard
  owns   := rfl
  count  := Nat.zero_le _
  desc   := fun d h => by cases h; exact List.mem_append_left _ (List.mem_singleton.2 rfl)
  result := Nat.zero_le _
  dbuf   := ⟨List.Pairwise.nil, by simp [bench]⟩
  inDbuf := by simp [bench]
  fifo   := rfl
  heard  := fun r h => by cases h
  chip   := {
    desc     := by show w25q128.wf .yangtzee; decide
    array    := ⟨List.Pairwise.nil, by simp [bench, chipWith, Chip.initial]⟩
    inArray  := by simp [bench, chipWith, Chip.initial]
    secreg   := ⟨List.Pairwise.nil, by simp [bench, chipWith, Chip.initial]⟩
    inSecreg := by simp [bench, chipWith, Chip.initial]
    busyBit  := by simp [bench, chipWith]
    reserved := by simp [bench, chipWith]
    suspend  := by simp [bench, chipWith]
    welBusy  := by simp [bench, chipWith, Chip.initial]
    inFlight := fun _ => rfl
    inside   := trivial
    unlocked := by simp [bench, chipWith, Chip.initial] }

/-- A board power cycle from a state with the invariant and a locked region. -/
theorem witness_LockedRegionNeverChanges :
    ∃ s t : State, s.Inv ∧ s.chip.desc.departs = none ∧ s.chip.lockBit 3 = true ∧ step s = .next t := by
  refine ⟨{ bench .high 0x80 0x21 0 0 [] with inbox := [.powerCycle] }, _, ?_, rfl, by decide, rfl⟩
  exact { bench_inv .high 0 0 with }

/-- The same witness has the invariant; so has a CLAIM in flight that took the bus. -/
theorem witness_EveryStepKeepsTheInvariant :
    (∃ s t : State, s.Inv ∧ step s = .next t) ∧
    ∃ (s t : State) (r : Running), s.Inv ∧ s.phase = .running r ∧ r.heard ≠ [] ∧ step s = .next t := by
  refine ⟨let ⟨s, t, h, _, _, e⟩ := witness_LockedRegionNeverChanges; ⟨s, t, h, e⟩, ?_⟩
  let s : State := { bench .high 0x80 0x21 0 4 [] with cmd := 0x14, claimCount := 1, ecOwns := false }
  let r : Running := { s.latched with heard := [.number 1] }
  obtain ⟨t, ht⟩ := next_of_moves (s := { s with phase := .running r }) (by decide +kernel)
  refine ⟨{ s with phase := .running r }, t, r, ?_, rfl, by simp [r], ht⟩
  exact { bench_inv .high 0 4 with
    owns := rfl
    count := by show 1 ≤ 255; decide
    heard := fun r' h => by
      cases h
      show (wordScript 0x14 _).heardOf [.number 1]
      rw [wordScript, show decode 0x14 = .ok .claim by decide]
      exact ⟨trivial, trivial⟩ }

/-- The canonical form holds of the three stores at reset. -/
theorem reset_memories : State.reset.dbuf.wf .dbuf ∧ State.reset.chip.array.wf .array ∧
    State.reset.chip.secreg.wf .secreg := by decide

end Sys2Proof.Tests
end

section
/-! SUPPORT. Reset meets the invariant, how SEQ waits and starts a command, and the fields of STATUS (R22, R24, R52). -/

namespace Sys2Proof.Machine

/-! ### Reset -/

theorem inv_chip_initial : Chip.initial.Inv .yangtzee where
  desc     := by decide
  array    := by decide
  inArray  := by decide
  secreg   := by decide
  inSecreg := nofun
  busyBit  := rfl
  reserved := rfl
  suspend  := rfl
  welBusy  := by decide
  inFlight := fun _ => rfl
  inside   := trivial
  unlocked := nofun

/-- Settles O59: at reset the queues and stores are empty, and the one table entry is well formed. -/
theorem resetMeetsTheInvariant : Obligations.ResetMeetsTheInvariant where
  cfg    := by decide
  owns   := rfl
  count  := by decide
  desc   := nofun
  result := by decide
  dbuf   := by decide
  inDbuf := nofun
  fifo   := rfl
  heard  := nofun
  chip   := inv_chip_initial

/-! ### Waiting and starting -/

/-- CMD is at the base of the register file (R20). -/
theorem cell32_base (c : Config) : cell32 c c.seqBase = some .cmd := by simp [cell32, registerAt]

/-- Settles O5: in `Idle` a step takes the head of `inbox`, and a write at `SEQ_BASE` is one of CMD. -/
theorem stepRunsDecodedCommand : Obligations.StepRunsDecodedCommand := by
  intro s hp
  rw [step_idle hp]
  refine ⟨fun hi => by rw [idleStep, hi], fun w i rest hi hw => ?_⟩
  have hstart : startsCommand { s with inbox := rest } (.write32 s.cfg.seqBase w) = some w :=
    if_pos ⟨cell32_base s.cfg, hp⟩
  rw [idleStep, hi]
  show takeMove _ _ = _
  rw [takeMove, hstart]
  show startCommand w _ = _
  rw [startCommand, hw]

/-! ### STATUS -/

/-- The bits of STATUS (R22): five flags, the claim count from bit 8 on, the rest 0. -/
theorem getLsbD_status (s : State) {i : Nat} (hi : i < 32) :
    s.status.getLsbD i =
      if i = 0 then decide (s.phase ≠ .idle)
      else if i = 1 then s.desc.isSome
      else if i = 2 then decide (s.cfg.gen = .yangtzee)
      else if i = 3 then decide (s.cfg.readVariant = .fast)
      else if i = 4 then s.ecOwns
      else decide (8 ≤ i ∧ i < 16) && (BitVec.ofNat 8 s.claimCount).getLsbD (i - 8) := by
  simp only [State.status, BitVec.getLsbD_append, BitVec.getLsbD_ofBool, bne, beq_eq_decide]
  interval_cases i <;> simp

/-- The claim count's field of STATUS (R22). -/
theorem status_claimCount (s : State) : s.status.extractLsb' 8 8 = BitVec.ofNat 8 s.claimCount := by
  apply BitVec.eq_of_getLsbD_eq
  intro i hi
  rw [BitVec.getLsbD_extractLsb', getLsbD_status s (by omega)]
  interval_cases i <;> simp

/-- The fields of STATUS that read 0 (R22). -/
theorem status_reserved (s : State) : s.status.extractLsb' 5 3 = 0 ∧ s.status.extractLsb' 16 16 = 0 := by
  constructor <;> apply BitVec.eq_of_getLsbD_eq <;> intro i hi <;>
    rw [BitVec.getLsbD_extractLsb', getLsbD_status s (by omega)] <;> interval_cases i <;> simp

/-- Settles O6: the fields are bits of STATUS, and a reset makes PHASE `Idle`, DESC `none` and the claim count 0. -/
theorem statusFields : Obligations.StatusFields := by
  refine ⟨fun s hc => ?_, fun s => ?_⟩
  · have hcount : (BitVec.ofNat 8 s.claimCount).toNat = s.claimCount := by rw [BitVec.toNat_ofNat]; omega
    obtain ⟨hlow, hhigh⟩ := status_reserved s
    rw [status_claimCount, hcount, hlow, hhigh]
    exact ⟨getLsbD_status s (by decide), getLsbD_status s (by decide), getLsbD_status s (by decide),
      getLsbD_status s (by decide), getLsbD_status s (by decide), rfl, rfl, rfl⟩
  · rw [status_claimCount]
    exact ⟨getLsbD_status _ (by decide), getLsbD_status _ (by decide), getLsbD_status _ (by decide), rfl⟩

end Sys2Proof.Machine
end

section
/-! SUPPORT. What a frame and a power cycle can do to the chip (R300 to R331), said once, and what they keep: the chip's
invariant and the security lock bits. -/

namespace Sys2Proof.Machine

/-! ### What a served frame leaves -/

namespace Chip

/-- What an idle chip may be after a frame it serves (R301 to R318): as it was; with another WEL; in a busy period
of `k` status reads after a page program, a sector erase, an erase or a program of a region that is not locked, or a write of
writable status registers. -/
inductive Served (c : Chip) (k : Nat) : Chip → Prop
  | same : Served c k c
  | wel (v : Bool) : Served c k (c.setWel v)
  | page (a : Nat) (data : List Byte) : a % c.desc.totalSize = a →
      Served c k (({ c with array := c.programPage a data } : Chip).startBusy k
        (.array (a - a % c.desc.pageSize) c.desc.pageSize (a % c.desc.pageSize) (min data.length c.desc.pageSize)))
  | sector (a : Nat) : a % c.desc.totalSize = a →
      Served c k (({ c with array := c.array.clearRange (a - a % c.desc.sectorSize) c.desc.sectorSize } : Chip).startBusy k
        (.array (a - a % c.desc.sectorSize) c.desc.sectorSize 0 c.desc.sectorSize))
  | regionErase (r : Nat) : 1 ≤ r → r ≤ 3 → c.lockBit r = false →
      Served c k (({ c with secreg := c.secreg.clearRange (secAddr r 0) secRegionSize } : Chip).startBusy k
        (.secreg (secAddr r 0) secRegionSize 0 secRegionSize))
  | regionProgram (r o : Nat) (data : List Byte) : 1 ≤ r → r ≤ 3 → o < secRegionSize → c.lockBit r = false →
      Served c k (({ c with secreg := c.programRegion r o data } : Chip).startBusy k
        (.secreg (secAddr r 0) secRegionSize o (min data.length secRegionSize)))
  | status (l : Level) (a b : Byte) : c.srWritable l = true →
      Served c k ((c.writeStatus a b).startBusy k .none)

theorem served_pageProgram (c : Chip) (d : ChipDraw) (x : Nat) (data : List Byte) :
    c.Served d.busy (c.pageProgram d (x % c.desc.totalSize) data) := by
  rw [pageProgram]
  split
  · exact .wel _
  · split
    · exact .wel _
    · split
      · exact .wel _
      · exact .page _ data (Nat.mod_mod _ _)

theorem served_sectorErase (c : Chip) (d : ChipDraw) (x : Nat) :
    c.Served d.busy (c.sectorErase d (x % c.desc.totalSize)) := by
  simp only [sectorErase]
  split
  · exact .wel _
  · split
    · exact .wel _
    · exact .sector _ (Nat.mod_mod _ _)

theorem served_regionErase (c : Chip) (d : ChipDraw) (A : Nat) : c.Served d.busy (c.regionErase d A) := by
  rw [regionErase]
  split
  · exact .wel _
  · split
    · exact .wel _
    · rename_i r hr
      obtain ⟨h1, h3, -, -⟩ := regionOf_some hr
      split
      · exact .wel _
      · exact .regionErase r h1 h3 (by simpa using ‹¬ c.lockBit r = true›)

theorem served_regionProgram (c : Chip) (d : ChipDraw) (A : Nat) (data : List Byte) :
    c.Served d.busy (c.regionProgram d A data) := by
  rw [regionProgram]
  split
  · exact .wel _
  · split
    · exact .wel _
    · rename_i r hr
      obtain ⟨h1, h3, ho, -⟩ := regionOf_some hr
      split
      · exact .wel _
      · exact .regionProgram r _ data h1 h3 ho (by simpa using ‹¬ c.lockBit r = true›)

theorem served_statusWrite (c : Chip) (d : ChipDraw) (a b : Byte) : c.Served d.busy (c.statusWrite d a b) := by
  rw [statusWrite]
  split
  · exact .wel _
  · split
    · exact .wel _
    · exact .status d.wp a b (by simpa using ‹¬ c.srWritable d.wp = false›)

/-- What a frame does to a chip that is not busy. -/
theorem served_serve (c : Chip) (d : ChipDraw) (f : Frame) : c.Served d.busy (c.serve d f).2 := by
  rw [serve]
  split
  case h_7 => exact served_statusWrite c d _ _
  case h_8 => exact served_pageProgram c d _ _
  case h_9 => exact served_sectorErase c d _
  case h_10 => exact served_regionErase c d _
  case h_11 => exact served_regionProgram c d _ _
  case h_12 => split <;> exact .same
  case h_6 => exact .wel true
  case h_13 => exact .wel _
  all_goals exact .same

/-! ### The invariant of the chip -/

/-- The aligned block that holds an address lies in the array when its size divides the array's. -/
theorem block_inside {p total a : Nat} (hd : p ∣ total) (ha : a < total) : a - a % p + p ≤ total := by
  obtain ⟨q, rfl⟩ := hd
  have hp : 0 < p := Nat.pos_of_ne_zero fun h => by simp [h] at ha
  have hq : a / p < q := Nat.div_lt_of_lt_mul ha
  have hle : p * (a / p + 1) ≤ p * q := Nat.mul_le_mul_left p hq
  have hdm := Nat.div_add_mod a p
  rw [Nat.mul_add] at hle
  omega

theorem pageSize_dvd (d : Descriptor) : d.pageSize ∣ d.totalSize :=
  ⟨d.pagesPerSector * d.sectorsPerBlock * d.nrBlocks, by simp only [Descriptor.totalSize, Nat.mul_assoc]⟩

theorem sectorSize_dvd (d : Descriptor) : d.sectorSize ∣ d.totalSize :=
  ⟨d.sectorsPerBlock * d.nrBlocks, by simp only [Descriptor.totalSize, Descriptor.sectorSize, Nat.mul_assoc]⟩

variable {g : Gen} {c : Chip}

theorem Inv.total_pos (h : c.Inv g) : 0 < c.desc.totalSize := h.desc.2.1

theorem Inv.atPin (h : c.Inv g) (l : Level) : (c.atPin l).Inv g := { h with }

theorem Inv.setWel (h : c.Inv g) {v : Bool} (hv : 0 < c.busyLeft → v = true) : (c.setWel v).Inv g :=
  { h with
    busyBit := by rw [sr1_setWel]; exact h.busyBit
    welBusy := fun hb => by rw [wel_setWel]; exact hv hb }

/-- A busy period with a target inside the chip that is no locked region. -/
theorem Inv.startBusy (h : c.Inv g) (k : Nat) {target : InFlight} (hin : target.inside c.desc.totalSize)
    (hun : ∀ r base size off count, target = .secreg base size off count → base = secAddr r 0 → 1 ≤ r → r ≤ 3 →
      c.lockBit r = false) : (c.startBusy k target).Inv g :=
  { h with
    busyBit := by rw [Chip.startBusy, sr1_setWel]; exact h.busyBit
    welBusy := fun hb => by rw [Chip.startBusy, wel_setWel]; exact decide_eq_true hb
    inFlight := fun hk => if_pos hk
    inside := by
      show InFlight.inside _ (if k = 0 then _ else _)
      split
      · trivial
      · exact hin
    unlocked := fun r base size off count e => by
      have e' : (if k = 0 then InFlight.none else target) = .secreg base size off count := e
      split at e'
      · cases e'
      · exact hun r base size off count e' }

theorem Inv.tick (h : c.Inv g) (hb : 0 < c.busyLeft) : c.tick.Inv g := by
  rw [Chip.tick]
  split
  · have h0 : ({ c with busyLeft := 0, inFlight := .none } : Chip).Inv g :=
      { h with welBusy := nofun, inFlight := fun _ => rfl, inside := trivial, unlocked := nofun }
    exact h0.setWel nofun
  · exact { h with
      welBusy := fun _ => h.welBusy hb
      inFlight := fun (hk : c.busyLeft - 1 = 0) => absurd hk (by omega) }

theorem Inv.writeStatus (h : c.Inv g) (hf : c.inFlight = .none) (a b : Byte) : (c.writeStatus a b).Inv g :=
  { h with
    busyBit := by rw [writeStatus_sr1_bit]; exact h.busyBit
    reserved := by rw [writeStatus_sr2_bit]; exact h.reserved
    suspend := by rw [writeStatus_sr2_bit]; exact h.suspend
    welBusy := fun hb => by rw [wel, writeStatus_sr1_bit]; exact h.welBusy hb
    unlocked := fun r base size off count e => by rw [show (c.writeStatus a b).inFlight = .none from hf] at e; cases e }

/-- An array that keeps its form inside the bytes from `lo` on that lie in the chip. -/
theorem Inv.withArray (h : c.Inv g) {m : Memory} (hm : m.wf .array) {lo n : Nat} (hn : lo + n ≤ c.desc.totalSize)
    (hin : ∀ e ∈ m, e ∈ c.array ∨ (lo ≤ e.1 ∧ e.1 < lo + n)) : ({ c with array := m } : Chip).Inv g :=
  { h with
    array := hm
    inArray := fun e he => by
      rcases hin e he with he | he
      · exact h.inArray e he
      · show e.1 < c.desc.totalSize; omega }

/-- Security registers that keep their form outside one region. -/
theorem Inv.withSecreg (h : c.Inv g) {m : Memory} (hm : m.wf .secreg) {r : Nat} (h1 : 1 ≤ r) (h3 : r ≤ 3)
    (hin : ∀ e ∈ m, e ∈ c.secreg ∨ (secAddr r 0 ≤ e.1 ∧ e.1 < secAddr r 0 + secRegionSize)) :
    ({ c with secreg := m } : Chip).Inv g :=
  { h with
    secreg := hm
    inSecreg := fun e he => by
      rcases hin e he with he | ⟨hlo, hhi⟩
      · exact h.inSecreg e he
      · have ho : e.1 - secAddr r 0 < 256 := by rw [secRegionSize] at hhi; omega
        exact ⟨r, e.1 - secAddr r 0, h1, h3, ho, by rw [secAddr_split ho]; omega⟩ }

theorem mem_clearRange {m : Memory} {lo n : Nat} {e : Host.Cell} (he : e ∈ m.clearRange lo n) : e ∈ m :=
  List.mem_of_mem_filter he

theorem mem_program {sp : Space} {m : Memory} {lo : Nat} {buf : List Byte} {e : Host.Cell}
    (he : e ∈ m.program sp lo buf) : e ∈ m ∨ (lo ≤ e.1 ∧ e.1 < lo + buf.length) := by
  have := Memory.mem_writeList he
  rwa [List.length_mapIdx] at this

/-- A frame that an idle chip serves keeps the invariant. -/
theorem Inv.served (h : c.Inv g) (hb : c.busyLeft = 0) {c' : Chip} {k : Nat} (hs : c.Served k c') : c'.Inv g := by
  have hlt : ∀ {a}, a % c.desc.totalSize = a → a < c.desc.totalSize := fun e => e ▸ Nat.mod_lt _ h.total_pos
  cases hs with
  | same => exact h
  | wel v => exact h.setWel fun hp => by omega
  | page a data ha =>
    have hin := block_inside (pageSize_dvd c.desc) (hlt ha)
    refine (h.withArray (Memory.wf_program _ _ h.array) hin fun e he => ?_).startBusy k
      ⟨hin, Nat.mod_lt _ (Nat.two_pow_pos _)⟩ nofun
    simpa using mem_program he
  | sector a ha =>
    have hin := block_inside (sectorSize_dvd c.desc) (hlt ha)
    exact (h.withArray (Memory.wf_clearRange _ _ h.array) hin fun e he => .inl (mem_clearRange he)).startBusy k
      ⟨hin, Nat.pos_of_dvd_of_pos (sectorSize_dvd c.desc) h.total_pos⟩ nofun
  | regionErase r h1 h3 hl =>
    refine (h.withSecreg (Memory.wf_clearRange _ _ h.secreg) h1 h3 fun e he => .inl (mem_clearRange he)).startBusy k
      ⟨by have : r = 1 ∨ r = 2 ∨ r = 3 := by omega
          rcases this with rfl | rfl | rfl <;> simp, rfl, by decide⟩ fun q base size off count e hq _ _ => ?_
    cases e
    exact (secAddr_inj (by decide) (by decide) hq).1 ▸ hl
  | regionProgram r o data h1 h3 ho hl =>
    refine (h.withSecreg (Memory.wf_program _ _ h.secreg) h1 h3 fun e he => ?_).startBusy k
      ⟨by have : r = 1 ∨ r = 2 ∨ r = 3 := by omega
          rcases this with rfl | rfl | rfl <;> simp, rfl, ho⟩ fun q base size off count e hq _ _ => ?_
    · simpa using mem_program he
    · cases e
      exact (secAddr_inj (by decide) (by decide) hq).1 ▸ hl
  | status l a b _ => exact (h.writeStatus (h.inFlight hb) a b).startBusy k trivial nofun

/-- Every frame keeps the invariant of the chip, of every part (R300 to R332). -/
theorem Inv.answer (h : c.Inv g) (d : ChipDraw) (f : Frame) : (c.answer d f).2.Inv g := by
  show (respond (c.atPin d.wp) d f).2.Inv g
  rw [respond]
  split
  · exact departed_inv (h.atPin d.wp) _
  · split
    · rw [serveBusy_snd]
      exact (h.atPin d.wp).tick ‹_›
    · exact (h.atPin d.wp).served (by simpa using ‹¬ 0 < (c.atPin d.wp).busyLeft›) (served_serve _ d f)

theorem mem_scramble {sp : Space} {noise : List Byte} {m : Memory} {base size off count : Nat} {e : Host.Cell}
    (he : e ∈ scramble sp noise m base size off count) : e ∈ m ∨ (base ≤ e.1 ∧ e.1 < base + size) := by
  have := Memory.mem_writeList he
  simpa using this

theorem wf_arrayAfterPowerCycle (h : c.Inv g) (noise : List Byte) : (c.arrayAfterPowerCycle noise).wf .array := by
  rw [arrayAfterPowerCycle]
  split
  · exact Memory.wf_writeList _ _ h.array
  · exact h.array
  · exact h.array

theorem wf_secregAfterPowerCycle (h : c.Inv g) (noise : List Byte) : (c.secregAfterPowerCycle noise).wf .secreg := by
  rw [secregAfterPowerCycle]
  split
  · exact Memory.wf_writeList _ _ h.secreg
  · exact h.secreg
  · exact h.secreg

theorem mem_arrayAfterPowerCycle (h : c.Inv g) {noise : List Byte} {e : Host.Cell}
    (he : e ∈ c.arrayAfterPowerCycle noise) : e.1 < c.desc.totalSize := by
  have hin := h.inside
  rw [arrayAfterPowerCycle] at he
  split at he
  · rename_i base size off count hf
    rw [hf] at hin
    obtain ⟨hin, -⟩ := hin
    rcases mem_scramble he with he | he
    · exact h.inArray e he
    · omega
  · exact h.inArray e he
  · exact h.inArray e he

theorem mem_secregAfterPowerCycle (h : c.Inv g) {noise : List Byte} {e : Host.Cell}
    (he : e ∈ c.secregAfterPowerCycle noise) : ∃ r o, 1 ≤ r ∧ r ≤ 3 ∧ o < secRegionSize ∧ e.1 = secAddr r o := by
  have hin := h.inside
  rw [secregAfterPowerCycle] at he
  split at he
  · rename_i base size off count hf
    rw [hf] at hin
    obtain ⟨hbase, rfl, -⟩ := hin
    rcases mem_scramble he with he | ⟨hlo, hhi⟩
    · exact h.inSecreg e he
    · have ho : e.1 - base < 256 := by rw [secRegionSize] at hhi; omega
      obtain ⟨r, h1, h3, rfl⟩ : ∃ r, 1 ≤ r ∧ r ≤ 3 ∧ base = secAddr r 0 := by
        rcases hbase with rfl | rfl | rfl
        · exact ⟨1, by decide, by decide, rfl⟩
        · exact ⟨2, by decide, by decide, rfl⟩
        · exact ⟨3, by decide, by decide, rfl⟩
      exact ⟨r, _, h1, h3, ho, by rw [secAddr_split ho]; omega⟩
  · exact h.inSecreg e he
  · exact h.inSecreg e he

/-- A power cycle keeps the invariant of the chip, of every part (R321, R332). -/
theorem Inv.powerCycle (h : c.Inv g) (noise : List Byte) : (c.powerCycle noise).Inv g := by
  rw [Chip.powerCycle]
  split
  · exact departed_inv h _
  · exact {
      desc     := h.desc
      array    := wf_arrayAfterPowerCycle h noise
      inArray  := fun e he => mem_arrayAfterPowerCycle h he
      secreg   := wf_secregAfterPowerCycle h noise
      inSecreg := fun e he => mem_secregAfterPowerCycle h he
      busyBit  := by simp [restarted]
      reserved := by
        have := h.reserved
        simp only [restarted]
        split <;> simp_all
      suspend  := by simp [restarted]
      welBusy  := nofun
      inFlight := fun _ => rfl
      inside   := trivial
      unlocked := nofun }

/-! ### The security lock bits -/

/-- The part is the same and no security lock bit was cleared. -/
def KeepsLocks (c c' : Chip) : Prop :=
  c'.desc = c.desc ∧ ∀ r, 1 ≤ r → r ≤ 3 → c.lockBit r = true → c'.lockBit r = true

theorem keepsLocks_of_sr2 {c c' : Chip} (hd : c'.desc = c.desc) (h2 : c'.sr2 = c.sr2) : c.KeepsLocks c' :=
  ⟨hd, fun r _ _ hr => by rw [lockBit, h2]; exact hr⟩

/-- A status write only sets lock bits (R318). -/
theorem keepsLocks_writeStatus (c : Chip) (a b : Byte) : c.KeepsLocks (c.writeStatus a b) := by
  refine ⟨rfl, fun r h1 h3 hr => ?_⟩
  rw [lockBit] at hr ⊢
  rw [writeStatus_sr2_bit, if_neg (by omega), if_pos (by omega), hr, Bool.true_or]

theorem Served.keepsLocks {c c' : Chip} {k : Nat} (h : c.Served k c') : c.KeepsLocks c' := by
  cases h with
  | status l a b _ => exact keepsLocks_writeStatus c a b
  | _ => exact keepsLocks_of_sr2 rfl rfl

theorem keepsLocks_tick (c : Chip) : c.KeepsLocks c.tick := by
  rw [Chip.tick]
  split <;> exact keepsLocks_of_sr2 rfl rfl

/-- No frame clears a lock bit of a part that departs from no rule. -/
theorem keepsLocks_answer (hp : c.desc.departs = none) (d : ChipDraw) (f : Frame) :
    c.KeepsLocks (c.answer d f).2 := by
  by_cases hb : 0 < c.busyLeft
  · rw [answer_busy hp hb, serveBusy_snd]
    exact keepsLocks_tick (c.atPin d.wp)
  · rw [answer_idle hp (by omega)]
    exact (served_serve (c.atPin d.wp) d f).keepsLocks

/-- A power cycle clears no lock bit of a part that departs from no rule (R321). -/
theorem keepsLocks_powerCycle (hp : c.desc.departs = none) (noise : List Byte) :
    c.KeepsLocks (c.powerCycle noise) := by
  rw [powerCycle_plain hp]
  refine ⟨rfl, fun r h1 h3 hr => ?_⟩
  rw [lockBit] at hr ⊢
  have : r = 1 ∨ r = 2 ∨ r = 3 := by omega
  simp only [restarted]
  rcases this with rfl | rfl | rfl <;> split <;> simpa using hr

end Chip

end Sys2Proof.Machine
end

section
/-! SUPPORT. What one step of the machine can do, said once: what a move of the outside world changes, what a command in
flight does next, and the rule by which a property of the state is checked against every step (`Lasting`). -/

namespace Sys2Proof.Machine

variable {s t : State}

/-! ### A move of the outside world -/

/-- What a move that starts no command leaves: HOST read something, wrote a register or bytes inside DBUF, the machine was
reset, or the EC put a frame on the bus it owns. -/
inductive Moved (s : State) : State → Prop
  | same : Moved s s
  | read (w : Word) : Moved s { s with hostData := w }
  | cmd (w : Word) : s.phase = .idle → Moved s { s with cmd := w }
  | addr (w : Word) : s.phase = .idle → Moved s { s with addr := w }
  | len (w : Word) : s.phase = .idle → Moved s { s with len := w }
  | dbuf (i : Nat) (bs : List Byte) : s.phase = .idle → i + bs.length ≤ s.cfg.bufSize →
      Moved s { s with dbuf := s.dbuf.writeList .dbuf i bs }
  | seqReset : Moved s (seqReset s)
  | powerCycle : Moved s (powerCycle s)
  | ecFrame (f : Frame) : s.ecOwns = true → Moved s (ecFrame f s)

theorem notBusy_ok {a : Nat} {u : State} (h : notBusy s a u = .ok t) : s.phase = .idle ∧ t = u := by
  rw [notBusy] at h
  split at h
  · cases h; exact ⟨‹_›, rfl⟩
  · cases h

/-- A 32-bit access of DBUF names four bytes of it (R20, R76). -/
theorem cell32_dbuf {c : Config} {a i : Nat} (h : cell32 c a = some (.dbuf i)) : i + 4 ≤ c.bufSize := by
  have hreg : ∀ off, registerAt off ≠ .dbuf i := by
    intro off e
    unfold registerAt at e
    split at e <;> cases e
  simp only [cell32] at h
  split at h
  · cases h
  · split at h
    · cases h
    · split at h
      · exact absurd (Option.some.inj h) (hreg _)
      · split at h
        · simp only [Option.some.injEq, HostCell.dbuf.injEq] at h
          omega
        · cases h

theorem cell8_lt {c : Config} {a i : Nat} (h : cell8 c a = some i) : i < c.bufSize := by
  rw [cell8] at h
  split at h
  · simp only [Option.some.injEq] at h
    omega
  · cases h

theorem moved_hostWrite32 {a : Nat} {w : Word} (h : hostWrite32 s a w = .ok t) : Moved s t := by
  rw [hostWrite32] at h
  split at h
  case h_1 => cases h
  case h_2 => obtain ⟨hp, rfl⟩ := notBusy_ok h; exact .cmd w hp
  case h_3 => obtain ⟨hp, rfl⟩ := notBusy_ok h; exact .addr w hp
  case h_4 => obtain ⟨hp, rfl⟩ := notBusy_ok h; exact .len w hp
  case h_11 i hi => obtain ⟨hp, rfl⟩ := notBusy_ok h; exact .dbuf i _ hp (cell32_dbuf hi)
  all_goals cases h; exact .same

theorem moved_hostWrite8 {a : Nat} {b : Byte} (h : hostWrite8 s a b = .ok t) : Moved s t := by
  rw [hostWrite8] at h
  split at h
  · cases h
  · rename_i i hi
    obtain ⟨hp, rfl⟩ := notBusy_ok h
    exact .dbuf i [b] hp (cell8_lt hi)

/-- What a move that starts no command does. -/
theorem moved_plainMove {m : Move} (h : plainMove m s = .ok t) : Moved s t := by
  cases m with
  | read32 a =>
    simp only [plainMove] at h
    cases e : hostRead32 s a with
    | error x => rw [e] at h; cases h
    | ok w => rw [e] at h; cases h; exact .read w
  | read8 a =>
    simp only [plainMove] at h
    cases e : hostRead8 s a with
    | error x => rw [e] at h; cases h
    | ok b => rw [e] at h; cases h; exact .read _
  | write32 a w => exact moved_hostWrite32 h
  | write8 a b => exact moved_hostWrite8 h
  | badWidth n a => cases h
  | seqReset => cases h; exact .seqReset
  | powerCycle => cases h; exact .powerCycle
  | ecFrame f =>
    simp only [plainMove, ecMove] at h
    split at h
    · cases h; exact .ecFrame f ‹_›
    · cases h

/-! ### A step of a command in flight -/

theorem landMove_next {m : Move} {u : State} (h : andThen (landMove m u) .next = .next t) : plainMove m u = .ok t := by
  rw [landMove] at h
  cases e : plainMove m u with
  | error x => rw [e] at h; cases x <;> cases h
  | ok v =>
    rw [e] at h
    cases hr : m.isReset <;> rw [hr] at h <;> cases h <;> rfl

theorem afterAct_next {a : Act} {k : Answer → State → Host.Outcome State Fault Refusal}
    (h : afterAct (perform a s) k = .next t) : ∃ x u, perform a s = .ok (x, u) ∧ k x (u.hear x) = .next t := by
  cases e : perform a s with
  | error f => rw [e] at h; cases h
  | ok y => obtain ⟨x, u⟩ := y; rw [e] at h; exact ⟨x, u, rfl, h⟩

/-- What the command in flight does next: a move lands, or it ends, or it does the next act of its script. -/
theorem proceed_cases {r : Running} (h : proceed r s = .next t) :
    (∃ m l, plainMove m { s with during := l } = .ok t) ∨ (∃ c v, t = finish c v s) ∨
    ∃ a k x u, r.rest s = .act a k ∧ perform a s = .ok (x, u) ∧ t = u.hear x := by
  rw [proceed] at h
  split at h
  · rename_i m u hdue
    rw [State.due] at hdue
    split at hdue
    · cases hdue
    · split at hdue
      · split at hdue
        · cases hdue
        · cases hdue; exact .inl ⟨m, _, landMove_next h⟩
      · cases hdue
  · cases e : r.rest s with
    | done v => rw [e] at h; cases h; exact .inr (.inl ⟨_, _, rfl⟩)
    | raise c => rw [e] at h; cases h; exact .inr (.inl ⟨_, _, rfl⟩)
    | act a k =>
      rw [e] at h
      obtain ⟨x, u, hp, hu⟩ := afterAct_next h
      cases hu
      exact .inr (.inr ⟨a, k, x, u, rfl, hp, rfl⟩)

/-- A command stays in flight through an act. -/
theorem perform_running {a : Act} {x : Answer} (h : perform a s = .ok (x, t)) (hp : s.phase ≠ .idle) :
    (t.hear x).phase ≠ .idle := by
  cases e : s.phase with
  | idle => exact absurd e hp
  | running r =>
    obtain ⟨n, k, d, ht⟩ := (perform_steady h).running r e
    rw [State.hear, ht]
    nofun

/-- What SEQ does while it waits: nothing, a move that starts no command, a whole command, or an illegal one. -/
theorem idleStep_cases (h : idleStep s = .next t) :
    t = s ∨ (∃ m l, plainMove m { s with inbox := l } = .ok t) ∨
    (∃ w l i, decode w = .ok i ∧ exec i { s with inbox := l, cmd := w } = .next t) ∨
    ∃ w l, t = illegalCommand { s with inbox := l, cmd := w } := by
  rw [idleStep] at h
  split at h
  · cases h; exact .inl rfl
  · rename_i m l _
    rw [takeMove] at h
    split at h
    · rename_i w _
      rw [startCommand] at h
      split at h
      · exact .inr (.inr (.inl ⟨w, l, _, ‹_›, h⟩))
      · cases h; exact .inr (.inr (.inr ⟨w, l, rfl⟩))
    · cases e : plainMove m { s with inbox := l } with
      | error x => rw [e] at h; cases x <;> cases h
      | ok u => rw [e] at h; cases h; exact .inr (.inl ⟨m, l, e⟩)

/-! ### What every step keeps -/

/-- `t` differs from `s` only in the phase, the registers that hold plain words, the draws, the queues and the trace. -/
structure Alike (s t : State) : Prop where
  cfg        : t.cfg = s.cfg
  result     : t.result = s.result
  desc       : t.desc = s.desc
  claimCount : t.claimCount = s.claimCount
  ecOwns     : t.ecOwns = s.ecOwns
  dbuf       : t.dbuf = s.dbuf
  ctrl       : t.ctrl = s.ctrl
  chip       : t.chip = s.chip

/-- `P` is kept by what a step is made of, when the acts it does have `A`; it does not read the phase. -/
structure Lasting (P : State → Prop) (A : Act → Prop) : Prop where
  alike      : ∀ {s t}, P s → Alike s t → P t
  result     : ∀ {s} (c : Code), P s → P { s with result := c.number }
  ctrl       : ∀ {s} (c : Ctrl), c.fifo.length = s.ctrl.fifo.length → P s → P { s with ctrl := c }
  stage      : ∀ {s} op out n, xferOk s.cfg.gen out.length n = true → P s → P { s with ctrl := s.ctrl.stage op out n }
  answer     : ∀ {s} d f, P s → P { s with chip := (s.chip.answer d f).2 }
  powerCycle : ∀ {s} noise, P s → P { s with chip := s.chip.powerCycle noise }
  take       : ∀ {s}, 0 < s.cfg.claimMax → P s → P { s with ecOwns := false, claimCount := 1 }
  add        : ∀ {s}, s.claimCount ≠ s.cfg.claimMax → s.claimCount ≠ 0 → P s → P { s with claimCount := s.claimCount + 1 }
  releaseBus : ∀ {s}, P s → P (releaseBus s)
  dbuf       : ∀ {s} i bs, i + bs.length ≤ s.cfg.bufSize → P s → P { s with dbuf := s.dbuf.writeList .dbuf i bs }
  memWrite   : ∀ {s} i bs, A (.memWrite i bs) → P s → P { s with dbuf := s.dbuf.writeList .dbuf i bs }
  unbind     : ∀ {s}, P s → P { s with desc := none }
  bind       : ∀ {s} d, A (.bind d) → P s → P { s with desc := some d }
  seqReset   : ∀ {s}, P s → P (seqReset s)

section
variable {P : State → Prop} {A : Act → Prop} (L : Lasting P A)
include L

theorem Lasting.phase (f : Phase → Phase) (hs : P s) : P { s with phase := f s.phase } :=
  L.alike hs ⟨rfl, rfl, rfl, rfl, rfl, rfl, rfl, rfl⟩

theorem Lasting.env (e : Env) (hs : P s) : P { s with env := e } := L.alike hs ⟨rfl, rfl, rfl, rfl, rfl, rfl, rfl, rfl⟩

theorem Lasting.queues (l : List Move) (l' : List (Nat × Move)) (hs : P s) : P { s with inbox := l, during := l' } :=
  L.alike hs ⟨rfl, rfl, rfl, rfl, rfl, rfl, rfl, rfl⟩

theorem Lasting.trace (l : List Event) (hs : P s) : P { s with trace := l } :=
  L.alike hs ⟨rfl, rfl, rfl, rfl, rfl, rfl, rfl, rfl⟩

theorem Lasting.chipFrame (f : Frame) (hs : P s) : P (chipFrame f s).2 := by
  rw [chipFrame_run]
  exact L.env s.env.drawChip.2 (L.answer s.env.drawChip.1 f hs)

theorem Lasting.ecFrame (f : Frame) (hs : P s) : P (ecFrame f s) := L.trace _ (L.chipFrame f hs)

theorem Lasting.ecTraffic (fs : List Frame) (hs : P s) : P (ecTraffic fs s) := by
  induction fs generalizing s with
  | nil => exact hs
  | cons f fs ih => exact ih (L.ecFrame f hs)

theorem Lasting.yieldTo (d : EcDraw) (hs : P s) : P (yieldTo d s) := by
  rw [Machine.yieldTo]
  refine L.trace (s := if s.ecOwns = true then Machine.ecTraffic d.traffic s else s) _ ?_
  split
  · exact L.ecTraffic _ hs
  · exact hs

theorem Lasting.claimBus (hs : P s) : P (claimBus s).2 := by
  have hy := L.yieldTo s.env.drawEc.1 (L.env s.env.drawEc.2 hs)
  rcases claimBus_cases s with ⟨-, e⟩ | ⟨h1, h0, e⟩ | ⟨h1, h0, ⟨-, e⟩ | ⟨-, e⟩⟩ <;> rw [e]
  · exact hs
  · exact L.add h1 h0 hs
  · refine L.take ?_ hy
    rw [(steady_yieldTo _ _).cfg]
    show 0 < s.cfg.claimMax
    omega
  · exact hy

theorem Lasting.kept : Kept P A where
  issue s op out n _ hok hs :=
    L.alike (L.stage op out n hok hs) ⟨rfl, rfl, rfl, rfl, rfl, rfl, rfl, rfl⟩
  drawCtrl s hs := L.env _ hs
  frame s op out n _ hs := L.chipFrame _ hs
  ctrl s c hl _ hs := L.ctrl c hl hs
  claim s _ hs := by
    have hb := L.claimBus hs
    rcases claimOwn_cases s with ⟨u, e1, e2⟩ | ⟨n, u, e1, e2⟩ <;> rw [e1] at hb <;> rw [e2]
    · exact hb
    · exact L.phase _ hb
  release s _ hs := L.phase _ (L.releaseBus hs)
  host s _ hs := L.claimBus hs
  unhost s _ _ hs := L.releaseBus hs
  memWrite s i bs ha hs := L.memWrite i bs ha hs
  commit s n _ hs := L.alike hs ⟨rfl, rfl, rfl, rfl, rfl, rfl, rfl, rfl⟩
  tally s n _ hs := L.phase _ hs
  unbind s _ hs := L.unbind hs
  bind s d ha hs := L.bind d ha hs
  identify s w _ hs := L.alike hs ⟨rfl, rfl, rfl, rfl, rfl, rfl, rfl, rfl⟩
  hear s x hs := L.phase _ hs

theorem Lasting.moved (h : Moved s t) (hs : P s) : P t := by
  cases h with
  | same => exact hs
  | dbuf i bs _ hi => exact L.dbuf i bs hi hs
  | seqReset => exact L.seqReset hs
  | powerCycle =>
    rw [Machine.powerCycle]
    exact L.seqReset (L.env _ (L.powerCycle _ hs))
  | ecFrame f _ => exact L.ecFrame f hs
  | _ => exact L.alike hs ⟨rfl, rfl, rfl, rfl, rfl, rfl, rfl, rfl⟩

theorem Lasting.finish (c : Code) (v : Word) (hs : P s) : P (finish c v s) := by
  have hr : ∀ n s, P s → P (releaseHeld n s) := by
    intro n
    induction n with
    | zero => exact fun _ h => h
    | succ n ih => exact fun s h => ih _ (L.releaseBus h)
  exact L.alike (L.result c (hr _ s hs)) ⟨rfl, rfl, rfl, rfl, rfl, rfl, rfl, rfl⟩

theorem Lasting.lands : Lands (fun s => P s ∧ s.phase ≠ .idle) P :=
  lands_of (fun _ h => h.2) (fun s l h => ⟨L.queues s.inbox l h.1, h.2⟩) (fun _ w h => ⟨L.moved (.read w) h.1, h.2⟩)
    (fun _ f ho h => ⟨L.moved (.ecFrame f ho) h.1, h.2⟩) (fun _ h => L.moved .seqReset h.1)
    fun _ h => L.moved .powerCycle h.1

/-- A whole command keeps `P` when its acts have `A`. -/
theorem Lasting.exec {i : Instr}
    (hA : (scriptOf i (s.latched.context s)).All A Act.admits (fun _ => True) fun _ => True) (hs : P s)
    (h : exec i s = .next t) : P t := by
  rw [exec_eq] at h
  have hact : ∀ a s x t, A a → (P s ∧ s.phase ≠ .idle) → perform a s = .ok (x, t) →
      a.admits x ∧ P (t.hear x) ∧ (t.hear x).phase ≠ .idle := fun a s x t ha hs hp =>
    ⟨(perform_answers hp).admits, L.kept.perform ha hs.1 hp, perform_running hp hs.2⟩
  rcases run_all hA L.lands hact ⟨L.phase (fun _ => .running s.latched) hs, nofun⟩ h with ⟨v, u, -, hu, rfl⟩ | ⟨c, u, -, hu, rfl⟩ | hd
  · exact L.finish _ _ hu.1
  · exact L.finish _ _ hu.1
  · exact hd

/-- A command word that HOST wrote. -/
theorem Lasting.written (w : Word) (l : List Move) (hs : P s) : P { s with inbox := l, cmd := w } :=
  L.alike hs ⟨rfl, rfl, rfl, rfl, rfl, rfl, rfl, rfl⟩

/-- Every step keeps `P`, when the acts of a command that starts in a state with `P`, and the act the command in flight does
next, have `A`. -/
theorem Lasting.step
    (hA : ∀ i u, P u → (scriptOf i (u.latched.context u)).All A Act.admits (fun _ => True) fun _ => True)
    (hnext : ∀ r a k, s.phase = .running r → r.rest s = .act a k → A a) (hs : P s) (h : step s = .next t) : P t := by
  cases hp : s.phase with
  | idle =>
    rw [step_idle hp] at h
    rcases idleStep_cases h with rfl | ⟨m, l, h⟩ | ⟨w, l, i, -, h⟩ | ⟨w, l, rfl⟩
    · exact hs
    · exact L.moved (moved_plainMove h) (L.queues l s.during hs)
    · have hu := L.written w l hs
      exact L.exec (hA i _ hu) hu h
    · exact L.finish _ _ (L.phase (fun _ => .running _) (L.written w l hs))
  | running r =>
    rw [step_running hp] at h
    rcases proceed_cases h with ⟨m, l, h⟩ | ⟨c, v, rfl⟩ | ⟨a, k, x, u, hr, hperf, rfl⟩
    · exact L.moved (moved_plainMove h) (L.queues s.inbox l hs)
    · exact L.finish c v hs
    · exact L.kept.perform (hnext r a k hp hr) hs hperf

end

/-! ### What every step keeps of the chip -/

/-- A property of the chip alone that no frame and no power cycle ends. -/
theorem lasting_chip {Q : Chip → Prop} (hf : ∀ c d f, Q c → Q (c.answer d f).2)
    (hp : ∀ c noise, Q c → Q (c.powerCycle noise)) : Lasting (fun s => Q s.chip) fun _ => True where
  alike hs h := by rw [h.chip]; exact hs
  result _ hs := hs
  ctrl _ _ hs := hs
  stage _ _ _ _ hs := hs
  answer d f hs := hf _ d f hs
  powerCycle noise hs := hp _ noise hs
  take _ hs := hs
  add _ _ hs := hs
  releaseBus hs := by rw [releaseBus_chip]; exact hs
  dbuf _ _ _ hs := hs
  memWrite _ _ _ hs := hs
  unbind hs := hs
  bind _ _ hs := hs
  seqReset hs := hs

/-- A property of the chip that no frame and no power cycle ends outlasts every step of the machine. -/
theorem step_keeps_chip {Q : Chip → Prop} (hf : ∀ c d f, Q c → Q (c.answer d f).2)
    (hp : ∀ c noise, Q c → Q (c.powerCycle noise)) (hs : Q s.chip) (h : step s = .next t) : Q t.chip :=
  (lasting_chip hf hp).step (fun _ _ _ => (all_true _ fun _ => trivial).mono (fun _ h => h) (fun _ _ _ _ => trivial)
    (fun _ h => h) fun _ h => h) (fun _ _ _ _ _ => trivial) hs h

/-- Settles O57: no frame and no power cycle clears a lock bit of a plain part, which stays the part it is. -/
theorem lockBitsAreOneTime : Obligations.LockBitsAreOneTime := by
  intro s t r hp h1 h3 hr h
  refine step_keeps_chip (Q := fun c => c.desc = s.chip.desc ∧ c.lockBit r = true) (fun c d f hc => ?_)
    (fun c noise hc => ?_) ⟨rfl, hr⟩ h
  · obtain ⟨hd, hl⟩ := Chip.keepsLocks_answer (c := c) (by rw [hc.1, hp]) d f
    exact ⟨hd.trans hc.1, hl r h1 h3 hc.2⟩
  · obtain ⟨hd, hl⟩ := Chip.keepsLocks_powerCycle (c := c) (by rw [hc.1, hp]) noise
    exact ⟨hd.trans hc.1, hl r h1 h3 hc.2⟩

end Sys2Proof.Machine
end

section
/-! SUPPORT. What a command's script does to DBUF, DONE_COUNT and DESC after any answers its acts allow (`script_special`):
the counterpart of `script_all` for a command in flight, of which only the form of the answers heard is known. -/

namespace Sys2Proof.Machine

/-! ### Pieces of scripts -/

/-- Every act of the script has `A`, after any answers the acts allow. -/
abbrev Script.Does (A : Act → Prop) : Script → Prop := Script.All A Act.admits (fun _ => True) fun _ => True

section
variable {A : Act → Prop} {o : OpSet} {x : Context} {k : Script}

theorem does_unlessFailed {c : Code → Code} {k : Answer → Script} {x : Answer} (hk : (k x).Does A) :
    (unlessFailed c k x).Does A := by
  cases x with
  | failed e => trivial
  | _ => exact hk

theorem length_data_le {op : Byte} {out : List Byte} {n : Nat} {x : Answer} (hx : (Act.xfer op out n).admits x) :
    x.data.length ≤ n := by
  cases x with
  | bytes bs => exact Nat.le_of_eq hx
  | _ => exact Nat.zero_le _

theorem does_memRead {i n : Nat} {k : List Byte → Script} (ha : A (.memRead i n)) (hk : ∀ bs, (k bs).Does A) :
    (memRead i n k).Does A := ⟨ha, fun _ _ => hk _⟩

theorem does_memWrite {i : Nat} {bs : List Byte} (ha : A (.memWrite i bs)) (hk : k.Does A) : (memWrite i bs k).Does A :=
  ⟨ha, fun _ _ => hk⟩

theorem does_commit {n : Nat} (ha : A (.commit n)) (hk : k.Does A) : (commit n k).Does A := ⟨ha, fun _ _ => hk⟩

theorem does_tally {n : Nat} (ha : A (.tally n)) (hk : k.Does A) : (tally n k).Does A := ⟨ha, fun _ _ => hk⟩

theorem does_require {b : Bool} {c : Code} (hk : b = true → k.Does A) : (require b c k).Does A := by
  cases b with
  | true => exact hk rfl
  | false => trivial

theorem does_each {α : Type} {xs : List α} {f : α → Script → Script}
    (hf : ∀ x ∈ xs, ∀ k : Script, k.Does A → (f x k).Does A) (hk : k.Does A) : (each xs f k).Does A := by
  induction xs with
  | nil => exact hk
  | cons x xs ih => exact hf x (by simp) _ (ih fun y hy => hf y (by simp [hy]))

theorem does_prologue {n : Need} {k : Descriptor → Script} (hk : ∀ d, (k d).Does A) : (prologue n x k).Does A := by
  rw [prologue]
  split
  · trivial
  · exact does_require fun _ => hk _

theorem does_rangeCheck {d : Descriptor} {b : Bool} (hk : (b = true → x.len ≤ x.cfg.bufSize) → k.Does A) :
    (rangeCheck d x b k).Does A :=
  does_require fun _ => does_require fun _ => does_require fun h3 => hk fun hb => by subst hb; simpa using h3

theorem does_secCheck {r : Nat} (hk : x.addr + x.len ≤ secRegionSize → k.Does A) : (secCheck r x k).Does A :=
  does_require fun _ => does_require fun h => hk (of_decide_eq_true h)

/-- `A` holds of the transactions and of the claims and releases of scripts. -/
structure OnBus (A : Act → Prop) : Prop where
  xfer    : ∀ op out n, A (.xfer op out n)
  claim   : A .claim
  release : A .release

variable (hA : OnBus A)
include hA

theorem does_xfer {op : Byte} {out : List Byte} {n : Nat} {k : List Byte → Script}
    (hk : ∀ bs : List Byte, bs.length ≤ n → (k bs).Does A) : (xfer op out n k).Does A :=
  ⟨hA.xfer _ _ _, fun _ hx => does_unlessFailed (hk _ (length_data_le hx))⟩

theorem does_xferAs {c : Code} {op : Byte} {out : List Byte} {n : Nat} {k : List Byte → Script}
    (hk : ∀ bs : List Byte, (k bs).Does A) : (xferAs c op out n k).Does A :=
  ⟨hA.xfer _ _ _, fun _ _ => does_unlessFailed (hk _)⟩

theorem does_claim (hk : k.Does A) : (claim k).Does A := ⟨hA.claim, fun _ _ => does_unlessFailed hk⟩

theorem does_release (hk : k.Does A) : (release k).Does A := ⟨hA.release, fun _ _ => hk⟩

theorem does_readSR1 {k : Byte → Script} (hk : ∀ b, (k b).Does A) : (readSR1 o k).Does A := does_xferAs hA fun _ => hk _

theorem does_readSR2 {k : Byte → Script} (hk : ∀ b, (k b).Does A) : (readSR2 o k).Does A := does_xferAs hA fun _ => hk _

theorem does_writeEnable (hk : k.Does A) : (writeEnable o k).Does A := does_xfer hA fun _ _ => hk

theorem does_pollReady {n : Nat} (hk : k.Does A) : (pollReady o n k).Does A := by
  induction n with
  | zero => trivial
  | succ n ih => exact does_xfer hA fun r _ => by split <;> assumption

theorem does_writeSR {n : Nat} {a b : Byte} (hk : k.Does A) : (writeSR o n a b k).Does A :=
  does_writeEnable hA (does_xfer hA fun _ _ => does_pollReady hA hk)

theorem does_updateSR {n : Nat} {f : Byte → Byte → Byte × Byte} {k : Byte → Byte → Script}
    (hk : ∀ a b, (k a b).Does A) : (updateSR o n f k).Does A :=
  does_readSR1 hA fun _ => does_readSR2 hA fun _ => does_writeSR hA (does_readSR1 hA fun _ => does_readSR2 hA fun _ =>
    does_require fun _ => hk _ _)

theorem does_hwProbe {n : Nat} {k : Bool → Script} (hk : ∀ b, (k b).Does A) : (hwProbe o n k).Does A := by
  refine does_readSR1 hA fun _ => does_readSR2 hA fun _ => ?_
  split
  · exact hk _
  · refine does_writeSR hA (does_readSR1 hA fun _ => ?_)
    split
    · exact hk _
    · exact does_writeSR hA (does_readSR1 hA fun _ => does_require fun _ => hk _)

theorem does_applyUpdate {f : Byte → Byte → Byte × Byte} (hk : k.Does A) : (applyUpdate o x f k).Does A :=
  does_claim hA (does_updateSR hA fun _ _ => does_release hA hk)

theorem does_liveStatus {k : Byte → Byte → Script} (hk : ∀ a b, (k a b).Does A) : (liveStatus o k).Does A :=
  does_claim hA (does_readSR1 hA fun _ => does_readSR2 hA fun _ => does_release hA (hk _ _))

theorem does_secLockedCheck {r : Nat} (hk : k.Does A) : (secLockedCheck o r k).Does A :=
  does_readSR2 hA fun _ => does_require fun _ => hk

theorem does_eraseRegion {n r : Nat} (hk : k.Does A) : (eraseRegion o n r k).Does A :=
  does_writeEnable hA (does_xfer hA fun _ _ => does_pollReady hA hk)

theorem does_setRange (k : BitVec 8) (x : Context) : (setRangeScript k x).Does A :=
  does_prologue fun _ => by
    split
    · trivial
    · exact does_applyUpdate hA trivial

theorem does_clearRange (x : Context) : (clearRangeScript x).Does A := does_prologue fun _ => does_applyUpdate hA trivial

end

/-! ### The special acts of a command -/

/-- The commands that end with a DONE_COUNT of their own (R23). -/
def counts : Instr → Bool
  | .read | .write | .erase | .secRead _ | .secProgram _ | .secErase _ | .transfer _ => true
  | .probe | .lock | .unlock | .isLocked | .setRange _ | .clearRange | .readProtection | .setLockMode _ _ | .getLockMode
  | .getHwProtect | .secStatus | .secLock _ _ | .claim | .release => false

/-- What command `i`, started in `s`, may do to DBUF, DONE_COUNT, DESC and JEDEC_ID (R23, R26, R30, R180). -/
def Special (s : State) (i : Instr) : Act → Prop
  | .memRead k n   => (fillsDbuf i = false ∨ ∃ op, i = .transfer op) ∧ k + n ≤ dbufSent s i
  | .memWrite k bs =>
    fillsDbuf i = true ∧ k + bs.length ≤ s.len.toNat ∧ s.len.toNat ≤ max s.cfg.bufSize secRegionSize
  | .commit _      => counts i = true
  | .tally _       => counts i = true
  | .unbind        => i = .probe
  | .bind d        => i = .probe ∧ d ∈ s.cfg.winbond ++ s.cfg.adesto
  | .identify _    => i = .probe
  | _              => True

theorem special_onBus (s : State) (i : Instr) : OnBus (Special s i) := ⟨fun _ _ _ => trivial, trivial, trivial⟩

/-- What a command's script does to DBUF, DONE_COUNT, DESC and JEDEC_ID, after any answers its acts allow. -/
theorem script_special (i : Instr) (s : State) : (scriptOf i (s.latched.context s)).Does (Special s i) := by
  have hA := special_onBus s i
  cases i with
  | probe =>
    refine ⟨rfl, fun _ _ => does_claim hA (does_xferAs hA fun _ => does_release hA ⟨rfl, fun _ _ => ?_⟩)⟩
    split
    · exact ⟨⟨rfl, List.mem_of_find?_eq_some ‹_›⟩, fun _ _ => trivial⟩
    · trivial
  | read =>
    refine does_prologue fun d => does_rangeCheck fun hb => does_each (fun ch hch k hk => ?_) trivial
    have hl := readForm_length s.cfg.readVariant d.op
    have hm := slices_mem (maxIncoming_pos s.cfg.gen (nAddr := 3 + (readForm s.cfg.readVariant d.op).2.length) (by omega)) hch
    refine does_claim hA (does_xfer hA fun bs hbs => does_release hA (does_memWrite ⟨rfl, ?_, ?_⟩ (does_commit rfl hk)))
    · exact Nat.le_trans (Nat.add_le_add_left hbs _) hm.2.2
    · exact Nat.le_trans (hb rfl) (Nat.le_max_left _ _)
  | write =>
    refine does_prologue fun d => does_rangeCheck fun _ => does_each (fun ch hch k hk => ?_) trivial
    have hm := chunks_mem (o := s.addr.toNat) (n := s.len.toNat) (effectivePage_pos s.cfg.gen d) hch
    refine does_claim hA (does_writeEnable hA (does_memRead ⟨.inl rfl, ?_⟩ fun _ => does_xfer hA fun _ _ => does_pollReady hA
      (does_release hA (does_commit rfl hk))))
    show ch.1 - s.addr.toNat + ch.2 ≤ s.len.toNat
    omega
  | erase =>
    exact does_prologue fun _ => does_rangeCheck fun _ => does_require fun _ => does_each (fun _ _ _ hk => does_claim hA
      (does_writeEnable hA (does_xfer hA fun _ _ => does_pollReady hA (does_release hA (does_commit rfl hk))))) trivial
  | lock => exact does_setRange hA 14 _
  | setRange k => exact does_setRange hA k _
  | unlock => exact does_clearRange hA _
  | clearRange => exact does_clearRange hA _
  | isLocked => exact does_prologue fun _ => does_liveStatus hA fun _ _ => trivial
  | readProtection => exact does_prologue fun _ => does_liveStatus hA fun _ _ => trivial
  | setLockMode m c =>
    refine does_prologue fun _ => ?_
    split
    · trivial
    · exact does_require fun _ => does_applyUpdate hA trivial
  | getLockMode =>
    refine does_prologue fun _ => does_claim hA (does_readSR1 hA fun _ => does_readSR2 hA fun _ => ?_)
    split
    · exact does_release hA trivial
    · split
      · exact does_release hA trivial
      · exact does_hwProbe hA fun _ => does_release hA trivial
  | getHwProtect => exact does_prologue fun _ => does_claim hA (does_hwProbe hA fun _ => does_release hA trivial)
  | secStatus => exact does_prologue fun _ => does_claim hA (does_readSR2 hA fun _ => does_release hA trivial)
  | secRead r =>
    refine does_prologue fun d => does_secCheck fun hb => does_each (fun ch hch k hk => ?_) trivial
    have hm := slices_mem (maxIncoming_pos s.cfg.gen (nAddr := 4) (by omega)) hch
    refine does_claim hA (does_xfer hA fun bs hbs => does_release hA (does_memWrite ⟨rfl, ?_, ?_⟩ (does_commit rfl hk)))
    · exact Nat.le_trans (Nat.add_le_add_left hbs _) hm.2.2
    · exact Nat.le_trans (Nat.le_trans (Nat.le_add_left _ _) hb) (Nat.le_max_right _ _)
  | secProgram r =>
    refine does_prologue fun d => does_secCheck fun _ => ?_
    split
    · trivial
    · refine does_claim hA (does_secLockedCheck hA (does_eraseRegion hA (does_each (fun ch hch k hk => ?_)
        (does_release hA trivial))))
      have hP : 0 < min secRegionSize s.cfg.gen.pageLimit := by cases s.cfg.gen <;> decide
      have hm := chunks_mem (o := s.addr.toNat) (n := s.len.toNat) hP hch
      refine does_writeEnable hA (does_memRead ⟨.inl rfl, ?_⟩ fun _ => does_xfer hA fun _ _ => does_pollReady hA (does_commit rfl hk))
      show ch.1 - s.addr.toNat + ch.2 ≤ s.len.toNat
      omega
  | secErase r =>
    exact does_prologue fun _ => does_secCheck fun _ => does_claim hA (does_secLockedCheck hA (does_eraseRegion hA
      (does_release hA (does_tally rfl trivial))))
  | secLock r c =>
    exact does_prologue fun _ => does_require fun _ => does_require fun _ => does_claim hA (does_updateSR hA fun _ _ =>
      does_require fun _ => does_release hA trivial)
  | transfer op =>
    refine does_require fun h => does_require fun _ => does_claim hA (does_memRead
      ⟨.inr ⟨op, rfl⟩, Nat.le_of_eq (Nat.zero_add _)⟩ fun _ => does_xfer hA fun bs hbs => does_release hA (does_memWrite ⟨rfl, ?_, ?_⟩ (does_tally rfl trivial)))
    · rw [Nat.zero_add]; exact hbs
    · exact Nat.le_trans (of_decide_eq_true h).2 (Nat.le_max_left _ _)
  | claim => exact ⟨trivial, fun x _ => does_unlessFailed (k := fun x => .done (BitVec.ofNat 32 x.count)) trivial⟩
  | release => exact ⟨trivial, fun x _ => does_unlessFailed (k := fun x => .done (BitVec.ofNat 32 x.count)) trivial⟩

end Sys2Proof.Machine
end

section
/-! SUPPORT. The invariant of the machine outlasts every step: first the part of it that does not speak of the command in
flight (`State.Sound`), then the answers that command has heard (R24). -/

namespace Sys2Proof.Machine

variable {s t : State}

/-! ### The invariant but for the command in flight -/

/-- The invariant, but for what it says of the command in flight. -/
def State.Sound (s : State) : Prop := { s with phase := .idle }.Inv

theorem State.Inv.sound (h : s.Inv) : s.Sound := { h with heard := nofun }

theorem State.Sound.inv (h : s.Sound)
    (hr : ∀ r, s.phase = .running r → (wordScript r.cmd (r.context s)).heardOf r.heard) : s.Inv := { h with heard := hr }

theorem State.Sound.alike (h : s.Sound) (e : Alike s t) : t.Sound := by
  obtain ⟨e1, e2, e3, e4, e5, e6, e7, e8⟩ := e
  cases s
  cases t
  dsimp only at e1 e2 e3 e4 e5 e6 e7 e8
  subst e1 e2 e3 e4 e5 e6 e7 e8
  exact { h with heard := nofun }

theorem number_le (c : Code) : c.number.toNat ≤ 0x0C := by cases c <;> decide

/-- Bytes written inside DBUF (R26). -/
theorem State.Sound.writeDbuf (h : s.Sound) {i : Nat} {bs : List Byte} (hi : i + bs.length ≤ s.cfg.bufSize) :
    ({ s with dbuf := s.dbuf.writeList .dbuf i bs } : State).Sound :=
  { h with
    dbuf := Memory.wf_writeList i bs h.dbuf
    inDbuf := fun e he => by
      rcases Memory.mem_writeList he with he | ⟨-, he⟩
      · exact h.inDbuf e he
      · exact Nat.lt_of_lt_of_le he hi
    heard := nofun }

/-- A claim fewer (R33, R151). -/
theorem State.Sound.releaseBus (h : s.Sound) : (releaseBus s).Sound := by
  have howns : s.ecOwns = decide (s.claimCount = 0) := h.owns
  have hcount : s.claimCount ≤ s.cfg.claimMax := h.count
  rw [Machine.releaseBus]
  dsimp only
  split
  · exact { h with owns := (decide_eq_true ‹_›).symm, count := Nat.le_trans (Nat.sub_le _ _) hcount, heard := nofun }
  · refine { h with owns := ?_, count := Nat.le_trans (Nat.sub_le _ _) hcount, heard := nofun }
    show s.ecOwns = decide (s.claimCount - 1 = 0)
    rw [howns, decide_eq_false (by omega), decide_eq_false (by omega)]

/-- What the acts of a command must respect: writes inside DBUF (R26), descriptors from CHIP_TABLE (R30). -/
def Contained (c : Config) : Act → Prop
  | .memWrite i bs => i + bs.length ≤ c.bufSize
  | .bind d        => d ∈ c.winbond ++ c.adesto
  | _              => True

/-- What a step is made of keeps the invariant but for the command in flight. -/
theorem lasting_sound (c : Config) : Lasting (fun s => s.Sound ∧ s.cfg = c) (Contained c) where
  alike h e := ⟨h.1.alike e, e.cfg.trans h.2⟩
  result k h := ⟨{ h.1 with result := number_le k, heard := nofun }, h.2⟩
  ctrl c hl h := ⟨{ h.1 with fifo := hl.trans h.1.fifo, heard := nofun }, h.2⟩
  stage op out n hok h := ⟨{ h.1 with
    fifo := (length_stage _ op out n (by rw [h.1.fifo]; exact (xferOk_fifo hok).1)).trans h.1.fifo
    heard := nofun }, h.2⟩
  answer d f h := ⟨{ h.1 with chip := h.1.chip.answer d f, heard := nofun }, h.2⟩
  powerCycle noise h := ⟨{ h.1 with chip := h.1.chip.powerCycle noise, heard := nofun }, h.2⟩
  take hm h := ⟨{ h.1 with owns := rfl, count := hm, heard := nofun }, h.2⟩
  add {s} hne h0 h := by
    have hcount : s.claimCount ≤ s.cfg.claimMax := h.1.count
    have howns : s.ecOwns = decide (s.claimCount = 0) := h.1.owns
    refine ⟨{ h.1 with owns := ?_, count := ?_, heard := nofun }, h.2⟩
    · exact howns.trans ((decide_eq_false h0).trans (decide_eq_false (Nat.succ_ne_zero _)).symm)
    · show s.claimCount + 1 ≤ s.cfg.claimMax
      omega
  releaseBus h := ⟨h.1.releaseBus, (releaseBus_cfg _).trans h.2⟩
  dbuf i bs hi h := ⟨h.1.writeDbuf hi, h.2⟩
  memWrite i bs hi h := ⟨h.1.writeDbuf (by rw [h.2]; exact hi), h.2⟩
  unbind h := ⟨{ h.1 with desc := nofun, heard := nofun }, h.2⟩
  bind d hd h := ⟨{ h.1 with
    desc := fun d' e => by cases e; rw [← h.2] at hd; exact hd
    heard := nofun }, h.2⟩
  seqReset h := ⟨{ h.1 with
    owns := rfl
    count := Nat.zero_le _
    desc := nofun
    result := Nat.zero_le _
    dbuf := ⟨List.Pairwise.nil, nofun⟩
    inDbuf := nofun
    heard := nofun }, h.2⟩

theorem Special.contained {i : Instr} {a : Act} (h : Special s i a) (hc : s.cfg.wf) : Contained s.cfg a := by
  cases a with
  | memWrite k bs =>
    obtain ⟨-, hk, hl⟩ := h
    obtain ⟨-, -, -, h256, -⟩ := hc
    have : max s.cfg.bufSize secRegionSize = s.cfg.bufSize := Nat.max_eq_left h256
    show k + bs.length ≤ s.cfg.bufSize
    omega
  | bind d => exact h.2
  | _ => trivial

/-! ### The answers a command in flight has heard -/

/-- What is left of a script after answers its acts allow still does only acts with `A`. -/
theorem does_after {A : Act → Prop} {c : Script} {xs : List Answer} (hc : c.Does A) (h : c.heardOf xs) :
    (c.after xs).Does A := by
  induction xs generalizing c with
  | nil => rwa [Script.after_nil]
  | cons x xs ih =>
    cases c with
    | done v => cases h
    | raise e => cases h
    | act a k => exact ih (hc.2 x h.1) h.2

/-- A script that goes on with an act has heard one answer more when that act has answered. -/
theorem heardOf_append {c : Script} {xs : List Answer} {a : Act} {k : Answer → Script} {x : Answer} (h : c.heardOf xs)
    (e : c.after xs = .act a k) (hx : a.admits x) : c.heardOf (xs ++ [x]) := by
  induction xs generalizing c with
  | nil =>
    rw [Script.after_nil] at e
    subst e
    exact ⟨hx, by rw [Script.heardOf.eq_def]; trivial⟩
  | cons y ys ih =>
    cases c with
    | done v => cases h
    | raise e => cases h
    | act b k' => exact ⟨h.1, ih h.2 e⟩

/-- The script of a command in flight depends on the state only through the parameters and, but for PROBE, DESC. -/
theorem wordScript_congr {r : Running} {i : Instr} (hi : decode r.cmd = .ok i) (hc : t.cfg = s.cfg)
    (hd : t.desc = s.desc ∨ i = .probe) : wordScript r.cmd (r.context t) = wordScript r.cmd (r.context s) := by
  rcases hd with hd | rfl
  · simp only [Running.context, hc, hd]
  · rw [wordScript, wordScript, hi]
    simp only [scriptOf, probeScript, Running.context, hc]

/-- The next act of a command in flight is a special one of its command, for the operands it latched. -/
theorem special_next {r : Running} {a : Act} {k : Answer → Script}
    (hh : (wordScript r.cmd (r.context s)).heardOf r.heard) (hr : r.rest s = .act a k) :
    ∃ i, decode r.cmd = .ok i ∧ Special { s with addr := r.addr, len := r.len } i a := by
  rw [Running.rest] at hr
  cases e : decode r.cmd with
  | error x =>
    rw [wordScript, e] at hr
    cases h : r.heard <;> rw [h] at hr <;> cases hr
  | ok i =>
    have hd : (wordScript r.cmd (r.context s)).Does (Special { s with addr := r.addr, len := r.len } i) := by
      rw [wordScript, e]
      exact script_special i { s with addr := r.addr, len := r.len }
    have := does_after hd hh
    rw [hr] at this
    exact ⟨i, rfl, this.1⟩

/-- An act changes DESC only in PROBE (R30). -/
theorem Special.keeps_desc {u : State} {i : Instr} {a : Act} {x : Answer} (ha : Special u i a)
    (h : perform a s = .ok (x, t)) : t.desc = s.desc ∨ i = .probe := by
  cases a with
  | unbind => exact .inr ha
  | bind d => exact .inr ha.1
  | _ => exact .inl (perform_desc h nofun nofun)

/-- A command in flight stays with its operands through a move, or is dropped. -/
theorem Moved.phase (h : Moved s t) : t.phase = .idle ∨ (t.phase = s.phase ∧ t.cfg = s.cfg ∧ t.desc = s.desc) := by
  cases h with
  | seqReset => exact .inl rfl
  | powerCycle => exact .inl rfl
  | _ => exact .inr ⟨rfl, rfl, rfl⟩

/-- A whole command ends in `Idle` (R25). -/
theorem exec_idle {i : Instr} (h : exec i s = .next t) : t.phase = .idle := by
  rw [exec_eq] at h
  have hland : Lands (fun s => s.phase ≠ .idle) fun t => t.phase = .idle :=
    lands_of (fun _ h => h) (fun _ _ h => h) (fun _ _ h => h) (fun _ _ _ h => h) (fun _ _ => rfl) fun _ _ => rfl
  rcases run_all (script_special i s) hland (fun a s x t _ hs hp => ⟨(perform_answers hp).admits, perform_running hp hs⟩)
    (show s.started.phase ≠ .idle from nofun) h with ⟨v, u, -, -, rfl⟩ | ⟨c, u, -, -, rfl⟩ | hd
  · rfl
  · rfl
  · exact hd

/-- After a step the command in flight, if any, has heard answers of its script. -/
theorem step_heard (hs : s.Inv) (h : step s = .next t) (r : Running) (hr : t.phase = .running r) :
    (wordScript r.cmd (r.context t)).heardOf r.heard := by
  have idle : t.phase ≠ .idle := by rw [hr]; nofun
  cases hp : s.phase with
  | idle =>
    rw [step_idle hp] at h
    refine absurd ?_ idle
    rcases idleStep_cases h with rfl | ⟨m, l, h⟩ | ⟨w, l, i, -, h⟩ | ⟨w, l, rfl⟩
    · exact hp
    · rcases (moved_plainMove h).phase with h | ⟨h, -⟩
      · exact h
      · exact h.trans hp
    · exact exec_idle h
    · rfl
  | running q =>
    have hq := hs.heard q hp
    rw [step_running hp] at h
    rcases proceed_cases h with ⟨m, l, h⟩ | ⟨c, v, rfl⟩ | ⟨a, k, x, u, hrest, hperf, rfl⟩
    · rcases (moved_plainMove h).phase with h | ⟨h1, h2, h3⟩
      · exact absurd h idle
      · have e : r = q := by
          have : Phase.running r = .running q := hr.symm.trans (h1.trans hp)
          cases this; rfl
        subst e
        rw [show r.context t = r.context s by simp only [Running.context, h2, h3]]
        exact hq
    · exact absurd rfl idle
    · obtain ⟨i, hi, ha⟩ := special_next hq hrest
      have hst := perform_steady hperf
      obtain ⟨n, k', d, hu⟩ := hst.running q hp
      rw [State.hear, hu] at hr
      cases hr
      have hc := wordScript_congr (r := q) (s := s) (t := u.hear x) hi hst.cfg (ha.keeps_desc (t := u) hperf)
      have := heardOf_append hq hrest (perform_answers hperf).admits
      rw [← hc] at this
      exact this

/-- Settles O60: a step keeps what the invariant says of the machine because each act respects DBUF and CHIP_TABLE, and what
it says of the command in flight because each act answers what it admits. -/
theorem everyStepKeepsTheInvariant : Obligations.EveryStepKeepsTheInvariant := by
  intro s t hs h
  refine State.Sound.inv (s := t) ?_ (step_heard hs h)
  refine ((lasting_sound s.cfg).step (fun i u hu => ?_) (fun r a k hp hr => ?_) ⟨hs.sound, rfl⟩ h).1
  · refine (script_special i u).mono (fun a ha => ?_) (fun _ _ _ h => h) (fun _ h => h) fun _ h => h
    rw [← hu.2]
    exact ha.contained hu.1.cfg
  · obtain ⟨i, -, ha⟩ := special_next (hs.heard r hp) hr
    exact Special.contained (s := { s with addr := r.addr, len := r.len }) ha hs.cfg

end Sys2Proof.Machine
end

section
/-! SUPPORT. What each act does to DBUF, JEDEC_ID, the bytes committed and the frames sent, said once (`perform_effect`); and
what a whole command keeps of SEQ's registers. -/

namespace Sys2Proof.Machine

variable {s t : State}

/-! ### What an act does -/

/-- DBUF after an act. -/
def Act.dbufAfter (a : Act) (m : Memory) : Memory :=
  match a with
  | .memWrite i bs => m.writeList .dbuf i bs
  | _              => m

/-- The bytes a command has committed after an act. -/
def Act.doneAfter (a : Act) (n : Nat) : Nat :=
  match a with
  | .commit m => m
  | .tally m  => m
  | _         => n

/-- The frames an act that answers `x` puts on the bus: a transaction that is not too large is one (R141). -/
def Act.sends (a : Act) (x : Answer) : List Frame :=
  match a with
  | .xfer op out n => if x = .failed .transferTooLarge then [] else [⟨op, out, n⟩]
  | _              => []

/-- What an act that answers `x` does to DBUF, JEDEC_ID, the frames SEQ sent, and the record of the command in flight. -/
structure Effect (a : Act) (x : Answer) (s t : State) : Prop where
  dbuf    : t.dbuf = a.dbufAfter s.dbuf
  jedecId : (∀ w, a ≠ .identify w) → t.jedecId = s.jedecId
  sent    : framesOf t.trace = framesOf s.trace ++ a.sends x
  phase   : ∀ r, s.phase = .running r →
    ∃ h, t.phase = .running { r with step := r.step + (a.sends x).length, held := h, done := a.doneAfter r.done }

/-- `t` has sent no frame since `s`, and DBUF, JEDEC_ID and the counts of the command in flight are the same. -/
structure Passive (s t : State) : Prop where
  dbuf    : t.dbuf = s.dbuf
  jedecId : t.jedecId = s.jedecId
  sent    : framesOf t.trace = framesOf s.trace
  phase   : t.phase = s.phase

theorem Passive.refl (s : State) : Passive s s := ⟨rfl, rfl, rfl, rfl⟩

theorem Passive.trans {u : State} (a : Passive s t) (b : Passive t u) : Passive s u :=
  ⟨b.dbuf.trans a.dbuf, b.jedecId.trans a.jedecId, b.sent.trans a.sent, b.phase.trans a.phase⟩

@[simp] theorem framesOf_append (l l' : List Event) : framesOf (l ++ l') = framesOf l ++ framesOf l' :=
  List.filterMap_append

@[simp] theorem framesOf_frame (f : Frame) : framesOf [.frame f] = [f] := rfl
@[simp] theorem framesOf_ecFrame (f : Frame) : framesOf [.ecFrame f] = [] := rfl
@[simp] theorem framesOf_yield : framesOf [.yield] = [] := rfl
@[simp] theorem framesOf_reclaim : framesOf [.reclaim] = [] := rfl

theorem passive_ecFrame (f : Frame) (s : State) : Passive s (ecFrame f s) :=
  ⟨rfl, rfl, by simp [ecFrame, chipFrame_run], rfl⟩

theorem passive_ecTraffic (fs : List Frame) (s : State) : Passive s (ecTraffic fs s) := by
  induction fs generalizing s with
  | nil => exact Passive.refl s
  | cons f fs ih => exact (passive_ecFrame f s).trans (ih _)

theorem passive_yieldTo (d : EcDraw) (s : State) : Passive s (yieldTo d s) := by
  have hy : ∀ u : State, Passive u { u with trace := u.trace ++ [.yield] } := fun u => ⟨rfl, rfl, by simp, rfl⟩
  rw [yieldTo]
  refine Passive.trans (t := if s.ecOwns = true then ecTraffic d.traffic s else s) ?_ (hy _)
  split
  · exact passive_ecTraffic _ s
  · exact Passive.refl s

theorem passive_claimBus (s : State) : Passive s (claimBus s).2 := by
  have hy : Passive s (yieldTo s.env.drawEc.1 { s with env := s.env.drawEc.2 }) :=
    Passive.trans (t := { s with env := s.env.drawEc.2 }) ⟨rfl, rfl, rfl, rfl⟩ (passive_yieldTo _ _)
  rcases claimBus_cases s with ⟨-, e⟩ | ⟨-, -, e⟩ | ⟨-, -, ⟨-, e⟩ | ⟨-, e⟩⟩ <;> rw [e]
  · exact Passive.refl s
  · exact ⟨rfl, rfl, rfl, rfl⟩
  · exact hy.trans ⟨rfl, rfl, rfl, rfl⟩
  · exact hy

theorem passive_releaseBus (s : State) : Passive s (releaseBus s) := by
  refine ⟨releaseBus_dbuf s, releaseBus_jedecId s, ?_, releaseBus_phase s⟩
  rw [releaseBus_trace]
  split <;> simp

/-- An act that sends nothing, commits nothing and leaves DBUF alone does what a passive change does, but for the claims
the command holds. -/
theorem Passive.effect {a : Act} {x : Answer} (h : Passive s t) (h1 : ∀ m, a.dbufAfter m = m) (h2 : a.sends x = [])
    (h3 : ∀ n, a.doneAfter n = n) : Effect a x s t where
  dbuf      := h.dbuf.trans (h1 _).symm
  jedecId _ := h.jedecId
  sent      := by rw [h2, List.append_nil, h.sent]
  phase r e := ⟨r.held, by rw [h.phase, e, h2, h3]; rfl⟩

/-- The same, where the act changes the number of claims held. -/
theorem Passive.effect_held {a : Act} {x : Answer} {u : State} (h : Passive s u) (f : Nat → Nat)
    (ht : t = { u with phase := u.phase.map fun r => { r with held := f r.held } }) (h1 : ∀ m, a.dbufAfter m = m)
    (h2 : a.sends x = []) (h3 : ∀ n, a.doneAfter n = n) : Effect a x s t := by
  subst ht
  exact ⟨h.dbuf.trans (h1 _).symm, fun _ => h.jedecId, by rw [h2, List.append_nil]; exact h.sent,
    fun r e => ⟨f r.held, by rw [h.phase, e, h2, h3]; rfl⟩⟩

theorem effect_transact {op : Byte} {out : List Byte} {n : Nat} {x : Answer} (h : transact op out n s = (x, t)) :
    Effect (.xfer op out n) x s t := by
  rcases transact_cases op out n s with ⟨-, e⟩ | ⟨-, u, c, y, hu, e, -, -, hy⟩ <;> rw [e] at h <;> cases h
  · exact (Passive.refl s).effect (fun _ => rfl) rfl fun _ => rfl
  · have hs : (Act.xfer op out n).sends x = [⟨op, out, n⟩] := by
      refine if_neg ?_
      rcases hy with ⟨rfl, -⟩ | rfl | ⟨bs, -, rfl⟩ <;> nofun
    refine ⟨?_, fun _ => ?_, ?_, fun r hr => ⟨r.held, ?_⟩⟩
    · rcases hu with rfl | rfl <;> rfl
    · rcases hu with rfl | rfl <;> rfl
    · rw [hs]
      rcases hu with rfl | rfl <;> exact framesOf_append _ _
    · rw [hs]
      have : (s.issue op out n).phase = .running { r with step := r.step + 1 } := by rw [State.issue, hr]; rfl
      rcases hu with rfl | rfl <;> exact this

/-- What an act does. -/
theorem perform_effect {a : Act} {x : Answer} (h : perform a s = .ok (x, t)) : Effect a x s t := by
  cases a with
  | xfer op out n => exact effect_transact (by simpa [perform] using h)
  | claim =>
    have e : claimOwn s = (x, t) := by simpa [perform] using h
    have hc := passive_claimBus s
    rcases claimOwn_cases s with ⟨u, e1, e2⟩ | ⟨n, u, e1, e2⟩ <;> rw [e2] at e <;> cases e <;> rw [e1] at hc
    · exact hc.effect (fun _ => rfl) rfl fun _ => rfl
    · exact hc.effect_held (· + 1) rfl (fun _ => rfl) rfl fun _ => rfl
  | release =>
    cases h
    exact (passive_releaseBus s).effect_held (· - 1) rfl (fun _ => rfl) rfl fun _ => rfl
  | hostClaim =>
    have e : claimBus s = (x, t) := by simpa [perform] using h
    have hc := passive_claimBus s
    rw [e] at hc
    exact hc.effect (fun _ => rfl) rfl fun _ => rfl
  | hostRelease =>
    have e : releaseHost s = (x, t) := by simpa [perform] using h
    rw [releaseHost] at e
    split at e <;> cases e
    · exact (Passive.refl s).effect (fun _ => rfl) rfl fun _ => rfl
    · exact (passive_releaseBus s).effect (fun _ => rfl) rfl fun _ => rfl
  | memRead i n =>
    simp only [perform] at h
    split at h <;> cases h
    exact (Passive.refl s).effect (fun _ => rfl) rfl fun _ => rfl
  | memWrite i bs => cases h; exact ⟨rfl, fun _ => rfl, (List.append_nil _).symm, fun r e => ⟨r.held, e⟩⟩
  | commit n =>
    cases h
    exact ⟨rfl, fun _ => rfl, (List.append_nil _).symm, fun r e => ⟨r.held, by rw [State.commit, State.tally, e]; rfl⟩⟩
  | tally n =>
    cases h
    exact ⟨rfl, fun _ => rfl, (List.append_nil _).symm, fun r e => ⟨r.held, by rw [State.tally, e]; rfl⟩⟩
  | unbind => cases h; exact ⟨rfl, fun _ => rfl, (List.append_nil _).symm, fun r e => ⟨r.held, e⟩⟩
  | bind d => cases h; exact ⟨rfl, fun _ => rfl, (List.append_nil _).symm, fun r e => ⟨r.held, e⟩⟩
  | identify w => cases h; exact ⟨rfl, fun hw => absurd rfl (hw w), (List.append_nil _).symm, fun r e => ⟨r.held, e⟩⟩

/-! ### What a command keeps of the registers -/

/-- What command `i`, started in `s`, has kept of the registers and the queues in `u` (R23, R26, R30, R180). -/
structure KeepsRegisters (i : Instr) (s u : State) : Prop where
  cfg      : u.cfg = s.cfg
  cmd      : u.cmd = s.cmd
  addr     : u.addr = s.addr
  len      : u.len = s.len
  inbox    : u.inbox = s.inbox
  during   : u.during = s.during
  hostData : u.hostData = s.hostData
  jedecId  : i ≠ .probe → u.jedecId = s.jedecId
  desc     : i ≠ .probe → u.desc = s.desc
  dbuf     : fillsDbuf i = false → u.dbuf = s.dbuf
  above    : ∀ k, s.len.toNat ≤ k → u.dbuf.lookup k = s.dbuf.lookup k

theorem KeepsRegisters.perform {i : Instr} {u : State} {a : Act} {x : Answer} (h : KeepsRegisters i s u)
    (ha : Special s i a) (hp : perform a u = .ok (x, t)) : KeepsRegisters i s (t.hear x) := by
  have hst := perform_steady hp
  have heff := perform_effect hp
  exact {
    cfg      := hst.cfg.trans h.cfg
    cmd      := hst.cmd.trans h.cmd
    addr     := hst.addr.trans h.addr
    len      := hst.len.trans h.len
    inbox    := hst.inbox.trans h.inbox
    during   := hst.during.trans h.during
    hostData := hst.hostData.trans h.hostData
    jedecId  := fun hi => (heff.jedecId fun w e => by subst e; exact hi ha).trans (h.jedecId hi)
    desc     := fun hi => ((ha.keeps_desc hp).resolve_right hi).trans (h.desc hi)
    dbuf     := fun hi => by
      refine Eq.trans (heff.dbuf.trans ?_) (h.dbuf hi)
      cases a with
      | memWrite k bs => exact absurd (ha.1.symm.trans hi) nofun
      | _ => rfl
    above    := fun k hk => by
      rw [hear_dbuf, heff.dbuf, ← h.above k hk]
      cases a with
      | memWrite j bs =>
        obtain ⟨-, hj, -⟩ := ha
        rw [Act.dbufAfter, Memory.lookup_writeList, if_neg (by omega)]
      | _ => rfl }

theorem KeepsRegisters.finish {i : Instr} {u : State} (h : KeepsRegisters i s u) (c : Code) (v : Word) :
    KeepsRegisters i s (finish c v u) where
  cfg      := (finish_cfg c v u).trans h.cfg
  cmd      := (finish_cmd c v u).trans h.cmd
  addr     := (finish_addr c v u).trans h.addr
  len      := (finish_len c v u).trans h.len
  inbox    := (finish_inbox c v u).trans h.inbox
  during   := (finish_during c v u).trans h.during
  hostData := (finish_hostData c v u).trans h.hostData
  jedecId hi := (finish_jedecId c v u).trans (h.jedecId hi)
  desc hi    := (finish_desc c v u).trans (h.desc hi)
  dbuf hi    := (finish_dbuf c v u).trans (h.dbuf hi)
  above k hk := by rw [finish_dbuf]; exact h.above k hk

/-- A command with no move inside it keeps the registers its script does not write. -/
theorem exec_keepsRegisters {i : Instr} (hd : s.during = []) (h : exec i s = .next t) : KeepsRegisters i s t := by
  rw [exec_eq] at h
  have hs : KeepsRegisters i s s.started :=
    ⟨rfl, rfl, rfl, rfl, rfl, rfl, rfl, fun _ => rfl, fun _ => rfl, fun _ => rfl, fun _ _ => rfl⟩
  have hland : Lands (KeepsRegisters i s) fun _ => False := lands_alone fun u hu => hu.during.trans hd
  rcases run_all (script_special i s) hland (fun a u x t ha hu hp => ⟨(perform_answers hp).admits, hu.perform ha hp⟩) hs h
    with ⟨v, u, -, hu, rfl⟩ | ⟨c, u, -, hu, rfl⟩ | hf
  · exact hu.finish _ _
  · exact hu.finish _ _
  · exact hf.elim

/-- Settles O50: each act of a command keeps the registers that are not its own, and so does the command's end. -/
theorem registerFrame : Obligations.RegisterFrame := by
  intro i s t hd h
  obtain ⟨h1, h2, h3, h4, h5, h6, h7, hj, hdesc, hdbuf, habove⟩ := exec_keepsRegisters hd h
  exact ⟨h1, h2, h3, h4, h5, h6, h7, fun hi => ⟨hj hi, hdesc hi⟩, hdbuf, habove⟩

end Sys2Proof.Machine
end

section
/-! SUPPORT. The log of a command: which frames it sent and how many bytes it has committed, tracked along its script
(`Script.Logs`, `exec_logs`); and the frames that a command and a step send. -/

namespace Sys2Proof.Machine

variable {s t u : State} {i : Instr}

/-! ### DBUF is read before it is written -/

/-- The act reads DBUF. -/
def Act.isRead : Act → Bool
  | .memRead _ _ => true
  | _            => false

/-- The act writes DBUF. -/
def Act.isWrite : Act → Bool
  | .memWrite _ _ => true
  | _             => false

/-- No act reads DBUF after one wrote it; `wrote` says that one did. -/
def Script.ReadsFirst : Bool → Script → Prop
  | wrote, .act a k => (wrote = true → a.isRead = false) ∧ ∀ x, a.admits x → (k x).ReadsFirst (wrote || a.isWrite)
  | _, .done _      => True
  | _, .raise _     => True

theorem readsFirst_of_noWrite {c : Script} (h : c.Does fun a => a.isWrite = false) : c.ReadsFirst false := by
  induction c with
  | done v => trivial
  | raise e => trivial
  | act a k ih => exact ⟨nofun, fun x hx => by rw [h.1]; exact ih x (h.2 x hx)⟩

theorem readsFirst_of_noRead {c : Script} {wrote : Bool} (h : c.Does fun a => a.isRead = false) : c.ReadsFirst wrote := by
  induction c generalizing wrote with
  | done v => trivial
  | raise e => trivial
  | act a k ih => exact ⟨fun _ => h.1, fun x hx => ih x (h.2 x hx)⟩

theorem readsFirst_require {b wrote : Bool} {e : Code} {c : Script} (h : c.ReadsFirst wrote) :
    (require b e c).ReadsFirst wrote := by
  cases b
  · trivial
  · exact h

/-- TRANSFER reads DBUF once, before it writes it (R160). -/
theorem readsFirst_transfer (op : BitVec 8) (x : Context) : (transferScript op x).ReadsFirst false := by
  have hA : OnBus fun a => a.isRead = false := ⟨fun _ _ _ => rfl, rfl, rfl⟩
  refine readsFirst_require (readsFirst_require ⟨nofun, fun y _ => ?_⟩)
  cases y with
  | failed e => trivial
  | _ =>
    exact ⟨nofun, fun _ _ => readsFirst_of_noRead (does_xfer hA fun _ _ => does_release hA (does_memWrite rfl
      (does_tally rfl trivial)))⟩

/-- No command reads DBUF after it wrote it. -/
theorem script_readsFirst (i : Instr) (s : State) : (scriptOf i (s.latched.context s)).ReadsFirst false := by
  by_cases hf : fillsDbuf i = false
  · refine readsFirst_of_noWrite ((script_special i s).mono (fun a ha => ?_) (fun _ _ _ h => h) (fun _ h => h) fun _ h => h)
    cases a with
    | memWrite k bs => exact absurd (ha.1.symm.trans hf) nofun
    | _ => rfl
  · by_cases ht : ∃ op, i = .transfer op
    · obtain ⟨op, rfl⟩ := ht
      exact readsFirst_transfer op _
    · refine readsFirst_of_noRead ((script_special i s).mono (fun a ha => ?_) (fun _ _ _ h => h) (fun _ h => h) fun _ h => h)
      cases a with
      | memRead k n => exact absurd ha.1 (not_or.2 ⟨hf, ht⟩)
      | _ => rfl

/-! ### The log of a script -/

/-- The answers acts give when no transaction is too large. -/
def Heard (a : Act) (x : Answer) : Prop := a.Answers x ∧ x ≠ .failed .transferTooLarge

/-- However the script goes on, from `w` frames with `mark` sent and `n` bytes committed, it ends with a code, a number of
such frames and a number of bytes that stand in `G`. -/
def Script.Logs (mark : Frame → Bool) (G : Code → Nat → Nat → Prop) : Script → Nat → Nat → Prop
  | .done _, w, n  => G .ok w n
  | .raise c, w, n => G c w n
  | .act a k, w, n => ∀ x, Heard a x → (k x).Logs mark G (w + (a.sends x).countP mark) (a.doneAfter n)

variable {mark : Frame → Bool} {G : Code → Nat → Nat → Prop}

/-- Where `u` stands in the run of command `i` that started in `s`: `w` frames with `mark` sent, `n` bytes committed. -/
structure Track (i : Instr) (s : State) (mark : Frame → Bool) (w n : Nat) (u : State) : Prop where
  alone : u.during = []
  cfg   : u.cfg = s.cfg
  sent  : ∃ fs, framesOf u.trace = framesOf s.trace ++ fs ∧ fs.countP mark = w ∧ ∀ f ∈ fs, MayIssue s i f
  done  : ∃ r, u.phase = .running r ∧ r.done = n

/-- How command `i`, started in `s`, ended in `t`: with a code of its rule, the frames of its script, and a DONE_COUNT that
stands to them as `G` says. -/
structure Closed (i : Instr) (s : State) (mark : Frame → Bool) (G : Code → Nat → Nat → Prop) (c : Code) (fs : List Frame)
    (n : Nat) (t : State) : Prop where
  code   : c ∈ codesOf i
  result : t.result = c.number
  idle   : t.phase = .idle
  rdata  : c ≠ .ok → t.rdata = 0
  sent   : framesOf t.trace = framesOf s.trace ++ fs
  may    : ∀ f ∈ fs, MayIssue s i f
  done   : t.doneCount = BitVec.ofNat 32 n
  log    : G c (fs.countP mark) n

theorem passive_releaseHeld (n : Nat) (s : State) : Passive s (releaseHeld n s) := by
  induction n generalizing s with
  | zero => exact Passive.refl s
  | succ n ih => exact (passive_releaseBus s).trans (ih _)

/-- The end of a command sends no frame. -/
@[simp] theorem framesOf_finish (c : Code) (v : Word) (s : State) :
    framesOf (finish c v s).trace = framesOf s.trace := (passive_releaseHeld s.held s).sent

theorem ok_mem_codesOf (i : Instr) : Code.ok ∈ codesOf i := by cases i <;> exact List.mem_cons_self ..

theorem Track.close {w n : Nat} (h : Track i s mark w n u) {c : Code} {v : Word} (hc : c ∈ codesOf i) (hv : c ≠ .ok → v = 0)
    (hG : G c w n) : ∃ fs, Closed i s mark G c fs n (finish c v u) := by
  obtain ⟨fs, hfs, rfl, hmay⟩ := h.sent
  obtain ⟨r, hr, rfl⟩ := h.done
  exact ⟨fs, hc, rfl, rfl, hv, by rw [framesOf_finish, hfs], hmay, by rw [finish_doneCount, State.done, hr], hG⟩

/-- A transaction whose size the controller admits is not too large (R141). -/
theorem transact_not_tooLarge {op : Byte} {out : List Byte} {n : Nat} {x : Answer}
    (hok : xferOk s.cfg.gen out.length n = true) (h : transact op out n s = (x, t)) : x ≠ .failed .transferTooLarge := by
  rcases transact_cases op out n s with ⟨hno, -⟩ | ⟨-, v, c, y, -, e, -, -, hy⟩
  · rw [hok] at hno; cases hno
  · rw [e] at h
    cases h
    rcases hy with ⟨rfl, -⟩ | rfl | ⟨bs, -, rfl⟩ <;> nofun

/-- The answers of a command's acts are those `script_all` speaks of, while DBUF is as it was. -/
theorem said_of_perform {a : Act} {x : Answer} (ha : ActOf s i a) (hcfg : u.cfg = s.cfg)
    (hd : a.isRead = true → u.dbuf = s.dbuf) (hp : perform a u = .ok (x, t)) : Said s a x := by
  refine ⟨perform_answers hp, ?_⟩
  cases a with
  | xfer op out n => exact transact_not_tooLarge (by rw [hcfg]; exact ha.2) (show transact op out n u = (x, t) by simpa [perform] using hp)
  | memRead k n =>
    simp only [perform] at hp
    split at hp
    · rename_i bs hbs
      cases hp
      show Answer.bytes bs = .bytes (s.dbufSlice k n)
      rw [dbufBytes_slice hbs]
      simp only [State.dbufSlice, State.dbufAt, hd rfl]
    · cases hp
  | _ => trivial

theorem Said.heard {a : Act} {x : Answer} (h : Said s a x) : Heard a x := by
  refine ⟨h.1, ?_⟩
  obtain ⟨ha, hs⟩ := h
  cases a with
  | xfer op out n => exact hs
  | claim => rcases ha with rfl | ⟨n, rfl⟩ <;> nofun
  | hostClaim => rcases ha with rfl | ⟨n, rfl⟩ <;> nofun
  | hostRelease => rcases ha with rfl | ⟨n, rfl⟩ <;> nofun
  | memRead k n => rw [hs]; nofun
  | _ => rw [show x = .done from ha]; nofun

/-- Every frame an act of a command sends is one the command may issue. -/
theorem ActOf.may {a : Act} {x : Answer} (ha : ActOf s i a) : ∀ f ∈ a.sends x, MayIssue s i f := by
  intro f hf
  cases a with
  | xfer op out n =>
    rw [Act.sends] at hf
    split at hf
    · cases hf
    · rw [List.mem_singleton.1 hf]
      exact ha.1
  | _ => cases hf

theorem Track.perform {w n : Nat} {a : Act} {x : Answer} (h : Track i s mark w n u) (ha : ActOf s i a)
    (hp : perform a u = .ok (x, t)) : Track i s mark (w + (a.sends x).countP mark) (a.doneAfter n) (t.hear x) := by
  have hst := perform_steady hp
  have heff := perform_effect hp
  obtain ⟨fs, hfs, rfl, hmay⟩ := h.sent
  obtain ⟨r, hr, rfl⟩ := h.done
  obtain ⟨k, ht⟩ := heff.phase r hr
  refine ⟨hst.during.trans h.alone, hst.cfg.trans h.cfg, ⟨fs ++ a.sends x, ?_, List.countP_append, ?_⟩, ?_⟩
  · rw [hear_trace, heff.sent, hfs, List.append_assoc]
  · intro f hf
    rcases List.mem_append.1 hf with hf | hf
    · exact hmay f hf
    · exact ha.may f hf
  · rw [State.hear, ht]
    exact ⟨_, rfl, rfl⟩

/-- A run that answers a next state ends as the log of its script says. -/
theorem run_logs {c : Script} {wrote : Bool} {w n : Nat}
    (hc : c.All (ActOf s i) (Said s) (fun _ => True) fun e => e ∈ codesOf i) (hl : c.Logs mark G w n)
    (hr : c.ReadsFirst wrote) (hd : wrote = false → u.dbuf = s.dbuf) (hu : Track i s mark w n u)
    (h : run c u = .next t) : ∃ e fs m, Closed i s mark G e fs m t := by
  induction c generalizing u wrote w n with
  | done v =>
    rw [run_done_alone v hu.alone] at h
    cases h
    obtain ⟨fs, hcl⟩ := hu.close (v := v) (ok_mem_codesOf i) (fun hne => absurd rfl hne) hl
    exact ⟨_, fs, n, hcl⟩
  | raise e =>
    rw [run_raise_alone e hu.alone] at h
    cases h
    obtain ⟨fs, hcl⟩ := hu.close (v := 0) hc (fun _ => rfl) hl
    exact ⟨e, fs, n, hcl⟩
  | act a k ih =>
    rw [run_act, land_alone hu.alone, andThen_ok] at h
    obtain ⟨x, v, hp, h⟩ := afterAct_next h
    have hsaid := said_of_perform hc.1 hu.cfg (fun hread => hd (by
      cases hw : wrote with
      | false => rfl
      | true => rw [hr.1 hw] at hread; cases hread)) hp
    refine ih x (hc.2 x hsaid) (hl x hsaid.heard) (hr.2 x hsaid.1.admits) (fun hw => ?_) (hu.perform hc.1 hp) h
    obtain ⟨hw1, hw2⟩ := Bool.or_eq_false_iff.1 hw
    rw [hear_dbuf, (perform_effect hp).dbuf, ← hd hw1]
    cases a with
    | memWrite j bs => cases hw2
    | _ => rfl

/-- A command that answers a next state ends as the log of its script says. -/
theorem exec_logs (hd : s.during = []) (hl : (scriptOf i (s.latched.context s)).Logs mark G 0 0)
    (h : exec i s = .next t) : ∃ c fs n, Closed i s mark G c fs n t := by
  rw [exec_eq] at h
  exact run_logs (u := s.started) (script_all i s) hl (script_readsFirst i s) (fun _ => rfl)
    ⟨hd, rfl, ⟨[], (List.append_nil _).symm, rfl, nofun⟩, ⟨_, rfl, rfl⟩⟩ h

theorem logs_true (c : Script) (w n : Nat) : c.Logs mark (fun _ _ _ => True) w n := by
  induction c generalizing w n with
  | done v => trivial
  | raise e => trivial
  | act a k ih => exact fun x _ => ih x _ _

/-! ### The frames a step sends -/

/-- A move of the outside world sends no frame of SEQ. -/
theorem Moved.sent (h : Moved s t) : framesOf t.trace = framesOf s.trace := by
  cases h with
  | ecFrame f _ => exact (passive_ecFrame f s).sent
  | _ => rfl

/-- The next act of a command that updates the status registers, if it is a WRSR, writes what the command read. -/
theorem wrote_next {r : Running} {a : Act} {k : Answer → Script} {d : Descriptor} (hi : decode r.cmd = .ok i)
    (hup : statusUpdate i ≠ none ∨ i = .getLockMode ∨ i = .getHwProtect) (hd : s.desc = some d)
    (hr : r.rest s = .act a k) : Wrote i d.op r.heard a := by
  rw [Running.rest, wordScript, hi] at hr
  exact (script_writes hup (show (r.context s).desc = some d from hd)).act_after hr

/-- Settles O55: a command's acts issue only its script's frames, and one act sends at most the frame of its transaction. -/
theorem onlyScriptFramesAreSent : Obligations.OnlyScriptFramesAreSent := by
  refine ⟨fun i s t hd h => ?_, fun s t r hp h => ?_⟩
  · obtain ⟨c, fs, n, hc⟩ := exec_logs (mark := fun _ => false) hd (logs_true _ 0 0) h
    exact ⟨fs, hc.sent, hc.may⟩
  · rw [step_running hp] at h
    rcases proceed_cases h with ⟨m, l, h⟩ | ⟨c, v, rfl⟩ | ⟨a, k, x, u, hr, hperf, rfl⟩
    · have hm := moved_plainMove h
      refine .inl ⟨hm.sent, ?_⟩
      rcases hm.phase with h | ⟨h, -⟩
      · exact .inl h
      · exact .inr ⟨r, h.trans hp, rfl⟩
    · exact .inl ⟨framesOf_finish c v s, .inl rfl⟩
    · have heff := perform_effect hperf
      obtain ⟨n, hu⟩ := heff.phase r hp
      have hphase : (u.hear x).phase = .running { r with
          step := r.step + (a.sends x).length, heard := r.heard ++ [x], held := n, done := a.doneAfter r.done } := by
        rw [State.hear, hu]; rfl
      have hsent : framesOf (u.hear x).trace = framesOf s.trace ++ a.sends x := heff.sent
      by_cases hnone : a.sends x = []
      · rw [hnone] at hphase hsent
        exact .inl ⟨hsent.trans (List.append_nil _), .inr ⟨_, hphase, rfl⟩⟩
      · cases a with
        | xfer op out n =>
          have hone : (Act.xfer op out n).sends x = [⟨op, out, n⟩] := by
            rw [Act.sends] at hnone ⊢
            split
            · rename_i hx; rw [if_pos hx] at hnone; exact absurd rfl hnone
            · rfl
          rw [hone] at hphase hsent
          refine .inr ⟨_, _, hsent, hphase, rfl, fun i d b1 b2 hi hup hd hf => ?_⟩
          cases hf
          exact wrote_next hi hup hd hr b1 b2 rfl
        | _ => exact absurd rfl hnone

end Sys2Proof.Machine
end

section
/-! SUPPORT. The logs of the commands that count bytes (R23, R203, R352), chunk by chunk; and that every command ends. -/

namespace Sys2Proof.Machine

variable {s t : State} {i : Instr} {mark : Frame → Bool} {G : Code → Nat → Nat → Prop} {w n : Nat} {k : Script}

/-! ### The log of a piece of a script -/

/-- Any failure but a refused claim may end the command here. -/
def GivesUp (G : Code → Nat → Nat → Prop) (w n : Nat) : Prop := ∀ c, c ≠ .ok → c ≠ .busClaimFailed → G c w n

/-- A transaction: one more frame, of which `b` has the mark. -/
theorem logs_xfer {op : Byte} {out : List Byte} {m b : Nat} {k : List Byte → Script}
    (hb : [(⟨op, out, m⟩ : Frame)].countP mark = b) (h : GivesUp G (w + b) n) (hk : ∀ bs, (k bs).Logs mark G (w + b) n) :
    (xfer op out m k).Logs mark G w n := by
  intro x hx
  have hs : (Act.xfer op out m).sends x = [⟨op, out, m⟩] := if_neg hx.2
  rw [hs, hb]
  rcases hx.1 with rfl | rfl | rfl | ⟨bs, -, rfl⟩
  · exact absurd rfl hx.2
  · exact h _ nofun nofun
  · exact h _ nofun nofun
  · exact hk bs

theorem logs_claim (h : G .busClaimFailed w n) (hk : k.Logs mark G w n) : (claim k).Logs mark G w n := by
  intro x hx
  rcases hx.1 with rfl | ⟨m, rfl⟩
  · exact h
  · exact hk

theorem logs_release (hk : k.Logs mark G w n) : (release k).Logs mark G w n := fun _ _ => hk

theorem logs_memRead {j m : Nat} {k : List Byte → Script} (hk : ∀ bs, (k bs).Logs mark G w n) :
    (memRead j m k).Logs mark G w n := fun _ _ => hk _

theorem logs_memWrite {j : Nat} {bs : List Byte} (hk : k.Logs mark G w n) : (memWrite j bs k).Logs mark G w n :=
  fun _ _ => hk

theorem logs_commit {m : Nat} (hk : k.Logs mark G w m) : (commit m k).Logs mark G w n := fun _ _ => hk

theorem logs_tally {m : Nat} (hk : k.Logs mark G w m) : (tally m k).Logs mark G w n := fun _ _ => hk

theorem logs_require {b : Bool} {c : Code} (h : G c w n) (hk : k.Logs mark G w n) :
    (require b c k).Logs mark G w n := by
  cases b
  · exact h
  · exact hk

theorem logs_prologue {d : Need} {x : Context} {e : Descriptor} {k : Descriptor → Script} (hx : x.desc = some e)
    (h : GivesUp G w n) (hk : (k e).Logs mark G w n) : (prologue d x k).Logs mark G w n := by
  rw [prologue, hx]
  exact logs_require (h _ nofun nofun) hk

theorem logs_rangeCheck {d : Descriptor} {x : Context} {b : Bool} (h : GivesUp G w n) (hk : k.Logs mark G w n) :
    (rangeCheck d x b k).Logs mark G w n :=
  logs_require (h _ nofun nofun) (logs_require (h _ nofun nofun) (logs_require (h _ nofun nofun) hk))

theorem logs_secCheck {r : Nat} {x : Context} (h : GivesUp G w n) (hk : k.Logs mark G w n) :
    (secCheck r x k).Logs mark G w n := logs_require (h _ nofun nofun) (logs_require (h _ nofun nofun) hk)

/-- The frame is a WREN (R172). -/
def isWren (o : OpSet) (f : Frame) : Bool := f == ⟨o.wren, [], 0⟩

theorem isWren_false_of_nIn (o : OpSet) (op : Byte) (out : List Byte) (m : Nat) :
    [(⟨op, out, m + 1⟩ : Frame)].countP (isWren o) = 0 := by simp [isWren]

theorem isWren_false_of_out (o : OpSet) (op b : Byte) (out : List Byte) (m : Nat) :
    [(⟨op, b :: out, m⟩ : Frame)].countP (isWren o) = 0 := by simp [isWren]

theorem logs_writeEnable {o : OpSet} (h : GivesUp G (w + 1) n) (hk : k.Logs (isWren o) G (w + 1) n) :
    (writeEnable o k).Logs (isWren o) G w n := logs_xfer (by simp [isWren]) h fun _ => hk

theorem logs_pollReady {o : OpSet} {m : Nat} (h : GivesUp G w n) (hk : k.Logs (isWren o) G w n) :
    (pollReady o m k).Logs (isWren o) G w n := by
  induction m with
  | zero => exact h _ nofun nofun
  | succ m ih =>
    refine logs_xfer (isWren_false_of_nIn o _ _ 0) h fun r => ?_
    split
    · exact hk
    · exact ih

theorem logs_secLockedCheck {o : OpSet} {r : Nat} (h : GivesUp G w n) (hk : k.Logs (isWren o) G w n) :
    (secLockedCheck o r k).Logs (isWren o) G w n := by
  intro x hx
  have hs : (Act.xfer o.rdsr2 [] 1).sends x = [⟨o.rdsr2, [], 1⟩] := if_neg hx.2
  rw [hs, isWren_false_of_nIn o _ _ 0]
  have hfail : GivesUp G (w + 0) n := h
  rcases hx.1 with rfl | rfl | rfl | ⟨bs, -, rfl⟩
  · exact absurd rfl hx.2
  · exact hfail _ nofun nofun
  · exact hfail _ nofun nofun
  · exact logs_require (hfail _ nofun nofun) hk

theorem logs_eraseRegion {o : OpSet} {m r : Nat} (h : GivesUp G (w + 1) n) (hk : k.Logs (isWren o) G (w + 1) n) :
    (eraseRegion o m r k).Logs (isWren o) G w n :=
  logs_writeEnable h (logs_xfer (isWren_false_of_out o _ _ _ 0) h fun _ => logs_pollReady h hk)

/-- A script that commits nothing logs nothing. -/
theorem logs_of_no_count {c : Script} (h : c.Does fun a => ∀ n, a.doneAfter n = n) :
    c.Logs mark (fun _ _ n => n = 0) w 0 := by
  induction c generalizing w with
  | done v => rfl
  | raise e => rfl
  | act a k ih =>
    intro x hx
    rw [h.1 0]
    exact ih x (h.2 x hx.1.admits)

/-! ### Chunks -/

/-- The log of a command with chunks of the sizes `L`, of which the first `e` marked frames start none: what it has committed
is the chunks before the one that failed, and a refused claim comes before its chunk's first frame (R203, R352). -/
def ChunkLog (L : List Nat) (e : Nat) (c : Code) (w n : Nat) : Prop :=
  n = (L.take (if c = .ok ∨ c = .busClaimFailed then w - e else w - e - 1)).sum

theorem chunkLog_start {L : List Nat} {e : Nat} (c : Code) (h : w ≤ e) : ChunkLog L e c w 0 := by
  rw [ChunkLog, Nat.sub_eq_zero_of_le h]
  simp

theorem chunkLog_between {pre post : List Nat} {e : Nat} {c : Code} (h : c = .ok ∨ c = .busClaimFailed) :
    ChunkLog (pre ++ post) e c (e + pre.length) pre.sum := by
  rw [ChunkLog, if_pos h, Nat.add_sub_cancel_left, List.take_left]

theorem chunkLog_fails {pre post : List Nat} {e : Nat} :
    GivesUp (ChunkLog (pre ++ post) e) (e + pre.length + 1) pre.sum := by
  intro c h1 h2
  rw [ChunkLog, if_neg (not_or.2 ⟨h1, h2⟩), show e + pre.length + 1 - e - 1 = pre.length by omega, List.take_left]

/-- What the log of a chunk may be: before it `w` marked frames and `n` bytes; it starts with one marked frame and ends with
its size committed. -/
def ChunkLogs (mark : Frame → Bool) (G : Code → Nat → Nat → Prop) (size : Nat) (f : Script → Script) (w n : Nat) : Prop :=
  G .busClaimFailed w n → GivesUp G (w + 1) n → ∀ k : Script, k.Logs mark G (w + 1) (n + size) → (f k).Logs mark G w n

/-- The loop over the chunks of a command. -/
theorem logs_chunks {α : Type} {xs : List α} {size : α → Nat} {f : α → Script → Script} {e : Nat}
    (hf : ∀ pre x post, xs = pre ++ x :: post →
      ChunkLogs mark (ChunkLog (xs.map size) e) (size x) (f x) (e + pre.length) (pre.map size).sum)
    (hk : ∀ w n, ChunkLog (xs.map size) e .ok w n → k.Logs mark (ChunkLog (xs.map size) e) w n) :
    (each xs f k).Logs mark (ChunkLog (xs.map size) e) e 0 := by
  have loop : ∀ pre ys, xs = pre ++ ys →
      (each ys f k).Logs mark (ChunkLog (xs.map size) e) (e + pre.length) (pre.map size).sum := by
    intro pre ys
    induction ys generalizing pre with
    | nil =>
      intro hxs
      have hend := chunkLog_between (pre := pre.map size) (post := [].map size) (e := e) (.inl rfl)
      rw [← List.map_append, ← hxs, List.length_map] at hend
      exact hk _ _ hend
    | cons y ys ih =>
      intro hxs
      have hL : xs.map size = pre.map size ++ (y :: ys).map size := by rw [hxs, List.map_append]
      have hclaim := chunkLog_between (pre := pre.map size) (post := (y :: ys).map size) (e := e) (.inr rfl)
      have hfail := chunkLog_fails (pre := pre.map size) (post := (y :: ys).map size) (e := e)
      rw [← hL, List.length_map] at hclaim hfail
      refine hf pre y ys hxs hclaim hfail _ ?_
      have := ih (pre ++ [y]) (by rw [hxs, List.append_assoc]; rfl)
      simpa [Nat.add_assoc] using this
  exact loop [] xs rfl

/-- A piece of a read begins where the pieces before it end. -/
theorem slice_begins {n ch : Nat} {pre post : List (Nat × Nat)} {x : Nat × Nat} (h : slices n ch = pre ++ x :: post) :
    x.1 = (pre.map (·.2)).sum := by
  have walk : ∀ fuel done pre, slicesFrom fuel n ch done = pre ++ x :: post → x.1 = done + (pre.map (·.2)).sum := by
    intro fuel
    induction fuel with
    | zero => intro done pre e; cases pre <;> cases e
    | succ fuel ih =>
      intro done pre e
      rw [slicesFrom] at e
      split at e
      · cases pre with
        | nil => cases e; rfl
        | cons y ys =>
          obtain ⟨rfl, e'⟩ := List.cons.inj e
          rw [ih _ _ e', List.map_cons, List.sum_cons, Nat.add_assoc]
      · cases pre <;> cases e
  simpa using walk n 0 pre h

/-- A piece of a write begins where the pieces before it end. -/
theorem chunk_begins {o n P : Nat} {pre post : List (Nat × Nat)} {x : Nat × Nat} (h : chunks o n P = pre ++ x :: post) :
    x.1 = o + (pre.map (·.2)).sum := by
  have walk : ∀ fuel done pre, chunksFrom fuel o n P done = pre ++ x :: post →
      x.1 = o + done + (pre.map (·.2)).sum := by
    intro fuel
    induction fuel with
    | zero => intro done pre e; cases pre <;> cases e
    | succ fuel ih =>
      intro done pre e
      rw [chunksFrom] at e
      split at e
      · cases pre with
        | nil => cases e; rfl
        | cons y ys =>
          obtain ⟨rfl, e'⟩ := List.cons.inj e
          rw [ih _ _ e', List.map_cons, List.sum_cons]
          omega
      · cases pre <;> cases e
  simpa using walk n 0 pre h

/-- The sectors of an erase lie one after the other. -/
theorem sector_begins {o len ss a : Nat} {pre post : List Nat} (h : sectorsOf o len ss = pre ++ a :: post) :
    a = o + (pre.map fun _ => ss).sum := by
  have hget : (sectorsOf o len ss)[pre.length]? = some a := by rw [h]; simp
  rw [sectorsOf, List.getElem?_map, Option.map_eq_some_iff] at hget
  obtain ⟨j, hj, rfl⟩ := hget
  obtain ⟨hlt, rfl⟩ := List.getElem?_eq_some_iff.1 hj
  simp

/-! ### The log of a command -/

theorem chunkLogs_read {opc : Byte} {extra : List Byte} {base : Nat} {ch : Nat × Nat} (h : ch.1 = n) :
    ChunkLogs (fun _ => true) G ch.2 (readChunk opc extra base ch) w n := by
  intro hclaim hfail k hk
  rw [← h] at hk
  exact logs_claim hclaim (logs_xfer rfl hfail fun _ => logs_release (logs_memWrite (logs_commit hk)))

theorem chunkLogs_secRead {o : OpSet} {r off : Nat} {ch : Nat × Nat} (h : ch.1 = n) :
    ChunkLogs (fun _ => true) G ch.2 (secReadChunk o r off ch) w n := by
  intro hclaim hfail k hk
  rw [← h] at hk
  exact logs_claim hclaim (logs_xfer rfl hfail fun _ => logs_release (logs_memWrite (logs_commit hk)))

theorem chunkLogs_write {d : Descriptor} {limit base : Nat} {ch : Nat × Nat} (h : ch.1 = base + n) :
    ChunkLogs (isWren d.op) G ch.2 (writeChunk d limit base ch) w n := by
  intro hclaim hfail k hk
  have hn : ch.1 - base = n := by omega
  exact logs_claim hclaim (logs_writeEnable hfail (logs_memRead fun _ => logs_xfer (isWren_false_of_out _ _ _ _ 0) hfail
    fun _ => logs_pollReady hfail (logs_release (logs_commit (by rw [hn]; exact hk)))))

theorem chunkLogs_secProgram {o : OpSet} {limit r base : Nat} {ch : Nat × Nat} (h : ch.1 = base + n) :
    ChunkLogs (isWren o) G ch.2 (secProgramChunk o limit r base ch) w n := by
  intro _ hfail k hk
  have hn : ch.1 - base = n := by omega
  exact logs_writeEnable hfail (logs_memRead fun _ => logs_xfer (isWren_false_of_out _ _ _ _ 0) hfail
    fun _ => logs_pollReady hfail (logs_commit (by rw [hn]; exact hk)))

theorem chunkLogs_erase {d : Descriptor} {limit base a : Nat} (h : a = base + n) :
    ChunkLogs (isWren d.op) G d.sectorSize (eraseSector d limit base a) w n := by
  intro hclaim hfail k hk
  have hn : a - base = n := by omega
  exact logs_claim hclaim (logs_writeEnable hfail (logs_xfer (isWren_false_of_out _ _ _ _ 0) hfail
    fun _ => logs_pollReady hfail (logs_release (logs_commit (by rw [hn]; exact hk)))))

/-- The log of command `i` counts what DONE_COUNT shall hold (R23, R203, R352). -/
def Counted (s : State) (i : Instr) : Prop :=
  ∃ mark G, (scriptOf i (s.latched.context s)).Logs mark G 0 0 ∧
    ∀ c (fs : List Frame) n, G c (fs.countP mark) n → n = bytesDone s c fs i

/-- A command without a count of its own commits nothing (R23). -/
theorem counted_of_not_counts (hi : counts i = false) : Counted s i := by
  refine ⟨fun _ => false, _, logs_of_no_count ((script_special i s).mono (fun a ha => ?_) (fun _ _ _ h => h)
    (fun _ h => h) fun _ h => h), fun c fs n hn => ?_⟩
  · cases a with
    | commit m => rw [show counts i = true from ha] at hi; cases hi
    | tally m => rw [show counts i = true from ha] at hi; cases hi
    | _ => exact fun _ => rfl
  · rw [show n = 0 from hn]
    cases i with
    | read => cases hi
    | write => cases hi
    | erase => cases hi
    | secRead => cases hi
    | secProgram => cases hi
    | secErase => cases hi
    | transfer => cases hi
    | _ => cases hd : s.desc <;> simp [bytesDone, hd, chunkSizes]

/-- A command that needs a bound descriptor and finds none ends at once, with nothing done (R175). -/
theorem counted_unbound {d : Need} (hn : needOf i = some d) (hd : s.desc = none) : Counted s i := by
  refine ⟨fun _ => false, fun c _ n => c = .noDevice ∧ n = 0, ?_, fun c fs n h => ?_⟩
  · rw [script_unbound hn (by rw [latched_context]; exact hd)]
    exact ⟨rfl, rfl⟩
  · obtain ⟨rfl, rfl⟩ := h
    cases i <;> simp [bytesDone, hd]

theorem counted_transfer {op : BitVec 8} : Counted s (.transfer op) := by
  refine ⟨fun _ => false, fun c _ n => n = if c = .ok then s.len.toNat else 0, ?_, fun c fs n hn => by rw [hn]; rfl⟩
  have hfail : GivesUp (fun c _ n => n = if c = .ok then s.len.toNat else 0) 0 0 := fun c h _ => (if_neg h).symm
  exact logs_require rfl (logs_require rfl (logs_claim rfl (logs_memRead fun _ => logs_xfer rfl hfail fun _ =>
    logs_release (logs_memWrite (logs_tally rfl)))))

section bound
variable {d : Descriptor} (hd : s.desc = some d)
include hd

theorem counted_secErase {r : BitVec 8} : Counted s (.secErase r) := by
  refine ⟨isWren d.op, fun c _ n => n = if c = .ok then secRegionSize else 0, ?_, fun c fs n hn => by rw [hn]; rfl⟩
  have hfail : ∀ w, GivesUp (fun c _ n => n = if c = .ok then secRegionSize else 0) w 0 := fun _ c h _ => (if_neg h).symm
  exact logs_prologue hd (hfail _) (logs_secCheck (hfail _) (logs_claim rfl (logs_secLockedCheck (hfail _)
    (logs_eraseRegion (hfail _) (logs_release (logs_tally rfl))))))

/-- A command whose log is that of its chunks, of which the first `e` marked frames start none. -/
theorem counted_of_chunkLog {e : Nat} (h : (scriptOf i (s.latched.context s)).Logs mark (ChunkLog (chunkSizes s d i) e) 0 0)
    (hw : ∀ fs : List Frame, fs.countP mark - e = chunksStarted d fs i) (hi : ∀ r, i ≠ .secErase r) (ht : ∀ op, i ≠ .transfer op) :
    Counted s i := by
  refine ⟨mark, _, h, fun c fs n hn => ?_⟩
  rw [ChunkLog, hw] at hn
  rw [hn]
  cases i with
  | secErase r => exact absurd rfl (hi r)
  | transfer op => exact absurd rfl (ht op)
  | _ => simp only [bytesDone, hd]

theorem counted_read : Counted s .read := by
  have hfail : GivesUp (ChunkLog (chunkSizes s d .read) 0) 0 0 := fun c _ _ => chunkLog_start c (Nat.le_refl _)
  exact counted_of_chunkLog hd (logs_prologue hd hfail (logs_rangeCheck hfail
    (logs_chunks (fun _ _ _ h => chunkLogs_read (slice_begins h)) fun _ _ h => h)))
    (fun fs => congrFun List.countP_true fs) nofun nofun

theorem counted_secRead {r : BitVec 8} : Counted s (.secRead r) := by
  have hfail : GivesUp (ChunkLog (chunkSizes s d (.secRead r)) 0) 0 0 := fun c _ _ => chunkLog_start c (Nat.le_refl _)
  exact counted_of_chunkLog hd (logs_prologue hd hfail (logs_secCheck hfail
    (logs_chunks (fun _ _ _ h => chunkLogs_secRead (slice_begins h)) fun _ _ h => h)))
    (fun fs => congrFun List.countP_true fs) nofun nofun

theorem counted_write : Counted s .write := by
  have hfail : GivesUp (ChunkLog (chunkSizes s d .write) 0) 0 0 := fun c _ _ => chunkLog_start c (Nat.le_refl _)
  exact counted_of_chunkLog hd (logs_prologue hd hfail (logs_rangeCheck hfail
    (logs_chunks (fun _ _ _ h => chunkLogs_write (chunk_begins h)) fun _ _ h => h))) (fun _ => rfl) nofun nofun

theorem counted_erase : Counted s .erase := by
  have hfail : GivesUp (ChunkLog (chunkSizes s d .erase) 0) 0 0 := fun c _ _ => chunkLog_start c (Nat.le_refl _)
  exact counted_of_chunkLog hd (logs_prologue hd hfail (logs_rangeCheck hfail (logs_require (hfail _ nofun nofun)
    (logs_chunks (fun _ _ _ h => chunkLogs_erase (sector_begins h)) fun _ _ h => h)))) (fun _ => rfl) nofun nofun

/-- The WREN of the erase of the region starts no chunk (R278). -/
theorem counted_secProgram {r : BitVec 8} : Counted s (.secProgram r) := by
  have hstart : ∀ c w, w ≤ 1 → ChunkLog (chunkSizes s d (.secProgram r)) 1 c w 0 := fun c _ h => chunkLog_start c h
  have hfail : ∀ w, w ≤ 1 → GivesUp (ChunkLog (chunkSizes s d (.secProgram r)) 1) w 0 := fun w h c _ _ => hstart c w h
  refine counted_of_chunkLog hd (logs_prologue hd (hfail 0 (by omega)) (logs_secCheck (hfail 0 (by omega)) ?_))
    (fun _ => rfl) nofun nofun
  split
  · exact hstart .ok 0 (by omega)
  · exact logs_claim (hstart _ 0 (by omega)) (logs_secLockedCheck (hfail 0 (by omega)) (logs_eraseRegion (hfail 1 (by omega))
      (logs_chunks (fun _ _ _ h => chunkLogs_secProgram (chunk_begins h)) fun _ _ h => logs_release h)))

end bound

theorem counted (i : Instr) (s : State) : Counted s i := by
  by_cases hi : counts i = false
  · exact counted_of_not_counts hi
  cases hd : s.desc with
  | none =>
    cases i with
    | transfer op => exact counted_transfer
    | read => exact counted_unbound (d := .anyDevice) rfl hd
    | write => exact counted_unbound (d := .anyDevice) rfl hd
    | erase => exact counted_unbound (d := .anyDevice) rfl hd
    | secRead r => exact counted_unbound (d := .security) rfl hd
    | secProgram r => exact counted_unbound (d := .security) rfl hd
    | secErase r => exact counted_unbound (d := .security) rfl hd
    | _ => exact absurd rfl hi
  | some d =>
    cases i with
    | transfer op => exact counted_transfer
    | read => exact counted_read hd
    | write => exact counted_write hd
    | erase => exact counted_erase hd
    | secRead r => exact counted_secRead hd
    | secProgram r => exact counted_secProgram hd
    | secErase r => exact counted_secErase hd
    | _ => exact absurd rfl hi

/-- What an act does not stop on: DBUF bytes that are written (R26). -/
theorem perform_loaded {u : State} {a : Act} (ha : Special s i a) (hl : u.Loaded (dbufSent s i)) :
    ∃ x t, perform a u = .ok (x, t) := by
  cases a with
  | memRead k n =>
    have hk : k + n ≤ dbufSent s i := ha.2
    have := dbufBytes_ok (s := u) (i := k) (n := n) fun j hj => hl (k + j) (by omega)
    exact ⟨.bytes (u.dbufSlice k n), u, by rw [perform, this]⟩
  | _ => exact ⟨_, _, rfl⟩

/-- A written DBUF byte stays written through an act. -/
theorem loaded_perform {u : State} {a : Act} {x : Answer} {m : Nat} (hl : u.Loaded m) (hp : perform a u = .ok (x, t)) :
    (t.hear x).Loaded m := by
  intro j hj
  rw [hear_dbuf, (perform_effect hp).dbuf]
  cases a with
  | memWrite k bs =>
    rw [Act.dbufAfter, Memory.lookup_writeList]
    split
    · have hlt : j - k < bs.length := by omega
      exact ⟨bs[j - k], by simp [List.getElem?_eq_getElem hlt, Option.filter, Space.fill]⟩
    · exact hl j hj
  | _ => exact hl j hj

/-- A command with no move inside it, whose DBUF bytes are written, ends in a next state (R25). -/
theorem exec_next (hd : s.during = []) (hl : s.Loaded (dbufSent s i)) : ∃ t, exec i s = .next t := by
  have hstep : ∀ a u, Special s i a → u.during = [] ∧ u.Loaded (dbufSent s i) → ∃ x t, perform a u = .ok (x, t) ∧
      a.admits x ∧ (t.hear x).during = [] ∧ (t.hear x).Loaded (dbufSent s i) := fun a u ha hu => by
    obtain ⟨x, t, hp⟩ := perform_loaded ha hu.2
    exact ⟨x, t, hp, (perform_answers hp).admits, (perform_steady hp).during.trans hu.1, loaded_perform hu.2 hp⟩
  rw [exec_eq]
  obtain ⟨t, ht, -⟩ := run_ends (script_special i s) (fun _ h => h.1) hstep (s := s.started) ⟨hd, hl⟩
  exact ⟨t, ht⟩

/-- Settles O49: a loaded command answers a next state, its log gives code and DONE_COUNT, and its steps reach the same state. -/
theorem everyCommandEnds : Obligations.EveryCommandEnds := by
  intro i s hd hl
  obtain ⟨t, ht⟩ := exec_next hd hl
  obtain ⟨mark, G, hlog, hG⟩ := counted i s
  obtain ⟨c, fs, n, hc⟩ := exec_logs hd hlog ht
  refine ⟨t, c, fs, ht, hc.code, hc.result, hc.idle, hc.rdata, hc.sent, ?_, fun hw => ?_⟩
  · rw [hc.done, hG c fs n hc.log]
  · rw [← ht]
    exact exec_steps hw

end Sys2Proof.Machine
end

section
/-! SUPPORT. What stops on an unwritten DBUF byte (R26, U1): a HOST read, and TRANSFER, WRITE and SEC_PROGRAM. -/

namespace Sys2Proof.Machine

variable {s t v : State} {u i n m : Nat} {k : Script}

/-! ### The read of an unwritten byte -/

theorem dbufByte_unwritten (h : s.dbuf.lookup i = none) : dbufByte s i = .error (.fault (.dbufUnwritten i)) := by
  simp [dbufByte, Memory.read, h, Space.fill]

theorem dbufByte_written (h : s.dbuf.lookup i ≠ none) : ∃ b, dbufByte s i = .ok b := by
  obtain ⟨b, hb⟩ := Option.ne_none_iff_exists'.1 h
  exact ⟨b, by simp [dbufByte, Memory.read, hb]⟩

/-- The byte `u` of DBUF is unwritten, and no byte from `i` up to it is. -/
structure Hole (dbuf : Memory) (i u : Nat) : Prop where
  unwritten : dbuf.lookup u = none
  written   : ∀ j, i ≤ j → j < u → dbuf.lookup j ≠ none

/-- `MemRead` stops on the first unwritten byte. -/
theorem dbufBytes_hole (h : Hole s.dbuf i u) (hi : i ≤ u) (hu : u < i + n) :
    dbufBytes s i n = .error (.dbufUnwritten u) := by
  induction n generalizing i with
  | zero => omega
  | succ n ih =>
    by_cases hiu : i = u
    · subst hiu
      simp [dbufBytes, Memory.read, h.unwritten, Space.fill]
    · obtain ⟨b, hb⟩ := Option.ne_none_iff_exists'.1 (h.written i (Nat.le_refl i) (by omega))
      have := ih (i := i + 1) ⟨h.unwritten, fun j hj => h.written j (by omega)⟩ (by omega) (by omega)
      simp [dbufBytes, Memory.read, hb, this]

/-! ### HOST reads -/

theorem cell8_dbuf (c : Config) (h : i < c.bufSize) : cell8 c (c.seqBase + 0x1000 + i) = some i := by
  have hoff : c.seqBase + 0x1000 + i - c.seqBase - 0x1000 = i := by omega
  rw [cell8, if_pos (by omega), hoff]

theorem cell32_dbufWord (c : Config) (h4 : i % 4 = 0) (h : i + 4 ≤ c.bufSize) :
    cell32 c (c.seqBase + 0x1000 + i) = some (.dbuf i) := by
  have hoff : c.seqBase + 0x1000 + i - c.seqBase = 0x1000 + i := by omega
  simp only [cell32, hoff]
  rw [if_neg (by omega), if_neg (by omega), if_neg (by omega), if_pos (by omega), Nat.add_sub_cancel_left]

theorem hostRead8_unwritten (h : s.dbuf.lookup i = none) (hi : i < s.cfg.bufSize) :
    hostRead8 s (s.cfg.seqBase + 0x1000 + i) = .error (.fault (.dbufUnwritten i)) := by
  rw [hostRead8, cell8_dbuf _ hi]
  exact dbufByte_unwritten h

theorem hostRead32_unwritten (h : Hole s.dbuf i (i + n)) (hn : n < 4) (h4 : i % 4 = 0) (hi : i + 4 ≤ s.cfg.bufSize) :
    hostRead32 s (s.cfg.seqBase + 0x1000 + i) = .error (.fault (.dbufUnwritten (i + n))) := by
  have hw : ∀ j < n, ∃ b, dbufByte s (i + j) = .ok b := fun j hj =>
    dbufByte_written (h.written (i + j) (by omega) (by omega))
  choose b hb using hw
  have hu := dbufByte_unwritten h.unwritten
  rw [hostRead32, cell32_dbufWord _ h4 hi]
  interval_cases n
  · simp only [show dbufByte s i = _ from hu]
    rfl
  · simp only [show dbufByte s i = _ from hb 0 (by omega), hu]
    rfl
  · simp only [show dbufByte s i = _ from hb 0 (by omega), hb 1 (by omega), hu]
    rfl
  · simp only [show dbufByte s i = _ from hb 0 (by omega), hb 1 (by omega), hb 2 (by omega), hu]
    rfl

/-- A move that starts no command and faults is a fault of the machine, between commands and inside one. -/
theorem step_fault {mv : Move} {w : State} {f : Fault} (h : s.NextMove mv w) (hs : ∀ x, startsCommand x mv = none)
    (hf : plainMove mv w = .error (.fault f)) : step s = .fault f := by
  cases h with
  | waiting rest hp hi =>
    rw [step_waiting hp hi (hs _), hf]
    rfl
  | inside r rest hp hr hd =>
    rw [step_inside hp hr hd, landMove, hf]
    rfl

theorem NextMove.same {mv : Move} {w : State} (h : s.NextMove mv w) : w.cfg = s.cfg ∧ w.dbuf = s.dbuf := by
  cases h <;> exact ⟨rfl, rfl⟩

theorem step_read8_unwritten {w : State} (h : s.NextMove (.read8 (s.cfg.seqBase + 0x1000 + i)) w)
    (hu : s.dbuf.lookup i = none) (hi : i < s.cfg.bufSize) : step s = .fault (.dbufUnwritten i) := by
  refine step_fault h (fun _ => rfl) ?_
  obtain ⟨hc, hd⟩ := NextMove.same h
  rw [← hd] at hu
  rw [← hc] at hi ⊢
  rw [plainMove, hostRead8_unwritten hu hi]
  rfl

theorem step_read32_unwritten {w : State} (h : s.NextMove (.read32 (s.cfg.seqBase + 0x1000 + i)) w)
    (hu : Hole s.dbuf i (i + n)) (hn : n < 4) (h4 : i % 4 = 0) (hi : i + 4 ≤ s.cfg.bufSize) :
    step s = .fault (.dbufUnwritten (i + n)) := by
  refine step_fault h (fun _ => rfl) ?_
  obtain ⟨hc, hd⟩ := NextMove.same h
  rw [← hd] at hu
  rw [← hc] at hi ⊢
  rw [plainMove, hostRead32_unwritten hu hn h4 hi]
  rfl

/-! ### TRANSFER -/

/-- A script that comes to the read of an unwritten byte stops there. -/
theorem run_memRead_hole {c : List Byte → Script} (hd : s.during = []) (h : Hole s.dbuf i u) (hi : i ≤ u) (hu : u < i + n) :
    run (memRead i n c) s = .fault (.dbufUnwritten u) := by
  rw [memRead, run_act, land_alone hd, andThen_ok, perform, dbufBytes_hole h hi hu]
  rfl

/-- The EC acknowledges, so a claim below `CLAIM_MAX` is taken (R150). -/
theorem claimOwn_taken (h : s.CanClaim) (he : s.env.drawEc.1.ack = true) : ∃ n t, claimOwn s = (.number n, t) := by
  rcases claimOwn_cases s with ⟨t, e, -⟩ | ⟨n, t, -, e⟩
  · have hne : s.claimCount ≠ s.cfg.claimMax := Nat.ne_of_lt h
    rcases claimBus_cases s with ⟨hm, -⟩ | ⟨-, -, e'⟩ | ⟨-, -, ⟨-, e'⟩ | ⟨ha, -⟩⟩
    · exact absurd hm hne
    · rw [e'] at e; cases e
    · rw [e'] at e; cases e
    · rw [he] at ha; cases ha
  · exact ⟨n, _, e⟩

theorem exec_transfer_hole {op : BitVec 8} (h : Hole s.dbuf 0 u) (hd : s.during = [])
    (he : s.env.ec.Always fun d => d.ack = true) (hc : s.CanClaim) (ha : s.addr.toNat ≤ s.cfg.bufSize)
    (hl : s.len.toNat ≤ s.cfg.bufSize) (hx : xferOk s.cfg.gen s.addr.toNat s.len.toNat = true) (hu : u < s.addr.toNat) :
    exec (.transfer op) s = .fault (.dbufUnwritten u) := by
  obtain ⟨n, t, ht⟩ := claimOwn_taken (s := s.started) hc (drawEc_always (e := s.env) he).1
  have hp : perform .claim s.started = .ok (.number n, t) := by rw [perform, ht]
  have hdt : t.dbuf = s.dbuf := (perform_effect hp).dbuf
  rw [exec_eq, scriptOf, latched_context, transferScript, require_true (decide_eq_true ⟨ha, hl⟩), require_true hx, claim,
    run_act_alone (s := s.started) _ hd hp]
  rw [unlessFailed]
  exact run_memRead_hole ((perform_steady hp).during.trans hd) (hdt ▸ h) (Nat.zero_le u)
    (by rw [Nat.zero_add]; exact hu)

/-! ### A chip in service -/

/-- The chip is the part `e`, and ready within `l` status reads. -/
structure Chip.Serves (e : Descriptor) (l : Nat) (c : Chip) : Prop where
  desc : c.desc = e
  soon : c.busyLeft < l

theorem Chip.Served.busyLeft {c c' : Chip} {l : Nat} (h : c.Served l c') : c'.busyLeft = c.busyLeft ∨ c'.busyLeft = l := by
  cases h with
  | same => exact .inl rfl
  | wel v => exact .inl rfl
  | _ => exact .inr rfl

theorem Chip.busyLeft_tick (c : Chip) : c.tick.busyLeft = c.busyLeft - 1 := by
  rw [Chip.tick]
  split
  · rename_i h
    rw [h]
    rfl
  · rfl

theorem Chip.Serves.answer {e : Descriptor} {l : Nat} {c : Chip} (h : c.Serves e l) (hp : e.departs = none) {d : ChipDraw}
    (hd : d.busy < l) (f : Frame) : (c.answer d f).2.Serves e l := by
  obtain ⟨rfl, hl⟩ := h
  refine ⟨(Chip.keepsLocks_answer hp d f).1, ?_⟩
  by_cases hb : 0 < c.busyLeft
  · rw [Chip.answer_busy hp hb, Chip.serveBusy_snd]
    show (c.atPin d.wp).tick.busyLeft < l
    rw [Chip.busyLeft_tick, Chip.atPin_busyLeft]
    omega
  · rw [Chip.answer_idle hp (by omega)]
    rcases (Chip.served_serve (c.atPin d.wp) d f).busyLeft with e | e
    · exact e ▸ hl
    · exact e ▸ hd

/-! ### Scripts that stop on an unwritten byte -/

/-- Where a command that starts in `v` has come in a quiet environment: `n` claims are held, the chip has `Q`. -/
structure Pending (v : State) (Q : Chip → Prop) (n : Nat) (s : State) : Prop where
  quiet  : s.Quiet fun _ => True
  cfg    : s.cfg = v.cfg
  dbuf   : s.dbuf = v.dbuf
  claims : s.claimCount = n
  chip   : Q s.chip

/-- From there the script stops on byte `u`. -/
def Stops (v : State) (u : Nat) (Q : Chip → Prop) (n : Nat) (c : Script) : Prop :=
  ∀ s, Pending v Q n s → run c s = .fault (.dbufUnwritten u)

variable {Q : Chip → Prop}

theorem Pending.hear (h : Pending v Q n s) (x : Answer) : Pending v Q n (s.hear x) :=
  ⟨Quiet.mono h.quiet rfl rfl rfl rfl rfl rfl rfl, h.cfg, h.dbuf, h.claims, h.chip⟩

/-- An act, and what comes after it. -/
theorem stops_act {a : Act} {c : Answer → Script}
    (h : ∀ s, Pending v Q n s → ∃ x t Q' m, perform a s = .ok (x, t) ∧ Pending v Q' m t ∧ Stops v u Q' m (c x)) :
    Stops v u Q n (.act a c) := by
  intro s hs
  obtain ⟨x, t, Q', m, e, ht, hk⟩ := h s hs
  rw [run_act_alone c hs.quiet.alone e]
  exact hk _ (ht.hear x)

/-- A transaction: the answer and the chip it leaves (R141 to R143). -/
theorem stops_xferAct {c : Code → Code} {op : Byte} {out : List Byte} {m : Nat} {k : List Byte → Script}
    (hok : xferOk v.cfg.gen out.length m = true)
    (hk : ∀ x d, Q x → d.busy < v.cfg.readyPollLimit →
      ∃ Q' : Chip → Prop, Q' (x.answer d ⟨op, out, m⟩).2 ∧ Stops v u Q' n (k (x.answer d ⟨op, out, m⟩).1)) :
    Stops v u Q n (.act (.xfer op out m) (unlessFailed c fun x => k x.data)) :=
  stops_act fun s hs => by
    obtain ⟨d, t, hd, e, ht⟩ := transact_calm op out m (by rw [hs.cfg]; exact hok) (Calm.refl hs.quiet)
    obtain ⟨Q', hq, hstop⟩ := hk s.chip d hs.chip (by rw [← hs.cfg]; exact hd.1)
    refine ⟨.bytes (s.chip.answer d ⟨op, out, m⟩).1, t, Q', n, by rw [perform, e], ⟨ht.quiet, (core_cfg ht.core).trans hs.cfg,
      (core_dbuf ht.core).trans hs.dbuf, (core_claimCount ht.core).trans hs.claims, ?_⟩, hstop⟩
    rw [core_chip ht.core]
    exact hq

theorem stops_exchange {op : Byte} {out : List Byte} {m : Nat} {k : List Byte → Script}
    (hok : xferOk v.cfg.gen out.length m = true)
    (hk : ∀ x d, Q x → d.busy < v.cfg.readyPollLimit →
      ∃ Q' : Chip → Prop, Q' (x.answer d ⟨op, out, m⟩).2 ∧ Stops v u Q' n (k (x.answer d ⟨op, out, m⟩).1)) :
    Stops v u Q n (xfer op out m k) := stops_xferAct hok hk

theorem stops_readSR2 {o : OpSet} {k : Byte → Script}
    (hk : ∀ x d, Q x → d.busy < v.cfg.readyPollLimit → ∃ Q' : Chip → Prop, Q' (x.answer d ⟨o.rdsr2, [], 1⟩).2 ∧
      Stops v u Q' n (k (firstByte (x.answer d ⟨o.rdsr2, [], 1⟩).1))) :
    Stops v u Q n (readSR2 o k) := stops_xferAct (k := fun r => k (firstByte r)) (xferOk_small _ (Nat.le_add_left 1 7)) hk

/-- What a claim in a quiet environment leaves as it is (R150). -/
theorem claimBus_quiet {p : ChipDraw → Prop} (hq : s.Quiet p) (h : claimBus s = (.number m, t)) :
    t.Quiet p ∧ t.cfg = s.cfg ∧ t.dbuf = s.dbuf ∧ t.claimCount = s.claimCount + 1 ∧ t.chip = s.chip := by
  obtain ⟨hd, hec⟩ := drawEc_always (e := s.env) hq.ec
  have hy : yieldTo s.env.drawEc.1 { s with env := s.env.drawEc.2 } =
      { s with env := s.env.drawEc.2, trace := s.trace ++ [.yield] } := by
    rw [yieldTo, hd.1]
    cases s.ecOwns <;> rfl
  rcases claimBus_cases s with ⟨-, e⟩ | ⟨-, -, e⟩ | ⟨-, h0, ⟨-, e⟩ | ⟨-, e⟩⟩ <;> rw [e] at h
  · cases h
  · cases h
    exact ⟨Quiet.mono hq rfl rfl rfl rfl rfl rfl rfl, rfl, rfl, rfl, rfl⟩
  · rw [hy] at h
    cases h
    exact ⟨⟨hq.alone, hq.known, hq.layout, hq.fifo, hq.ctrl, hec, hq.chip⟩, rfl, rfl, by rw [h0], rfl⟩
  · cases h

theorem stops_claim (hn : n < v.cfg.claimMax) (hk : Stops v u Q (n + 1) k) : Stops v u Q n (claim k) :=
  stops_act fun s hs => by
    have hc : s.CanClaim := by
      rw [State.CanClaim, hs.claims, hs.cfg]
      exact hn
    obtain ⟨_, _, hown⟩ := claimOwn_taken hc (drawEc_always (e := s.env) hs.quiet.ec).1.2
    rcases claimOwn_cases s with ⟨_, -, e⟩ | ⟨m, t, hbus, e⟩
    · rw [e] at hown
      cases hown
    · obtain ⟨hq, hcfg, hdbuf, hclaims, hchip⟩ := claimBus_quiet hs.quiet hbus
      exact ⟨.number m, { t with phase := t.phase.map fun r => { r with held := r.held + 1 } }, Q, n + 1, by rw [perform, e],
        ⟨Quiet.mono hq rfl rfl rfl rfl rfl rfl rfl, hcfg.trans hs.cfg, hdbuf.trans hs.dbuf,
          hclaims.trans (congrArg (· + 1) hs.claims), hchip ▸ hs.chip⟩, hk⟩

theorem stops_release (hk : Stops v u Q n k) : Stops v u Q (n + 1) (release k) :=
  stops_act fun s hs => ⟨_, _, Q, n, rfl, ⟨Quiet.mono hs.quiet (by simp) (by simp) (by simp) (by simp) (by simp) (by simp)
    (by simp), by simpa using hs.cfg, by simpa using hs.dbuf, by simp [hs.claims], by simpa using hs.chip⟩, hk⟩

theorem stops_commit (hk : Stops v u Q n k) : Stops v u Q n (commit m k) :=
  stops_act fun _ hs => ⟨_, _, Q, n, rfl, ⟨Quiet.mono hs.quiet rfl rfl rfl rfl rfl rfl rfl, hs.cfg, hs.dbuf, hs.claims,
    hs.chip⟩, hk⟩

/-- `MemRead` stops on the first unwritten byte if it reaches that far. -/
theorem stops_memRead {c : List Byte → Script} (h : Hole v.dbuf 0 u) (hi : i ≤ u)
    (hk : i + m ≤ u → ∀ bs : List Byte, bs.length = m → Stops v u Q n (c bs)) : Stops v u Q n (memRead i m c) := by
  by_cases hm : i + m ≤ u
  · refine stops_act fun s hs => ?_
    have hb := dbufBytes_ok (s := s) (i := i) (n := m) fun j hj =>
      Option.ne_none_iff_exists'.1 (hs.dbuf ▸ h.written (i + j) (Nat.zero_le _) (by omega))
    exact ⟨.bytes (s.dbufSlice i m), s, Q, n, by rw [perform, hb], hs, hk hm _ (length_dbufSlice s i m)⟩
  · exact fun s hs => run_memRead_hole hs.quiet.alone
      ⟨hs.dbuf ▸ h.unwritten, fun j _ hj => hs.dbuf ▸ h.written j (Nat.zero_le j) hj⟩ hi (by omega)

/-! ### The chunks of a program -/

/-- A piece of a script that reads the `m` bytes of DBUF from byte `i` on: it stops on byte `u` itself, or what comes after
it has to. -/
def Comes (v : State) (u : Nat) (Q : Chip → Prop) (n i m : Nat) (f : Script → Script) : Prop :=
  i ≤ u → ∀ k, (i + m ≤ u → Stops v u Q n k) → Stops v u Q n (f k)

/-- A loop over chunks stops in the chunk of the unwritten byte (R201). -/
theorem stops_chunks {o len P : Nat} {f : Nat × Nat → Script → Script} (hP : 0 < P) (hu : u < len)
    (hf : ∀ i m, m ≤ P → Comes v u Q n i m (f (o + i, m))) : Stops v u Q n (each (chunks o len P) f k) := by
  have loop : ∀ fuel i, len - i ≤ fuel → i ≤ u → Stops v u Q n (each (chunksFrom fuel o len P i) f k) := by
    intro fuel
    induction fuel with
    | zero => intro i hfuel hi; omega
    | succ fuel ih =>
      intro i hfuel hi
      have hmod : (o + i) % P < P := Nat.mod_lt _ hP
      rw [chunksFrom, if_pos (by omega)]
      exact hf i _ (by omega) hi _ fun hm => ih _ (by omega) hm
  exact loop len 0 (by omega) (Nat.zero_le u)

section part
variable {e : Descriptor} (hp : e.departs = none)
include hp

/-- A transaction with a part in service leaves it in service. -/
theorem stops_xfer {op : Byte} {out : List Byte} {m : Nat} {k : List Byte → Script}
    (hok : xferOk v.cfg.gen out.length m = true) (hk : ∀ bs, Stops v u (Chip.Serves e v.cfg.readyPollLimit) n (k bs)) :
    Stops v u (Chip.Serves e v.cfg.readyPollLimit) n (xfer op out m k) :=
  stops_exchange hok fun _ _ hx hd => ⟨_, hx.answer hp hd _, hk _⟩

theorem stops_writeEnable {o : OpSet} (hk : Stops v u (Chip.Serves e v.cfg.readyPollLimit) n k) :
    Stops v u (Chip.Serves e v.cfg.readyPollLimit) n (writeEnable o k) :=
  stops_xfer hp (xferOk_small _ (Nat.zero_le 8)) fun _ => hk

/-- The ready poll of a part that is ready in time comes to its end (R173). -/
theorem stops_pollReady (hw : e.op.wf) (hk : Stops v u (Chip.Serves e v.cfg.readyPollLimit) n k) :
    Stops v u (Chip.Serves e v.cfg.readyPollLimit) n (pollReady e.op v.cfg.readyPollLimit k) := by
  have poll : ∀ m, m ≤ v.cfg.readyPollLimit → Stops v u (Chip.Serves e m) n (pollReady e.op m k) := by
    intro m
    induction m with
    | zero => exact fun _ s hs => absurd hs.chip.soon (Nat.not_lt_zero _)
    | succ m ih =>
      intro hm
      refine stops_exchange (xferOk_small _ (by simp)) fun c d hc hd => ?_
      obtain ⟨rfl, hsoon⟩ := hc
      have hbit : (firstByte [c.sr1Read]).getLsbD 0 = decide (0 < c.busyLeft) := Chip.sr1Read_bit c 0
      by_cases hb : 0 < c.busyLeft
      · rw [Chip.answer_rdsr1_busy hp hw hb, if_neg (by rw [hbit]; simp [hb])]
        refine ⟨_, ⟨(Chip.keepsLocks_tick (c.atPin d.wp)).1, ?_⟩, ih (by omega)⟩
        rw [Chip.busyLeft_tick, Chip.atPin_busyLeft]
        omega
      · rw [Chip.answer_rdsr1 hp hw (by omega), if_pos (by rw [hbit]; simp [hb])]
        exact ⟨_, ⟨rfl, show c.busyLeft < _ by omega⟩, hk⟩
  exact poll _ (Nat.le_refl _)

variable (hw : e.op.wf) (hole : Hole v.dbuf 0 u)
include hw hole

/-- The program of one chunk, from its WREN to the end of its ready poll. -/
theorem stops_program {op : Byte} {a P : Nat} (hP : P ≤ v.cfg.gen.pageLimit) (hm : m ≤ P) (hi : i ≤ u)
    (hk : i + m ≤ u → Stops v u (Chip.Serves e v.cfg.readyPollLimit) n k) :
    Stops v u (Chip.Serves e v.cfg.readyPollLimit) n (writeEnable e.op <| memRead i m fun bs =>
      xfer op (be24 a ++ bs) 0 fun _ => pollReady e.op v.cfg.readyPollLimit k) :=
  stops_writeEnable hp (stops_memRead hole hi fun h bs hbs =>
    stops_xfer hp (by rw [List.length_append, length_be24, hbs]; exact xferOk_page _ (by omega)) fun _ =>
      stops_pollReady hp hw (hk h))

theorem comes_writeChunk {o P : Nat} (hP : P ≤ v.cfg.gen.pageLimit) (hn : n < v.cfg.claimMax) (hm : m ≤ P) :
    Comes v u (Chip.Serves e v.cfg.readyPollLimit) n i m (writeChunk e v.cfg.readyPollLimit o (o + i, m)) := by
  intro hi k hk
  rw [writeChunk, Nat.add_sub_cancel_left]
  exact stops_claim hn (stops_program hp hw hole hP hm hi fun h => stops_release (stops_commit (hk h)))

theorem comes_secProgramChunk {r o P : Nat} (hP : P ≤ v.cfg.gen.pageLimit) (hm : m ≤ P) :
    Comes v u (Chip.Serves e v.cfg.readyPollLimit) n i m (secProgramChunk e.op v.cfg.readyPollLimit r o (o + i, m)) := by
  intro hi k hk
  rw [secProgramChunk, Nat.add_sub_cancel_left]
  exact stops_program hp hw hole hP hm hi fun h => stops_commit (hk h)

end part

/-- The check of a region that is not locked passes (R275). -/
theorem stops_secLockedCheck {r : Nat} (ht : v.Attached v.chip.desc) (hL : 0 < v.cfg.readyPollLimit) (h1 : 1 ≤ r)
    (hl : v.chip.lockBit r = false) (hk : Stops v u (Chip.Serves v.chip.desc v.cfg.readyPollLimit) n k) :
    Stops v u (· = v.chip) n (secLockedCheck v.chip.desc.op r k) := by
  refine stops_readSR2 fun c d hc _ => ?_
  subst hc
  have hbit : (firstByte [v.chip.sr2Read d.reserved]).getLsbD (2 + r) = false :=
    (Chip.sr2Read_bit v.chip d.reserved (2 + r)).trans ((if_neg (by omega)).trans hl)
  rw [Chip.answer_rdsr2 ht.plain ht.wf.2.2.2 ht.ready, require_true (by rw [hbit]; rfl)]
  exact ⟨_, ⟨rfl, show v.chip.busyLeft < _ by rw [ht.ready]; exact hL⟩, hk⟩

/-! ### WRITE and SEC_PROGRAM -/

/-- A quiet environment makes the chip ready within some status read (R312). -/
theorem Quiet.readyPollLimit_pos {p : ChipDraw → Prop} (h : s.Quiet p) : 0 < s.cfg.readyPollLimit := by
  obtain ⟨-, d, -, hd, -⟩ := h.chip
  omega

theorem pageLimit_pos (g : Gen) : 0 < g.pageLimit := by cases g <;> decide

section program
variable {d : Descriptor} (hole : Hole s.dbuf 0 u) (hu : u < s.len.toNat) (hq : s.Quiet fun _ => True) (hc : s.CanClaim)
  (hd : s.desc = some d) (ht : s.Attached d)
include hole hu hq hc hd ht

theorem exec_write_hole (ha : s.addr.toNat < d.totalSize) (hl : s.addr.toNat + s.len.toNat ≤ d.totalSize)
    (hb : s.len.toNat ≤ s.cfg.bufSize) : exec .write s = .fault (.dbufUnwritten u) := by
  have hP : 0 < effectivePage s.cfg.gen d := Nat.lt_min.2 ⟨Nat.two_pow_pos _, pageLimit_pos _⟩
  have hstart : Pending s (Chip.Serves d s.cfg.readyPollLimit) s.claimCount s.started :=
    ⟨Quiet.mono hq rfl rfl rfl rfl rfl rfl rfl, rfl, rfl, rfl, ht.desc, by
      show s.chip.busyLeft < _
      rw [ht.ready]
      exact Quiet.readyPollLimit_pos hq⟩
  rw [exec_eq, scriptOf, latched_context, writeScript, prologue_met (d := d) hd rfl, rangeCheck,
    require_true (decide_eq_true ha), require_true (decide_eq_true hl),
    require_true (b := !true || decide (s.len.toNat ≤ s.cfg.bufSize)) (decide_eq_true hb)]
  exact stops_chunks hP hu (fun i m hm => comes_writeChunk ht.plain ht.wf.2.2.2 hole (Nat.min_le_right _ _) hc hm) _ hstart

theorem exec_secProgram_hole {r : BitVec 8} (hs : d.hasSec = true) (h1 : r ≠ 0) (h3 : r.toNat ≤ 3)
    (hl : s.addr.toNat + s.len.toNat ≤ 256) (hlock : s.chip.lockBit r.toNat = false) :
    exec (.secProgram r) s = .fault (.dbufUnwritten u) := by
  have hr : 1 ≤ r.toNat := Nat.one_le_iff_ne_zero.2 fun e => h1 (BitVec.eq_of_toNat_eq e)
  have hP : 0 < min secRegionSize s.cfg.gen.pageLimit := Nat.lt_min.2 ⟨by decide, pageLimit_pos _⟩
  have hstart : Pending s (· = s.chip) s.claimCount s.started :=
    ⟨Quiet.mono hq rfl rfl rfl rfl rfl rfl rfl, rfl, rfl, rfl, rfl⟩
  obtain rfl := ht.desc
  rw [exec_eq, scriptOf, latched_context, secProgramScript, prologue_met (n := .security) (d := s.chip.desc) hd hs, secCheck,
    require_true (decide_eq_true ⟨hr, h3⟩),
    require_true (b := decide (s.addr.toNat + s.len.toNat ≤ secRegionSize)) (decide_eq_true hl),
    if_neg (Nat.ne_of_gt (Nat.zero_lt_of_lt hu))]
  refine stops_claim hc (stops_secLockedCheck ht (Quiet.readyPollLimit_pos hq) hr hlock ?_) _ hstart
  refine stops_writeEnable ht.plain (stops_xfer ht.plain (xferOk_small _ (by simp)) fun _ =>
    stops_pollReady ht.plain ht.wf.2.2.2 ?_)
  exact stops_chunks hP hu fun i m hm => comes_secProgramChunk ht.plain ht.wf.2.2.2 hole (Nat.min_le_right _ _) hm

end program

/-- Settles O10: a HOST read comes to the unwritten byte at once, TRANSFER after its claim, WRITE and SEC_PROGRAM after the
chunks before it. -/
theorem unwrittenDbufFaults : Obligations.UnwrittenDbufFaults := by
  intro s i n hu hw
  have hole : Hole s.dbuf i (i + n) :=
    ⟨hu, fun j h1 h2 => by rw [← Nat.add_sub_cancel' h1]; exact hw (j - i) (by omega)⟩
  refine ⟨fun w hm h0 hi => ?_, fun w hm hn h4 hi => step_read32_unwritten hm hole hn h4 hi,
    fun h0 hd he hc ha hl hx hn op => ?_, fun d h0 hn hq hc hd ht => ?_⟩
  · subst h0
    exact step_read8_unwritten hm hu hi
  all_goals
    subst h0
    rw [Nat.zero_add] at hole
  · exact exec_transfer_hole hole hd he hc ha hl hx hn
  · exact ⟨exec_write_hole hole hn hq hc hd ht, fun r => exec_secProgram_hole hole hn hq hc hd ht⟩

end Sys2Proof.Machine
end

section
/-! SUPPORT. A locked security region keeps its bytes: no frame and no power cycle reaches a byte of it (R86, R270, R316,
R317, R321). -/

namespace Sys2Proof.Machine

namespace Chip

variable {c c' : Chip} {g : Gen} {r q o k : Nat}

/-! ### Windows of other regions -/

/-- A byte of one region lies outside the window of every other (R72). -/
theorem secAddr_outside (ho : o < 256) (h : r ≠ q) :
    ¬ (secAddr q 0 ≤ secAddr r o ∧ secAddr r o < secAddr q 0 + secRegionSize) := by
  rw [secAddr_eq (show o < 2 ^ 12 by omega), secAddr_eq (show 0 < 2 ^ 12 by omega), secRegionSize]
  omega

/-- The base address of a region in flight names it (R321). -/
theorem regionBase_exists {base : Nat} (h : base = secAddr 1 0 ∨ base = secAddr 2 0 ∨ base = secAddr 3 0) :
    ∃ q, 1 ≤ q ∧ q ≤ 3 ∧ base = secAddr q 0 := by
  rcases h with rfl | rfl | rfl
  · exact ⟨1, by decide, by decide, rfl⟩
  · exact ⟨2, by decide, by decide, rfl⟩
  · exact ⟨3, by decide, by decide, rfl⟩

/-- Bytes written in the window of a region leave the bytes of every other as they are. -/
theorem byte_writeRegion_other {m : Memory} {bs : List Byte} (hl : bs.length = secRegionSize) (ho : o < 256) (h : r ≠ q) :
    (m.writeList .secreg (secAddr q 0) bs).byte (secAddr r o) = m.byte (secAddr r o) := by
  rw [Memory.byte_writeList .secreg rfl, hl, if_neg (secAddr_outside ho h)]

theorem secByte_programRegion_other (c : Chip) (p : Nat) (data : List Byte) (ho : o < 256) (h : r ≠ q) :
    (c.programRegion q p data).byte (secAddr r o) = c.secByte r o :=
  byte_writeRegion_other (by rw [List.length_mapIdx, length_regionBuffer]) ho h

/-! ### What the chip keeps of a locked region -/

/-- A locked region and a region that is not locked are two. -/
theorem ne_of_lockBit (hr : c.lockBit r = true) (hq : c.lockBit q = false) : r ≠ q := by
  rintro rfl
  rw [hr] at hq
  cases hq

theorem Served.secByte_locked (h : c.Served k c') (ho : o < 256) (hr : c.lockBit r = true) :
    c'.secByte r o = c.secByte r o := by
  cases h with
  | regionErase q _ _ hq => exact (secByte_clearRegion c q ho).trans (if_neg (ne_of_lockBit hr hq))
  | regionProgram q p data _ _ _ hq => exact secByte_programRegion_other c p data ho (ne_of_lockBit hr hq)
  | _ => rfl

theorem tick_secreg (c : Chip) : c.tick.secreg = c.secreg := by
  rw [Chip.tick]
  split <;> rfl

theorem secByte_locked_answer (hp : c.desc.departs = none) (ho : o < 256) (hr : c.lockBit r = true) (d : ChipDraw)
    (f : Frame) : (c.answer d f).2.secByte r o = c.secByte r o := by
  by_cases hb : 0 < c.busyLeft
  · rw [answer_busy hp hb, serveBusy_snd]
    exact congrArg (fun m : Memory => m.byte (secAddr r o)) (tick_secreg (c.atPin d.wp))
  · rw [answer_idle hp (by omega)]
    exact (served_serve (c.atPin d.wp) d f).secByte_locked ho hr

/-- Of the security registers a power cycle only hits the region in flight, which is not locked (R316, R317, R321). -/
theorem secByte_locked_powerCycle (h : c.Inv g) (hp : c.desc.departs = none) (ho : o < 256) (hr : c.lockBit r = true)
    (noise : List Byte) : (c.powerCycle noise).secByte r o = c.secByte r o := by
  have hin := h.inside
  rw [powerCycle_plain hp]
  show (c.secregAfterPowerCycle noise).byte (secAddr r o) = c.secreg.byte (secAddr r o)
  rw [secregAfterPowerCycle]
  split
  · rename_i base size off count hf
    rw [hf] at hin
    obtain ⟨hbase, rfl, -⟩ := hin
    obtain ⟨q, h1, h3, rfl⟩ := regionBase_exists hbase
    have hq := h.unlocked q _ _ _ _ hf rfl h1 h3
    exact byte_writeRegion_other (by rw [List.length_map, List.length_range]) ho (ne_of_lockBit hr hq)
  · rfl
  · rfl

/-- The chip has the part of `v` and meets the invariant, region `r` is locked, and its byte at `o` is that of `v`. -/
structure KeepsLocked (v : Chip) (g : Gen) (r o : Nat) (c : Chip) : Prop where
  inv  : c.Inv g
  desc : c.desc = v.desc
  lock : c.lockBit r = true
  byte : c.secByte r o = v.secByte r o

variable {v : Chip} (hp : v.desc.departs = none) (h1 : 1 ≤ r) (h3 : r ≤ 3) (ho : o < 256)
include hp h1 h3 ho

theorem KeepsLocked.answer (h : KeepsLocked v g r o c) (d : ChipDraw) (f : Frame) :
    KeepsLocked v g r o (c.answer d f).2 := by
  have hpc : c.desc.departs = none := by rw [h.desc, hp]
  obtain ⟨hd, hl⟩ := keepsLocks_answer hpc d f
  exact ⟨h.inv.answer d f, hd.trans h.desc, hl r h1 h3 h.lock, (secByte_locked_answer hpc ho h.lock d f).trans h.byte⟩

theorem KeepsLocked.powerCycle (h : KeepsLocked v g r o c) (noise : List Byte) :
    KeepsLocked v g r o (c.powerCycle noise) := by
  have hpc : c.desc.departs = none := by rw [h.desc, hp]
  obtain ⟨hd, hl⟩ := keepsLocks_powerCycle hpc noise
  exact ⟨h.inv.powerCycle noise, hd.trans h.desc, hl r h1 h3 h.lock,
    (secByte_locked_powerCycle h.inv hpc ho h.lock noise).trans h.byte⟩

end Chip

/-- Settles O58: no frame and no power cycle reaches a locked region, and the chip's invariant, by which the region in flight
is none of the locked ones, goes along. -/
theorem lockedRegionNeverChanges : Obligations.LockedRegionNeverChanges := by
  intro s t r o hs hp h1 h3 ho hr h
  obtain ⟨-, hdesc, hlock, hbyte⟩ := step_keeps_chip (Q := Chip.KeepsLocked s.chip s.cfg.gen r o)
    (fun _ d f hc => hc.answer hp h1 h3 ho d f) (fun _ noise hc => hc.powerCycle hp h1 h3 ho noise)
    ⟨hs.chip, rfl, hr, rfl⟩ h
  exact ⟨hdesc, hlock, hbyte⟩

end Sys2Proof.Machine
end

section
/-! SUPPORT. HOST and EC accesses, between commands and inside one: what a move that starts no command does to the machine,
said once; the bytes of DBUF that HOST writes and reads back (R71d, R76), and the accesses the block does not have. -/

namespace Sys2Proof.Machine

variable {s t u : State} {m : Move} {i : Nat}

/-! ### A move that starts no command -/

/-- A move that starts no command and lands makes one step of the machine. -/
theorem step_moves (hm : s.NextMove m u) (hs : startsCommand u m = none) (h : plainMove m u = .ok t) : step s = .next t := by
  cases hm with
  | waiting rest hp hi => rw [step_waiting hp hi hs, h]; rfl
  | inside r rest hp hr hd =>
    rw [step_inside hp hr hd, landMove, h]
    show andThen (if m.isReset = true then .error (.next t) else .ok t) .next = .next t
    split <;> rfl

/-- A move that starts no command and stops the model stops the machine. -/
theorem step_halts {x : Halt} (hm : s.NextMove m u) (hs : startsCommand u m = none) (h : plainMove m u = .error x) :
    step s = x.outcome := by
  cases hm with
  | waiting rest hp hi => rw [step_waiting hp hi hs, h]; rfl
  | inside r rest hp hr hd => rw [step_inside hp hr hd, landMove, h]; rfl

/-- A 32-bit write of anything but CMD starts no command (R103). -/
theorem startsCommand_write32 {a : Nat} {w : Word} (h : cell32 s.cfg a ≠ some .cmd) :
    startsCommand s (.write32 a w) = none := if_neg fun hc => h hc.1

/-! ### DBUF -/

/-- A DBUF byte after a write of consecutive bytes. -/
theorem lookup_writeDbuf (d : Memory) (lo : Nat) (bs : List Byte) (j : Nat) :
    (d.writeList .dbuf lo bs).lookup j = if lo ≤ j ∧ j < lo + bs.length then bs[j - lo]? else d.lookup j := by
  rw [Memory.lookup_writeList]
  congr 1
  cases bs[j - lo]? <;> rfl

theorem getElem_wordBytes (w : Word) {j : Nat} (h : j < 4) : (wordBytes w)[j]? = some (w.extractLsb' (8 * j) 8) := by
  interval_cases j <;> rfl

/-- The bytes of a word, put together again (R71d). -/
theorem append_wordBytes (w : Word) :
    w.extractLsb' 24 8 ++ w.extractLsb' 16 8 ++ w.extractLsb' 8 8 ++ w.extractLsb' 0 8 = w := by
  have join : ∀ k n, w.extractLsb' (k + 8) n ++ w.extractLsb' k 8 = w.extractLsb' k (n + 8) := fun _ _ =>
    BitVec.extractLsb'_append_extractLsb'_eq_extractLsb' rfl
  rw [join 16 8, join 8 16, join 0 24]
  exact BitVec.extractLsb'_eq_self

theorem lookup_writeWord (d : Memory) (lo : Nat) (w : Word) (j : Nat) :
    (d.writeList .dbuf lo (wordBytes w)).lookup j =
      if lo ≤ j ∧ j < lo + 4 then some (w.extractLsb' (8 * (j - lo)) 8) else d.lookup j := by
  rw [lookup_writeDbuf, show (wordBytes w).length = 4 from rfl]
  by_cases h : lo ≤ j ∧ j < lo + 4
  · rw [if_pos h, if_pos h, getElem_wordBytes w (by omega)]
  · rw [if_neg h, if_neg h]

theorem lookup_writeByte (d : Memory) (lo : Nat) (b : Byte) (j : Nat) :
    (d.write .dbuf lo b).lookup j = if j = lo then some b else d.lookup j := by
  rw [Memory.write, lookup_writeDbuf, List.length_singleton]
  by_cases h : j = lo
  · subst h; simp
  · rw [if_neg (by omega), if_neg h]

theorem dbufByte_of_lookup {b : Byte} (h : s.dbuf.lookup i = some b) : dbufByte s i = .ok b := by
  simp [dbufByte, Memory.read, h]

theorem plainMove_write8 (b : Byte) (hp : s.phase = .idle) (hi : i < s.cfg.bufSize) :
    plainMove (.write8 (s.cfg.seqBase + 0x1000 + i) b) s = .ok { s with dbuf := s.dbuf.write .dbuf i b } := by
  simp only [plainMove, hostWrite8, cell8_dbuf _ hi, notBusy, hp, if_true]

theorem plainMove_read8 {b : Byte} (hi : i < s.cfg.bufSize) (h : s.dbuf.lookup i = some b) :
    plainMove (.read8 (s.cfg.seqBase + 0x1000 + i)) s = .ok { s with hostData := b.zeroExtend 32 } := by
  simp only [plainMove, hostRead8, cell8_dbuf _ hi, dbufByte_of_lookup h]
  rfl

theorem plainMove_write32 (w : Word) (hp : s.phase = .idle) (h4 : i % 4 = 0) (hi : i + 4 ≤ s.cfg.bufSize) :
    plainMove (.write32 (s.cfg.seqBase + 0x1000 + i) w) s =
      .ok { s with dbuf := s.dbuf.writeList .dbuf i (wordBytes w) } := by
  simp only [plainMove, hostWrite32, cell32_dbufWord _ h4 hi, notBusy, hp, if_true]

theorem plainMove_read32 {w : Word} (h4 : i % 4 = 0) (hi : i + 4 ≤ s.cfg.bufSize)
    (h : ∀ j < 4, s.dbuf.lookup (i + j) = some (w.extractLsb' (8 * j) 8)) :
    plainMove (.read32 (s.cfg.seqBase + 0x1000 + i)) s = .ok { s with hostData := w } := by
  have h0 : dbufByte s i = .ok (w.extractLsb' 0 8) := dbufByte_of_lookup (h 0 (by decide))
  have h1 : dbufByte s (i + 1) = .ok (w.extractLsb' 8 8) := dbufByte_of_lookup (h 1 (by decide))
  have h2 : dbufByte s (i + 2) = .ok (w.extractLsb' 16 8) := dbufByte_of_lookup (h 2 (by decide))
  have h3 : dbufByte s (i + 3) = .ok (w.extractLsb' 24 8) := dbufByte_of_lookup (h 3 (by decide))
  simp only [plainMove, hostRead32, cell32_dbufWord _ h4 hi, h0, h1, h2, h3]
  show Except.ok { s with hostData := _ } = _
  rw [append_wordBytes]

/-- Settles O8: the write stores the word's bytes, of which the read puts the word together again. -/
theorem hostAccessesDbuf : Obligations.HostAccessesDbuf := by
  intro s rest i hp
  refine ⟨fun w h4 hi hin => ?_, fun b hi hin => ?_⟩
  · have hcmd : cell32 s.cfg (s.cfg.seqBase + 0x1000 + i) ≠ some .cmd := by rw [cell32_dbufWord _ h4 hi]; nofun
    refine ⟨_, step_moves (.waiting _ hp hin) (startsCommand_write32 hcmd) (plainMove_write32 w hp h4 hi),
      lookup_writeWord s.dbuf i w, step_moves (.waiting rest hp rfl) rfl (plainMove_read32 h4 hi fun j hj => ?_)⟩
    show (s.dbuf.writeList .dbuf i (wordBytes w)).lookup (i + j) = _
    rw [lookup_writeWord, if_pos (by omega), Nat.add_sub_cancel_left]
  · exact ⟨_, step_moves (.waiting _ hp hin) rfl (plainMove_write8 b hp hi), lookup_writeByte s.dbuf i b,
      step_moves (.waiting rest hp rfl) rfl (plainMove_read8 hi ((lookup_writeByte s.dbuf i b i).trans (if_pos rfl)))⟩

/-! ### Accesses the block does not have -/

/-- A misaligned offset, or a word that does not lie in the block, names nothing (R20, R76; log entries 19 and 27). -/
theorem cell32_none {c : Config} {a : Nat}
    (h : ¬ (c.seqBase ≤ a ∧ (a - c.seqBase) % 4 = 0 ∧ a + 4 ≤ c.seqBase + 0x1000 + c.bufSize)) :
    cell32 c a = none := by
  simp only [cell32]
  split
  · rfl
  · split
    · rfl
    · split
      · omega
      · rw [if_neg (by omega)]

theorem cell8_none {c : Config} {a : Nat} (h : ¬ (c.seqBase + 0x1000 ≤ a ∧ a < c.seqBase + 0x1000 + c.bufSize)) :
    cell8 c a = none := if_neg h

/-- The model refuses an access that spells none of the block (R76). -/
theorem plainMove_noAccess (h : ¬ SpellsAccess s.cfg m) :
    startsCommand s m = none ∧ plainMove m s = .error (.refused (.noSuchAccess m.address)) := by
  cases m with
  | read32 a => exact ⟨rfl, by simp only [plainMove, hostRead32, cell32_none h]; rfl⟩
  | write32 a w =>
    have hc := cell32_none h
    exact ⟨startsCommand_write32 (by rw [hc]; nofun), by simp only [plainMove, hostWrite32, hc]; rfl⟩
  | read8 a => exact ⟨rfl, by simp only [plainMove, hostRead8, cell8_none h]; rfl⟩
  | write8 a b => exact ⟨rfl, by simp only [plainMove, hostWrite8, cell8_none h]; rfl⟩
  | badWidth n a => exact ⟨rfl, rfl⟩
  | seqReset => exact absurd trivial h
  | powerCycle => exact absurd trivial h
  | ecFrame f => exact absurd trivial h

/-- Settles O9: the access names no cell of the block; a frame of the EC is refused or answered as EC_OWNS says. -/
theorem otherAccessesAreRefused : Obligations.OtherAccessesAreRefused := by
  refine ⟨fun s u m hm h => ?_, fun s u f hm => ⟨fun ho => ?_, fun ho => ?_⟩⟩
  · rw [← (NextMove.same hm).1] at h
    obtain ⟨hs, hx⟩ := plainMove_noAccess h
    exact step_halts hm hs hx
  · exact step_halts hm rfl (x := .refused .ecWithoutBus) (by cases hm <;> exact if_neg (by simp [ho]))
  · exact step_moves hm rfl (by cases hm <;> exact if_pos ho)

end Sys2Proof.Machine
end

section
/-! SUPPORT. Commands in an environment that leaves the chip to SEQ (`State.Unshared`): what the frames a command may issue
keep of the chip, the command keeps (`exec_keeps_chip`); and that reads keep its data (R80). -/

namespace Sys2Proof.Machine

variable {s t u : State} {i : Instr} {Q : Chip → Prop}

/-! ### Commands that have the chip to themselves -/

/-- The EC puts no frame on the bus at a YIELD. -/
theorem unshared_yieldTo {d : EcDraw} (hd : d.traffic = []) (s : State) :
    yieldTo d s = { s with trace := s.trace ++ [.yield] } := by
  have hs : (if s.ecOwns = true then ecTraffic d.traffic s else s) = s := by
    rw [hd]
    exact ite_self s
  rw [yieldTo]
  exact congrArg (fun u : State => { u with trace := u.trace ++ [Event.yield] }) hs

/-- A claim of a bus that only SEQ uses leaves the chip as it is (R150). -/
theorem unshared_claimBus (h : s.Unshared) : (claimBus s).2.Unshared ∧ (claimBus s).2.chip = s.chip := by
  obtain ⟨hd, hec⟩ := drawEc_always (e := s.env) h.ec
  rcases claimBus_cases s with ⟨-, e⟩ | ⟨-, -, e⟩ | ⟨-, -, ⟨-, e⟩ | ⟨-, e⟩⟩ <;> rw [e]
  · exact ⟨h, rfl⟩
  · exact ⟨⟨h.alone, h.ec⟩, rfl⟩
  all_goals
    rw [unshared_yieldTo hd]
    exact ⟨⟨h.alone, hec⟩, rfl⟩

/-- In an unshared environment a property of the chip is kept when the frames sent keep it. -/
theorem kept_unshared {A : Act → Prop}
    (hQ : ∀ op out n c d, A (.xfer op out n) → Q c → Q (c.answer d ⟨op, out, n⟩).2) :
    Kept (fun u => u.Unshared ∧ Q u.chip) A where
  issue _ _ _ _ _ _ h := ⟨⟨h.1.alone, h.1.ec⟩, h.2⟩
  drawCtrl _ h := ⟨⟨h.1.alone, h.1.ec⟩, h.2⟩
  frame _ op out n ha h := ⟨⟨h.1.alone, h.1.ec⟩, hQ op out n _ _ ha h.2⟩
  ctrl _ _ _ _ h := ⟨⟨h.1.alone, h.1.ec⟩, h.2⟩
  claim s _ h := by
    obtain ⟨hu, hc⟩ := unshared_claimBus h.1
    rcases claimOwn_cases s with ⟨v, e1, e2⟩ | ⟨n, v, e1, e2⟩ <;> rw [e1] at hu hc <;> rw [e2]
    · exact ⟨hu, hc ▸ h.2⟩
    · exact ⟨⟨hu.alone, hu.ec⟩, hc ▸ h.2⟩
  release s _ h := ⟨⟨(releaseOwn_during s).trans h.1.alone, by rw [releaseOwn_env]; exact h.1.ec⟩,
    by rw [releaseOwn_chip]; exact h.2⟩
  host s _ h := by
    obtain ⟨hu, hc⟩ := unshared_claimBus h.1
    exact ⟨hu, hc ▸ h.2⟩
  unhost s _ _ h := ⟨⟨(releaseBus_during s).trans h.1.alone, by rw [releaseBus_env]; exact h.1.ec⟩,
    by rw [releaseBus_chip]; exact h.2⟩
  memWrite _ _ _ _ h := ⟨⟨h.1.alone, h.1.ec⟩, h.2⟩
  commit _ _ _ h := ⟨⟨h.1.alone, h.1.ec⟩, h.2⟩
  tally _ _ _ h := ⟨⟨h.1.alone, h.1.ec⟩, h.2⟩
  unbind _ _ h := ⟨⟨h.1.alone, h.1.ec⟩, h.2⟩
  bind _ _ _ h := ⟨⟨h.1.alone, h.1.ec⟩, h.2⟩
  identify _ _ _ h := ⟨⟨h.1.alone, h.1.ec⟩, h.2⟩
  hear _ _ h := ⟨⟨h.1.alone, h.1.ec⟩, h.2⟩

/-- Where command `i`, started in `s`, has come: the chip has `Q`, and DBUF is as it was if the command sends of it. -/
structure Reached (i : Instr) (s : State) (Q : Chip → Prop) (u : State) : Prop where
  cfg  : u.cfg = s.cfg
  dbuf : dbufSent s i = 0 ∨ u.dbuf = s.dbuf
  chip : u.Unshared ∧ Q u.chip

/-- The answers of a command's acts are those `script_all` speaks of. -/
theorem Reached.said (h : Reached i s Q u) {a : Act} {x : Answer} (ha : ActOf s i a) (hp : perform a u = .ok (x, t)) :
    Said s a x := by
  rcases h.dbuf with h0 | hd
  · cases a with
    | memRead k n =>
      obtain rfl : n = 0 := by
        have : k + n ≤ dbufSent s i := ha
        omega
      cases hp
      exact ⟨⟨[], rfl, rfl⟩, rfl⟩
    | _ => exact said_of_perform ha h.cfg nofun hp
  · exact said_of_perform ha h.cfg (fun _ => hd) hp

theorem Reached.perform (hi : dbufSent s i = 0 ∨ fillsDbuf i = false)
    (hQ : ∀ f c d, MayIssue s i f → Q c → Q (c.answer d f).2) (h : Reached i s Q u) {a : Act} {x : Answer}
    (ha : ActOf s i a) (hp : perform a u = .ok (x, t)) : Reached i s Q (t.hear x) where
  cfg  := (perform_steady hp).cfg.trans h.cfg
  dbuf := by
    rcases h.dbuf with h0 | hd
    · exact .inl h0
    · refine hi.imp_right fun hf => Eq.trans (perform_effect hp).dbuf ?_
      cases a with
      | memWrite k bs => exact absurd (ha.1.symm.trans hf) nofun
      | _ => exact hd
  chip := (kept_unshared (A := ActOf s i) fun _ _ _ _ _ ha => hQ _ _ _ ha.1).perform ha h.chip hp

/-- What every frame a command may issue keeps of the chip, the command keeps, whatever fails; but for a command that sends
of DBUF and writes it. -/
theorem exec_keeps_chip (hi : dbufSent s i = 0 ∨ fillsDbuf i = false)
    (hQ : ∀ f c d, MayIssue s i f → Q c → Q (c.answer d f).2) (hs : s.Unshared) (hq : Q s.chip)
    (h : exec i s = .next t) : Q t.chip := by
  rw [exec_eq] at h
  rcases run_all (script_all i s) (lands_alone (D := fun _ => False) fun u hu => hu.chip.1.alone)
    (fun a u x t ha hu hp => ⟨hu.said ha hp, hu.perform hi hQ ha hp⟩)
    (⟨rfl, .inr rfl, ⟨hs.alone, hs.ec⟩, hq⟩ : Reached i s Q s.started) h
    with ⟨v, u, -, hu, rfl⟩ | ⟨c, u, -, hu, rfl⟩ | hd
  · rw [complete, finish_chip]
    exact hu.chip.2
  · rw [abort, finish_chip]
    exact hu.chip.2
  · exact hd.elim

/-! ### What a frame leaves of the chip's data -/

namespace Chip

variable {c c' c'' : Chip} {f : Frame}

theorem SameData.refl (c : Chip) : c.SameData c := ⟨rfl, rfl, rfl, rfl, rfl, rfl⟩

theorem SameData.trans (h : c.SameData c') (h' : c'.SameData c'') : c.SameData c'' :=
  ⟨h'.desc.trans h.desc, h'.mfr.trans h.mfr, h'.array.trans h.array, h'.secreg.trans h.secreg, h'.sr1.trans h.sr1,
    h'.sr2.trans h.sr2⟩

theorem SameData.atPin (h : c.SameData c') (l : Level) : c.SameData (c'.atPin l) := { h with }

theorem sameData_setWel (c : Chip) (v : Bool) : c.SameData (c.setWel v) :=
  { SameData.refl c with
    sr1 := byte_ext fun i => by
      simp only [BitVec.getLsbD_and, sr1_setWel]
      fin_cases i <;> simp }

theorem sameData_tick (c : Chip) : c.SameData c.tick := by
  rw [Chip.tick]
  split
  · exact SameData.trans (c' := { c with busyLeft := 0, inFlight := .none }) { SameData.refl c with } (sameData_setWel _ _)
  · exact { SameData.refl c with }

/-- A frame that writes nothing: one without bytes after the opcode, or a read of either store (R302 to R304, R317). -/
def ReadsOnly (o : OpSet) (f : Frame) : Prop := f.out = [] ∨ f.op = o.read ∨ f.op = o.fastRead ∨ f.op = o.secRead

/-- A frame that brings bytes to the chip and writes nothing has the role of a read. -/
theorem ReadsOnly.role {o : OpSet} (h : ReadsOnly o f) (hw : o.wf) {b : Byte} {bs : List Byte} (hf : f.out = b :: bs) :
    roleOf o f.op = some .read ∨ roleOf o f.op = some .fastRead ∨ roleOf o f.op = some .secRead := by
  rcases h with h | h | h | h
  · rw [h] at hf; cases hf
  · exact .inl (h ▸ roleOf_read hw)
  · exact .inr (.inl (h ▸ roleOf_fastRead hw))
  · exact .inr (.inr (h ▸ roleOf_secRead hw))

/-- An idle chip keeps its data at a frame that writes nothing: at most WEL changes. -/
theorem ReadsOnly.sameData_serve (h : ReadsOnly c.desc.op f) (hw : c.desc.op.wf) (d : ChipDraw) :
    c.SameData (c.serve d f).2 := by
  have no : ∀ {x b bs}, roleOf c.desc.op f.op = some x → f.out = b :: bs → x ≠ .read → x ≠ .fastRead → x ≠ .secRead →
      False := by
    intro x b bs hx hf h1 h2 h3
    rcases h.role hw hf with e | e | e <;> rw [e] at hx <;> cases hx <;> contradiction
  rw [serve]
  split
  case h_6 => exact sameData_setWel c true
  case h_7 hx hf | h_8 hx hf | h_9 hx hf | h_10 hx hf | h_11 hx hf => exact (no hx hf nofun nofun nofun).elim
  case h_12 => split <;> exact SameData.refl c
  case h_13 => exact sameData_setWel c d.wel
  all_goals exact SameData.refl c

/-- A plain part keeps its data at a frame that writes nothing, busy or not (R80). -/
theorem ReadsOnly.sameData_answer (h : ReadsOnly c.desc.op f) (hp : c.desc.departs = none) (hw : c.desc.op.wf)
    (d : ChipDraw) : c.SameData (c.answer d f).2 := by
  have hpin := (SameData.refl c).atPin d.wp
  by_cases hb : 0 < c.busyLeft
  · rw [answer_busy hp hb, serveBusy_snd]
    exact hpin.trans (sameData_tick _)
  · rw [answer_idle hp (by omega)]
    exact hpin.trans (ReadsOnly.sameData_serve (c := c.atPin d.wp) h hw d)

end Chip

/-! ### Commands that read -/

/-- The commands that write nothing to the chip (R80). -/
inductive Reading : Instr → Prop
  | probe : Reading .probe
  | read : Reading .read
  | isLocked : Reading .isLocked
  | readProtection : Reading .readProtection
  | secStatus : Reading .secStatus
  | claim : Reading .claim
  | release : Reading .release
  | secRead (r : BitVec 8) : Reading (.secRead r)

theorem reading_of_mem
    (h : i ∈ [Instr.probe, .read, .isLocked, .readProtection, .secStatus, .claim, .release] ∨ ∃ r, i = .secRead r) :
    Reading i := by
  rcases h with h | ⟨r, rfl⟩
  · fin_cases h <;> constructor
  · exact .secRead r

theorem Reading.dbufSent (h : Reading i) (s : State) : dbufSent s i = 0 := by cases h <;> rfl

theorem readsOnly_statusRead {o o' : OpSet} {f : Frame} (h : IsStatusRead o f) : Chip.ReadsOnly o' f := by
  rcases h with rfl | rfl <;> exact .inl rfl

/-- Every frame of such a command writes nothing, when the bound descriptor is the chip's. -/
theorem Reading.readsOnly (h : Reading i) (hd : ∀ d, s.desc = some d → s.chip.desc = d) {f : Frame}
    (hf : MayIssue s i f) : Chip.ReadsOnly s.chip.desc.op f := by
  cases h with
  | probe => exact .inl (congrArg Frame.out hf)
  | read =>
    obtain ⟨d, hds, ch, -, rfl⟩ := hf
    rw [hd d hds]
    cases s.cfg.readVariant with
    | slow => exact .inr (.inl rfl)
    | fast => exact .inr (.inr (.inl rfl))
  | isLocked =>
    obtain ⟨d, -, hf⟩ := hf
    exact readsOnly_statusRead hf
  | readProtection =>
    obtain ⟨d, -, hf⟩ := hf
    exact readsOnly_statusRead hf
  | secStatus =>
    obtain ⟨d, -, hf⟩ := hf
    exact .inl (congrArg Frame.out hf)
  | claim => exact hf.choose_spec.2.elim
  | release => exact hf.choose_spec.2.elim
  | secRead r =>
    obtain ⟨d, hds, ch, -, rfl⟩ := hf
    rw [hd d hds]
    exact .inr (.inr (.inr rfl))

/-- Settles O51: no frame of these commands writes, so whatever fails the chip keeps its data. -/
theorem readingKeepsTheChip : Obligations.ReadingKeepsTheChip := by
  intro i s t hs hw hp hi hd h
  have hi := reading_of_mem hi
  refine exec_keeps_chip (Q := s.chip.SameData) (.inl (hi.dbufSent s)) (fun f c d hf hc => ?_) hs
    (Chip.SameData.refl _) h
  have hro := hi.readsOnly hd hf
  rw [← hc.desc] at hro hp hw
  exact hc.trans (hro.sameData_answer hp hw d)

end Sys2Proof.Machine
end

section
/-! SUPPORT. WRITE and ERASE of what is protected, in a quiet environment: the chip ignores each program and each erase, and
SEQ does not see it (R85, R204, R314, R315, R353). -/

namespace Sys2Proof.Machine

variable {p : ChipDraw → Prop} {s t u : State} {Q : State → Prop} {k : Script} {d : Descriptor} {n m : Nat}

/-! ### What the chip ignores -/

namespace Chip

variable {c c' : Chip}

/-- The data of a chip holds its block-protect tuple (R220). -/
theorem SameData.tuple (h : c.SameData c') : c'.tuple = c.tuple := by
  have hbit : ∀ i, 2 ≤ i → i < 8 → c'.sr1.getLsbD i = c.sr1.getLsbD i := fun i h2 h8 => by
    have e := congrArg (fun x : Byte => x.getLsbD i) h.sr1
    interval_cases i <;> simpa using e
  simp only [Chip.tuple, decTuple, h.sr2, hbit 5 (by decide) (by decide), hbit 6 (by decide) (by decide),
    RangeTuple.mk.injEq, true_and, and_true]
  apply BitVec.eq_of_getLsbD_eq
  intro i hi
  simp only [BitVec.getLsbD_extractLsb', hbit (2 + i) (by omega) (by omega)]

/-- The data of `v`, and no busy period. -/
structure AtRest (v c : Chip) : Prop where
  data  : v.SameData c
  ready : c.busyLeft = 0

/-- A page program at a protected address is ignored (R314). -/
theorem pageProgram_protected (d : ChipDraw) {a : Nat} (data : List Byte)
    (h : protContains c.desc.totalSize c.tuple d.touches a = true) : c.pageProgram d a data = c.ignored d := by
  rw [pageProgram, if_pos h, ite_self, ite_self]

/-- An erase of a sector that holds a protected byte is ignored (R315). -/
theorem sectorErase_protected (d : ChipDraw) {a j : Nat} (ha : a % c.desc.sectorSize = 0) (hj : j < c.desc.sectorSize)
    (h : protContains c.desc.totalSize c.tuple d.touches (a + j) = true) : c.sectorErase d a = c.ignored d := by
  have ht := touches_of_mem (n := c.desc.sectorSize) (Nat.le_add_right a j) (Nat.add_lt_add_left hj a) h
  simp only [sectorErase, ha, Nat.sub_zero]
  rw [if_pos ht, ite_self]

theorem AtRest.refl (h : c.busyLeft = 0) : c.AtRest c := ⟨SameData.refl c, h⟩

theorem AtRest.atPin {v : Chip} (h : v.AtRest c) (l : Level) : v.AtRest (c.atPin l) := ⟨h.data.atPin l, h.ready⟩

theorem AtRest.setWel {v : Chip} (h : v.AtRest c) (b : Bool) : v.AtRest (c.setWel b) :=
  ⟨h.data.trans (sameData_setWel c b), h.ready⟩

theorem AtRest.settled {v : Chip} (h : v.AtRest c) : v.AtRest c.settled := by
  rw [Chip.settled, if_pos h.ready]
  exact h

section frames
variable {v : Chip} {a : Nat} (hw : v.desc.op.wf) (hp : v.desc.departs = none) (hv : v.desc.totalSize ≤ 2 ^ 24)
  (ha : a < v.desc.totalSize) (h : v.AtRest c) (d : ChipDraw)
include hw hp hv ha h

theorem AtRest.answer_pp (data : List Byte) (hprot : ∀ q, protContains v.desc.totalSize v.tuple q a = true) :
    v.AtRest (c.answer d ⟨v.desc.op.pp, be24 a ++ data, 0⟩).2 := by
  have ht := h.data.tuple
  rw [← h.data.desc] at hw hp hv ha hprot ⊢
  rw [Chip.answer_pp hp hw h.ready d (Nat.lt_of_lt_of_le ha hv), Nat.mod_eq_of_lt ha,
    pageProgram_protected (c := c.atPin d.wp) d data (ht ▸ hprot _)]
  exact (h.atPin d.wp).setWel d.wel

theorem AtRest.answer_se (hal : a % v.desc.sectorSize = 0)
    (hprot : ∀ q, ∃ j < v.desc.sectorSize, protContains v.desc.totalSize v.tuple q (a + j) = true) :
    v.AtRest (c.answer d ⟨v.desc.op.se, be24 a, 0⟩).2 := by
  have ht := h.data.tuple
  obtain ⟨j, hj, hprot⟩ := hprot d.touches
  rw [← h.data.desc] at hw hp hv ha hal hj hprot ⊢
  rw [Chip.answer_se hp hw h.ready d (Nat.lt_of_lt_of_le ha hv), Nat.mod_eq_of_lt ha,
    sectorErase_protected (c := c.atPin d.wp) d hal hj (ht ▸ hprot)]
  exact (h.atPin d.wp).setWel d.wel

end frames

end Chip

/-! ### Scripts while the chip is at rest -/

/-- With the chip at rest, whatever its WEL and pin, the script goes from `w` to an end with `Q`. -/
def LeadsAtRest (p : ChipDraw → Prop) (v : Chip) (w : State) (c : Script) (Q : State → Prop) : Prop :=
  ∀ x, v.AtRest x → Leads p { w with chip := x } c Q

section
variable {v : Chip} {w : State} (hw : v.desc.op.wf) (hp : v.desc.departs = none)
include hw hp

theorem speaks_atRest {x : Chip} (hx : v.AtRest x) : Speaks { w with chip := x } v.desc.op :=
  ⟨congrArg Descriptor.op hx.data.desc, hw, (congrArg Descriptor.departs hx.data.desc).trans hp⟩

theorem leadsAtRest_writeEnable (hk : LeadsAtRest p v w k Q) : LeadsAtRest p v w (writeEnable v.desc.op k) Q :=
  fun x hx => leads_writeEnable (v := { w with chip := x }) (speaks_atRest hw hp hx) hx.ready fun l _ =>
    hk _ ((hx.setWel true).atPin l)

theorem leadsAtRest_pollReady (hn : 0 < n) (hk : LeadsAtRest p v w k Q) :
    LeadsAtRest p v w (pollReady v.desc.op n k) Q := fun x hx =>
  leads_pollReady (v := { w with chip := x }) (speaks_atRest hw hp hx) (show x.busyLeft < n by rw [hx.ready]; exact hn)
    fun l _ => hk _ (hx.settled.atPin l)

omit hw hp in
theorem leadsAtRest_memRead {i : Nat} {k : List Byte → Script} (h : ∀ j < n, ∃ b, w.dbuf.lookup (i + j) = some b)
    (hk : LeadsAtRest p v w (k (w.dbufSlice i n)) Q) : LeadsAtRest p v w (memRead i n k) Q :=
  fun x hx => leads_memRead (v := { w with chip := x }) h (hk x hx)

omit hw hp in
/-- A frame that the chip ignores. -/
theorem leadsAtRest_xfer {op : Byte} {out : List Byte} {k : List Byte → Script}
    (hok : xferOk w.cfg.gen out.length 0 = true) (hf : ∀ x, v.AtRest x → ∀ d, v.AtRest (x.answer d ⟨op, out, 0⟩).2)
    (hk : ∀ bs, LeadsAtRest p v w (k bs) Q) : LeadsAtRest p v w (xfer op out 0 k) Q := fun x hx =>
  leads_xfer (v := { w with chip := x }) hok fun d _ => hk _ _ (hf x hx d)

end

/-! ### A loop over chunks -/

/-- A loop that keeps `I` of the bytes the chunks so far hold. -/
theorem leads_each {α : Type} {xs : List α} {size : α → Nat} {f : α → Script → Script} {I : Nat → State → Prop}
    (hf : ∀ pre x post, xs = pre ++ x :: post → ∀ u k, I (pre.map size).sum u →
      (∀ t, I ((pre.map size).sum + size x) t → Leads p t k Q) → Leads p u (f x k) Q)
    (hk : ∀ u, I (xs.map size).sum u → Leads p u k Q) (hu : I 0 u) : Leads p u (each xs f k) Q := by
  have loop : ∀ ys pre u, xs = pre ++ ys → I (pre.map size).sum u → Leads p u (each ys f k) Q := by
    intro ys
    induction ys with
    | nil =>
      intro pre u hxs hu
      rw [List.append_nil] at hxs
      exact hk u (hxs ▸ hu)
    | cons y ys ih =>
      intro pre u hxs hu
      refine hf pre y ys hxs u _ hu fun t ht => ih (pre ++ [y]) t (by rw [hxs, List.append_assoc]; rfl) ?_
      simpa using ht
  exact loop xs [] u rfl hu

/-- The pieces of a write hold all its bytes (R201). -/
theorem sum_chunks {P : Nat} (o len : Nat) (hP : 0 < P) : ((chunks o len P).map (·.2)).sum = len := by
  have walk : ∀ fuel i, len - i ≤ fuel → i ≤ len → i + ((chunksFrom fuel o len P i).map (·.2)).sum = len := by
    intro fuel
    induction fuel with
    | zero =>
      intro i h1 h2
      simp only [chunksFrom, List.map_nil, List.sum_nil]
      omega
    | succ fuel ih =>
      intro i h1 h2
      have hmod : (o + i) % P < P := Nat.mod_lt _ hP
      rw [chunksFrom]
      split
      · rw [List.map_cons, List.sum_cons, ← Nat.add_assoc]
        exact ih _ (by omega) (by omega)
      · simp only [List.map_nil, List.sum_nil]
        omega
  simpa [chunks] using walk len 0 (by omega) (Nat.zero_le len)

/-- The sectors of an erase of whole sectors hold all its bytes (R190). -/
theorem sum_sectorsOf {o len ss : Nat} (h : len % ss = 0) : ((sectorsOf o len ss).map fun _ => ss).sum = len := by
  simp only [sectorsOf, List.map_map, Function.comp_def, List.map_const', List.length_range, List.sum_replicate,
    smul_eq_mul]
  exact Nat.div_mul_cancel (Nat.dvd_of_mod_eq_zero h)

theorem sectorsOf_lt {o len ss a : Nat} (h : a ∈ sectorsOf o len ss) : a < o + len := by
  obtain ⟨i, hi, rfl⟩ := sectorsOf_mem h
  have hs : 0 < ss := Nat.pos_of_ne_zero (by rintro rfl; simp at hi)
  have := (Nat.le_div_iff_mul_le hs).1 hi
  rw [Nat.succ_mul] at this
  omega

/-! ### One chunk -/

/-- Where a command that started in `s` stands between two chunks, `n` bytes committed: no claim held, and the chip at rest
with the data of `s`. -/
structure Between (s : State) (n : Nat) (u : State) : Prop where
  cfg    : u.cfg = s.cfg
  dbuf   : u.dbuf = s.dbuf
  claims : u.claimCount = s.claimCount
  owns   : s.ecOwns = decide (s.claimCount = 0) → u.ecOwns = s.ecOwns
  phase  : ∃ r, u.phase = .running r ∧ r.held = 0 ∧ r.done = n
  chip   : s.chip.AtRest u.chip

theorem between_started (hb : s.chip.busyLeft = 0) : Between s 0 s.started :=
  ⟨rfl, rfl, rfl, fun _ => rfl, ⟨_, rfl, rfl, rfl⟩, .refl hb⟩

/-- A claim span that leaves the chip at rest, and its commit. -/
theorem Between.span (h : Between s n u) {x : Chip} (hx : s.chip.AtRest x) (m : Nat) :
    Between s m ((u.spanned x).committed m) := by
  obtain ⟨r, hr, h0, -⟩ := h.phase
  have hphase : ((u.spanned x).committed m).phase = .running { r with done := m } := by
    show u.phase.map _ = _
    rw [hr]
    rfl
  exact {
    cfg    := h.cfg
    dbuf   := h.dbuf
    claims := h.claims
    owns   := fun ho => by
      show (if u.claimCount = 0 then true else u.ecOwns) = s.ecOwns
      rw [h.claims, h.owns ho, ho]
      by_cases hc : s.claimCount = 0 <;> simp [hc]
    phase  := ⟨_, hphase, h0, rfl⟩
    chip   := hx }

/-- `return` after the last chunk (R356). -/
theorem Between.complete (h : Between s n u) (ht : Calm p u t) :
    s.Ended (complete 0 t) .ok n 0 ∧ (complete 0 t).dbuf = s.dbuf ∧ s.chip.SameData (complete 0 t).chip ∧
      (complete 0 t).chip.busyLeft = 0 := by
  obtain ⟨r, hr, h0, hn⟩ := h.phase
  have hheld : t.held = 0 := by rw [core_held ht.core, State.held, hr]; exact h0
  have hdone : t.done = n := by rw [core_done ht.core, State.done, hr]; exact hn
  have hchip : s.chip.AtRest t.chip := by rw [core_chip ht.core]; exact h.chip
  rw [Machine.complete, finish_unheld hheld]
  exact ⟨⟨rfl, by rw [hdone], rfl, rfl, (core_claimCount ht.core).trans h.claims,
    fun ho => (core_ecOwns ht.core).trans (h.owns ho)⟩, (core_dbuf ht.core).trans h.dbuf, hchip.data, hchip.ready⟩

/-- A claim span in which the chip stays at rest, the commit after it, and what follows. -/
theorem Between.leads (h : Between s n u) (hc : s.CanClaim) {body : Script → Script}
    (hb : ∀ k, LeadsAtRest p s.chip u.claimed k Q → LeadsAtRest p s.chip u.claimed (body k) Q)
    (hk : ∀ t, Between s m t → Leads p t k Q) : Leads p u (claim (body (release (commit m k)))) Q := by
  have hcan : u.CanClaim := by
    rw [State.CanClaim, h.claims, h.cfg]
    exact hc
  refine leads_claim hcan (hb _ (fun x hx => leads_release (leads_commit ?_)) u.chip h.chip)
  rw [freed_claimed]
  exact hk _ (h.span hx m)

section
variable (hc : s.CanClaim) (ht : s.Attached d) (hl : 0 < s.cfg.readyPollLimit) (h : Between s n u)
include hc ht hl h

/-- One chunk of WRITE at a protected address (R202). -/
theorem Between.writeChunk {ch : Nat × Nat} {base : Nat} (hn : ch.1 = base + n) (hin : ch.1 < d.totalSize)
    (hsize : ch.2 ≤ s.cfg.gen.pageLimit) (hdb : ∀ j < ch.2, ∃ b, s.dbuf.lookup (n + j) = some b)
    (hprot : ∀ q, protContains d.totalSize s.chip.tuple q ch.1 = true)
    (hk : ∀ t, Between s (n + ch.2) t → Leads p t k Q) :
    Leads p u (writeChunk d s.cfg.readyPollLimit base ch k) Q := by
  obtain ⟨rfl, ⟨-, -, hv, hw⟩, hp, -, -⟩ := ht
  rw [Machine.writeChunk, show ch.1 - base = n by omega]
  refine h.leads hc (body := fun k => writeEnable s.chip.desc.op <| memRead n ch.2 fun bs =>
    xfer s.chip.desc.op.pp (be24 ch.1 ++ bs) 0 fun _ => pollReady s.chip.desc.op s.cfg.readyPollLimit k)
    (fun k hk => leadsAtRest_writeEnable hw hp (leadsAtRest_memRead (w := u.claimed) (h.dbuf ▸ hdb)
      (leadsAtRest_xfer (w := u.claimed) ?_ (fun x hx d => hx.answer_pp hw hp hv hin d _ hprot) fun _ =>
        leadsAtRest_pollReady hw hp hl hk))) hk
  rw [List.length_append, length_be24, length_dbufSlice]
  exact xferOk_page _ (h.cfg ▸ hsize)

/-- One sector of ERASE that holds a protected byte (R190). -/
theorem Between.eraseSector {a base : Nat} (hn : a = base + n) (hin : a < d.totalSize) (ha : a % d.sectorSize = 0)
    (hprot : ∀ q, ∃ j < d.sectorSize, protContains d.totalSize s.chip.tuple q (a + j) = true)
    (hk : ∀ t, Between s (n + d.sectorSize) t → Leads p t k Q) :
    Leads p u (eraseSector d s.cfg.readyPollLimit base a k) Q := by
  obtain ⟨rfl, ⟨-, -, hv, hw⟩, hp, -, -⟩ := ht
  rw [Machine.eraseSector, show a - base = n by omega]
  exact h.leads hc (body := fun k => writeEnable s.chip.desc.op <|
    xfer s.chip.desc.op.se (be24 a) 0 fun _ => pollReady s.chip.desc.op s.cfg.readyPollLimit k)
    (fun k hk => leadsAtRest_writeEnable hw hp (leadsAtRest_xfer (w := u.claimed) (xferOk_small _ (by simp))
      (fun x hx d => hx.answer_se hw hp hv hin d ha hprot) fun _ => leadsAtRest_pollReady hw hp hl hk)) hk

end

/-! ### WRITE and ERASE -/

/-- How a command that changes nothing of the chip's data ends. -/
def EndsSilently (s : State) (i : Instr) : Prop :=
  ∃ t, exec i s = .next t ∧ s.Ended t .ok s.len.toNat 0 ∧ t.dbuf = s.dbuf ∧ s.chip.SameData t.chip ∧ t.chip.busyLeft = 0

section
variable (hq : s.Quiet p) (hc : s.CanClaim) (hd : s.desc = some d) (ht : s.Attached d)
  (ha : s.addr.toNat < d.totalSize) (hl : s.addr.toNat + s.len.toNat ≤ d.totalSize)
include hq hc hd ht ha hl

theorem write_protected_silent (hb : s.len.toNat ≤ s.cfg.bufSize) (hload : s.Loaded s.len.toNat)
    (hprot : ∀ k < s.len.toNat, ∀ q, protContains d.totalSize s.chip.tuple q (s.addr.toNat + k) = true) :
    EndsSilently s .write := by
  refine Leads.exec (p := p) ?_ hq
  have hP := effectivePage_pos s.cfg.gen d
  rw [scriptOf, latched_context, writeScript, prologue_met (d := d) hd rfl, rangeCheck,
    require_true (decide_eq_true ha), require_true (decide_eq_true hl),
    require_true (b := !true || decide (s.len.toNat ≤ s.cfg.bufSize)) (decide_eq_true hb)]
  refine leads_each (size := (·.2)) (I := Between s) (fun pre ch post hch u k hu hk => ?_) (fun u hu => ?_)
    (between_started ht.ready)
  · have hbeg := chunk_begins (o := s.addr.toNat) (n := s.len.toNat) hch
    have hmem := chunks_mem (o := s.addr.toNat) (n := s.len.toNat) hP (hch ▸ List.mem_append_right pre List.mem_cons_self)
    have hlim : effectivePage s.cfg.gen d ≤ s.cfg.gen.pageLimit := Nat.min_le_right _ _
    exact hu.writeChunk hc ht (Quiet.readyPollLimit_pos hq) hbeg (by omega) (by omega)
      (fun j hj => hload _ (by omega)) (hbeg ▸ hprot _ (by omega)) hk
  · rw [sum_chunks _ _ hP] at hu
    exact leads_done fun t ht => hu.complete ht

theorem erase_protected_silent (h1 : s.addr.toNat % d.sectorSize = 0) (h2 : s.len.toNat % d.sectorSize = 0)
    (hprot : ∀ a ∈ sectorsOf s.addr.toNat s.len.toNat d.sectorSize, ∀ q, ∃ j < d.sectorSize,
      protContains d.totalSize s.chip.tuple q (a + j) = true) : EndsSilently s .erase := by
  refine Leads.exec (p := p) ?_ hq
  rw [scriptOf, latched_context, eraseScript, prologue_met (d := d) hd rfl, rangeCheck,
    require_true (decide_eq_true ha), require_true (decide_eq_true hl), require_true (b := !false || _) rfl,
    require_true (b := decide (s.addr.toNat % d.sectorSize = 0 ∧ s.len.toNat % d.sectorSize = 0)) (decide_eq_true ⟨h1, h2⟩)]
  refine leads_each (size := fun _ => d.sectorSize) (I := Between s) (fun pre a post has u k hu hk => ?_) (fun u hu => ?_)
    (between_started ht.ready)
  · have hbeg := sector_begins (o := s.addr.toNat) (len := s.len.toNat) has
    have hmem : a ∈ sectorsOf s.addr.toNat s.len.toNat d.sectorSize := has ▸ List.mem_append_right pre List.mem_cons_self
    obtain ⟨j, -, hj⟩ := sectorsOf_mem hmem
    exact hu.eraseSector hc ht (Quiet.readyPollLimit_pos hq) hbeg (Nat.lt_of_lt_of_le (sectorsOf_lt hmem) hl)
      (by rw [hj, Nat.add_mul_mod_self_right, h1]) (hprot a hmem) hk
  · rw [sum_sectorsOf h2] at hu
    exact leads_done fun t ht => hu.complete ht

end

/-- Settles O27: the chip ignores the program of a protected address and the erase of a sector with a protected byte, and is
ready at the next poll. -/
theorem protectedWriteIsSilent : Obligations.ProtectedWriteIsSilent := by
  intro s d hq hc hd ht ha hl
  exact ⟨write_protected_silent hq hc hd ht ha hl, erase_protected_silent hq hc hd ht ha hl⟩

end Sys2Proof.Machine
end

section
/-! SUPPORT. Decoding and encoding (R100 to R103): which operands a row of the command table takes from the word, which
bits of the word its class reads, and that `decode` and `encode` are inverse to each other. -/

namespace Sys2Proof

/-! ### The rows of the command table -/

theorem Instr.sel_eq_zero {i : Instr} : i.cls = .N → i.sel = 0 := by
  cases i <;> simp [Instr.cls, Instr.sel]

theorem Instr.confirm_eq_false {i : Instr} : i.cls ≠ .SC → i.confirm = false := by
  cases i <;> simp [Instr.cls, Instr.confirm]

/-- Each command is what the table has for its own code and operands (R102). -/
theorem commandOf_operands (i : Instr) : commandOf i.code i.sel i.confirm = some (i.cls, i) := by
  cases i <;> rfl

/-- SEL and CONFIRM decide neither whether a code has a row nor its class (R101, R102). -/
theorem commandOf_code (i : Instr) (sel : BitVec 8) (confirm : Bool) :
    ∃ j, commandOf i.code sel confirm = some (i.cls, j) ∧ j.code = i.code := by
  cases i <;> exact ⟨_, rfl, rfl⟩

theorem Instr.cls_eq_of_code_eq {i j : Instr} (h : i.code = j.code) : i.cls = j.cls := by
  obtain ⟨k, hk, -⟩ := commandOf_code i j.sel j.confirm
  rw [h, commandOf_operands] at hk
  exact congrArg Prod.fst (Option.some.inj hk).symm

/-- A command the table gives has the code, its row's class, and the operands this class reads (R101, R102). -/
theorem commandOf_eq_some {op sel : BitVec 8} {confirm : Bool} {c : OpClass} {i : Instr}
    (h : commandOf op sel confirm = some (c, i)) :
    op = i.code ∧ c = i.cls ∧ (i.cls ≠ .N → sel = i.sel) ∧ (i.cls = .SC → confirm = i.confirm) := by
  rw [commandOf] at h
  split at h <;> cases h <;>
    exact ⟨BitVec.eq_of_toNat_eq ‹_›, rfl, by simp [Instr.cls, Instr.sel], by simp [Instr.cls, Instr.confirm]⟩

/-! ### The bits a class reads -/

/-- How many of the low bits of a word a class reads; the rest must be zero (R101). -/
def OpClass.width : OpClass → Nat
  | .N  => 8
  | .S  => 16
  | .SC => 17

theorem OpClass.eight_le_width (c : OpClass) : 8 ≤ c.width := by cases c <;> decide

theorem OpClass.getLsbD_mustBeZero (c : OpClass) {k : Nat} (hk : k < 32) :
    c.mustBeZero.getLsbD k = decide (c.width ≤ k) := by
  have bits : ∀ k : Fin 32, c.mustBeZero.getLsbD k = decide (c.width ≤ k) := by cases c <;> decide
  exact bits ⟨k, hk⟩

/-- The must-be-zero mask of a class asks of a word that every bit beyond those the class reads is 0 (R101). -/
theorem and_mustBeZero_eq_zero {w : Word} {c : OpClass} :
    w &&& c.mustBeZero = 0 ↔ ∀ k, c.width ≤ k → w.getLsbD k = false := by
  constructor
  · intro h k hc
    by_cases hk : k < 32
    · simpa [c.getLsbD_mustBeZero hk, hc] using congrArg (BitVec.getLsbD · k) h
    · exact BitVec.getLsbD_of_ge w k (by omega)
  · intro h
    refine BitVec.eq_of_getLsbD_eq fun k hk => ?_
    rw [BitVec.getLsbD_and, c.getLsbD_mustBeZero hk]
    by_cases hc : c.width ≤ k
    · simp [h k hc]
    · simp [hc]

/-! ### The fields of a word -/

theorem getLsbD_fieldOp (w : Word) {k : Nat} (hk : k < 8) : (fieldOp w).getLsbD k = w.getLsbD k := by
  simp [fieldOp, hk]

theorem getLsbD_fieldSel (w : Word) {k : Nat} (hk : k < 8) : (fieldSel w).getLsbD k = w.getLsbD (8 + k) := by
  simp [fieldSel, hk]

/-- Bits 7:0 of a word are its OP (R100). -/
theorem and_lowByte (w : Word) : w &&& 0xFF = (fieldOp w).zeroExtend 32 := by
  have low : ∀ k : Fin 32, (0xFF : Word).getLsbD k = decide (k.val < 8) := by decide
  refine BitVec.eq_of_getLsbD_eq fun k hk => ?_
  rw [BitVec.getLsbD_and, low ⟨k, hk⟩, BitVec.getLsbD_setWidth, decide_eq_true hk, Bool.true_and]
  by_cases h8 : k < 8
  · rw [getLsbD_fieldOp w h8, decide_eq_true h8, Bool.and_true]
  · simp [h8, BitVec.getLsbD_of_ge (fieldOp w) k (by omega)]

theorem fieldOp_and_tableMask (w : Word) (i : Instr) : fieldOp (w &&& i.tableMask) = fieldOp w := by
  have hmask : fieldOp i.tableMask = BitVec.allOnes 8 := by
    rw [Instr.tableMask]; cases i.cls <;> decide
  calc fieldOp (w &&& i.tableMask) = fieldOp w &&& fieldOp i.tableMask := BitVec.extractLsb'_and
    _ = fieldOp w := by rw [hmask, BitVec.and_allOnes]

theorem fieldOp_tableMatch (i : Instr) : fieldOp i.tableMatch = i.code :=
  BitVec.eq_of_getLsbD_eq fun k hk => by
    rw [getLsbD_fieldOp _ hk, Instr.tableMatch, BitVec.getLsbD_setWidth, decide_eq_true (by omega), Bool.true_and]

theorem tableMatch_and_mustBeZero (i : Instr) (c : OpClass) : i.tableMatch &&& c.mustBeZero = 0 := by
  refine and_mustBeZero_eq_zero.2 fun k hk => ?_
  have h8 := c.eight_le_width
  rw [Instr.tableMatch, BitVec.getLsbD_setWidth, BitVec.getLsbD_of_ge i.code k (by omega), Bool.and_false]

theorem tableMask_and_mustBeZero (i : Instr) : i.tableMask &&& i.cls.mustBeZero = i.cls.mustBeZero := by
  rw [Instr.tableMask]; cases i.cls <;> decide

/-- A word is in a command's row when it has the command's code and is clear of what the class does not read (R101). -/
theorem and_tableMask_eq_tableMatch {w : Word} {i : Instr} :
    w &&& i.tableMask = i.tableMatch ↔ fieldOp w = i.code ∧ w &&& i.cls.mustBeZero = 0 := by
  constructor
  · intro h
    constructor
    · rw [← fieldOp_and_tableMask w i, h, fieldOp_tableMatch]
    · rw [← tableMask_and_mustBeZero, ← BitVec.and_assoc, h, tableMatch_and_mustBeZero]
  · rintro ⟨hop, hzero⟩
    rw [Instr.tableMask, BitVec.and_or_distrib_left, hzero, and_lowByte, hop]
    exact BitVec.zero_or

/-- A word whose reserved bits are 0 is its fields, laid out as R100 says. -/
theorem eq_append_fields {w : Word} (h : ∀ k, 17 ≤ k → w.getLsbD k = false) :
    w = (0 : BitVec 15) ++ BitVec.ofBool (fieldConfirm w) ++ fieldSel w ++ fieldOp w := by
  refine BitVec.eq_of_getLsbD_eq fun k hk => Eq.trans ?_ (Laws.Encoding.bit _ _ _ k).symm
  split
  next h8 => exact (getLsbD_fieldOp w h8).symm
  next h8 =>
    split
    next h16 => rw [getLsbD_fieldSel w (by omega), Nat.add_sub_cancel' (by omega)]
    next h16 =>
      by_cases heq : k = 16
      · subst heq; rfl
      · simp [heq, h k (by omega)]

/-! ### Decoding -/

theorem encode_fields (i : Instr) : Laws.Encoding.Statement i :=
  Laws.Encoding.of_class i Instr.sel_eq_zero Instr.confirm_eq_false

/-- A word decodes to a command when the table has it for the word's fields and the word is clear of the bits the
command's class does not read (R101, R103). -/
theorem decode_eq_ok {w : Word} {i : Instr} :
    decode w = .ok i ↔ commandOf (fieldOp w) (fieldSel w) (fieldConfirm w) = some (i.cls, i) ∧
      w &&& i.cls.mustBeZero = 0 := by
  rw [decode]
  constructor
  · intro h
    split at h
    next => cases h
    next c j hj =>
      split at h
      next hzero =>
        cases h
        obtain ⟨-, rfl, -⟩ := commandOf_eq_some hj
        exact ⟨hj, hzero⟩
      next => cases h
  · rintro ⟨hi, hzero⟩
    rw [hi]
    exact if_pos hzero

theorem decode_encode (i : Instr) : decode (encode i) = .ok i := by
  obtain ⟨hrow, hop, hsel, hconfirm⟩ := encode_fields i
  rw [decode_eq_ok, hop, hsel, hconfirm]
  exact ⟨commandOf_operands i, (and_tableMask_eq_tableMatch.1 hrow).2⟩

/-- The fields of a word that decodes are those of its command: what the class does not read is 0 in both (R101). -/
theorem fields_of_decode {w : Word} {i : Instr} (h : decode w = .ok i) :
    fieldOp w = i.code ∧ fieldSel w = i.sel ∧ fieldConfirm w = i.confirm := by
  obtain ⟨htable, hzero⟩ := decode_eq_ok.1 h
  obtain ⟨hop, -, hsel, hconfirm⟩ := commandOf_eq_some htable
  have hclear := and_mustBeZero_eq_zero.1 hzero
  refine ⟨hop, ?_, ?_⟩
  · by_cases hN : i.cls = .N
    · rw [Instr.sel_eq_zero hN]
      refine BitVec.eq_of_getLsbD_eq fun k hk => ?_
      rw [getLsbD_fieldSel w hk, hclear (8 + k) (by rw [hN]; exact Nat.le_add_right 8 k)]
      exact BitVec.getLsbD_zero.symm
    · exact hsel hN
  · by_cases hSC : i.cls = .SC
    · exact hconfirm hSC
    · rw [Instr.confirm_eq_false hSC]
      exact hclear 16 (by revert hSC; cases i.cls <;> decide)

theorem encode_of_decode {w : Word} {i : Instr} (h : decode w = .ok i) : encode i = w := by
  obtain ⟨hop, hsel, hconfirm⟩ := fields_of_decode h
  have hclear := and_mustBeZero_eq_zero.1 (decode_eq_ok.1 h).2
  have hwidth : i.cls.width ≤ 17 := by cases i.cls <;> decide
  rw [encode, ← hop, ← hsel, ← hconfirm]
  exact (eq_append_fields fun k hk => hclear k (by omega)).symm

/-- Settles O1: the encoder fills the fields the class reads and leaves the others 0, and a word that decodes is its
fields. -/
theorem decodeAndEncodeAgree : Obligations.DecodeAndEncodeAgree :=
  fun _ i => ⟨encode_of_decode, fun h => h ▸ decode_encode i⟩

/-- Settles O2: a row is its code and its class, and both `decode` and the mask test ask for these two. -/
theorem wordSelectsRow : Obligations.WordSelectsRow := by
  intro w i
  rw [and_tableMask_eq_tableMatch]
  constructor
  · rintro ⟨hop, hzero⟩
    obtain ⟨j, hj, hcode⟩ := commandOf_code i (fieldSel w) (fieldConfirm w)
    have hcls := Instr.cls_eq_of_code_eq hcode
    rw [← hop, ← hcls] at hj
    exact ⟨j, decode_eq_ok.2 ⟨hj, hcls ▸ hzero⟩, hcode⟩
  · rintro ⟨j, hdecode, hcode⟩
    obtain ⟨htable, hzero⟩ := decode_eq_ok.1 hdecode
    exact ⟨(commandOf_eq_some htable).1.trans hcode, Instr.cls_eq_of_code_eq hcode ▸ hzero⟩

/-- Settles O3: closed words, decoded by evaluation. -/
theorem writtenOutWords : Obligations.WrittenOutWords := by
  unfold Obligations.WrittenOutWords
  decide

namespace Machine

theorem illegalCommand_eq_rejected (s : State) : illegalCommand s = s.rejected .illegalCommand := rfl

theorem rejected_of_idle {s : State} (c : Code) (h : s.phase = .idle) :
    s.rejected c = { s with result := c.number, doneCount := 0, rdata := 0 } := by
  rw [State.rejected, ← h]

/-- Settles O4: a word that decodes is its command's word, so this one is illegal, and an illegal word runs no
script. -/
theorem illegalWordChangesNothing : Obligations.IllegalWordChangesNothing := by
  intro s w hidle hillegal
  cases hw : decode w with
  | ok i => exact absurd (encode_of_decode hw) (hillegal i)
  | error e =>
    have hstart : startCommand w s = .next (illegalCommand { s with cmd := w }) := by rw [startCommand, hw]
    rw [hstart, illegalCommand_eq_rejected]
    exact congrArg Host.Outcome.next (rejected_of_idle (s := { s with cmd := w }) .illegalCommand hidle)

end Machine
end Sys2Proof
end

section
/-! SUPPORT. The claims a command takes and gives back (R150, R151, R153, R356): what an act does to the claim count and to
the number of claims the command holds (`Ledger.perform`), the count every command ends with (`exec_settles`), and that
EC_OWNS follows the count. -/

namespace Sys2Proof.Machine

variable {s t u : State} {i : Instr} {h n : Nat}

/-! ### What an act does to the claims -/

/-- The claims a `Claim()` with this answer adds. -/
def Answer.granted : Answer → Nat
  | .failed _ => 0
  | _         => 1

/-- The claim count after an act that answers `x`. -/
def Act.countAfter (a : Act) (x : Answer) (n : Nat) : Nat :=
  match a with
  | .claim       => n + x.granted
  | .hostClaim   => n + x.granted
  | .release     => n - 1
  | .hostRelease => n - x.granted
  | _            => n

/-- The claims the command in flight holds after an act that answers `x`. -/
def Act.heldAfter (a : Act) (x : Answer) (h : Nat) : Nat :=
  match a with
  | .claim   => h + x.granted
  | .release => h - 1
  | _        => h

/-- YIELD, with the frames of the EC before it, changes the chip, its draws and the trace, which it ends (R89, R152). -/
theorem yieldTo_eq (d : EcDraw) (s : State) : ∃ e c l, e.ctrl = s.env.ctrl ∧
    yieldTo d s = { s with env := e, chip := c, trace := l ++ [.yield] } := by
  have traffic : ∀ fs (s : State), ∃ e c l, e.ctrl = s.env.ctrl ∧
      ecTraffic fs s = { s with env := e, chip := c, trace := l } := by
    intro fs
    induction fs with
    | nil => exact fun s => ⟨s.env, s.chip, s.trace, rfl, rfl⟩
    | cons f fs ih =>
      intro s
      obtain ⟨e, c, l, he, hs⟩ := ih (ecFrame f s)
      exact ⟨e, c, l, he, hs⟩
  rw [yieldTo]
  by_cases ho : s.ecOwns = true
  · obtain ⟨e, c, l, he, hs⟩ := traffic d.traffic s
    exact ⟨e, c, l, he, by rw [if_pos ho, hs]⟩
  · exact ⟨s.env, s.chip, s.trace, rfl, by rw [if_neg ho]⟩

/-- A `Claim()` counts when it is granted (R150). -/
theorem claimBus_claimCount (s : State) : (claimBus s).2.claimCount = s.claimCount + (claimBus s).1.granted := by
  obtain ⟨e, c, l, -, hy⟩ := yieldTo_eq s.env.drawEc.1 { s with env := s.env.drawEc.2 }
  rcases claimBus_cases s with ⟨-, e⟩ | ⟨-, -, e⟩ | ⟨-, h0, ⟨-, e⟩ | ⟨-, e⟩⟩ <;> rw [e]
  · rfl
  · rfl
  · rw [h0]
    rfl
  · rw [hy]
    rfl

/-- The command in flight holds `h` claims, of `n` in all. -/
structure Ledger (h n : Nat) (u : State) : Prop where
  count : u.claimCount = n
  held  : ∃ r, u.phase = .running r ∧ r.held = h

/-- A change of the record of the command in flight. -/
theorem ledger_map (f : Running → Running) {r : Running} (hr : u.phase = .running r) (hn : t.claimCount = n)
    (ht : t.phase = u.phase.map f) : Ledger (f r).held n t := ⟨hn, f r, by rw [ht, hr]; rfl, rfl⟩

/-- What every act does to the claims. -/
theorem Ledger.perform (hu : Ledger h n u) {a : Act} {x : Answer} (hp : perform a u = .ok (x, t)) :
    Ledger (a.heldAfter x h) (a.countAfter x n) (t.hear x) := by
  obtain ⟨rfl, r, hr, rfl⟩ := hu
  suffices hl : Ledger (a.heldAfter x r.held) (a.countAfter x u.claimCount) t by
    obtain ⟨hn, q, hq, hh⟩ := hl
    rw [← hh]
    exact ledger_map (fun r => { r with heard := r.heard ++ [x] }) hq hn rfl
  have hclaim := claimBus_claimCount u
  have hphase := (passive_claimBus u).phase
  cases a with
  | xfer op out m =>
    have e : transact op out m u = (x, t) := by simpa [Machine.perform] using hp
    rcases transact_cases op out m u with ⟨-, e'⟩ | ⟨-, v, c, y, hv, e', -⟩ <;> rw [e'] at e <;> cases e
    · exact ⟨rfl, r, hr, rfl⟩
    · rcases hv with rfl | rfl <;> exact ledger_map (fun r => { r with step := r.step + 1 }) hr rfl rfl
  | claim =>
    have e : claimOwn u = (x, t) := by simpa [Machine.perform] using hp
    rcases claimOwn_cases u with ⟨v, e1, e2⟩ | ⟨m, v, e1, e2⟩ <;> rw [e2] at e <;> cases e <;> rw [e1] at hclaim hphase
    · exact ⟨hclaim, r, hphase.trans hr, rfl⟩
    · exact ledger_map (u := v) (fun r => { r with held := r.held + 1 }) (hphase.trans hr) hclaim rfl
  | release =>
    cases hp
    exact ledger_map (u := releaseBus u) (fun r => { r with held := r.held - 1 }) ((releaseBus_phase u).trans hr)
      (releaseOwn_claimCount u) rfl
  | hostClaim =>
    have e : claimBus u = (x, t) := by simpa [Machine.perform] using hp
    rw [e] at hclaim hphase
    exact ⟨hclaim, r, hphase.trans hr, rfl⟩
  | hostRelease =>
    have e : releaseHost u = (x, t) := by simpa [Machine.perform] using hp
    rw [releaseHost] at e
    split at e <;> cases e
    · exact ⟨rfl, r, hr, rfl⟩
    · exact ⟨releaseBus_claimCount u, r, (releaseBus_phase u).trans hr, rfl⟩
  | memRead j m =>
    simp only [Machine.perform] at hp
    split at hp <;> cases hp
    exact ⟨rfl, r, hr, rfl⟩
  | commit m => cases hp; exact ledger_map (fun r => { r with done := m }) hr rfl rfl
  | tally m => cases hp; exact ledger_map (fun r => { r with done := m }) hr rfl rfl
  | _ => cases hp; exact ⟨rfl, r, hr, rfl⟩

/-! ### What lands inside the command -/

/-- No move of the list is a reset event (R381). -/
def NoReset (l : List (Nat × Move)) : Prop := ∀ m ∈ l, m.2.isReset = false

/-- A HOST read or a frame of the EC leaves the claims alone (R80, R89). -/
theorem Ledger.landMove (hu : Ledger h n u) {m : Move} (hm : m.isReset = false) :
    (∀ t, landMove m u = .ok t → Ledger h n t ∧ t.during = u.during) ∧ ∀ t, landMove m u ≠ .error (.next t) := by
  obtain ⟨hn, r, hr, hh⟩ := hu
  rw [Machine.landMove]
  cases e : plainMove m u with
  | error x =>
    constructor
    · intro t e; cases e
    · intro t e; cases x <;> cases e
  | ok v =>
    rw [hm]
    refine ⟨fun t ht => ?_, fun t e => by cases e⟩
    cases ht
    rcases plainMove_running hm (by rw [hr]; nofun) e with ⟨w, rfl⟩ | ⟨f, -, rfl⟩
    · exact ⟨⟨hn, r, hr, hh⟩, rfl⟩
    · exact ⟨⟨hn, r, hr, hh⟩, rfl⟩

/-- With no reset event among the moves that land, the command goes on with its claims. -/
theorem lands_noReset : Lands (fun u => Ledger h n u ∧ NoReset u.during) fun _ => False := by
  have all : ∀ l u, Ledger h n u → NoReset u.during → u.during = l →
      (∀ t, landFrom l u = .ok t → Ledger h n t ∧ NoReset t.during) ∧ ∀ t, landFrom l u = .error (.next t) → False := by
    intro l
    induction l with
    | nil => exact fun u hu hl _ => ⟨fun t e => by cases e; exact ⟨hu, hl⟩, fun t e => by cases e⟩
    | cons x rest ih =>
      obtain ⟨k, m⟩ := x
      intro u hu hl hd
      have hrest : NoReset rest := fun y hy => hl y (hd ▸ List.mem_cons_of_mem _ hy)
      have hm := (show Ledger h n { u with during := rest } from ⟨hu.count, hu.held⟩).landMove
        (hl (k, m) (hd ▸ List.mem_cons_self))
      rw [landFrom]
      split
      · cases e : Machine.landMove m { u with during := rest } with
        | ok v =>
          obtain ⟨hv, hvd⟩ := hm.1 v e
          exact ih v hv (hvd ▸ hrest) hvd
        | error o =>
          constructor
          · intro t e'; cases e'
          · intro t e'; cases e'; exact hm.2 t e
      · exact ⟨fun t e => by cases e; exact ⟨hu, hl⟩, fun t e => by cases e⟩
  exact fun u hu => all u.during u hu.1 hu.2 rfl

/-! ### The claim count at the end of a script -/

/-- However the script goes on, from `n` claims of which the command holds `h`, it ends with a code and a claim count that
stand in `Q`: those it still holds are released (R356). -/
def Script.Settles (Q : Code → Nat → Prop) : Nat → Nat → Script → Prop
  | h, n, .done _  => Q .ok (n - h)
  | h, n, .raise c => Q c (n - h)
  | h, n, .act a k => ∀ x, a.Answers x → (k x).Settles Q (a.heldAfter x h) (a.countAfter x n)

/-- The end of a command, whatever lands before it, releases what the command holds (R356). -/
theorem end_settles {Q : Code → Nat → Prop} {e : Code} {v : Word} (hq : Q e (n - h)) (hu : Ledger h n u)
    (hl : NoReset u.during) (hend : andThen (landEnd u) (fun w => .next (finish e v w)) = .next t) :
    t.result = e.number ∧ Q e t.claimCount := by
  have hland := lands_noReset.landEnd ⟨hu, hl⟩
  cases hw : landEnd u with
  | error o => rw [hw] at hend; cases hend; exact (hland.2 t hw).elim
  | ok w =>
    rw [hw] at hend
    cases hend
    obtain ⟨⟨rfl, r, hr, rfl⟩, -⟩ := hland.1 w hw
    exact ⟨rfl, by rw [finish_claimCount, State.held, hr]; exact hq⟩

/-- A run that no reset event ends has the code and the claim count its script says. -/
theorem run_settles {Q : Code → Nat → Prop} {c : Script} (hc : c.Settles Q h n) (hu : Ledger h n u)
    (hl : NoReset u.during) (hrun : run c u = .next t) : ∃ e : Code, t.result = e.number ∧ Q e t.claimCount := by
  induction c generalizing u h n with
  | done v => exact ⟨.ok, end_settles hc hu hl hrun⟩
  | raise e => exact ⟨e, end_settles hc hu hl hrun⟩
  | act a k ih =>
    have hland := lands_noReset u ⟨hu, hl⟩
    rw [run_act] at hrun
    cases hw : land u with
    | error o => rw [hw] at hrun; cases hrun; exact (hland.2 t hw).elim
    | ok w =>
      obtain ⟨hwu, hwl⟩ := hland.1 w hw
      rw [hw, andThen_ok] at hrun
      obtain ⟨x, w', hp, hrun⟩ := afterAct_next hrun
      refine ih x (hc x (perform_answers hp)) (hwu.perform hp) ?_ hrun
      rw [hear_during, (perform_steady hp).during]
      exact hwl

/-! ### Scripts that give back what they take -/

/-- From `n` claims of others and `h` of the command's own, the script ends with the `n` (R153). -/
abbrev Script.Balanced (n h : Nat) (c : Script) : Prop := c.Settles (fun _ m => m = n) h (n + h)

section
variable {o : OpSet} {x : Context} {k : Script}

theorem balanced_done {v : Word} : (Script.done v).Balanced n h := Nat.add_sub_cancel n h

theorem balanced_raise {c : Code} : (Script.raise c).Balanced n h := Nat.add_sub_cancel n h

/-- An act that takes and gives back no claim, and raises its failure. -/
theorem balanced_xferAct {op : Byte} {out : List Byte} {m : Nat} {c : Code → Code} {k : Answer → Script}
    (hk : ∀ x, (k x).Balanced n h) : (Script.act (.xfer op out m) (unlessFailed c k)).Balanced n h := by
  intro x _
  cases x with
  | failed e => exact balanced_raise
  | _ => exact hk _

theorem balanced_claim (hk : k.Balanced n (h + 1)) : (claim k).Balanced n h := by
  intro x hx
  rcases hx with rfl | ⟨m, rfl⟩
  · exact balanced_raise
  · exact hk

theorem balanced_release (hk : k.Balanced n h) : (release k).Balanced n (h + 1) := fun _ _ => hk

theorem balanced_require {b : Bool} {c : Code} (hk : k.Balanced n h) : (require b c k).Balanced n h := by
  cases b
  · exact balanced_raise
  · exact hk

theorem balanced_each {α : Type} {xs : List α} {f : α → Script → Script}
    (hf : ∀ x k, Script.Balanced n h k → (f x k).Balanced n h) (hk : k.Balanced n h) : (each xs f k).Balanced n h := by
  induction xs with
  | nil => exact hk
  | cons x xs ih => exact hf x _ ih

theorem balanced_prologue {d : Need} {k : Descriptor → Script} (hk : ∀ e, (k e).Balanced n h) :
    (prologue d x k).Balanced n h := by
  rw [prologue]
  split
  · exact balanced_raise
  · exact balanced_require (hk _)

theorem balanced_rangeCheck {d : Descriptor} {b : Bool} (hk : k.Balanced n h) : (rangeCheck d x b k).Balanced n h :=
  balanced_require (balanced_require (balanced_require hk))

theorem balanced_secCheck {r : Nat} (hk : k.Balanced n h) : (secCheck r x k).Balanced n h :=
  balanced_require (balanced_require hk)

theorem balanced_pollReady {m : Nat} (hk : k.Balanced n h) : (pollReady o m k).Balanced n h := by
  induction m with
  | zero => exact balanced_raise
  | succ m ih => exact balanced_xferAct fun _ => by dsimp only; split <;> assumption

/-- WREN, a frame that writes, ready poll (R174, R190, R202, R276, R278). -/
theorem balanced_update {op : Byte} {out : List Byte} {m : Nat} (hk : k.Balanced n h) :
    (writeEnable o (xfer op out 0 fun _ => pollReady o m k)).Balanced n h :=
  balanced_xferAct fun _ => balanced_xferAct fun _ => balanced_pollReady hk

theorem balanced_updateSR {m : Nat} {f : Byte → Byte → Byte × Byte} {k : Byte → Byte → Script}
    (hk : ∀ a b, (k a b).Balanced n h) : (updateSR o m f k).Balanced n h :=
  balanced_xferAct fun _ => balanced_xferAct fun _ => balanced_update <| balanced_xferAct fun _ =>
    balanced_xferAct fun _ => balanced_require (hk _ _)

theorem balanced_hwProbe {m : Nat} {k : Bool → Script} (hk : ∀ b, (k b).Balanced n h) : (hwProbe o m k).Balanced n h := by
  refine balanced_xferAct fun _ => balanced_xferAct fun _ => ?_
  dsimp only
  split
  · exact hk _
  · refine balanced_update (balanced_xferAct fun _ => ?_)
    dsimp only
    split
    · exact hk _
    · exact balanced_update (balanced_xferAct fun _ => balanced_require (hk _))

theorem balanced_applyUpdate {f : Byte → Byte → Byte × Byte} (hk : k.Balanced n h) : (applyUpdate o x f k).Balanced n h :=
  balanced_claim (balanced_updateSR fun _ _ => balanced_release hk)

theorem balanced_liveStatus {k : Byte → Byte → Script} (hk : ∀ a b, (k a b).Balanced n h) : (liveStatus o k).Balanced n h :=
  balanced_claim (balanced_xferAct fun _ => balanced_xferAct fun _ => balanced_release (hk _ _))

theorem balanced_secLockedCheck {r : Nat} (hk : k.Balanced n h) : (secLockedCheck o r k).Balanced n h :=
  balanced_xferAct fun _ => balanced_require hk

theorem balanced_setRange (k : BitVec 8) (x : Context) : (setRangeScript k x).Balanced n h :=
  balanced_prologue fun _ => by
    split
    · exact balanced_raise
    · exact balanced_applyUpdate balanced_done

theorem balanced_clearRange (x : Context) : (clearRangeScript x).Balanced n h :=
  balanced_prologue fun _ => balanced_applyUpdate balanced_done

end

/-- Every command but CLAIM and RELEASE gives back the claims it takes (R153). -/
theorem script_balanced (h1 : i ≠ .claim) (h2 : i ≠ .release) (x : Context) : (scriptOf i x).Balanced n 0 := by
  cases i with
  | claim => exact absurd rfl h1
  | release => exact absurd rfl h2
  | probe =>
    refine fun _ _ => balanced_claim (balanced_xferAct fun _ => balanced_release fun _ _ => ?_)
    split
    · exact fun _ _ => balanced_done
    · exact balanced_raise
  | read =>
    exact balanced_prologue fun _ => balanced_rangeCheck (balanced_each (fun _ _ hk => balanced_claim
      (balanced_xferAct fun _ => balanced_release fun _ _ _ _ => hk)) balanced_done)
  | write =>
    exact balanced_prologue fun _ => balanced_rangeCheck (balanced_each (fun _ _ hk => balanced_claim
      (balanced_xferAct fun _ _ _ => balanced_xferAct fun _ => balanced_pollReady (balanced_release fun _ _ => hk)))
      balanced_done)
  | erase =>
    exact balanced_prologue fun _ => balanced_rangeCheck (balanced_require (balanced_each (fun _ _ hk => balanced_claim
      (balanced_update (balanced_release fun _ _ => hk))) balanced_done))
  | lock => exact balanced_setRange 14 x
  | unlock => exact balanced_clearRange x
  | isLocked => exact balanced_prologue fun _ => balanced_liveStatus fun _ _ => balanced_done
  | setRange k => exact balanced_setRange k x
  | clearRange => exact balanced_clearRange x
  | readProtection => exact balanced_prologue fun _ => balanced_liveStatus fun _ _ => balanced_done
  | setLockMode m c =>
    refine balanced_prologue fun _ => ?_
    split
    · exact balanced_raise
    · exact balanced_require (balanced_applyUpdate balanced_done)
  | getLockMode =>
    refine balanced_prologue fun _ => balanced_claim (balanced_xferAct fun _ => balanced_xferAct fun _ => ?_)
    dsimp only
    split
    · exact balanced_release balanced_done
    · split
      · exact balanced_release balanced_done
      · exact balanced_hwProbe fun _ => balanced_release balanced_done
  | getHwProtect =>
    exact balanced_prologue fun _ => balanced_claim (balanced_hwProbe fun _ => balanced_release balanced_done)
  | secStatus =>
    exact balanced_prologue fun _ => balanced_claim (balanced_xferAct fun _ => balanced_release balanced_done)
  | secRead r =>
    exact balanced_prologue fun _ => balanced_secCheck (balanced_each (fun _ _ hk => balanced_claim
      (balanced_xferAct fun _ => balanced_release fun _ _ _ _ => hk)) balanced_done)
  | secProgram r =>
    refine balanced_prologue fun _ => balanced_secCheck ?_
    split
    · exact balanced_done
    · exact balanced_claim (balanced_secLockedCheck (balanced_update (balanced_each (fun _ _ hk =>
        balanced_xferAct fun _ _ _ => balanced_xferAct fun _ => balanced_pollReady fun _ _ => hk)
        (balanced_release balanced_done))))
  | secErase r =>
    exact balanced_prologue fun _ => balanced_secCheck (balanced_claim (balanced_secLockedCheck (balanced_update
      (balanced_release fun _ _ => balanced_done))))
  | secLock r c =>
    exact balanced_prologue fun _ => balanced_require (balanced_require (balanced_claim (balanced_updateSR fun _ _ =>
      balanced_require (balanced_release balanced_done))))
  | transfer op =>
    exact balanced_require (balanced_require (balanced_claim fun _ _ => balanced_xferAct fun _ => balanced_release
      fun _ _ _ _ => balanced_done))

/-! ### The claim count at the end of a command -/

/-- The claim count a command that started at `n` ends with (R153, R163, R165). -/
def countAtEnd (i : Instr) (n : Nat) (c : Code) : Nat :=
  match i with
  | .claim   => if c = .ok then n + 1 else n
  | .release => if c = .ok then n - 1 else n
  | _        => n

theorem script_settles (i : Instr) (n : Nat) (x : Context) :
    (scriptOf i x).Settles (fun c m => m = countAtEnd i n c) 0 n := by
  by_cases h1 : i = .claim
  · subst h1
    rintro y (rfl | ⟨m, rfl⟩) <;> rfl
  · by_cases h2 : i = .release
    · subst h2
      rintro y (rfl | ⟨m, rfl⟩) <;> rfl
    · have he : ∀ c, countAtEnd i n c = n := fun c => by rw [countAtEnd] <;> assumption
      simp only [he]
      exact script_balanced h1 h2 x

/-- A command that no reset event ends has a code, and the claim count that goes with it. -/
theorem exec_settles (hl : NoReset s.during) (hx : exec i s = .next t) :
    ∃ c : Code, t.result = c.number ∧ t.claimCount = countAtEnd i s.claimCount c := by
  rw [exec_eq] at hx
  exact run_settles (script_settles i s.claimCount _) (u := s.started) ⟨rfl, _, rfl, rfl⟩ hl hx

theorem number_eq_zero (c : Code) : c.number = 0 ↔ c = .ok := by cases c <;> decide

/-- Settles O19: a script gives back the claims it takes, and what it still holds when it fails the end releases. -/
theorem claimsAreBalanced : Obligations.ClaimsAreBalanced := by
  intro i s t hl hx
  obtain ⟨c, hr, hn⟩ := exec_settles hl hx
  rw [hr, hn]
  simp only [number_eq_zero]
  refine ⟨fun h1 h2 => ?_, ?_, ?_⟩
  · rw [countAtEnd] <;> assumption
  · rintro rfl
    rfl
  · rintro rfl
    rfl

/-! ### The owner of the bus -/

/-- EC_OWNS is set exactly at claim count 0 (R33), whatever the machine does. -/
theorem lasting_owns {A : Act → Prop} : Lasting (fun u => u.ecOwns = decide (u.claimCount = 0)) A where
  alike ho e := by rw [e.ecOwns, e.claimCount]; exact ho
  result _ ho := ho
  ctrl _ _ ho := ho
  stage _ _ _ _ ho := ho
  answer _ _ ho := ho
  powerCycle _ ho := ho
  take _ _ := rfl
  add _ h0 ho := ho.trans ((decide_eq_false h0).trans (decide_eq_false (Nat.succ_ne_zero _)).symm)
  releaseBus {s} ho := by
    rw [releaseBus_ecOwns, releaseBus_claimCount]
    by_cases h1 : s.claimCount - 1 = 0
    · rw [if_pos h1, decide_eq_true h1]
    · rw [if_neg h1, decide_eq_false h1, ho, decide_eq_false (by omega)]
  dbuf _ _ _ ho := ho
  memWrite _ _ _ ho := ho
  unbind ho := ho
  bind _ _ ho := ho
  seqReset _ := rfl

/-- How a command that ended with `finish` ended: its claims balanced, and the bus with its owner (R153, R356). -/
theorem ended_finish {c : Code} {v : Word} (h1 : i ≠ .claim) (h2 : i ≠ .release) (hd : s.during = [])
    (hx : exec i s = .next (finish c v u)) (hn : u.done = n) : s.Ended (finish c v u) c n v := by
  have hcount := (claimsAreBalanced i s _ (by rw [hd]; nofun) hx).1 h1 h2
  refine ⟨rfl, by rw [finish_doneCount, hn], rfl, rfl, hcount, fun ho => ?_⟩
  rw [lasting_owns.exec (script_special i s) ho hx, hcount, ho]

end Sys2Proof.Machine
end

section
/-! SUPPORT. CLAIM and RELEASE (R163, R165): each is one act, whose equation per case gives the whole command. -/

namespace Sys2Proof.Machine

variable {s u : State}

/-! ### `Claim()` and `Release()` case by case -/

theorem claimBus_max (h : s.claimCount = s.cfg.claimMax) : claimBus s = (.failed .busClaimFailed, s) := by
  rw [claimBus, if_pos h]

section
variable (h : s.claimCount ≠ s.cfg.claimMax)
include h

theorem claimBus_above (h0 : s.claimCount ≠ 0) :
    claimBus s = (.number (s.claimCount + 1), { s with claimCount := s.claimCount + 1 }) := by
  rw [claimBus, if_neg h, if_neg h0]

/-- The EC acknowledges the YIELD (R150). -/
theorem claimBus_acknowledged (h0 : s.claimCount = 0) (ha : s.env.drawEc.1.ack = true) : ∃ e c l, claimBus s =
    (.number 1, { s with env := e, chip := c, trace := l ++ [.yield], ecOwns := false, claimCount := 1 }) := by
  obtain ⟨e, c, l, -, hy⟩ := yieldTo_eq s.env.drawEc.1 { s with env := s.env.drawEc.2 }
  refine ⟨e, c, l, ?_⟩
  rw [claimBus, if_neg h, if_pos h0]
  simp only [ha, hy, if_true]

/-- The EC refuses the YIELD (R150). -/
theorem claimBus_refused (h0 : s.claimCount = 0) (ha : s.env.drawEc.1.ack = false) : ∃ e c l, claimBus s =
    (.failed .busClaimFailed, { s with env := e, chip := c, trace := l ++ [.yield] }) := by
  obtain ⟨e, c, l, -, hy⟩ := yieldTo_eq s.env.drawEc.1 { s with env := s.env.drawEc.2 }
  refine ⟨e, c, l, ?_⟩
  rw [claimBus, if_neg h, if_pos h0]
  simp only [ha, hy, Bool.false_eq_true, if_false]

end

theorem releaseHost_none (h : s.claimCount = 0) : releaseHost s = (.failed .illegalCommand, s) := by
  rw [releaseHost, if_pos h]

theorem releaseHost_last (h : s.claimCount = 1) :
    releaseHost s = (.number 0, { s with claimCount := 0, trace := s.trace ++ [.reclaim], ecOwns := true }) := by
  rw [releaseHost, if_neg (by omega), releaseBus, h]
  rfl

theorem releaseHost_above (h : 2 ≤ s.claimCount) :
    releaseHost s = (.number (s.claimCount - 1), { s with claimCount := s.claimCount - 1 }) := by
  rw [releaseHost, if_neg (by omega), releaseBus]
  exact congrArg _ (if_neg (by show s.claimCount - 1 ≠ 0; omega))

/-! ### A command of one act -/

/-- The script of a command that is one act and returns the count it answers. -/
def oneAct (a : Act) : Script := .act a (unlessFailed id fun x => .done (BitVec.ofNat 32 x.count))

theorem run_oneAct_number {a : Act} {m : Nat} (hd : s.during = []) (h : perform a s.started = .ok (.number m, u)) :
    run (oneAct a) s.started = .next (complete (BitVec.ofNat 32 m) (u.hear (.number m))) := by
  rw [oneAct, run_act_alone (s := s.started) _ hd h]
  exact run_done_alone _ ((perform_steady h).during.trans hd)

theorem run_oneAct_failed {a : Act} {c : Code} (hd : s.during = []) (h : perform a s.started = .ok (.failed c, u)) :
    run (oneAct a) s.started = .next (abort c (u.hear (.failed c))) := by
  rw [oneAct, run_act_alone (s := s.started) _ hd h]
  exact run_raise_alone _ ((perform_steady h).during.trans hd)

theorem exec_claim_eq (s : State) : exec .claim s = run (oneAct .hostClaim) s.started := exec_eq .claim s

theorem exec_release_eq (s : State) : exec .release s = run (oneAct .hostRelease) s.started := exec_eq .release s

theorem perform_hostClaim {x : Answer} (h : claimBus s.started = (x, u)) : perform .hostClaim s.started = .ok (x, u) :=
  congrArg Except.ok h

theorem perform_hostRelease {x : Answer} (h : releaseHost s.started = (x, u)) :
    perform .hostRelease s.started = .ok (x, u) := congrArg Except.ok h

/-- Settles O17: at `CLAIM_MAX` no claim, above 0 one more, and at 0 what the EC answers to the YIELD. -/
theorem claimCommand : Obligations.ClaimCommand := by
  intro s hd
  rw [exec_claim_eq]
  refine ⟨fun hmax => ?_, fun hmax h0 => ?_, fun hmax h0 hec => ?_, fun hmax h0 hec => ?_⟩
  · exact run_oneAct_failed hd (perform_hostClaim (claimBus_max (s := s.started) hmax))
  · exact run_oneAct_number hd (perform_hostClaim (claimBus_above (s := s.started) hmax h0))
  · obtain ⟨e, c, l, hb⟩ := claimBus_acknowledged (s := s.started) hmax h0 (drawEc_always (e := s.env) hec).1
    exact ⟨_, run_oneAct_number hd (perform_hostClaim hb), rfl, rfl, rfl, rfl, rfl, rfl, List.getLast?_concat⟩
  · obtain ⟨e, c, l, hb⟩ := claimBus_refused (s := s.started) hmax h0 (drawEc_always (e := s.env) hec).1
    exact ⟨_, run_oneAct_failed hd (perform_hostClaim hb), ⟨rfl, rfl, rfl, rfl, rfl, fun _ => rfl⟩, rfl,
      List.getLast?_concat⟩

/-- Settles O18: at count 0 nothing to release, at 1 the RECLAIM, above it one claim fewer. -/
theorem releaseCommand : Obligations.ReleaseCommand := by
  refine ⟨by decide, fun s hd => ?_⟩
  rw [exec_release_eq]
  refine ⟨fun h => ?_, fun h => ?_, fun h => ?_⟩
  · exact run_oneAct_failed hd (perform_hostRelease (releaseHost_none (s := s.started) h))
  · exact run_oneAct_number hd (perform_hostRelease (releaseHost_last (s := s.started) h))
  · exact run_oneAct_number hd (perform_hostRelease (releaseHost_above (s := s.started) h))

end Sys2Proof.Machine
end

section
/-! SUPPORT. TRANSFER and the controller (R141 to R144, R160): what acts other than a transaction leave of the controller, a
transaction whose draw is known, and TRANSFER act by act. -/

namespace Sys2Proof.Machine

variable {s t u : State} {i : Instr} {op : BitVec 8}

/-! ### The controller between two transactions -/

/-- A `Claim()` leaves the controller and its draws alone (R150). -/
theorem claimBus_controller (s : State) :
    (claimBus s).2.ctrl = s.ctrl ∧ (claimBus s).2.env.ctrl = s.env.ctrl := by
  obtain ⟨e, c, l, he, hy⟩ := yieldTo_eq s.env.drawEc.1 { s with env := s.env.drawEc.2 }
  rcases claimBus_cases s with ⟨-, e'⟩ | ⟨-, -, e'⟩ | ⟨-, -, ⟨-, e'⟩ | ⟨-, e'⟩⟩ <;> rw [e']
  · exact ⟨rfl, rfl⟩
  · exact ⟨rfl, rfl⟩
  all_goals
    rw [hy]
    exact ⟨rfl, he⟩

/-- An act that is no transaction leaves the controller and its draws alone. -/
theorem perform_controller {a : Act} {x : Answer} (ha : ∀ op out n, a ≠ .xfer op out n) (h : perform a s = .ok (x, t)) :
    t.ctrl = s.ctrl ∧ t.env.ctrl = s.env.ctrl := by
  have hc := claimBus_controller s
  cases a with
  | xfer op out n => exact absurd rfl (ha op out n)
  | claim =>
    have e : claimOwn s = (x, t) := by simpa [perform] using h
    rcases claimOwn_cases s with ⟨v, e1, e2⟩ | ⟨n, v, e1, e2⟩ <;> rw [e2] at e <;> cases e <;> rw [e1] at hc
    · exact hc
    · exact hc
  | release => cases h; exact ⟨releaseOwn_ctrl s, congrArg Env.ctrl (releaseOwn_env s)⟩
  | hostClaim =>
    have e : claimBus s = (x, t) := by simpa [perform] using h
    rwa [e] at hc
  | hostRelease =>
    have e : releaseHost s = (x, t) := by simpa [perform] using h
    rw [releaseHost] at e
    split at e <;> cases e
    · exact ⟨rfl, rfl⟩
    · exact ⟨releaseBus_ctrl s, congrArg Env.ctrl (releaseBus_env s)⟩
  | memRead i n =>
    simp only [perform] at h
    split at h <;> cases h
    exact ⟨rfl, rfl⟩
  | _ => cases h; exact ⟨rfl, rfl⟩

/-- No act clears CTRL_UNKNOWN (R144). -/
theorem perform_unknown {a : Act} {x : Answer} (h : perform a s = .ok (x, t)) (hu : s.ctrl.unknown = true) :
    t.ctrl.unknown = true := by
  by_cases ha : ∃ op out n, a = .xfer op out n
  · obtain ⟨op, out, n, rfl⟩ := ha
    have e : transact op out n s = (x, t) := by simpa [perform] using h
    rcases transact_cases op out n s with ⟨-, e'⟩ | ⟨-, v, c, y, -, e', -, hkeep, -⟩ <;> rw [e'] at e <;> cases e
    · exact hu
    · exact hkeep hu
  · rw [(perform_controller (fun op out n e => ha ⟨op, out, n, e⟩) h).1, hu]

/-- Settles O16: every act keeps CTRL_UNKNOWN set, and the end of a command does not touch the controller. -/
theorem controllerUnknownIsSticky : Obligations.ControllerUnknownIsSticky := by
  intro i s t hd hu h
  rw [exec_eq] at h
  have hact : ∀ a (v : State) x w, Special s i a → (v.during = [] ∧ v.ctrl.unknown = true) → perform a v = .ok (x, w) →
      a.admits x ∧ (w.hear x).during = [] ∧ (w.hear x).ctrl.unknown = true := by
    intro a v x w _ hv hp
    exact ⟨(perform_answers hp).admits, (perform_steady hp).during.trans hv.1, (perform_unknown hp hv.2 :)⟩
  rcases run_all (s := s.started) (script_special i s) (lands_alone (D := fun _ => False) fun _ hv => hv.1) hact ⟨hd, hu⟩ h
    with ⟨v, w, -, hw, rfl⟩ | ⟨c, w, -, hw, rfl⟩ | hf
  · rw [complete, finish_ctrl, hw.2]
  · rw [abort, finish_ctrl, hw.2]
  · exact hf.elim

/-! ### A transaction whose draw is known -/

/-- The bus part of a transaction leaves the controller alone. -/
theorem onBus_ctrl (d : CtrlDraw) (s : State) : (onBus d s).2.ctrl = s.ctrl := by
  obtain ⟨resp, -, e | e⟩ := onBus_cases d s <;> rw [e]
  rfl

theorem runStaged_timesOut {d : CtrlDraw} (h : s.cfg.xferPollLimit ≤ d.busyReads) :
    runStaged d s = (false, { (onBus d s).2 with ctrl := { (onBus d s).2.ctrl with unknown := true } }) := by
  rw [runStaged, if_pos (show timesOut d s = true from decide_eq_true h)]

theorem runStaged_inTime {d : CtrlDraw} (h : d.busyReads < s.cfg.xferPollLimit) :
    runStaged d s = (true, { (onBus d s).2 with
      ctrl := (onBus d s).2.ctrl.finished s.cfg.gen s.ctrl.frame.out.length (onBus d s).1 d.err }) := by
  rw [runStaged, if_neg (show ¬ timesOut d s = true from fun e => absurd (of_decide_eq_true e) (Nat.not_le.2 h))]

/-- A transaction staged and started, and its draw made (R141). -/
def State.underway (s : State) (p : Byte) (out : List Byte) (n : Nat) : State :=
  { s.issue p out n with env := s.env.drawCtrl.2 }

section
variable {p : Byte} {out : List Byte} {n : Nat} (hok : xferOk s.cfg.gen out.length n = true)
include hok

/-- A transaction that is not too large is issued, and the controller runs it. -/
theorem transact_run {b : Bool} (h : runStaged s.env.drawCtrl.1 (s.underway p out n) = (b, t)) : transact p out n s =
    (if !b then .failed .timeout
      else if t.ctrl.err then .failed .commandFailed
      else .bytes (received s.env.drawCtrl.1 out.length n t), t) := by
  have run : ∀ r, runStaged s.env.drawCtrl.1 (s.underway p out n) = r → transact p out n s =
      if !r.1 then (.failed .timeout, r.2)
      else if r.2.ctrl.err then (.failed .commandFailed, r.2)
      else (.bytes (received s.env.drawCtrl.1 out.length n r.2), r.2) := by
    rintro _ rfl
    rw [transact, if_pos hok]
    rfl
  rw [run _ h]
  cases b with
  | false => rfl
  | true => cases t.ctrl.err <;> simp

/-- The controller does not finish within `XFER_POLL_LIMIT` reads (R141, R144). -/
theorem transact_timesOut (hd : s.cfg.xferPollLimit ≤ s.env.drawCtrl.1.busyReads) :
    ∃ t, transact p out n s = (.failed .timeout, t) ∧ t.ctrl.unknown = true :=
  ⟨_, transact_run hok (runStaged_timesOut (s := s.underway p out n) hd), rfl⟩

/-- The controller finishes in time: with an error report, or with the bytes received (R141, R143). -/
theorem transact_inTime (hd : s.env.drawCtrl.1.busyReads < s.cfg.xferPollLimit) :
    ∃ t, t.ctrl.unknown = s.ctrl.unknown ∧ transact p out n s =
      (if s.env.drawCtrl.1.err then .failed .commandFailed else .bytes (received s.env.drawCtrl.1 out.length n t), t) := by
  refine ⟨_, ?_, transact_run hok (runStaged_inTime (s := s.underway p out n) hd)⟩
  show (onBus s.env.drawCtrl.1 (s.underway p out n)).2.ctrl.unknown = s.ctrl.unknown
  rw [onBus_ctrl]
  rfl

end

/-- A feed that has a steady draw depends on nothing else (R17). -/
theorem drawCtrl_congr {e e' : Env} {q : CtrlDraw → Prop} (h : e.ctrl = e'.ctrl) (hq : e.ctrl.Always q) :
    e.drawCtrl.1 = e'.drawCtrl.1 := by
  obtain ⟨-, x, hx, -⟩ := hq
  simp only [Env.drawCtrl, ← h, Feed.next, hx]
  split <;> rfl

theorem getElem_padResponse (n : Nat) (noise : List Byte) {k : Nat} (hk : k < n) :
    (padResponse n [] noise)[k]? = some (noiseByte noise k) := by simp [padResponse, hk]

/-- A DBUF byte after bytes landed from byte 0 on (R160). -/
theorem lookup_fillDbuf (m : Memory) (bs : List Byte) (k : Nat) :
    (m.writeList .dbuf 0 bs).lookup k = if k < bs.length then bs[k]? else m.lookup k := by
  simp only [lookup_writeDbuf, Nat.zero_le, true_and, Nat.zero_add, Nat.sub_zero]

/-! ### TRANSFER act by act -/

/-- The command in flight that started in `s` has committed nothing and written nothing to DBUF. -/
structure Uncommitted (s u : State) : Prop where
  alone : u.during = []
  dbuf  : u.dbuf = s.dbuf
  phase : ∃ r, u.phase = .running r ∧ r.done = 0

theorem Uncommitted.perform (hu : Uncommitted s u) {a : Act} {x : Answer} (hm : ∀ m, a.dbufAfter m = m)
    (hn : ∀ n, a.doneAfter n = n) (hp : perform a u = .ok (x, t)) : Uncommitted s (t.hear x) := by
  obtain ⟨r, hr, h0⟩ := hu.phase
  obtain ⟨h, ht⟩ := (perform_effect hp).phase r hr
  exact ⟨(perform_steady hp).during.trans hu.alone, ((perform_effect hp).dbuf.trans (hm _)).trans hu.dbuf, _,
    by rw [State.hear, ht]; rfl, (hn r.done).trans h0⟩

theorem Uncommitted.done (hu : Uncommitted s u) : u.done = 0 := by
  obtain ⟨r, hr, h0⟩ := hu.phase
  rw [State.done, hr]
  exact h0

/-- What TRANSFER does with the incoming bytes (R160). -/
def transferTail (n : Nat) (bs : List Byte) : Script := release <| memWrite 0 bs <| tally n <| .done 0

theorem run_release {k : Script} (hd : u.during = []) : run (release k) u = run k ((releaseOwn u).hear .done) :=
  run_act_alone _ hd rfl

theorem run_memWrite {j : Nat} {bs : List Byte} {k : Script} (hd : u.during = []) :
    run (memWrite j bs k) u = run k (State.hear { u with dbuf := u.dbuf.writeList .dbuf j bs } .done) :=
  run_act_alone _ hd rfl

theorem run_tally {n : Nat} {k : Script} (hd : u.during = []) : run (tally n k) u = run k ((u.tally n).hear .done) :=
  run_act_alone _ hd rfl

theorem run_transferTail (hu : Uncommitted s u) (n : Nat) (bs : List Byte) : ∃ v,
    run (transferTail n bs) u = .next (complete 0 v) ∧ v.done = n ∧ v.dbuf = s.dbuf.writeList .dbuf 0 bs ∧
      v.ctrl = u.ctrl := by
  obtain ⟨hd, hdbuf, r, hr, -⟩ := hu
  have hw : (releaseOwn u).phase = .running { r with held := r.held - 1 } := by
    rw [releaseOwn, releaseBus_phase, hr]
    rfl
  rw [transferTail, run_release hd, ← hdbuf, ← releaseOwn_dbuf u, ← releaseOwn_ctrl u]
  replace hd := (releaseOwn_during u).trans hd
  generalize releaseOwn u = w at hw hd ⊢
  rw [run_memWrite (u := w.hear .done) hd, run_tally (by exact hd), run_done_alone _ (by exact hd)]
  refine ⟨_, rfl, ?_, rfl, rfl⟩
  simp only [State.done, State.hear, State.tally, hw, Phase.map]

section
variable (hd : s.during = []) (hec : s.env.ec.Always fun d => d.ack = true) (hc : s.CanClaim)
  (ha : s.addr.toNat ≤ s.cfg.bufSize) (hl : s.len.toNat ≤ s.cfg.bufSize)
  (hx : xferOk s.cfg.gen s.addr.toNat s.len.toNat = true) (hload : s.Loaded s.addr.toNat)
include hd hec hc ha hl hx hload

/-- TRANSFER whose checks hold comes to its transaction, with the claim taken and DBUF read. -/
theorem exec_transfer_reaches : ∃ u, exec (.transfer op) s =
      run (xfer op (s.dbufSlice 0 s.addr.toNat) s.len.toNat (transferTail s.len.toNat)) u ∧
    Uncommitted s u ∧ u.cfg = s.cfg ∧ u.ctrl = s.ctrl ∧ u.env.ctrl = s.env.ctrl := by
  obtain ⟨m, t, ht⟩ := claimOwn_taken (s := s.started) hc (drawEc_always (e := s.env) hec).1
  have hp : perform .claim s.started = .ok (.number m, t) := by rw [perform, ht]
  have hstart : Uncommitted s s.started := ⟨hd, rfl, _, rfl, rfl⟩
  have hu := hstart.perform (fun _ => rfl) (fun _ => rfl) hp
  have hread : perform (.memRead 0 s.addr.toNat) (t.hear (.number m)) =
      .ok (.bytes (s.dbufSlice 0 s.addr.toNat), t.hear (.number m)) := by
    have hs : (t.hear (.number m)).dbufSlice 0 s.addr.toNat = s.dbufSlice 0 s.addr.toNat := by
      simp only [State.dbufSlice, State.dbufAt, hu.dbuf]
    rw [perform, dbufBytes_ok (fun j hj => by rw [hu.dbuf, Nat.zero_add]; exact hload j hj), hs]
  obtain ⟨hctrl, henv⟩ := perform_controller (a := .claim) nofun hp
  refine ⟨_, ?_, hu.perform (fun _ => rfl) (fun _ => rfl) hread, (perform_steady hp).cfg, hctrl, henv⟩
  rw [exec_eq, scriptOf, latched_context, transferScript, require_true (decide_eq_true ⟨ha, hl⟩), require_true hx, claim,
    run_act_alone (s := s.started) _ hd hp, unlessFailed, memRead, run_act_alone _ hu.alone hread]
  rfl

end

section
variable {out : List Byte} {n : Nat} (he : exec (.transfer op) s = run (xfer op out n (transferTail n)) u)
  (hu : Uncommitted s u) (hd : s.during = [])
include he hu hd

/-- A transaction that fails ends TRANSFER with its code (R141, R356). -/
theorem transfer_fails {c : Code} (h : transact op out n u = (.failed c, t)) :
    ∃ v, exec (.transfer op) s = .next v ∧ s.Ended v c 0 0 ∧ v.ctrl = t.ctrl ∧ v.dbuf = s.dbuf := by
  have hp : perform (.xfer op out n) u = .ok (.failed c, t) := congrArg Except.ok h
  have ht := hu.perform (fun _ => rfl) (fun _ => rfl) hp
  rw [xfer, run_act_alone _ hu.alone hp, unlessFailed, run_raise_alone _ ht.alone] at he
  exact ⟨_, he, ended_finish (i := .transfer op) (c := c) nofun nofun hd he ht.done, finish_ctrl _ _ _,
    (finish_dbuf _ _ _).trans ht.dbuf⟩

/-- The bytes a transaction answers land in DBUF (R160). -/
theorem transfer_returns {bs : List Byte} (h : transact op out n u = (.bytes bs, t)) :
    ∃ v, exec (.transfer op) s = .next v ∧ s.Ended v .ok n 0 ∧ v.ctrl = t.ctrl ∧
      v.dbuf = s.dbuf.writeList .dbuf 0 bs := by
  have hp : perform (.xfer op out n) u = .ok (.bytes bs, t) := congrArg Except.ok h
  have ht := hu.perform (fun _ => rfl) (fun _ => rfl) hp
  obtain ⟨v, hv, hdone, hdbuf, hctrl⟩ := run_transferTail ht n bs
  rw [xfer, run_act_alone _ hu.alone hp] at he
  have he' := he.trans hv
  exact ⟨_, he', ended_finish (i := .transfer op) nofun nofun hd he' hdone, (finish_ctrl _ _ _).trans hctrl,
    (finish_dbuf _ _ _).trans hdbuf⟩

end

/-- Settles O15: TRANSFER comes to its transaction, and the controller's draw says how that ends. -/
theorem transferReportsTheController : Obligations.TransferReportsTheController := by
  intro s op hd hec hc ha hl hx hload
  obtain ⟨u, he, hu, hcfg, hctrl, hdraws⟩ := exec_transfer_reaches (op := op) hd hec hc ha hl hx hload
  have hok : xferOk u.cfg.gen (s.dbufSlice 0 s.addr.toNat).length s.len.toNat = true := by
    rw [hcfg, length_dbufSlice, hx]
  refine ⟨fun hfeed => ?_, fun hfeed => ?_, fun hunknown hfeed => ?_⟩
  all_goals
    rw [← hcfg, ← hdraws] at hfeed
    have hdraw := (drawCtrl_always (e := u.env) hfeed).1
  · obtain ⟨t, ht, hset⟩ := transact_timesOut (p := op) hok hdraw
    obtain ⟨v, hv, hend, hvc, hvd⟩ := transfer_fails he hu hd ht
    exact ⟨v, hv, hend, by rw [hvc, hset], hvd⟩
  · obtain ⟨t, hkeep, ht⟩ := transact_inTime (p := op) hok hdraw.1
    rw [hdraw.2] at ht
    obtain ⟨v, hv, hend, hvc, hvd⟩ := transfer_fails he hu hd ht
    exact ⟨v, hv, hend, by rw [hvc, hkeep, hctrl], hvd⟩
  · obtain ⟨t, hkeep, ht⟩ := transact_inTime (p := op) hok hdraw.1
    have hset : t.ctrl.unknown = true := by rw [hkeep, hctrl, hunknown]
    rw [hdraw.2, received, if_pos hset, drawCtrl_congr hdraws hfeed] at ht
    obtain ⟨v, hv, hend, hvc, hvd⟩ := transfer_returns he hu hd ht
    refine ⟨v, hv, hend, by rw [hvc, hset], fun k => ?_⟩
    rw [hvd, lookup_fillDbuf, length_padResponse]
    split
    · exact getElem_padResponse _ _ ‹_›
    · rfl

/-- Settles O14: a check that fails raises its code before the first act. -/
theorem transferChecksSizes : Obligations.TransferChecksSizes := by
  intro s op
  rw [exec_eq, scriptOf, latched_context, transferScript]
  refine ⟨fun h => ?_, fun ha hl hx => ?_⟩
  · rw [require_false (decide_eq_false fun ⟨ha, hl⟩ => h.elim (Nat.not_lt.2 ha) (Nat.not_lt.2 hl))]
    exact run_raise_started _ s
  · rw [require_true (decide_eq_true ⟨ha, hl⟩), require_false hx]
    exact run_raise_started _ s

/-! ### TRANSFER in a quiet environment -/

/-- A TRANSFER that ends Ok sent its one frame. -/
theorem transfer_frames (hd : s.during = []) (h : exec (.transfer op) s = .next t) (hr : t.result = Code.ok.number) :
    framesOf t.trace = framesOf s.trace ++ [⟨op, s.dbufSlice 0 s.addr.toNat, s.len.toNat⟩] := by
  have hlog : (scriptOf (.transfer op) (s.latched.context s)).Logs (fun _ => true) (fun c w _ => c = .ok → w = 1) 0 0 :=
    logs_require nofun (logs_require nofun (logs_claim nofun (logs_memRead fun _ => logs_xfer rfl
      (fun c hc _ e => absurd e hc) fun _ => logs_release (logs_memWrite (logs_tally fun _ => rfl)))))
  obtain ⟨c, fs, n, hclosed⟩ := exec_logs hd hlog h
  have hc : c = .ok := (number_eq_zero c).1 (hclosed.result.symm.trans hr)
  have hlen : fs.length = 1 := by rw [← hclosed.log hc, List.countP_true]
  obtain ⟨f, rfl⟩ := List.length_eq_one_iff.1 hlen
  rw [hclosed.sent, show f = _ from hclosed.may f List.mem_cons_self]

/-- Settles O13: the quiet run gives the answer of the chip, and the log of the command its one frame. -/
theorem transferCompletes : Obligations.TransferCompletes := by
  intro s op hq hc ha hl hx hload
  have hlead : Leads (fun _ => True) s.started (scriptOf (.transfer op) (s.latched.context s)) fun t => ∃ v d,
      t = complete 0 v ∧ v.done = s.len.toNat ∧
      t.chip = (s.chip.answer d ⟨op, s.dbufSlice 0 s.addr.toNat, s.len.toNat⟩).2 ∧
      t.dbuf = s.dbuf.writeList .dbuf 0 (s.chip.answer d ⟨op, s.dbufSlice 0 s.addr.toNat, s.len.toNat⟩).1 := by
    refine leads_require (decide_eq_true ⟨ha, hl⟩) (leads_require hx (leads_claim hc (leads_memRead
      (fun j hj => by rw [Nat.zero_add]; exact hload j hj) (leads_xfer (by rw [length_dbufSlice]; exact hx) fun d _ =>
      leads_release (leads_memWrite (leads_tally (leads_done fun v hv => ?_)))))))
    exact ⟨v, d, rfl, by rw [core_done hv.core]; rfl, (finish_chip _ _ v).trans (core_chip hv.core),
      (finish_dbuf _ _ v).trans (core_dbuf hv.core)⟩
  obtain ⟨t, ht, v, d, rfl, hdone, hchip, hdbuf⟩ := hlead.exec hq
  refine ⟨d, _, ht, ended_finish (i := .transfer op) nofun nofun hq.alone ht hdone, hchip, fun k => ?_,
    transfer_frames hq.alone ht rfl⟩
  rw [hdbuf, lookup_fillDbuf, length_answer]

end Sys2Proof.Machine
end

section
/-! SUPPORT. Commands that a check ends before their first act: the prologue (R175), the range check of READ, WRITE, ERASE
(R176), and the alignment check of ERASE (R190). -/

namespace Sys2Proof.Machine

variable {s : State} {i : Instr} {c : Code} {d : Descriptor} {x : Context} {b : Bool} {k : Script}

/-- A script that raises before its first act rejects the command. -/
theorem exec_rejected (h : scriptOf i (s.latched.context s) = .raise c) : exec i s = .next (s.rejected c) := by
  rw [exec_eq, h]
  exact run_raise_started c s

/-! ### The prologue -/

/-- Every command but PROBE, TRANSFER, CLAIM and RELEASE has a prologue (R175). -/
theorem needOf_some (hi : i ∉ [Instr.probe, .claim, .release]) (ht : ∀ op, i ≠ .transfer op) : ∃ n, needOf i = some n := by
  cases i with
  | probe => exact absurd (by simp) hi
  | claim => exact absurd (by simp) hi
  | release => exact absurd (by simp) hi
  | transfer op => exact absurd rfl (ht op)
  | _ => exact ⟨_, rfl⟩

/-- Settles O22: the prologue raises before the first act. -/
theorem prologueRejects : Obligations.PrologueRejects := by
  intro s i hi ht
  refine ⟨fun hd => ?_, fun d hd hp hk => ?_, fun d hd hs hk => ?_⟩
  · obtain ⟨n, hn⟩ := needOf_some hi ht
    exact exec_rejected (script_unbound hn hd)
  · have hn : needOf i = some .protection := by
      rcases hk with hk | ⟨k, rfl⟩ | ⟨m, c, rfl⟩
      · fin_cases hk <;> rfl
      · rfl
      · rfl
    exact exec_rejected (script_unsupported hn hd hp)
  · have hn : needOf i = some .security := by
      rcases hk with rfl | ⟨r, rfl | rfl | rfl⟩ | ⟨r, c, rfl⟩ <;> rfl
    exact exec_rejected (script_unsupported hn hd hs)

/-! ### The range check -/

theorem require_raise (b : Bool) (c : Code) : require b c (.raise c) = .raise c := ite_self _

/-- A range that does not lie in the array (R176). -/
theorem rangeCheck_outside (h : d.totalSize ≤ x.addr ∨ d.totalSize < x.addr + x.len) :
    rangeCheck d x b k = .raise .invalidRegionOrRange := by
  rw [rangeCheck]
  rcases h with h | h
  · exact require_false (decide_eq_false (Nat.not_lt.2 h)) _ _
  · rw [require_false (decide_eq_false (Nat.not_le.2 h)), require_raise]

/-- A range longer than DBUF, for a command that uses it (R176). -/
theorem rangeCheck_tooLong (h : x.cfg.bufSize < x.len) : rangeCheck d x true k = .raise .invalidRegionOrRange := by
  have hb : (!true || decide (x.len ≤ x.cfg.bufSize)) = false := decide_eq_false (Nat.not_le.2 h)
  rw [rangeCheck, require_false hb, require_raise, require_raise]

/-- READ, WRITE and ERASE begin with the range check; READ and WRITE use DBUF (R185, R190, R202). -/
theorem script_rangeCheck (hd : x.desc = some d) (hi : i ∈ [Instr.read, .write, .erase]) :
    ∃ b k, scriptOf i x = rangeCheck d x b k ∧ (i ≠ .erase → b = true) := by
  have hmet : ∀ k, prologue .anyDevice x k = k d := prologue_met hd rfl
  fin_cases hi
  · exact ⟨_, _, hmet _, fun _ => rfl⟩
  · exact ⟨_, _, hmet _, fun _ => rfl⟩
  · exact ⟨_, _, hmet _, fun h => absurd rfl h⟩

/-- An ERASE that is not of whole sectors is rejected, in or out of the array (R190). -/
theorem eraseScript_unaligned (hd : x.desc = some d) (h : x.addr % d.sectorSize ≠ 0 ∨ x.len % d.sectorSize ≠ 0) :
    eraseScript x = .raise .invalidRegionOrRange := by
  have hb : decide (x.addr % d.sectorSize = 0 ∧ x.len % d.sectorSize = 0) = false :=
    decide_eq_false fun ⟨h1, h2⟩ => h.elim (absurd h1) (absurd h2)
  rw [eraseScript, prologue_met hd rfl, require_false hb, rangeCheck, require_raise, require_raise, require_raise]

/-- Settles O23: each check that fails raises InvalidRegionOrRange before the first act. -/
theorem arrayRangeIsChecked : Obligations.ArrayRangeIsChecked := by
  intro s d hd
  refine ⟨fun h i hi => ?_, fun h i hi => ?_, fun h => exec_rejected (eraseScript_unaligned hd h)⟩
  · obtain ⟨b, k, hs, -⟩ := script_rangeCheck (x := s.latched.context s) hd hi
    exact exec_rejected (hs.trans (rangeCheck_outside h))
  · obtain ⟨hmem, hne⟩ : i ∈ [Instr.read, .write, .erase] ∧ i ≠ .erase := by fin_cases hi <;> simp
    obtain ⟨b, k, hs, hb⟩ := script_rangeCheck (x := s.latched.context s) hd hmem
    obtain rfl := hb hne
    exact exec_rejected (hs.trans (rangeCheck_tooLong h))

end Sys2Proof.Machine
end

section
/-! SUPPORT. PROBE that fails before it knows the identification bytes (R150, R180): its bus claim is refused, or its
transaction fails. -/

namespace Sys2Proof.Machine

variable {s t u : State} {c : Code}

/-- At `CLAIM_MAX`, or where the EC refuses the YIELD, a script gets no claim (R150). -/
theorem claimOwn_refused (h : s.claimCount = s.cfg.claimMax ∨ (s.claimCount = 0 ∧ s.env.drawEc.1.ack = false)) :
    ∃ t, claimOwn s = (.failed .busClaimFailed, t) := by
  rcases claimOwn_cases s with ⟨t, -, e⟩ | ⟨n, t, hb, -⟩
  · exact ⟨t, e⟩
  · rcases claimBus_cases s with ⟨-, e⟩ | ⟨hm, h0, -⟩ | ⟨hm, -, ⟨ha, -⟩ | ⟨-, e⟩⟩
    · rw [e] at hb; cases hb
    · exact (h.elim hm fun h => h0 h.1).elim
    · exact (h.elim hm fun h => by rw [h.2] at ha; cases ha).elim
    · rw [e] at hb; cases hb

/-- A transaction fails where the controller does not finish in time or reports an error (R141, R143). -/
theorem transact_fails {op : Byte} {out : List Byte} {n : Nat} (hok : xferOk s.cfg.gen out.length n = true)
    (hd : s.cfg.xferPollLimit ≤ s.env.drawCtrl.1.busyReads ∨ s.env.drawCtrl.1.err = true) :
    ∃ c t, transact op out n s = (.failed c, t) := by
  by_cases hto : s.cfg.xferPollLimit ≤ s.env.drawCtrl.1.busyReads
  · obtain ⟨t, ht, -⟩ := transact_timesOut (p := op) hok hto
    exact ⟨_, t, ht⟩
  · obtain ⟨t, -, ht⟩ := transact_inTime (p := op) hok (Nat.not_le.1 hto)
    exact ⟨_, t, by rw [ht, hd.resolve_left hto]; rfl⟩

/-- PROBE, started in `s`, has unbound the descriptor and identified no part yet (R180). -/
structure Unbound (s u : State) : Prop where
  going   : Uncommitted s u
  desc    : u.desc = none
  jedecId : u.jedecId = s.jedecId

theorem Unbound.claim {x : Answer} (hu : Unbound s u) (hp : perform .claim u = .ok (x, t)) : Unbound s (t.hear x) :=
  ⟨hu.going.perform (fun _ => rfl) (fun _ => rfl) hp, (perform_desc hp nofun nofun).trans hu.desc,
    ((perform_effect hp).jedecId nofun).trans hu.jedecId⟩

theorem Unbound.xfer {op : Byte} {out : List Byte} {n : Nat} {x : Answer} (hu : Unbound s u)
    (hp : perform (.xfer op out n) u = .ok (x, t)) : Unbound s (t.hear x) :=
  ⟨hu.going.perform (fun _ => rfl) (fun _ => rfl) hp, (perform_desc hp nofun nofun).trans hu.desc,
    ((perform_effect hp).jedecId nofun).trans hu.jedecId⟩

/-- How a PROBE ends that learned no identification bytes. -/
def FailsUnbound (s : State) (c : Code) : Prop :=
  ∃ t, exec .probe s = .next t ∧ s.Ended t c 0 0 ∧ t.desc = none ∧ t.jedecId = s.jedecId

theorem Unbound.fails (hu : Unbound s u) (hd : s.during = []) (he : exec .probe s = run (.raise c) u) :
    FailsUnbound s c := by
  rw [run_raise_alone c hu.going.alone] at he
  exact ⟨_, he, ended_finish (i := .probe) nofun nofun hd he hu.going.done, (finish_desc _ _ u).trans hu.desc,
    (finish_jedecId _ _ u).trans hu.jedecId⟩

/-- PROBE after its first act (R180). -/
def State.unboundStart (s : State) : State := State.hear { s.started with desc := none } .done

theorem unbound_start (hd : s.during = []) : Unbound s s.unboundStart := ⟨⟨hd, rfl, _, rfl, rfl⟩, rfl, rfl⟩

/-- What PROBE does once it has the bus (R180). -/
def identifyScript (x : Context) : Script :=
  xferAs .noDevice x.cfg.genericRdid [] 3 fun r =>
  release <|
  bindTo x.cfg (firstByte r) ((r[1]?).getD 0) ((r[2]?).getD 0)

theorem exec_probe_eq (hd : s.during = []) :
    exec .probe s = run (claim (identifyScript (s.latched.context s))) s.unboundStart := by
  rw [exec_eq]
  exact run_act_alone (s := s.started) (x := .done) _ hd rfl

/-- A PROBE whose claim is refused (R150). -/
theorem probe_claim_refused (hd : s.during = [])
    (h : s.claimCount = s.cfg.claimMax ∨ (s.claimCount = 0 ∧ s.env.drawEc.1.ack = false)) :
    FailsUnbound s .busClaimFailed := by
  obtain ⟨t, ht⟩ := claimOwn_refused (s := s.unboundStart) h
  have hp : perform .claim s.unboundStart = .ok (.failed .busClaimFailed, t) := congrArg Except.ok ht
  refine ((unbound_start hd).claim hp).fails hd ?_
  rw [exec_probe_eq hd, claim, run_act_alone (s := s.unboundStart) _ hd hp, unlessFailed]
  rfl

/-- A PROBE whose identification transaction fails (R180). -/
theorem probe_xfer_fails (hd : s.during = []) (hc : s.CanClaim) (ha : s.env.drawEc.1.ack = true)
    (hx : s.env.ctrl.Always fun d => s.cfg.xferPollLimit ≤ d.busyReads ∨ d.err = true) : FailsUnbound s .noDevice := by
  obtain ⟨n, t, ht⟩ := claimOwn_taken (s := s.unboundStart) hc ha
  have hp : perform .claim s.unboundStart = .ok (.number n, t) := congrArg Except.ok ht
  have hu := (unbound_start hd).claim hp
  have hcfg : t.cfg = s.cfg := (perform_steady hp).cfg
  have hctrl : t.env.ctrl = s.env.ctrl := (perform_controller (a := .claim) nofun hp).2
  have hdraw := (drawCtrl_always (e := t.env) (hctrl ▸ hx)).1
  rw [← hcfg] at hdraw
  obtain ⟨c, w, hw⟩ := transact_fails (s := t.hear (.number n)) (op := s.cfg.genericRdid) (out := []) (n := 3)
    (xferOk_small _ (by simp)) hdraw
  have hp' : perform (.xfer s.cfg.genericRdid [] 3) (t.hear (.number n)) = .ok (.failed c, w) := congrArg Except.ok hw
  refine (hu.xfer hp').fails hd ?_
  rw [exec_probe_eq hd, claim, run_act_alone (s := s.unboundStart) _ hd hp, unlessFailed, identifyScript, latched_context,
    xferAs, run_act_alone _ hu.going.alone hp', unlessFailed]

/-- Settles O21: PROBE unbinds in its first act, and the claim or the transaction that fails ends it. -/
theorem probeFailureUnbinds : Obligations.ProbeFailureUnbinds := by
  intro s hd
  refine ⟨fun hc hec hx => probe_xfer_fails hd hc (drawEc_always (e := s.env) hec).1 hx, fun h => ?_⟩
  exact probe_claim_refused hd (h.imp_right fun h => ⟨h.1, (drawEc_always (e := s.env) h.2).1⟩)

end Sys2Proof.Machine
end

section
/-! SUPPORT. The frames a script sends where no step of it fails, in order (`Script.Sends`, `exec_sends`). -/

namespace Sys2Proof.Machine

variable {lost : Code → Prop} {s t u : State} {i : Instr} {k : Script} {fs : List Frame}

/-- However the script goes on, it ends with a code of `lost` or once it has sent exactly the frames `fs`. -/
def Script.Sends (lost : Code → Prop) : Script → List Frame → Prop
  | .done _, fs  => fs = []
  | .raise c, fs => lost c ∨ fs = []
  | .act a k, fs => ∀ x, a.Answers x → ∃ rest, fs = a.sends x ++ rest ∧ (k x).Sends lost rest

/-- An act that sends nothing and does not fail. -/
theorem sends_quietAct {a : Act} {k : Answer → Script} (ha : ∀ x, a.sends x = []) (hk : ∀ x, (k x).Sends lost fs) :
    (Script.act a k).Sends lost fs := fun x _ => ⟨fs, by rw [ha]; rfl, hk x⟩

theorem sends_release (hk : k.Sends lost fs) : (release k).Sends lost fs := sends_quietAct (fun _ => rfl) fun _ => hk

theorem sends_memWrite {j : Nat} {bs : List Byte} (hk : k.Sends lost fs) : (memWrite j bs k).Sends lost fs :=
  sends_quietAct (fun _ => rfl) fun _ => hk

theorem sends_commit {n : Nat} (hk : k.Sends lost fs) : (commit n k).Sends lost fs :=
  sends_quietAct (fun _ => rfl) fun _ => hk

theorem sends_claim (h : lost .busClaimFailed) (hk : k.Sends lost fs) : (claim k).Sends lost fs := by
  rintro x (rfl | ⟨n, rfl⟩)
  · exact ⟨fs, rfl, .inl h⟩
  · exact ⟨fs, rfl, hk⟩

theorem sends_require {b : Bool} {c : Code} (h : lost c) (hk : k.Sends lost fs) : (require b c k).Sends lost fs := by
  cases b
  · exact .inl h
  · exact hk

/-- A transaction, any failure of which `c` turns into a code of `lost`. -/
theorem sends_xferAct {op : Byte} {out : List Byte} {n : Nat} {c : Code → Code} {k : List Byte → Script}
    (h : ∀ e, e ≠ .ok → lost (c e)) (hk : ∀ bs, (k bs).Sends lost fs) :
    (Script.act (.xfer op out n) (unlessFailed c fun x => k x.data)).Sends lost (⟨op, out, n⟩ :: fs) := by
  rintro x (rfl | rfl | rfl | ⟨bs, -, rfl⟩)
  · exact ⟨_, rfl, .inl (h _ nofun)⟩
  · exact ⟨fs, rfl, .inl (h _ nofun)⟩
  · exact ⟨fs, rfl, .inl (h _ nofun)⟩
  · exact ⟨fs, rfl, hk bs⟩

theorem sends_xfer {op : Byte} {out : List Byte} {n : Nat} {k : List Byte → Script} (h : ∀ e, e ≠ .ok → lost e)
    (hk : ∀ bs, (k bs).Sends lost fs) : (xfer op out n k).Sends lost (⟨op, out, n⟩ :: fs) := sends_xferAct h hk

theorem sends_xferAs {c : Code} {op : Byte} {out : List Byte} {n : Nat} {k : List Byte → Script} (h : lost c)
    (hk : ∀ bs, (k bs).Sends lost fs) : (xferAs c op out n k).Sends lost (⟨op, out, n⟩ :: fs) :=
  sends_xferAct (fun _ _ => h) hk

/-- A loop each round of which sends one frame. -/
theorem sends_each {α : Type} {xs : List α} {f : α → Script → Script} {frame : α → Frame}
    (hf : ∀ x k fs, k.Sends lost fs → (f x k).Sends lost (frame x :: fs)) (hk : k.Sends lost []) :
    (each xs f k).Sends lost (xs.map frame) := by
  induction xs with
  | nil => exact hk
  | cons x xs ih => exact hf x _ _ ih

/-- The end of a script that has sent all its frames. -/
theorem sent_finish (c : Code) (v : Word) (u : State) (h : fs = []) :
    framesOf (finish c v u).trace = framesOf u.trace ++ fs := by
  rw [h, framesOf_finish, List.append_nil]

/-- A run with no move inside it sends the frames of its script, unless it ends with a code of `lost`. -/
theorem run_sends {c : Script} (hc : c.Sends lost fs) (hu : u.during = []) (h : run c u = .next t) :
    ∃ e : Code, t.result = e.number ∧ (lost e ∨ framesOf t.trace = framesOf u.trace ++ fs) := by
  induction c generalizing u fs with
  | done v =>
    rw [run_done_alone v hu] at h
    cases h
    exact ⟨.ok, rfl, .inr (sent_finish _ _ u hc)⟩
  | raise e =>
    rw [run_raise_alone e hu] at h
    cases h
    exact ⟨e, rfl, hc.imp_right (sent_finish e 0 u)⟩
  | act a k ih =>
    rw [run_act, land_alone hu, andThen_ok] at h
    obtain ⟨x, v, hp, h⟩ := afterAct_next h
    obtain ⟨rest, rfl, hk⟩ := hc x (perform_answers hp)
    have hsent : framesOf (v.hear x).trace = framesOf u.trace ++ a.sends x := (perform_effect hp).sent
    obtain ⟨e, he, hfs⟩ := ih x (u := v.hear x) hk ((perform_steady hp).during.trans hu) h
    exact ⟨e, he, hfs.imp_right fun hfs => by rw [hfs, hsent, List.append_assoc]⟩

/-- A command with no move inside it sends the frames of its script, unless it ends with a code of `lost`. -/
theorem exec_sends (hc : (scriptOf i (s.latched.context s)).Sends lost fs) (hd : s.during = [])
    (h : exec i s = .next t) :
    ∃ e : Code, t.result = e.number ∧ (lost e ∨ framesOf t.trace = framesOf s.trace ++ fs) := by
  rw [exec_eq] at h
  exact run_sends (u := s.started) hc hd h

end Sys2Proof.Machine
end

section
/-! SUPPORT. PROBE in a quiet environment (R180, R302). -/

namespace Sys2Proof.Machine

variable {p : ChipDraw → Prop} {s t v : State}

/-- The identification bytes spell the code of the part. -/
theorem code_append (id : BitVec 16) : id.extractLsb' 8 8 ++ id.extractLsb' 0 8 = id := by
  rw [BitVec.extractLsb'_append_extractLsb'_eq_extractLsb' (show 8 = 0 + 8 from rfl)]
  exact BitVec.extractLsb'_eq_self

/-- JEDEC_ID holds the maker and the code of the part (R180, R302). -/
theorem jedecWord_code (mfr : Byte) (id : BitVec 16) :
    jedecWord mfr (id.extractLsb' 8 8) (id.extractLsb' 0 8) = (0 : BitVec 8) ++ mfr ++ id := by
  conv_rhs => rw [← code_append id]
  exact BitVec.append_assoc

/-- What PROBE has found when it ends: the part's code, and the first table entry with it. -/
structure Identified (s u : State) : Prop where
  jedecId : u.jedecId = (0 : BitVec 8) ++ s.chip.mfr ++ s.chip.desc.id
  desc    : u.desc = findDescriptor s.cfg s.chip.desc.id
  chip    : ∃ l, u.chip = s.chip.atPin l
  done    : u.done = 0

theorem Identified.calm (h : Identified s v) (ht : Calm p v t) : Identified s t :=
  ⟨(core_jedecId ht.core).trans h.jedecId, (core_desc ht.core).trans h.desc, (core_chip ht.core).symm ▸ h.chip,
    (core_done ht.core).trans h.done⟩

/-- How PROBE ends with what it has found: an entry is bound, or there is none (R180). -/
def EndsIdentified (s t : State) : Prop :=
  ∃ u c x, Identified s u ∧ t = finish c x u ∧ (u.desc ≠ none → c = .ok ∧ x = u.jedecId) ∧
    (u.desc = none → c = .unsupportedDevice ∧ x = 0)

theorem Identified.leads_raise (h : Identified s v) (hd : v.desc = none) :
    Leads p v (.raise .unsupportedDevice) (EndsIdentified s) :=
  Machine.leads_raise fun u hu => ⟨u, _, _, h.calm hu, rfl, fun hne => absurd ((core_desc hu.core).trans hd) hne,
    fun _ => ⟨rfl, rfl⟩⟩

theorem Identified.leads_done (h : Identified s v) (hd : v.desc ≠ none) :
    Leads p v (.done v.jedecId) (EndsIdentified s) :=
  Machine.leads_done fun u hu => ⟨u, _, _, h.calm hu, rfl, fun _ => ⟨rfl, (core_jedecId hu.core).symm⟩,
    fun hn => absurd ((core_desc hu.core).symm.trans hn) hd⟩

/-- PROBE binds the first entry with the part's code, if there is one (R180). -/
theorem leads_bindTo {l : Level} (hd : v.desc = none) (hc : v.chip = s.chip.atPin l) (h0 : v.done = 0) :
    Leads p v (bindTo s.cfg s.chip.mfr (s.chip.desc.id.extractLsb' 8 8) (s.chip.desc.id.extractLsb' 0 8))
      (EndsIdentified s) := by
  rw [bindTo, code_append, jedecWord_code]
  refine leads_identify ?_
  cases hf : findDescriptor s.cfg s.chip.desc.id with
  | none =>
    have h : Identified s { v with jedecId := (0 : BitVec 8) ++ s.chip.mfr ++ s.chip.desc.id } :=
      ⟨rfl, hd.trans hf.symm, ⟨l, hc⟩, h0⟩
    exact h.leads_raise hd
  | some e =>
    have h : Identified s { v with jedecId := (0 : BitVec 8) ++ s.chip.mfr ++ s.chip.desc.id, desc := some e } :=
      ⟨rfl, hf.symm, ⟨l, hc⟩, h0⟩
    exact leads_bind (h.leads_done nofun)

/-- PROBE in a quiet environment, of a part that answers `GENERIC_RDID` by R302. -/
theorem leads_probe (hc : s.CanClaim) (hb : s.chip.busyLeft = 0) (hp : s.chip.desc.departs = none)
    (hr : s.cfg.genericRdid = s.chip.desc.op.rdid) :
    Leads p s.started (scriptOf .probe (s.latched.context s)) (EndsIdentified s) := by
  refine leads_unbind (leads_claim hc (leads_xferAs (xferOk_small _ (by simp)) fun d _ => leads_release ?_))
  rw [State.served, freed_claimed, latched_context, hr]
  have hans := Chip.answer_rdid hp hb d
  show Leads p _ (bindTo s.cfg (firstByte (s.chip.answer d _).1) (((s.chip.answer d _).1[1]?).getD 0)
    (((s.chip.answer d _).1[2]?).getD 0)) _
  rw [hans]
  exact leads_bindTo rfl (congrArg Prod.snd hans) rfl

/-- The codes of a PROBE that did not get the identification bytes (R180). -/
def Unidentified (c : Code) : Prop := c = .busClaimFailed ∨ c = .noDevice

/-- A PROBE whose claim and transaction do not fail sends one frame (R180). -/
theorem probe_sends (x : Context) : (probeScript x).Sends Unidentified [⟨x.cfg.genericRdid, [], 3⟩] := by
  refine sends_quietAct (fun _ => rfl) fun _ => sends_claim (.inl rfl) (sends_xferAs (.inr rfl) fun r => sends_release ?_)
  refine sends_quietAct (fun _ => rfl) fun _ => ?_
  split
  · exact sends_quietAct (fun _ => rfl) fun _ => rfl
  · exact .inr rfl

/-- Settles O20: the chip's three identification bytes become JEDEC_ID, and their code is looked up. -/
theorem probeCompletes : Obligations.ProbeCompletes := by
  intro s hq hc hb hp hr
  obtain ⟨t, ht, u, c, x, hu, rfl, hsome, hnone⟩ := (leads_probe (p := fun _ => True) hc hb hp hr).exec hq
  obtain ⟨e, he, hsent⟩ := exec_sends (i := .probe) (probe_sends _) hq.alone ht
  obtain ⟨l, hl⟩ := hu.chip
  have hended : s.Ended (finish c x u) c 0 x := ended_finish (i := .probe) nofun nofun hq.alone ht hu.done
  have hknown : ¬ Unidentified e := by
    by_cases hd : u.desc = none
    · obtain ⟨rfl, -⟩ := hnone hd
      rintro (rfl | rfl) <;> cases he
    · obtain ⟨rfl, -⟩ := hsome hd
      rintro (rfl | rfl) <;> cases he
  refine ⟨_, ht, ?_, ?_, ?_, hsent.resolve_left hknown, ?_, ?_⟩
  · rw [finish_jedecId, hu.jedecId]
  · rw [finish_desc, hu.desc]
    rfl
  · rw [finish_chip, hl]
    rfl
  · rw [finish_desc, finish_jedecId]
    intro hd
    obtain ⟨rfl, rfl⟩ := hsome hd
    exact hended
  · rw [finish_desc]
    intro hd
    obtain ⟨rfl, rfl⟩ := hnone hd
    exact hended

end Sys2Proof.Machine
end

section
/-! SUPPORT. READ in a quiet environment (R185, R303), chunk by chunk. -/

namespace Sys2Proof.Machine

variable {p : ChipDraw → Prop} {s t u v : State} {n m : Nat} {d : Descriptor} {Q : State → Prop} {k : Script}

/-! ### Between two chunks -/

/-- Where a command that started in `s` stands between two claim spans, `n` bytes committed. -/
structure Standing (s : State) (n : Nat) (u : State) : Prop where
  cfg    : u.cfg = s.cfg
  claims : u.claimCount = s.claimCount
  phase  : ∃ r, u.phase = .running r ∧ r.done = n

theorem standing_started (s : State) : Standing s 0 s.started := ⟨rfl, rfl, _, rfl, rfl⟩

theorem Standing.canClaim (h : Standing s n u) (hc : s.CanClaim) : u.CanClaim := by
  rw [State.CanClaim, h.claims, h.cfg]
  exact hc

/-- The commit after a span that gave back its claim. -/
theorem Standing.committed (h : Standing s n u) (hcfg : v.cfg = u.cfg) (hclaims : v.claimCount = u.claimCount)
    (hphase : v.phase = u.phase) (m : Nat) : Standing s m (v.committed m) := by
  obtain ⟨r, hr, -⟩ := h.phase
  refine ⟨hcfg.trans h.cfg, hclaims.trans h.claims, { r with done := m }, ?_, rfl⟩
  show v.phase.map _ = _
  rw [hphase, hr]
  rfl

theorem Standing.done (h : Standing s n u) (ht : Calm p u t) : t.done = n := by
  obtain ⟨r, hr, hn⟩ := h.phase
  rw [core_done ht.core, State.done, hr]
  exact hn

/-! ### One chunk of READ -/

/-- The bytes of an array read that does not run past the end of the array. -/
theorem Chip.getElem_readArray (c : Chip) {a j n : Nat} (hj : j < n) (hin : a + n ≤ c.desc.totalSize) :
    (c.readArray a n)[j]? = some (c.arrayByte (a + j)) := by
  have hmod : (a + j) % c.desc.totalSize = a + j := Nat.mod_eq_of_lt (by omega)
  simp [Chip.readArray, hj, hmod]

/-- The answer to an array read, in the form of either variant (R303). -/
theorem Chip.answer_readForm {c : Chip} (hp : c.desc.departs = none) (hw : c.desc.op.wf) (hb : c.busyLeft = 0)
    (x : ChipDraw) (w : ReadVariant) {a : Nat} (ha : a < 2 ^ 24) (n : Nat) :
    c.answer x ⟨(readForm w c.desc.op).1, be24 a ++ (readForm w c.desc.op).2, n⟩ =
      (c.readArray (a % c.desc.totalSize) n, c.atPin x.wp) := by
  cases w with
  | slow => exact Chip.answer_read hp hw hb x ha n
  | fast => exact Chip.answer_fastRead hp hw hb x ha _ n

/-- Between two chunks of READ: the bytes committed are in DBUF, and the chip is as it was but for its pin. -/
structure ReadUpTo (s : State) (n : Nat) (u : State) : Prop where
  standing : Standing s n u
  chip     : ∃ l, u.chip = s.chip.atPin l
  dbuf     : ∀ k, u.dbuf.lookup k = if k < n then some (s.chip.arrayByte (s.addr.toNat + k)) else s.dbuf.lookup k

theorem readUpTo_started (s : State) : ReadUpTo s 0 s.started := ⟨standing_started s, ⟨s.chip.wp, rfl⟩, fun _ => rfl⟩

/-- DBUF after the bytes of the next chunk. -/
theorem ReadUpTo.lookup_next (h : ReadUpTo s n u) (hin : s.addr.toNat + n + m ≤ s.chip.desc.totalSize) (j : Nat) :
    (u.dbuf.writeList .dbuf n (s.chip.readArray (s.addr.toNat + n) m)).lookup j =
      if j < n + m then some (s.chip.arrayByte (s.addr.toNat + j)) else s.dbuf.lookup j := by
  rw [lookup_writeDbuf, Chip.length_readArray, h.dbuf]
  by_cases hj : n ≤ j ∧ j < n + m
  · rw [if_pos hj, if_pos hj.2, s.chip.getElem_readArray (by omega) hin,
      show s.addr.toNat + n + (j - n) = s.addr.toNat + j by omega]
  · rw [if_neg hj]
    by_cases hn : j < n
    · rw [if_pos hn, if_pos (by omega)]
    · rw [if_neg hn, if_neg (by omega)]

/-- The span of the next chunk, its bytes in DBUF, and its commit. -/
theorem ReadUpTo.next (h : ReadUpTo s n u) (hin : s.addr.toNat + n + m ≤ s.chip.desc.totalSize) (l : Level) :
    ReadUpTo s (n + m) (State.committed { u.spanned (s.chip.atPin l) with
      dbuf := u.dbuf.writeList .dbuf n (s.chip.readArray (s.addr.toNat + n) m) } (n + m)) := by
  refine ⟨h.standing.committed ?_ ?_ ?_ _, ⟨l, rfl⟩, h.lookup_next hin⟩ <;> rfl

theorem ReadUpTo.readChunk (h : ReadUpTo s n u) (hc : s.CanClaim) (ht : s.Attached d)
    (hm : m ≤ maxIncoming s.cfg.gen (3 + (readForm s.cfg.readVariant d.op).2.length)) (h0 : 0 < m)
    (hin : s.addr.toNat + n + m ≤ d.totalSize) (hk : ∀ t, ReadUpTo s (n + m) t → Leads p t k Q) :
    Leads p u (readChunk (readForm s.cfg.readVariant d.op).1 (readForm s.cfg.readVariant d.op).2 s.addr.toNat (n, m) k)
      Q := by
  obtain ⟨rfl, ⟨-, -, hv, hw⟩, hp, hb, -⟩ := ht
  obtain ⟨l, hl⟩ := h.chip
  have hok : xferOk u.claimed.cfg.gen
      (be24 (s.addr.toNat + n) ++ (readForm s.cfg.readVariant s.chip.desc.op).2).length m = true := by
    have hlen := readForm_length s.cfg.readVariant s.chip.desc.op
    rw [List.length_append, length_be24, show u.claimed.cfg = s.cfg from h.standing.cfg]
    exact (maxIncoming_largest _ (by omega) _).2 hm
  refine leads_claim (h.standing.canClaim hc) (leads_xfer hok fun x _ => leads_release ?_)
  have hans := Chip.answer_readForm (c := s.chip.atPin l) hp hw hb x s.cfg.readVariant
    (a := s.addr.toNat + n) (by omega) m
  rw [Chip.atPin_desc, Nat.mod_eq_of_lt (by omega), Chip.atPin_atPin] at hans
  rw [State.served, freed_claimed, show u.claimed.chip = s.chip.atPin l from hl, hans]
  exact leads_memWrite (leads_commit (hk _ (h.next hin x.wp)))

/-! ### The whole of READ -/

/-- The pieces of a read hold all its bytes (R185). -/
theorem sum_slices {ch : Nat} (len : Nat) (hch : 0 < ch) : ((slices len ch).map (·.2)).sum = len := by
  have walk : ∀ fuel i, len - i ≤ fuel → i ≤ len → i + ((slicesFrom fuel len ch i).map (·.2)).sum = len := by
    intro fuel
    induction fuel with
    | zero =>
      intro i h1 h2
      simp only [slicesFrom, List.map_nil, List.sum_nil]
      omega
    | succ fuel ih =>
      intro i h1 h2
      rw [slicesFrom]
      split
      · rw [List.map_cons, List.sum_cons, ← Nat.add_assoc]
        exact ih _ (by omega) (by omega)
      · simp only [List.map_nil, List.sum_nil]
        omega
  simpa [slices] using walk len 0 (by omega) (Nat.zero_le len)

/-- How READ ends: all bytes of its range are in DBUF, and the chip is as it was but for its pin. -/
def EndsRead (s t : State) : Prop :=
  ∃ u, t = complete 0 u ∧ u.done = s.len.toNat ∧ (∃ l, u.chip = s.chip.atPin l) ∧
    ∀ k, u.dbuf.lookup k =
      if k < s.len.toNat then some (s.chip.arrayByte (s.addr.toNat + k)) else s.dbuf.lookup k

theorem ReadUpTo.complete (h : ReadUpTo s s.len.toNat u) (ht : Calm p u t) : EndsRead s (complete 0 t) :=
  ⟨t, rfl, h.standing.done ht, (core_chip ht.core).symm ▸ h.chip, (core_dbuf ht.core).symm ▸ h.dbuf⟩

/-- The largest count of incoming bytes of a READ frame (R185). -/
def readLimit (s : State) (d : Descriptor) : Nat := maxIncoming s.cfg.gen (3 + (readForm s.cfg.readVariant d.op).2.length)

theorem readLimit_pos (s : State) (d : Descriptor) : 0 < readLimit s d :=
  maxIncoming_pos _ (by have := readForm_length s.cfg.readVariant d.op; omega)

/-- READ in a quiet environment (R185). -/
theorem leads_read (hc : s.CanClaim) (hd : s.desc = some d) (ht : s.Attached d) (ha : s.addr.toNat < d.totalSize)
    (hl : s.addr.toNat + s.len.toNat ≤ d.totalSize) (hb : s.len.toNat ≤ s.cfg.bufSize) :
    Leads p s.started (scriptOf .read (s.latched.context s)) (EndsRead s) := by
  have hpos := readLimit_pos s d
  rw [scriptOf, latched_context, readScript, prologue_met (d := d) hd rfl, rangeCheck,
    require_true (decide_eq_true ha), require_true (decide_eq_true hl),
    require_true (b := !true || decide (s.len.toNat ≤ s.cfg.bufSize)) (decide_eq_true hb)]
  refine leads_each (xs := slices s.len.toNat (readLimit s d)) (size := (·.2)) (I := ReadUpTo s)
    (fun pre ch post hch u k hu hk => ?_) (fun u hu => ?_) (readUpTo_started s)
  · obtain ⟨h0, hm, hin⟩ := slices_mem hpos (hch ▸ List.mem_append_right pre List.mem_cons_self)
    obtain ⟨i, m⟩ := ch
    obtain rfl : i = (pre.map (·.2)).sum := slice_begins hch
    exact hu.readChunk hc ht hm h0 (by omega) hk
  · rw [sum_slices _ hpos] at hu
    exact leads_done fun t ht => hu.complete ht

/-- A READ that ends Ok sent one frame for each chunk, in order (R185). -/
theorem read_sends (hd : s.desc = some d) : (scriptOf .read (s.latched.context s)).Sends (· ≠ .ok)
    ((slices s.len.toNat (readLimit s d)).map fun ch =>
      ⟨(readForm s.cfg.readVariant d.op).1, be24 (s.addr.toNat + ch.1) ++ (readForm s.cfg.readVariant d.op).2, ch.2⟩) := by
  rw [scriptOf, latched_context, readScript, prologue_met (d := d) hd rfl]
  exact sends_require nofun (sends_require nofun (sends_require nofun (sends_each (fun ch k fs hk =>
    sends_claim nofun (sends_xfer (fun _ h => h) fun _ => sends_release (sends_memWrite (sends_commit hk)))) rfl)))

/-- Settles O25: chunk after chunk lands in DBUF, and the frames are those of the script. -/
theorem readCompletes : Obligations.ReadCompletes := by
  intro s d hq hc hd ht ha hl hb
  obtain ⟨t, hx, u, rfl, hdone, ⟨l, hchip⟩, hdbuf⟩ := (leads_read (p := fun _ => True) hc hd ht ha hl hb).exec hq
  obtain ⟨e, he, hsent⟩ := exec_sends (read_sends hd) hq.alone hx
  have hok : e = .ok := (number_eq_zero e).1 (he.symm)
  refine ⟨_, hx, ended_finish (i := .read) nofun nofun hq.alone hx hdone, fun k => ?_, ?_, ?_⟩
  · rw [complete, finish_dbuf, hdbuf]
  · rw [complete, finish_chip, hchip]
    rfl
  · rw [hsent.resolve_left (not_not.2 hok), readLimit]
    cases s.cfg.readVariant <;> cases s.cfg.gen <;> rfl

end Sys2Proof.Machine
end

section
/-! SUPPORT. ERASE of sectors none of which holds a protected byte, in a quiet environment (R190, R315). -/

namespace Sys2Proof.Machine

variable {p : ChipDraw → Prop} {s t u : State} {n : Nat} {d : Descriptor} {Q : State → Prop} {k : Script}

/-! ### The chip while its sectors are erased -/

namespace Chip

variable {v c : Chip} {o a : Nat}

/-- A sector erase that WEL allows, of a sector without a protected byte (R315). -/
theorem sectorErase_accepted (x : ChipDraw) (hwel : c.wel = true) (ha : a % c.desc.sectorSize = 0)
    (ht : protTouches c.desc.totalSize c.tuple x.touches a c.desc.sectorSize = false) :
    c.sectorErase x a = ({ c with array := c.array.clearRange a c.desc.sectorSize } : Chip).startBusy x.busy
      (.array a c.desc.sectorSize 0 c.desc.sectorSize) := by
  simp only [sectorErase, ha, Nat.sub_zero]
  rw [if_neg (by rw [hwel]; nofun), if_neg (by rw [ht]; nofun)]

theorem SameData.withBusy (h : v.SameData c) (m : Nat) (target : InFlight) :
    v.SameData { c with busyLeft := m, inFlight := target } := { h with }

/-- A busy period that has begun and ended leaves the chip at rest with its data (R312). -/
theorem SameData.settled_startBusy (h : v.SameData c) (m : Nat) (target : InFlight) :
    v.AtRest (c.startBusy m target).settled := by
  have hbusy : v.SameData (c.startBusy m target) := (h.withBusy _ _).trans (sameData_setWel _ _)
  rw [Chip.settled]
  split
  · exact ⟨hbusy, ‹_›⟩
  · exact ⟨(hbusy.withBusy _ _).trans (sameData_setWel _ _), rfl⟩

/-- At rest, with the data of `v` but for the `n` bytes of the array from `o` on, which are erased. -/
structure Erased (v : Chip) (o n : Nat) (c : Chip) : Prop where
  rest  : ({ v with array := c.array } : Chip).AtRest c
  array : ∀ a, c.arrayByte a = if o ≤ a ∧ a < o + n then erasedByte else v.arrayByte a

theorem Erased.refl (h : v.busyLeft = 0) : v.Erased o 0 v := ⟨AtRest.refl h, fun a => (if_neg (by omega)).symm⟩

theorem Erased.atPin (h : v.Erased o n c) (l : Level) : v.Erased o n (c.atPin l) := ⟨h.rest.atPin l, h.array⟩

theorem Erased.setWel (h : v.Erased o n c) (b : Bool) : v.Erased o n (c.setWel b) := ⟨h.rest.setWel b, h.array⟩

/-- The next sector erased, and the busy period over (R315). -/
theorem Erased.sector (h : v.Erased o n c) (m : Nat) (target : InFlight) :
    v.Erased o (n + c.desc.sectorSize)
      (({ c with array := c.array.clearRange (o + n) c.desc.sectorSize } : Chip).startBusy m target).settled := by
  have hrest := SameData.settled_startBusy (v := { v with array := c.array.clearRange (o + n) c.desc.sectorSize })
    (c := { c with array := c.array.clearRange (o + n) c.desc.sectorSize }) { h.rest.data with array := rfl } m target
  have harray := hrest.data.array
  refine ⟨harray ▸ hrest, fun a => ?_⟩
  rw [arrayByte, harray, byte_sector, h.array]
  by_cases hs : o + n ≤ a ∧ a < o + n + c.desc.sectorSize
  · rw [if_pos hs, if_pos (by omega)]
  · rw [if_neg hs]
    by_cases hn : o ≤ a ∧ a < o + n
    · rw [if_pos hn, if_pos (by omega)]
    · rw [if_neg hn, if_neg (by omega)]

/-- The chip's answer to SE of a sector without a protected byte, WEL set: a busy period, and the sector erased (R315). -/
theorem Erased.answer_se (h : v.Erased o n c) (hw : v.desc.op.wf) (hp : v.desc.departs = none)
    (hv : v.desc.totalSize ≤ 2 ^ 24) (hwel : c.wel = true) (hal : (o + n) % v.desc.sectorSize = 0)
    (h0 : 0 < v.desc.sectorSize) (hin : o + n + v.desc.sectorSize ≤ v.desc.totalSize)
    (hprot : ∀ q x, o + n ≤ x → x < o + n + v.desc.sectorSize → protContains v.desc.totalSize v.tuple q x = false)
    (x : ChipDraw) :
    (c.answer x ⟨v.desc.op.se, be24 (o + n), 0⟩).2.desc = v.desc ∧
      (c.answer x ⟨v.desc.op.se, be24 (o + n), 0⟩).2.busyLeft = x.busy ∧
      v.Erased o (n + v.desc.sectorSize) (c.answer x ⟨v.desc.op.se, be24 (o + n), 0⟩).2.settled := by
  have hdesc : c.desc = v.desc := h.rest.data.desc
  have htuple : c.tuple = v.tuple := h.rest.data.tuple
  rw [← hdesc] at hw hp hv hal hin h0 hprot ⊢
  rw [← htuple] at hprot
  have ht := touches_of_contains (q := x.touches) h0 hin (hprot _)
  rw [Chip.answer_se hp hw h.rest.ready x (by omega), Nat.mod_eq_of_lt (by omega),
    sectorErase_accepted (c := c.atPin x.wp) x hwel hal ht]
  exact ⟨rfl, rfl, (h.atPin x.wp).sector _ _⟩

end Chip

/-! ### One sector -/

/-- Between two sectors of ERASE: the bytes committed are erased, all else of the chip is as it was. -/
structure ErasedUpTo (s : State) (n : Nat) (u : State) : Prop where
  standing : Standing s n u
  chip     : s.chip.Erased s.addr.toNat n u.chip

theorem erasedUpTo_started (hb : s.chip.busyLeft = 0) : ErasedUpTo s 0 s.started := ⟨standing_started s, .refl hb⟩

/-- The span of the next sector and its commit. -/
theorem ErasedUpTo.next {m : Nat} (h : ErasedUpTo s n u) {c : Chip} (hc : s.chip.Erased s.addr.toNat m c) :
    ErasedUpTo s m ((u.spanned c).committed m) := by
  refine ⟨h.standing.committed ?_ ?_ ?_ _, hc⟩ <;> rfl

theorem ErasedUpTo.eraseSector (h : ErasedUpTo s n u) (hc : s.CanClaim) (ht : s.Attached d)
    (hal : (s.addr.toNat + n) % d.sectorSize = 0) (h0 : 0 < d.sectorSize)
    (hin : s.addr.toNat + n + d.sectorSize ≤ d.totalSize)
    (hprot : ∀ q x, s.addr.toNat + n ≤ x → x < s.addr.toNat + n + d.sectorSize →
      protContains d.totalSize s.chip.tuple q x = false)
    (hk : ∀ t, ErasedUpTo s (n + d.sectorSize) t → Leads p t k Q) :
    Leads p u (eraseSector d s.cfg.readyPollLimit s.addr.toNat (s.addr.toNat + n) k) Q := by
  obtain ⟨rfl, ⟨-, -, hv, hw⟩, hp, -, -⟩ := ht
  have hcfg : u.cfg = s.cfg := h.standing.cfg
  have hspeaks : ∀ {c : Chip}, c.desc = s.chip.desc → Speaks { u.claimed with chip := c } s.chip.desc.op :=
    fun hd => ⟨congrArg Descriptor.op hd, hw, (congrArg Descriptor.departs hd).trans hp⟩
  rw [Machine.eraseSector, Nat.add_sub_cancel_left]
  refine leads_claim (h.standing.canClaim hc) (leads_writeEnable (hspeaks h.chip.rest.data.desc) h.chip.rest.ready
    fun l _ => ?_)
  have hset : s.chip.Erased s.addr.toNat n ((u.chip.setWel true).atPin l) := (h.chip.setWel true).atPin l
  refine leads_xfer (xferOk_small _ (by simp)) fun x hx => ?_
  obtain ⟨hdesc, hbusy, herased⟩ := hset.answer_se hw hp hv (Chip.wel_setWel _ _) hal h0 hin hprot x
  refine leads_pollReady (v := { u.claimed with chip := _ }) (hspeaks hdesc) ?_ fun l' _ => leads_release (leads_commit ?_)
  · exact hbusy.trans_lt (hcfg ▸ hx.1)
  · rw [freed_claimed]
    exact hk _ (h.next (herased.atPin l'))

/-! ### The whole of ERASE -/

theorem sectorsOf_end {o len ss a : Nat} (h : a ∈ sectorsOf o len ss) : a + ss ≤ o + len := by
  obtain ⟨i, hi, rfl⟩ := sectorsOf_mem h
  have hle : (i + 1) * ss ≤ len := (Nat.mul_le_mul_right ss hi).trans (Nat.div_mul_le_self len ss)
  rw [Nat.succ_mul] at hle
  omega

theorem sectorSize_pos (h : 0 < d.totalSize) : 0 < d.sectorSize := Nat.pos_of_dvd_of_pos (Chip.sectorSize_dvd d) h

/-- How ERASE ends: its range is erased, and all else of the chip is as it was. -/
def EndsErased (s t : State) : Prop :=
  ∃ u, t = complete 0 u ∧ u.done = s.len.toNat ∧ s.chip.Erased s.addr.toNat s.len.toNat u.chip

theorem ErasedUpTo.complete (h : ErasedUpTo s s.len.toNat u) (ht : Calm p u t) : EndsErased s (complete 0 t) :=
  ⟨t, rfl, h.standing.done ht, (core_chip ht.core).symm ▸ h.chip⟩

/-- ERASE in a quiet environment (R190). -/
theorem leads_erase (hc : s.CanClaim) (hd : s.desc = some d) (ht : s.Attached d)
    (ha : s.addr.toNat < d.totalSize) (hl : s.addr.toNat + s.len.toNat ≤ d.totalSize)
    (h1 : s.addr.toNat % d.sectorSize = 0) (h2 : s.len.toNat % d.sectorSize = 0)
    (hprot : ∀ k < s.len.toNat, ∀ q, protContains d.totalSize s.chip.tuple q (s.addr.toNat + k) = false) :
    Leads p s.started (scriptOf .erase (s.latched.context s)) (EndsErased s) := by
  rw [scriptOf, latched_context, eraseScript, prologue_met (d := d) hd rfl, rangeCheck,
    require_true (decide_eq_true ha), require_true (decide_eq_true hl), require_true (b := !false || _) rfl,
    require_true (b := decide (s.addr.toNat % d.sectorSize = 0 ∧ s.len.toNat % d.sectorSize = 0)) (decide_eq_true ⟨h1, h2⟩)]
  refine leads_each (size := fun _ => d.sectorSize) (I := ErasedUpTo s) (fun pre a post has u k hu hk => ?_) (fun u hu => ?_)
    (erasedUpTo_started ht.ready)
  · have hmem : a ∈ sectorsOf s.addr.toNat s.len.toNat d.sectorSize := has ▸ List.mem_append_right pre List.mem_cons_self
    have hend := sectorsOf_end hmem
    obtain ⟨j, -, hj⟩ := sectorsOf_mem hmem
    have hal : a % d.sectorSize = 0 := by rw [hj, Nat.add_mul_mod_self_right, h1]
    obtain rfl := sector_begins (o := s.addr.toNat) (len := s.len.toNat) has
    refine hu.eraseSector hc ht hal (sectorSize_pos ht.wf.2.1) (hend.trans hl) (fun q x hlo hhi => ?_) hk
    rw [show x = s.addr.toNat + (x - s.addr.toNat) by omega]
    exact hprot _ (by omega) q
  · rw [sum_sectorsOf h2] at hu
    exact leads_done fun t ht => hu.complete ht

/-- Settles O28: the chip takes each SE, and the sectors so far are erased between two of them. -/
theorem eraseCompletes : Obligations.EraseCompletes := by
  intro s d hq hc hd ht ha hl h1 h2 hprot
  obtain ⟨t, hx, u, rfl, hdone, hchip⟩ := (leads_erase (p := fun _ => True) hc hd ht ha hl h1 h2 hprot).exec hq
  have hended : s.Ended (complete 0 u) .ok s.len.toNat 0 := ended_finish (i := .erase) nofun nofun hq.alone hx hdone
  refine ⟨_, hx, hended, ?_⟩
  rw [complete, finish_chip]
  obtain ⟨hdata, hready⟩ := hchip.rest
  exact ⟨hchip.array, hdata.secreg, hdata.sr1, hdata.sr2, hready⟩

end Sys2Proof.Machine
end

section
/-! SUPPORT. The chunk function of a page-aligned write (R201, R206): a chunk and the chunks of what is left, from which its
count and its full chunks follow. -/

namespace Sys2Proof.Machine

variable {o n P j : Nat} {x y : Nat × Nat}

/-- Any fuel that covers the bytes left gives the same chunks, which only depend on where the write stands and how many bytes
are left. -/
theorem chunksFrom_congr {o' n' : Nat} (hP : 0 < P) {f f' i i' : Nat} (ho : o + i = o' + i') (hn : n - i = n' - i')
    (hf : n - i ≤ f) (hf' : n' - i' ≤ f') : chunksFrom f o n P i = chunksFrom f' o' n' P i' := by
  induction f generalizing f' i i' with
  | zero =>
    cases f' with
    | zero => rfl
    | succ f' => rw [chunksFrom, chunksFrom, if_neg (by omega)]
  | succ f ih =>
    cases f' with
    | zero => rw [chunksFrom, chunksFrom, if_neg (by omega)]
    | succ f' =>
      have hmod := Nat.mod_lt (o' + i') hP
      rw [chunksFrom, chunksFrom, ho, hn]
      by_cases hi : i < n
      · rw [if_pos hi, if_pos (by omega)]
        exact congrArg _ (ih (by omega) (by omega) (by omega) (by omega))
      · rw [if_neg hi, if_neg (by omega)]

/-- The page after that of `o` begins at a multiple of the page size. -/
theorem nextPage_mod (o : Nat) (hP : 0 < P) : (o + (P - o % P)) % P = 0 := by
  have hmod := Nat.mod_lt o hP
  have hdiv := Nat.div_add_mod o P
  rw [show o + (P - o % P) = P * (o / P + 1) by rw [Nat.mul_succ]; omega, Nat.mul_mod_right]

/-- The first chunk is the whole write, or it ends at a page boundary, where the chunks of the `m` bytes left begin (R201). -/
theorem chunks_cases (o : Nat) (hP : 0 < P) (hn : 0 < n) :
    (n ≤ P - o % P ∧ chunks o n P = [(o, n)]) ∨
    ∃ m, 0 < m ∧ n = P - o % P + m ∧ chunks o n P = (o, P - o % P) :: chunks (o + (P - o % P)) m P := by
  have hmod := Nat.mod_lt o hP
  have hcons : chunks o n P =
      (o, min n (P - o % P)) :: chunks (o + min n (P - o % P)) (n - min n (P - o % P)) P := by
    obtain ⟨f, rfl⟩ : ∃ f, n = f + 1 := ⟨n - 1, by omega⟩
    rw [chunks, chunksFrom, if_pos hn]
    exact congrArg _ (chunksFrom_congr hP (by simp) (by simp) (by simp; omega) (Nat.le_refl _))
  by_cases hlast : n ≤ P - o % P
  · rw [Nat.min_eq_left hlast, Nat.sub_self] at hcons
    exact .inl ⟨hlast, hcons⟩
  · rw [Nat.min_eq_right (by omega)] at hcons
    exact .inr ⟨n - (P - o % P), by omega, by omega, hcons⟩

theorem head_chunks (o : Nat) (hP : 0 < P) (hn : 0 < n) : (chunks o n P).head? = some (o, min n (P - o % P)) := by
  rcases chunks_cases o hP hn with ⟨hle, hc⟩ | ⟨m, -, rfl, hc⟩ <;> rw [hc, List.head?_cons]
  · rw [Nat.min_eq_left hle]
  · rw [Nat.min_eq_right (Nat.le_add_right _ _)]

/-- The count of chunks is the count of pages the write reaches (R206). -/
theorem length_chunks (o : Nat) (hP : 0 < P) (hn : 0 < n) : (chunks o n P).length = (o % P + n + P - 1) / P := by
  induction n using Nat.strong_induction_on generalizing o with
  | _ n ih =>
    have hmod := Nat.mod_lt o hP
    rcases chunks_cases o hP hn with ⟨hle, hc⟩ | ⟨m, hm, rfl, hc⟩ <;> rw [hc, List.length_cons]
    · exact (Nat.div_eq_of_lt_le (by simp; omega) (by simp; omega)).symm
    · rw [ih m (by omega) _ hm, nextPage_mod o hP, ← Nat.add_div_right _ hP]
      congr 1
      omega

theorem pos_of_chunks (h : j < (chunks o n P).length) : 0 < n :=
  Nat.pos_of_ne_zero fun hn => by subst hn; cases h

/-- A chunk that begins at a page boundary and is not the last one is a whole page; only the first may begin elsewhere. -/
theorem chunks_full (hP : 0 < P) (ho : 0 < j ∨ o % P = 0) (hj : j + 1 < (chunks o n P).length) :
    ∃ a, (chunks o n P)[j]? = some (a, P) := by
  induction j generalizing o n with
  | zero =>
    rcases chunks_cases o hP (pos_of_chunks hj) with ⟨-, hc⟩ | ⟨m, -, -, hc⟩ <;> rw [hc] at hj ⊢
    · exact absurd hj (lt_irrefl 1)
    · exact ⟨o, by rw [List.getElem?_cons_zero, ho.resolve_left (lt_irrefl 0)]; rfl⟩
  | succ j ih =>
    rcases chunks_cases o hP (pos_of_chunks hj) with ⟨-, hc⟩ | ⟨m, -, -, hc⟩ <;> rw [hc] at hj ⊢
    · exact absurd hj (by simp)
    · exact ih (.inr (nextPage_mod o hP)) (Nat.lt_of_succ_lt_succ hj)

/-- A chunk begins where the one before it ends. -/
theorem chunks_adjacent (hx : (chunks o n P)[j]? = some x) (hy : (chunks o n P)[j + 1]? = some y) : y.1 = x.1 + x.2 := by
  have split : ∀ {i z}, (chunks o n P)[i]? = some z →
      chunks o n P = (chunks o n P).take i ++ z :: (chunks o n P).drop (i + 1) := fun {i z} h => by
    obtain ⟨hi, rfl⟩ := List.getElem?_eq_some_iff.1 h
    rw [← List.drop_eq_getElem_cons hi, List.take_append_drop]
  rw [chunk_begins (split hy), chunk_begins (split hx), List.take_add_one, hx]
  simp [Nat.add_assoc]

/-- Settles O29: the count and the full chunks by taking off the first chunk, which ends at a page boundary. -/
theorem chunkCount : Obligations.ChunkCount :=
  ⟨rfl, fun o n _ hP hn => ⟨length_chunks o hP hn, head_chunks o hP hn, fun _ h0 hj => chunks_full hP (.inl h0) hj,
    sum_chunks o n hP, fun _ _ _ _ _ => chunks_adjacent⟩⟩

end Sys2Proof.Machine
end

section
/-! SUPPORT. The frames WRITE sends (R202): each PP frame stays inside one page of the chip (R74, R205). -/

namespace Sys2Proof.Machine

variable {g : Gen} {d : Descriptor} {s : State} {f : Frame}

/-- What stays inside a window stays inside a larger one that holds whole windows. -/
theorem mod_window {P S x c : Nat} (hd : P ∣ S) (hS : 0 < S) (h : x % P + c ≤ P) : x % S + c ≤ S := by
  obtain ⟨q, rfl⟩ := hd
  have hq : x / P % q + 1 ≤ q := Nat.mod_lt _ (Nat.pos_of_mul_pos_left hS)
  have hle : P * (x / P % q) + P ≤ P * q := Nat.mul_le_mul_left P hq
  rw [Nat.mod_mul]
  omega

/-- The effective page divides the chip's page (R10, R200). -/
theorem effectivePage_dvd (h : d.wf g) : effectivePage g d ∣ d.pageSize := by
  have hle : g.pageLimit ≤ d.pageSize := Nat.le_of_dvd (Nat.two_pow_pos _) h.1
  rw [effectivePage, Nat.min_eq_right hle]
  exact h.1

/-- A chunk of WRITE stays inside one page of the chip (R205). -/
theorem chunk_inPage {o n : Nat} {ch : Nat × Nat} (h : d.wf g) (hch : ch ∈ chunks o n (effectivePage g d)) :
    ch.1 % d.pageSize + ch.2 ≤ d.pageSize := by
  obtain ⟨-, -, hwin, -⟩ := chunks_mem (effectivePage_pos g d) hch
  exact mod_window (effectivePage_dvd h) (Nat.two_pow_pos _) hwin

/-- The page size divides the count of bus addresses (R11). -/
theorem pageSize_dvd_bus (h : d.wf g) : d.pageSize ∣ 2 ^ 24 := by
  obtain ⟨-, hpos, hsize, -⟩ := h
  have hle : d.pageSize ≤ 2 ^ 24 := (Nat.le_of_dvd hpos (Chip.pageSize_dvd d)).trans hsize
  exact Nat.pow_dvd_pow 2 ((Nat.pow_le_pow_iff_right (by decide)).1 hle)

/-- What the chip reads back of any address (R14). -/
theorem fromBe24_be24_mod (a : Nat) :
    fromBe24 (BitVec.ofNat 8 (a / 2 ^ 16)) (BitVec.ofNat 8 (a / 2 ^ 8)) (BitVec.ofNat 8 a) = a % 2 ^ 24 := by
  simp only [fromBe24, BitVec.toNat_ofNat]
  omega

/-- A command's frames are those of its script with the bound descriptor (R175). -/
theorem scriptFrame_bound {i : Instr} (hd : s.desc = some d) (hf : ∃ e, s.desc = some e ∧ ScriptFrame s e i f) :
    ScriptFrame s d i f := by
  obtain ⟨e, he, hf⟩ := hf
  obtain rfl : e = d := Option.some.inj (he.symm.trans hd)
  exact hf

/-- A frame of WRITE with the opcode of PP is that of a chunk. -/
theorem write_pp (hd : s.desc = some d) (hw : d.op.wf) (hf : MayIssue s .write f) (hop : f.op = d.op.pp) :
    ∃ ch ∈ chunks s.addr.toNat s.len.toNat (effectivePage s.cfg.gen d),
      f = ⟨d.op.pp, be24 ch.1 ++ s.dbufSlice (ch.1 - s.addr.toNat) ch.2, 0⟩ := by
  refine (scriptFrame_bound (i := .write) hd hf).resolve_left fun hwrap => ?_
  have hrole : roleOf d.op f.op = some .pp := by rw [hop, roleOf_pp hw]
  rcases hwrap with rfl | rfl
  · cases (roleOf_wren hw).symm.trans hrole
  · cases (roleOf_rdsr1 hw).symm.trans hrole

/-- Settles O30: a PP frame is that of a chunk, which stays inside a page, and the bus address keeps the offset in it. -/
theorem writeNeverCrossesAPage : Obligations.WriteNeverCrossesAPage := by
  intro s t d hdur hd hwf h
  obtain ⟨fs, hsent, hmay⟩ := onlyScriptFramesAreSent.1 .write s t hdur h
  refine ⟨fs, hsent, fun f hf hop => ?_⟩
  obtain ⟨ch, hch, rfl⟩ := write_pp hd hwf.2.2.2 (hmay f hf) hop
  refine ⟨_, _, _, s.dbufSlice (ch.1 - s.addr.toNat) ch.2, rfl, ?_⟩
  rw [fromBe24_be24_mod, Nat.mod_mod_of_dvd _ (pageSize_dvd_bus hwf), length_dbufSlice]
  exact chunk_inPage hwf hch

end Sys2Proof.Machine
end

section
/-! SUPPORT. WRITE to a range of which no byte is protected, in a quiet environment (R202, R314). -/

namespace Sys2Proof.Machine

variable {p : ChipDraw → Prop} {s t u : State} {n : Nat} {d : Descriptor} {Q : State → Prop} {k : Script}

/-! ### The chip while its pages are programmed -/

namespace Chip

variable {v c : Chip} {g : Nat → Byte} {o a : Nat} {data : List Byte}

/-- A page program that WEL allows, of data at an address that is not protected (R314). -/
theorem pageProgram_accepted (x : ChipDraw) (hdata : data ≠ []) (hwel : c.wel = true)
    (hprot : protContains c.desc.totalSize c.tuple x.touches a = false) :
    ∃ target, c.pageProgram x a data = ({ c with array := c.programPage a data } : Chip).startBusy x.busy target :=
  ⟨_, by rw [pageProgram, if_neg hdata, if_neg (by rw [hwel]; nofun), if_neg (by rw [hprot]; nofun)]⟩

/-- At rest, with the data of `v` but for the `n` bytes of the array from `o` on, each ANDed with its byte of `g`. -/
structure Programmed (v : Chip) (o : Nat) (g : Nat → Byte) (n : Nat) (c : Chip) : Prop where
  rest  : ({ v with array := c.array } : Chip).AtRest c
  array : ∀ a, c.arrayByte a = if o ≤ a ∧ a < o + n then v.arrayByte a &&& g (a - o) else v.arrayByte a

theorem Programmed.refl (h : v.busyLeft = 0) : v.Programmed o g 0 v :=
  ⟨AtRest.refl h, fun a => (if_neg (by omega)).symm⟩

theorem Programmed.atPin (h : v.Programmed o g n c) (l : Level) : v.Programmed o g n (c.atPin l) :=
  ⟨h.rest.atPin l, h.array⟩

theorem Programmed.setWel (h : v.Programmed o g n c) (b : Bool) : v.Programmed o g n (c.setWel b) :=
  ⟨h.rest.setWel b, h.array⟩

/-- The next bytes programmed, inside a page, and the busy period over (R314). -/
theorem Programmed.page (h : v.Programmed o g n c) (hin : (o + n) % c.desc.pageSize + data.length ≤ c.desc.pageSize)
    (hdata : ∀ j < data.length, data[j]? = some (g (n + j))) (m : Nat) (target : InFlight) :
    v.Programmed o g (n + data.length)
      (({ c with array := c.programPage (o + n) data } : Chip).startBusy m target).settled := by
  have hrest := SameData.settled_startBusy (v := { v with array := c.programPage (o + n) data })
    (c := { c with array := c.programPage (o + n) data }) { h.rest.data with array := rfl } m target
  have harray := hrest.data.array
  refine ⟨harray ▸ hrest, fun a => ?_⟩
  rw [arrayByte, harray, byte_programPage c data hin, h.array]
  by_cases hs : o + n ≤ a ∧ a < o + n + data.length
  · rw [if_pos hs, if_neg (by omega), if_pos (by omega), hdata _ (by omega),
      show n + (a - (o + n)) = a - o by omega, Option.getD_some]
  · rw [if_neg hs]
    by_cases hn : o ≤ a ∧ a < o + n
    · rw [if_pos hn, if_pos (by omega)]
    · rw [if_neg hn, if_neg (by omega)]

/-- The chip's answer to PP of bytes that are not protected, WEL set: a busy period, and the bytes programmed (R314). -/
theorem Programmed.answer_pp (h : v.Programmed o g n c) (hw : v.desc.op.wf) (hp : v.desc.departs = none)
    (hv : v.desc.totalSize ≤ 2 ^ 24) (hwel : c.wel = true) (h0 : data ≠ [])
    (hin : (o + n) % v.desc.pageSize + data.length ≤ v.desc.pageSize) (ha : o + n < v.desc.totalSize)
    (hprot : ∀ q, protContains v.desc.totalSize v.tuple q (o + n) = false)
    (hdata : ∀ j < data.length, data[j]? = some (g (n + j))) (x : ChipDraw) :
    (c.answer x ⟨v.desc.op.pp, be24 (o + n) ++ data, 0⟩).2.desc = v.desc ∧
      (c.answer x ⟨v.desc.op.pp, be24 (o + n) ++ data, 0⟩).2.busyLeft = x.busy ∧
      v.Programmed o g (n + data.length) (c.answer x ⟨v.desc.op.pp, be24 (o + n) ++ data, 0⟩).2.settled := by
  have hdesc : c.desc = v.desc := h.rest.data.desc
  have htuple : c.tuple = v.tuple := h.rest.data.tuple
  rw [← hdesc] at hw hp hv hin ha hprot ⊢
  rw [← htuple] at hprot
  obtain ⟨target, hacc⟩ := pageProgram_accepted (c := c.atPin x.wp) x h0 hwel (hprot _)
  rw [Chip.answer_pp hp hw h.rest.ready x (by omega), Nat.mod_eq_of_lt ha, hacc]
  exact ⟨rfl, rfl, (h.atPin x.wp).page hin hdata _ _⟩

end Chip

/-! ### One chunk -/

theorem getElem_dbufSlice (s : State) (i : Nat) {j : Nat} (hj : j < n) : (s.dbufSlice i n)[j]? = some (s.dbufAt (i + j)) := by
  simp [State.dbufSlice, hj]

/-- Between two chunks of WRITE: the bytes committed are programmed, and all else of the chip and DBUF are as they were. -/
structure WrittenUpTo (s : State) (n : Nat) (u : State) : Prop where
  standing : Standing s n u
  dbuf     : u.dbuf = s.dbuf
  chip     : s.chip.Programmed s.addr.toNat s.dbufAt n u.chip

theorem writtenUpTo_started (hb : s.chip.busyLeft = 0) : WrittenUpTo s 0 s.started :=
  ⟨standing_started s, rfl, .refl hb⟩

/-- The span of the next chunk and its commit. -/
theorem WrittenUpTo.next {m : Nat} (h : WrittenUpTo s n u) {c : Chip}
    (hc : s.chip.Programmed s.addr.toNat s.dbufAt m c) : WrittenUpTo s m ((u.spanned c).committed m) := by
  refine ⟨h.standing.committed ?_ ?_ ?_ _, h.dbuf, hc⟩ <;> rfl

theorem WrittenUpTo.writeChunk {m : Nat} (h : WrittenUpTo s n u) (hc : s.CanClaim) (ht : s.Attached d) (h0 : 0 < m)
    (hsize : m ≤ s.cfg.gen.pageLimit) (hin : (s.addr.toNat + n) % d.pageSize + m ≤ d.pageSize)
    (ha : s.addr.toNat + n < d.totalSize) (hload : ∀ j < m, ∃ b, s.dbuf.lookup (n + j) = some b)
    (hprot : ∀ q, protContains d.totalSize s.chip.tuple q (s.addr.toNat + n) = false)
    (hk : ∀ t, WrittenUpTo s (n + m) t → Leads p t k Q) :
    Leads p u (writeChunk d s.cfg.readyPollLimit s.addr.toNat (s.addr.toNat + n, m) k) Q := by
  obtain ⟨rfl, ⟨-, -, hv, hw⟩, hp, -, -⟩ := ht
  have hcfg : u.cfg = s.cfg := h.standing.cfg
  have hspeaks : ∀ {c : Chip}, c.desc = s.chip.desc → Speaks { u.claimed with chip := c } s.chip.desc.op :=
    fun hd => ⟨congrArg Descriptor.op hd, hw, (congrArg Descriptor.departs hd).trans hp⟩
  rw [Machine.writeChunk, Nat.add_sub_cancel_left]
  refine leads_claim (h.standing.canClaim hc) (leads_writeEnable (hspeaks h.chip.rest.data.desc) h.chip.rest.ready
    fun l _ => leads_memRead (v := { u.claimed with chip := _ }) (h.dbuf ▸ hload) ?_)
  have hset : s.chip.Programmed s.addr.toNat s.dbufAt n ((u.chip.setWel true).atPin l) := (h.chip.setWel true).atPin l
  have hslice : u.dbufSlice n m = s.dbufSlice n m := by simp only [State.dbufSlice, State.dbufAt, h.dbuf]
  have hlen : (s.dbufSlice n m).length = m := length_dbufSlice s n m
  refine leads_xfer ?_ fun x hx => ?_
  · rw [List.length_append, length_be24, length_dbufSlice]
    exact xferOk_page _ (hcfg ▸ hsize)
  obtain ⟨hdesc, hbusy, hprog⟩ := hset.answer_pp hw hp hv (Chip.wel_setWel _ _) (data := s.dbufSlice n m)
    (List.ne_nil_of_length_pos (h0.trans_eq hlen.symm)) (hlen.symm ▸ hin) ha hprot
    (fun j hj => getElem_dbufSlice s n (hlen ▸ hj)) x
  rw [hlen] at hprog
  rw [← hslice] at hdesc hbusy hprog
  refine leads_pollReady (v := { u.claimed with chip := _ }) (hspeaks hdesc) ?_ fun l' _ => leads_release (leads_commit ?_)
  · exact hbusy.trans_lt (hcfg ▸ hx.1)
  · rw [freed_claimed]
    exact hk _ (h.next (hprog.atPin l'))

/-! ### The whole of WRITE -/

/-- How WRITE ends: its range is programmed, and all else of the chip is as it was. -/
def EndsWritten (s t : State) : Prop :=
  ∃ u, t = complete 0 u ∧ u.done = s.len.toNat ∧ s.chip.Programmed s.addr.toNat s.dbufAt s.len.toNat u.chip

theorem WrittenUpTo.complete (h : WrittenUpTo s s.len.toNat u) (ht : Calm p u t) : EndsWritten s (complete 0 t) :=
  ⟨t, rfl, h.standing.done ht, (core_chip ht.core).symm ▸ h.chip⟩

/-- WRITE in a quiet environment (R202). -/
theorem leads_write (hc : s.CanClaim) (hd : s.desc = some d) (ht : s.Attached d) (ha : s.addr.toNat < d.totalSize)
    (hl : s.addr.toNat + s.len.toNat ≤ d.totalSize) (hb : s.len.toNat ≤ s.cfg.bufSize) (hload : s.Loaded s.len.toNat)
    (hprot : ∀ k < s.len.toNat, ∀ q, protContains d.totalSize s.chip.tuple q (s.addr.toNat + k) = false) :
    Leads p s.started (scriptOf .write (s.latched.context s)) (EndsWritten s) := by
  have hP := effectivePage_pos s.cfg.gen d
  rw [scriptOf, latched_context, writeScript, prologue_met (d := d) hd rfl, rangeCheck,
    require_true (decide_eq_true ha), require_true (decide_eq_true hl),
    require_true (b := !true || decide (s.len.toNat ≤ s.cfg.bufSize)) (decide_eq_true hb)]
  refine leads_each (size := (·.2)) (I := WrittenUpTo s) (fun pre ch post hch u k hu hk => ?_) (fun u hu => ?_)
    (writtenUpTo_started ht.ready)
  · have hmem : ch ∈ chunks s.addr.toNat s.len.toNat (effectivePage s.cfg.gen d) :=
      hch ▸ List.mem_append_right pre List.mem_cons_self
    obtain ⟨-, h0, hwin, hend⟩ := chunks_mem hP hmem
    have hlim : effectivePage s.cfg.gen d ≤ s.cfg.gen.pageLimit := Nat.min_le_right _ _
    have hpage := chunk_inPage ht.wf hmem
    obtain ⟨i, m⟩ := ch
    obtain rfl : i = s.addr.toNat + (pre.map (·.2)).sum := chunk_begins hch
    simp only at h0 hwin hend hpage
    exact hu.writeChunk hc ht h0 (by omega) hpage (by omega) (fun j hj => hload _ (by omega)) (hprot _ (by omega)) hk
  · rw [sum_chunks _ _ hP] at hu
    exact leads_done fun t ht => hu.complete ht

/-- Settles O26: the chip takes each PP, and the chunks so far are programmed between two of them. -/
theorem writeCompletes : Obligations.WriteCompletes := by
  intro s d hq hc hd ht ha hl hb hload hprot
  obtain ⟨t, hx, u, rfl, hdone, hchip⟩ := (leads_write (p := fun _ => True) hc hd ht ha hl hb hload hprot).exec hq
  refine ⟨_, hx, ended_finish (i := .write) nofun nofun hq.alone hx hdone,
    (exec_keepsRegisters hq.alone hx).dbuf rfl, ?_⟩
  rw [complete, finish_chip]
  obtain ⟨hdata, hready⟩ := hchip.rest
  exact ⟨hchip.array, hdata.secreg, hdata.sr1, hdata.sr2, hready⟩

end Sys2Proof.Machine
end

section
/-! SUPPORT. WRITE and ERASE in any environment that leaves the chip to SEQ: the array changes in their range only, whatever
fails (R190, R203, R395). -/

namespace Sys2Proof.Machine

variable {s t : State} {d : Descriptor} {f : Frame}

/-! ### What a frame changes of the array -/

/-- A change of a byte that sets no bit (R314). -/
def Clears (old new : Byte) : Prop := new &&& old = new

/-- A change of a byte by nothing but an erase (R315). -/
def Erases (old new : Byte) : Prop := new = old ∨ new = erasedByte

theorem clears_and {old new : Byte} (h : Clears old new) (x : Byte) : Clears old (new &&& x) := by
  rw [Clears, BitVec.and_assoc, BitVec.and_comm x, ← BitVec.and_assoc, h]

namespace Chip

variable {v c c' : Chip} {B : Byte → Byte → Prop} {o n a : Nat} {data : List Byte}

/-- A busy period that begins changes no data (R312). -/
theorem sameData_startBusy (c : Chip) (k : Nat) (target : InFlight) : c.SameData (c.startBusy k target) :=
  ((SameData.refl c).withBusy _ _).trans (sameData_setWel _ _)

/-- A page program changes no data, or programs the page and changes nothing else (R314). -/
theorem pageProgram_cases (c : Chip) (x : ChipDraw) (a : Nat) (data : List Byte) :
    c.SameData (c.pageProgram x a data) ∨
      ({ c with array := c.programPage a data } : Chip).SameData (c.pageProgram x a data) := by
  rw [pageProgram]
  split
  · exact .inl (sameData_setWel _ _)
  · split
    · exact .inl (sameData_setWel _ _)
    · split
      · exact .inl (sameData_setWel _ _)
      · exact .inr (sameData_startBusy _ _ _)

/-- A sector erase changes no data, or erases the sector and changes nothing else (R315). -/
theorem sectorErase_cases (c : Chip) (x : ChipDraw) (hal : a % c.desc.sectorSize = 0) :
    c.SameData (c.sectorErase x a) ∨
      ({ c with array := c.array.clearRange a c.desc.sectorSize } : Chip).SameData (c.sectorErase x a) := by
  simp only [sectorErase, hal, Nat.sub_zero]
  split
  · exact .inl (sameData_setWel _ _)
  · split
    · exact .inl (sameData_setWel _ _)
    · exact .inr (sameData_startBusy _ _ _)

/-- The data of `v` but for the `n` bytes of the array from `o` on, each of which has changed as `B` allows or not at all. -/
structure ChangedIn (v : Chip) (o n : Nat) (B : Byte → Byte → Prop) (c : Chip) : Prop where
  data    : ({ v with array := c.array } : Chip).SameData c
  outside : ∀ a, ¬ (o ≤ a ∧ a < o + n) → c.arrayByte a = v.arrayByte a
  bytes   : ∀ a, B (v.arrayByte a) (c.arrayByte a)

theorem ChangedIn.refl (h : ∀ b, B b b) : v.ChangedIn o n B v := ⟨SameData.refl v, fun _ _ => rfl, fun _ => h _⟩

/-- A step after which the array is `m` and all other data as before it. -/
theorem ChangedIn.step (h : v.ChangedIn o n B c) {m : Memory} (hdata : ({ c with array := m } : Chip).SameData c')
    (hout : ∀ a, ¬ (o ≤ a ∧ a < o + n) → m.byte a = c.arrayByte a) (hbytes : ∀ a, B (v.arrayByte a) (m.byte a)) :
    v.ChangedIn o n B c' := by
  obtain rfl : c'.array = m := hdata.array
  have hc : ({ v with array := c'.array } : Chip).SameData { c with array := c'.array } := { h.data with array := rfl }
  exact ⟨hc.trans hdata, fun a ha => (hout a ha).trans (h.outside a ha), hbytes⟩

theorem ChangedIn.sameData (h : v.ChangedIn o n B c) (hdata : c.SameData c') : v.ChangedIn o n B c' :=
  h.step hdata (fun _ _ => rfl) h.bytes

theorem ChangedIn.atPin (h : v.ChangedIn o n B c) (l : Level) : v.ChangedIn o n B (c.atPin l) :=
  h.sameData ((SameData.refl c).atPin l)

section frames
variable (hw : v.desc.op.wf) (hp : v.desc.departs = none) (hv : v.desc.totalSize ≤ 2 ^ 24) (x : ChipDraw)
include hp

/-- In a busy period no frame changes data (R312). -/
theorem ChangedIn.answer (h : v.ChangedIn o n B c) (hidle : c.busyLeft = 0 → v.ChangedIn o n B (c.answer x f).2) :
    v.ChangedIn o n B (c.answer x f).2 := by
  rcases Nat.eq_zero_or_pos c.busyLeft with hb | hb
  · exact hidle hb
  · rw [← h.data.desc] at hp
    rw [answer_busy hp hb, serveBusy_snd]
    exact (h.atPin x.wp).sameData (sameData_tick _)

include hw

/-- A WREN or a ready poll (R172, R173). -/
theorem ChangedIn.answer_wrapping (h : v.ChangedIn o n B c) (hf : IsWrapping v.desc.op f) :
    v.ChangedIn o n B (c.answer x f).2 := by
  have hout : f.out = [] := by rcases hf with rfl | rfl <;> rfl
  rw [← h.data.desc] at hw hp
  exact h.sameData (ReadsOnly.sameData_answer (.inl hout) hp hw x)

include hv

/-- A PP frame inside a page and the range (R314). -/
theorem ChangedIn.answer_pp (h : v.ChangedIn o n Clears c) (ho : o ≤ a) (ha : a < v.desc.totalSize)
    (hn : a + data.length ≤ o + n) (hpage : a % v.desc.pageSize + data.length ≤ v.desc.pageSize) :
    v.ChangedIn o n Clears (c.answer x ⟨v.desc.op.pp, be24 a ++ data, 0⟩).2 := by
  refine h.answer hp x fun hb => ?_
  rw [← h.data.desc] at hw hp hv ha hpage ⊢
  rw [Chip.answer_pp hp hw hb x (by omega), Nat.mod_eq_of_lt ha]
  have hbyte := byte_programPage c data hpage
  rcases pageProgram_cases (c.atPin x.wp) x a data with hs | hs
  · exact (h.atPin x.wp).sameData hs
  · refine (h.atPin x.wp).step hs (fun y hy => (hbyte y).trans (if_neg (by omega))) fun y => ?_
    show Clears _ ((c.programPage a data).byte y)
    rw [hbyte]
    split
    · exact clears_and (h.bytes y) _
    · exact h.bytes y

/-- An SE frame of a sector inside the range (R315). -/
theorem ChangedIn.answer_se (h : v.ChangedIn o n Erases c) (ho : o ≤ a) (ha : a < v.desc.totalSize)
    (hn : a + v.desc.sectorSize ≤ o + n) (hal : a % v.desc.sectorSize = 0) :
    v.ChangedIn o n Erases (c.answer x ⟨v.desc.op.se, be24 a, 0⟩).2 := by
  refine h.answer hp x fun hb => ?_
  rw [← h.data.desc] at hw hp hv ha hn hal ⊢
  rw [Chip.answer_se hp hw hb x (by omega), Nat.mod_eq_of_lt ha]
  have hbyte := byte_sector c a
  rcases sectorErase_cases (c.atPin x.wp) x hal with hs | hs
  · exact (h.atPin x.wp).sameData hs
  · refine (h.atPin x.wp).step hs (fun y hy => (hbyte y).trans (if_neg (by omega))) fun y => ?_
    show Erases _ ((c.array.clearRange a c.desc.sectorSize).byte y)
    rw [hbyte]
    split
    · exact .inr rfl
    · exact h.bytes y

end frames

end Chip

/-! ### WRITE and ERASE -/

/-- A command that a check rejects leaves the chip as it was (R355). -/
theorem chip_of_rejected {i : Instr} {e : Code} (h : exec i s = .next t) (hr : exec i s = .next (s.rejected e)) :
    t.chip = s.chip := by
  rw [hr] at h
  cases h
  rfl

section
variable (hs : s.Unshared) (hd : s.desc = some d) (hc : s.chip.desc = d) (hwf : d.wf s.cfg.gen) (hp : d.departs = none)
include hs hd hc hwf hp

/-- WRITE clears bits of its range and changes nothing else (R203). -/
theorem write_changes (h : exec .write s = .next t) : s.chip.ChangedIn s.addr.toNat s.len.toNat Clears t.chip := by
  subst hc
  have ⟨_, _, hsize, hw⟩ := hwf
  have hrefl : s.chip.ChangedIn s.addr.toNat s.len.toNat Clears s.chip := .refl fun _ => BitVec.and_self
  obtain ⟨houtside, -, -⟩ := arrayRangeIsChecked s _ hd
  by_cases hin : s.addr.toNat + s.len.toNat ≤ s.chip.desc.totalSize
  · refine exec_keeps_chip (.inr rfl) (fun f c x hf hc => ?_) hs hrefl h
    rcases scriptFrame_bound (i := .write) hd hf with hf | ⟨ch, hch, rfl⟩
    · exact hc.answer_wrapping hw hp x hf
    · obtain ⟨ho, h0, -, hend⟩ := chunks_mem (effectivePage_pos _ _) hch
      have hlen := length_dbufSlice s (ch.1 - s.addr.toNat) ch.2
      exact hc.answer_pp hw hp hsize x ho (by omega) (by omega) (by rw [hlen]; exact chunk_inPage hwf hch)
  · rw [chip_of_rejected h (houtside (.inr (Nat.lt_of_not_le hin)) .write (by simp))]
    exact hrefl

/-- ERASE erases bytes of its range and changes nothing else (R190). -/
theorem erase_changes (h : exec .erase s = .next t) : s.chip.ChangedIn s.addr.toNat s.len.toNat Erases t.chip := by
  subst hc
  have ⟨_, hpos, hsize, hw⟩ := hwf
  have hrefl : s.chip.ChangedIn s.addr.toNat s.len.toNat Erases s.chip := .refl fun _ => .inl rfl
  obtain ⟨houtside, -, hunaligned⟩ := arrayRangeIsChecked s _ hd
  by_cases hin : s.addr.toNat + s.len.toNat ≤ s.chip.desc.totalSize
  · by_cases hal : s.addr.toNat % s.chip.desc.sectorSize = 0
    · refine exec_keeps_chip (.inl rfl) (fun f c x hf hc => ?_) hs hrefl h
      rcases scriptFrame_bound (i := .erase) hd hf with hf | ⟨a, ha, rfl⟩
      · exact hc.answer_wrapping hw hp x hf
      · have hend := sectorsOf_end ha
        have hss := sectorSize_pos hpos
        obtain ⟨j, -, rfl⟩ := sectorsOf_mem ha
        exact hc.answer_se hw hp hsize x (Nat.le_add_right _ _) (by omega) hend
          (by rw [Nat.add_mul_mod_self_right, hal])
    · rw [chip_of_rejected h (hunaligned (.inl hal))]
      exact hrefl
  · rw [chip_of_rejected h (houtside (.inr (Nat.lt_of_not_le hin)) .erase (by simp))]
    exact hrefl

end

/-- Settles O53: whatever fails, each frame of these commands keeps all but the bytes of the range, and changes those as the
command may. -/
theorem arrayWritesKeepTheRest : Obligations.ArrayWritesKeepTheRest := by
  intro s t d hs hd hc hwf hp h
  have hwrite := write_changes (t := t) hs hd hc hwf hp
  have herase := erase_changes (t := t) hs hd hc hwf hp
  obtain ⟨B, hB⟩ : ∃ B, s.chip.ChangedIn s.addr.toNat s.len.toNat B t.chip :=
    h.elim (fun h => ⟨_, hwrite h⟩) fun h => ⟨_, herase h⟩
  exact ⟨hB.data.secreg, hB.data.sr1, hB.data.sr2, hB.outside, fun h => (hwrite h).bytes, fun h => (herase h).bytes⟩

end Sys2Proof.Machine
end

section
/-! SUPPORT. The writable status bits of a part in OneTimeProgram: no frame and no power cycle changes one (R240, R318,
R321). -/

namespace Sys2Proof.Machine

namespace Chip

variable {c c' : Chip}

/-- The part is the same, and so are SR1[7:2] and SR2[6:0]. -/
def KeepsStatus (c c' : Chip) : Prop :=
  c'.desc = c.desc ∧ c'.sr1 &&& 0xFC = c.sr1 &&& 0xFC ∧ c'.sr2 &&& 0x7F = c.sr2 &&& 0x7F

theorem SameData.keepsStatus (h : c.SameData c') : c.KeepsStatus c' := ⟨h.desc, h.sr1, by rw [h.sr2]⟩

theorem KeepsStatus.trans {c'' : Chip} (h : c.KeepsStatus c') (h' : c'.KeepsStatus c'') : c.KeepsStatus c'' :=
  ⟨h'.1.trans h.1, h'.2.1.trans h.2.1, h'.2.2.trans h.2.2⟩

theorem KeepsStatus.srp0 (h : c.KeepsStatus c') : c'.srp0 = c.srp0 := by
  simpa [Chip.srp0] using congrArg (·.getLsbD 7) h.2.1

theorem KeepsStatus.srp1 (h : c.KeepsStatus c') : c'.srp1 = c.srp1 := by
  simpa [Chip.srp1] using congrArg (·.getLsbD 0) h.2.2

/-- With SRP1 set the status registers take no write, so no frame served changes one of their bits (R241, R318): a frame that
programs or erases starts a busy period and changes bytes of a store. -/
theorem Served.keepsStatus {k : Nat} (h : c.Served k c') (h1 : c.srp1 = true) : c.KeepsStatus c' := by
  cases h with
  | wel v => exact (sameData_setWel c v).keepsStatus
  | status l a b hl => simp [srWritable, h1] at hl
  | same => exact ⟨rfl, rfl, rfl⟩
  | _ => exact (sameData_startBusy c k .none).keepsStatus

theorem keepsStatus_answer (hp : c.desc.departs = none) (h1 : c.srp1 = true) (d : ChipDraw) (f : Frame) :
    c.KeepsStatus (c.answer d f).2 := by
  by_cases hb : 0 < c.busyLeft
  · rw [answer_busy hp hb, serveBusy_snd]
    exact (sameData_tick (c.atPin d.wp)).keepsStatus
  · rw [answer_idle hp (by omega)]
    exact (served_serve (c.atPin d.wp) d f).keepsStatus h1

/-- A power cycle clears SRP1 only where SRP0 is clear (R321). -/
theorem keepsStatus_powerCycle (hp : c.desc.departs = none) (h0 : c.srp0 = true) (noise : List Byte) :
    c.KeepsStatus (c.powerCycle noise) := by
  rw [powerCycle_plain hp]
  refine ⟨rfl, ?_, ?_⟩ <;> simp [restarted, h0, BitVec.and_assoc]

end Chip

/-- Settles O56: with both bits set the status registers take no write and a power cycle unlocks nothing; both bits stay
set, so that the argument repeats at every frame and power cycle of the step. -/
theorem otpIsTerminal : Obligations.OtpIsTerminal := by
  intro s t hp h0 h1 h
  refine step_keeps_chip (Q := s.chip.KeepsStatus) (fun c d f hc => ?_) (fun c noise hc => ?_) ⟨rfl, rfl, rfl⟩ h
  · exact hc.trans (Chip.keepsStatus_answer (by rw [hc.1, hp]) (hc.srp1.trans h1) d f)
  · exact hc.trans (Chip.keepsStatus_powerCycle (by rw [hc.1, hp]) (hc.srp0.trans h0) noise)

end Sys2Proof.Machine
end

section
/-! SUPPORT. The preset table (R221): a preset and its index determine each other, and a tuple with CMP set protects the
complement (R222). -/

namespace Sys2Proof.Machine

variable {k a S : Nat} {t : RangeTuple} {q r : Bool}

theorem nodup_presets : presets.Nodup := by decide

theorem preset_none (h : k = 0 ∨ 44 < k) : preset k = none := by
  rw [preset]
  split
  · rfl
  · exact List.getElem?_eq_none (show 44 ≤ k - 1 by omega)

theorem presetIndex_of_preset (h : preset k = some t) : presetIndex t = k := by
  rw [preset] at h
  split at h
  · cases h
  · obtain ⟨hlt, ht⟩ := List.getElem?_eq_some_iff.1 h
    have hfind : presets.findIdx? (· == t) = some (k - 1) :=
      List.findIdx?_eq_some_iff_getElem.2 ⟨hlt, beq_iff_eq.2 ht, fun j hj e =>
        hj.ne (nodup_presets.getElem_inj_iff.1 ((beq_iff_eq.1 e).trans ht.symm))⟩
    rw [presetIndex, hfind]
    exact Nat.sub_add_cancel (by omega)

/-- A tuple has index 0, or it is the preset at its index. -/
theorem presetIndex_cases (t : RangeTuple) : presetIndex t = 0 ∨ preset (presetIndex t) = some t := by
  rw [presetIndex]
  split
  next i hi =>
    obtain ⟨hlt, ht, -⟩ := List.findIdx?_eq_some_iff_getElem.1 hi
    exact .inr (List.getElem?_eq_some_iff.2 ⟨hlt, beq_iff_eq.1 ht⟩)
  next => exact .inl rfl

theorem preset_eq_some (h : 1 ≤ k) : preset k = some t ↔ presetIndex t = k := by
  refine ⟨presetIndex_of_preset, ?_⟩
  rintro rfl
  exact (presetIndex_cases t).resolve_left (by omega)

theorem presetIndex_le (t : RangeTuple) : presetIndex t ≤ 44 := by
  by_contra h
  rcases presetIndex_cases t with h0 | ht
  · omega
  · rw [preset_none (.inr (by omega))] at ht
    cases ht

/-! ### The complement -/

/-- The tuple with CMP set protects what the tuple does not (R222), where its base is defined. -/
theorem protContains_complement (ht : t.cmp = false) (hb : protBase S t ≠ none) (ha : a < S) :
    protContains S { t with cmp := true } q a = !protContains S t r a := by
  obtain ⟨x, hx⟩ := Option.ne_none_iff_exists'.1 hb
  have hx' : protBase S { t with cmp := true } = some x := hx
  simp only [protContains, hx, hx', ha, decide_true, Bool.true_and, ht, Bool.bne_true, Bool.bne_false]

/-- Rows 1 to 22 of the table do not set CMP, and their base is defined in an array of 16 MiB. -/
theorem preset_lower (h1 : 1 ≤ k) (h22 : k ≤ 22) (h : preset k = some t) :
    t.cmp = false ∧ protBase 0x1000000 t ≠ none := by
  have hrows : ∀ x ∈ presetsA ++ presetsB, x.cmp = false ∧ protBase 0x1000000 x ≠ none := by decide
  have hrow : presets[k - 1]? = (presetsA ++ presetsB)[k - 1]? := by
    rw [presets, List.append_assoc _ presetsC]
    exact List.getElem?_append_left (show k - 1 < 22 by omega)
  rw [preset, if_neg (by omega), hrow] at h
  exact hrows t (List.mem_of_getElem? h)

theorem preset_upper (h1 : 1 ≤ k) (h22 : k ≤ 22) :
    preset (k + 22) = (preset k).map fun t => { t with cmp := true } := by
  interval_cases k <;> rfl

/-- Settles O31: the rows are those of the table by evaluation; the complement is a fact about CMP, whatever the row. -/
theorem presetTable : Obligations.PresetTable := by
  refine ⟨rfl, nodup_presets, rfl, rfl, fun k h1 h44 => ?_, fun k => preset_upper, ⟨_, rfl, rfl, rfl⟩, ⟨_, rfl, rfl, rfl⟩,
    by decide, by decide, fun k a t u q r h1 h22 ht hu ha => ?_⟩
  · have hrow : ∃ t, preset k = some t ∧ t.cmp = decide (22 < k) := by interval_cases k <;> exact ⟨_, rfl, rfl⟩
    obtain ⟨t, ht, hcmp⟩ := hrow
    exact ⟨t, ht, hcmp, presetIndex_of_preset ht⟩
  · obtain ⟨hcmp, hb⟩ := preset_lower h1 h22 ht
    rw [preset_upper h1 h22, ht] at hu
    cases hu
    exact protContains_complement hcmp hb ha

end Sys2Proof.Machine
end

section
/-! SUPPORT. Commands that the check of a selector, a region or a confirmation ends before their first act (R226, R242,
R271, R280, R355). -/

namespace Sys2Proof.Machine

variable {i : Instr} {d : Descriptor} {x : Context} {k : Script}

theorem prologue_protection (hd : x.desc = some d) (hp : d.hasProtect = true) (f : Descriptor → Script) :
    prologue .protection x f = f d := prologue_met (n := .protection) hd hp f

theorem prologue_security (hd : x.desc = some d) (hs : d.hasSec = true) (f : Descriptor → Script) :
    prologue .security x f = f d := prologue_met (n := .security) hd hs f

theorem lockModeBits_none {m : Nat} (h : 5 < m) : lockModeBits m = none := by
  rw [lockModeBits] <;> omega

theorem setRangeScript_unlisted {k : BitVec 8} (hd : x.desc = some d) (hp : d.hasProtect = true)
    (hk : k = 0 ∨ 44 < k.toNat) : setRangeScript k x = .raise .invalidRegionOrRange := by
  rw [setRangeScript, prologue_protection hd hp, preset_none (hk.imp_left (congrArg BitVec.toNat))]

theorem setLockModeScript_unlisted {m : BitVec 8} {c : Bool} (hd : x.desc = some d) (hp : d.hasProtect = true)
    (hm : 5 < m.toNat) : setLockModeScript m c x = .raise .invalidRegionOrRange := by
  rw [setLockModeScript, prologue_protection hd hp, lockModeBits_none hm]

theorem setLockModeScript_unconfirmed (hd : x.desc = some d) (hp : d.hasProtect = true) :
    setLockModeScript 5 false x = .raise .permanentLockRequested :=
  prologue_protection hd hp _

variable {r : BitVec 8}

/-- No region has the number (R271). -/
theorem region_unlisted (hr : r = 0 ∨ 3 < r.toNat) : decide (1 ≤ r.toNat ∧ r.toNat ≤ 3) = false := by
  refine decide_eq_false ?_
  rintro ⟨h1, h3⟩
  rcases hr with rfl | hr
  · exact absurd h1 (by decide)
  · omega

theorem region_listed (h0 : r ≠ 0) (h3 : r.toNat ≤ 3) : decide (1 ≤ r.toNat ∧ r.toNat ≤ 3) = true :=
  decide_eq_true ⟨Nat.pos_of_ne_zero fun h => h0 (BitVec.eq_of_toNat_eq h), h3⟩

/-- A region that does not exist, or a range that leaves it (R271). -/
theorem secCheck_outside (h : r = 0 ∨ 3 < r.toNat ∨ 256 < x.addr + x.len) :
    secCheck r.toNat x k = .raise .invalidRegionOrRange := by
  rw [secCheck]
  rcases or_assoc.2 h with hr | hl
  · exact require_false (region_unlisted hr) _ _
  · rw [require_false (b := decide (x.addr + x.len ≤ secRegionSize)) (decide_eq_false (Nat.not_le.2 hl)), require_raise]

/-- SEC_READ, SEC_PROGRAM and SEC_ERASE begin with the region check (R273, R276, R278). -/
theorem script_secCheck (hd : x.desc = some d) (hs : d.hasSec = true)
    (hi : i ∈ [Instr.secRead r, .secProgram r, .secErase r]) : ∃ k, scriptOf i x = secCheck r.toNat x k := by
  fin_cases hi <;> exact ⟨_, prologue_security hd hs _⟩

theorem secLockScript_unlisted {c : Bool} (hd : x.desc = some d) (hs : d.hasSec = true) (hr : r = 0 ∨ 3 < r.toNat) :
    secLockScript r c x = .raise .invalidRegionOrRange := by
  rw [secLockScript, prologue_security hd hs, require_false (region_unlisted hr)]

theorem secLockScript_unconfirmed (hd : x.desc = some d) (hs : d.hasSec = true) (h0 : r ≠ 0) (h3 : r.toNat ≤ 3) :
    secLockScript r false x = .raise .permanentLockRequested := by
  rw [secLockScript, prologue_security hd hs, require_true (region_listed h0 h3), require_false rfl]

/-- Settles O24: each check that fails raises its code before the first act, the set's check before the confirmation's. -/
theorem selectorsAreChecked : Obligations.SelectorsAreChecked := by
  intro s d hd
  refine ⟨fun hp => ⟨fun k hk => ?_, fun m c hm => ?_, ?_⟩, fun hs r => ⟨fun h i hi => ?_, fun hr c => ?_, fun h0 h3 => ?_⟩⟩
  · exact exec_rejected (setRangeScript_unlisted hd hp hk)
  · exact exec_rejected (setLockModeScript_unlisted hd hp hm)
  · exact exec_rejected (setLockModeScript_unconfirmed hd hp)
  · obtain ⟨k, hk⟩ := script_secCheck (x := s.latched.context s) hd hs hi
    exact exec_rejected (hk.trans (secCheck_outside h))
  · exact exec_rejected (secLockScript_unlisted hd hs hr)
  · exact exec_rejected (secLockScript_unconfirmed hd hs h0 h3)

end Sys2Proof.Machine
end

section
/-! SUPPORT. Status updates and the WP probe, whatever fails: their frames leave both stores and clear no lock bit (R225,
R250, R280). -/

namespace Sys2Proof.Machine

variable {s : State} {i : Instr} {d : Descriptor} {f : Frame}

namespace Chip

variable {c c' c'' : Chip}

/-- Both stores are the same, and no security lock bit was cleared. -/
structure KeepsStores (c c' : Chip) : Prop where
  array  : c'.array = c.array
  secreg : c'.secreg = c.secreg
  locks  : c.KeepsLocks c'

theorem SameData.keepsStores (h : c.SameData c') : c.KeepsStores c' :=
  ⟨h.array, h.secreg, keepsLocks_of_sr2 h.desc h.sr2⟩

theorem KeepsStores.trans (h : c.KeepsStores c') (h' : c'.KeepsStores c'') : c.KeepsStores c'' :=
  ⟨h'.array.trans h.array, h'.secreg.trans h.secreg, h'.locks.1.trans h.locks.1,
    fun r h1 h3 hr => h'.locks.2 r h1 h3 (h.locks.2 r h1 h3 hr)⟩

/-- A status write, taken or ignored (R318). -/
theorem keepsStores_statusWrite (c : Chip) (d : ChipDraw) (a b : Byte) : c.KeepsStores (c.statusWrite d a b) := by
  have hignored : c.KeepsStores (c.ignored d) := (sameData_setWel c d.wel).keepsStores
  rw [statusWrite]
  split
  · exact hignored
  · split
    · exact hignored
    · exact ⟨rfl, rfl, keepsLocks_writeStatus c a b⟩

/-- A frame of a status update or of the WP probe is served like a read, or it is a status write. -/
theorem keepsStores_answer (hp : c.desc.departs = none) (hw : c.desc.op.wf) (hf : IsStatusUpdate c.desc.op i f)
    (d : ChipDraw) : c.KeepsStores (c.answer d f).2 := by
  have hpin : c.KeepsStores (c.atPin d.wp) := ((SameData.refl c).atPin d.wp).keepsStores
  rcases hf with hf | rfl | ⟨-, -, a, b, -, rfl⟩
  · exact ((readsOnly_statusRead hf).sameData_answer hp hw d).keepsStores
  · exact (ReadsOnly.sameData_answer (.inl rfl) hp hw d).keepsStores
  · by_cases hb : c.busyLeft = 0
    · rw [answer_wrsr hp hw hb]
      exact hpin.trans (keepsStores_statusWrite _ d a b)
    · rw [answer_busy hp (Nat.pos_of_ne_zero hb), serveBusy_snd]
      exact hpin.trans (sameData_tick _).keepsStores

end Chip

/-- Such a command sends nothing of DBUF. -/
theorem dbufSent_statusUpdate (hi : statusUpdate i ≠ none ∨ i = .getLockMode ∨ i = .getHwProtect) (s : State) :
    dbufSent s i = 0 := by
  rcases hi with hi | rfl | rfl
  · cases i with
    | write => exact absurd rfl hi
    | secProgram r => exact absurd rfl hi
    | transfer op => exact absurd rfl hi
    | _ => rfl
  · rfl
  · rfl

theorem isStatusUpdate_of_mayIssue (hi : statusUpdate i ≠ none ∨ i = .getLockMode ∨ i = .getHwProtect)
    (hd : s.desc = some d) (hf : MayIssue s i f) : IsStatusUpdate d.op i f := by
  cases i with
  | lock | unlock | clearRange | setRange k | setLockMode m c | secLock r c | getLockMode | getHwProtect =>
    obtain ⟨e, he, hf⟩ := hf
    obtain rfl := Option.some.inj (hd.symm.trans he)
    exact hf
  | _ => exact absurd hi (by simp [statusUpdate])

/-- Settles O52: every frame of these commands keeps both stores and the lock bits, so whatever fails the command does. -/
theorem statusUpdatesKeepTheStores : Obligations.StatusUpdatesKeepTheStores := by
  intro i s t d hs hd hc hw hp hi h
  have hkeeps : s.chip.KeepsStores t.chip := by
    refine exec_keeps_chip (Q := s.chip.KeepsStores) (.inl (dbufSent_statusUpdate hi s)) (fun f c x hf hq => ?_) hs
      (Chip.SameData.refl _).keepsStores h
    have hf := isStatusUpdate_of_mayIssue hi hd hf
    rw [← hc, ← hq.locks.1] at hf hp hw
    exact hq.trans (Chip.keepsStores_answer hp hw hf x)
  exact ⟨hkeeps.array, hkeeps.secreg, hkeeps.locks⟩

end Sys2Proof.Machine
end

section
/-! SUPPORT. Status updates in a quiet environment where the registers take a write: the bits of the pair written (R226 to
R229, R240, R242, R318). -/

namespace Sys2Proof.Machine

variable {p : ChipDraw → Prop} {s u : State} {i : Instr} {d : Descriptor} {x : Context}
  {f : Byte → Byte → Byte × Byte}

/-! ### The script of a status update -/

theorem setRangeScript_listed {k : BitVec 8} {t : RangeTuple} (hd : x.desc = some d) (hp : d.hasProtect = true)
    (hk : preset k.toNat = some t) : setRangeScript k x = applyUpdate d.op x (withTuple t) (.done 0) := by
  rw [setRangeScript, prologue_protection hd hp, hk]

theorem setLockModeScript_listed {m : BitVec 8} {c : Bool} {b : Bool × Bool} (hd : x.desc = some d)
    (hp : d.hasProtect = true) (hm : lockModeBits m.toNat = some b) (hc : m = 5 → c = true) :
    setLockModeScript m c x = applyUpdate d.op x (withLockBits b.1 b.2) (.done 0) := by
  rw [setLockModeScript, prologue_protection hd hp, hm]
  refine require_true ?_ _ _
  by_cases h5 : m = 5
  · rw [hc h5, Bool.not_true, Bool.and_false, Bool.not_false]
  · rw [beq_false_of_ne h5, Bool.false_and, Bool.not_false]

/-- A status update but SEC_LOCK, its selector in the set and confirmed where it must be, applies its rule's function. -/
theorem script_applyUpdate (hd : x.desc = some d) (hp : d.hasProtect = true) (hf : statusUpdate i = some f)
    (hl : ∀ r c, i ≠ .secLock r c) (hm : i ≠ .setLockMode 5 false) :
    scriptOf i x = applyUpdate d.op x f (.done 0) := by
  cases i with
  | secLock r c => exact absurd rfl (hl r c)
  | unlock | clearRange =>
    cases hf
    exact prologue_protection hd hp _
  | lock =>
    obtain rfl := Option.some.inj ((statusUpdate_lock (t := ⟨false, 7, false, false⟩) rfl).symm.trans hf)
    exact setRangeScript_listed (k := 14) hd hp rfl
  | setRange k =>
    obtain ⟨t, ht, rfl⟩ := Option.map_eq_some_iff.1 hf
    exact setRangeScript_listed hd hp ht
  | setLockMode m c =>
    obtain ⟨b, hb, rfl⟩ := Option.map_eq_some_iff.1 hf
    refine setLockModeScript_listed hd hp hb ?_
    rintro rfl
    by_contra hc
    exact hm (by rw [Bool.eq_false_of_not_eq_true hc])
  | _ => cases hf

/-! ### The level of the WP pin -/

/-- The status registers take a write at every level the pin may have (R241). -/
theorem CalmPin.writable {c : Chip} {l : Level} (hl : CalmPin p u l) (h1 : c.srp1 = false)
    (h0 : c.srp0 = false ∨ ∀ x, p x → x.wp = .high) : c.srWritable l = true := by
  obtain ⟨x, hx, rfl⟩ := hl
  rcases h0 with h0 | hw
  · simp [Chip.srWritable, h1, h0]
  · simp [Chip.srWritable, h1, hw x hx.2]

/-- The status registers take no write at any level the pin may have (R241). -/
theorem CalmPin.frozen {c : Chip} {l : Level} (hl : CalmPin p u l)
    (h : c.srp1 = true ∨ (c.srp0 = true ∧ ∀ x, p x → x.wp = .low)) : c.srWritable l = false := by
  obtain ⟨x, hx, rfl⟩ := hl
  rcases h with h1 | ⟨h0, hw⟩
  · simp [Chip.srWritable, h1]
  · simp [Chip.srWritable, h0, hw x hx.2]

/-! ### The registers after an update -/

/-- The chip after a status update by `f`, its reserved bit read as `q`. -/
def Chip.updated (c : Chip) (f : Byte → Byte → Byte × Byte) (q : Bool) : Chip :=
  (c.writeStatus (f c.sr1Read (c.sr2Read q)).1 (f c.sr1Read (c.sr2Read q)).2).setWel false

theorem sr1_updated_withTuple (c : Chip) (t : RangeTuple) (q : Bool) : (c.updated (withTuple t) q).sr1 =
    (c.sr1 &&& 0x81) ||| (t.bp.zeroExtend 8 <<< 2) ||| bitAt 5 t.tb ||| bitAt 6 t.sec := by
  refine byte_ext fun i => ?_
  simp only [Chip.updated, withTuple, enc1, prot1, Chip.sr1_setWel, Chip.writeStatus_sr1_bit, BitVec.getLsbD_or,
    BitVec.getLsbD_and, Chip.sr1Read_bit, getLsbD_bitAt _ _ i.isLt]
  fin_cases i <;> simp

theorem sr2_updated_withTuple (c : Chip) (t : RangeTuple) (q : Bool) :
    (c.updated (withTuple t) q).sr2 = (c.sr2 &&& 0xBF) ||| bitAt 6 t.cmp := by
  refine byte_ext fun i => ?_
  simp only [Chip.updated, withTuple, enc2, prot2, Chip.setWel_sr2, Chip.writeStatus_sr2_bit, BitVec.getLsbD_or,
    BitVec.getLsbD_and, Chip.sr2Read_bit, getLsbD_bitAt _ _ i.isLt]
  fin_cases i <;> simp

theorem sr1_updated_withLockBits (c : Chip) (a b q : Bool) :
    (c.updated (withLockBits a b) q).sr1 = (c.sr1 &&& 0x7D) ||| bitAt 7 a := by
  refine byte_ext fun i => ?_
  simp only [Chip.updated, withLockBits, Chip.sr1_setWel, Chip.writeStatus_sr1_bit, BitVec.getLsbD_or,
    BitVec.getLsbD_and, Chip.sr1Read_bit, getLsbD_bitAt _ _ i.isLt]
  fin_cases i <;> simp

theorem sr2_updated_withLockBits (c : Chip) (a b q : Bool) :
    (c.updated (withLockBits a b) q).sr2 = (c.sr2 &&& 0xFE) ||| bitAt 0 b := by
  refine byte_ext fun i => ?_
  simp only [Chip.updated, withLockBits, Chip.setWel_sr2, Chip.writeStatus_sr2_bit, BitVec.getLsbD_or,
    BitVec.getLsbD_and, Chip.sr2Read_bit, getLsbD_bitAt _ _ i.isLt]
  fin_cases i <;> simp

/-! ### The update as a command -/

/-- A status update in a quiet environment whose WP level lets the registers take the write. -/
theorem update_completes (hq : s.Quiet p) (hc : s.CanClaim) (hd : s.desc = some d) (ht : s.Attached d)
    (hp : d.hasProtect = true) (h1 : s.chip.srp1 = false) (h0 : s.chip.srp0 = false ∨ ∀ x, p x → x.wp = .high)
    (hf : statusUpdate i = some f) (hl : ∀ r c, i ≠ .secLock r c) (hm : i ≠ .setLockMode 5 false) :
    ∃ t, exec i s = .next t ∧ s.Ended t .ok 0 0 ∧ ∃ q l, t.chip = (s.chip.updated f q).atPin l := by
  have hlead : Leads p s.started (applyUpdate d.op (s.latched.context s) f (.done 0)) fun t =>
      s.Ended t .ok 0 0 ∧ ∃ q l, t.chip = (s.chip.updated f q).atPin l := by
    refine leads_claim hc (leads_updateSR_writable (speaks_attached ht) ht.ready ht.still (fun l hl => hl.writable h1 h0)
      fun q q' l c' _ hc' => leads_release (leads_done fun t ht => ?_))
    subst hc'
    rw [freed_claimed] at ht
    obtain ⟨hend, hchip, -⟩ := complete_spanned 0 ht
    exact ⟨hend, q, l, hchip⟩
  rw [← script_applyUpdate (i := i) (x := s.latched.context s) hd hp hf hl hm] at hlead
  exact hlead.exec hq

/-- Settles O32: each of the four is a status update by the rule's tuple. -/
theorem blockProtectCompletes : Obligations.BlockProtectCompletes := by
  intro s d p hq hc hd ht hp h1 h0 i bp tb sec cmp hi
  obtain ⟨hf, hl, hm⟩ : statusUpdate i = some (withTuple ⟨cmp, bp, sec, tb⟩) ∧ (∀ r c, i ≠ .secLock r c) ∧
      i ≠ .setLockMode 5 false := by
    rcases hi with ⟨k, rfl, hk⟩ | ⟨rfl, rfl, rfl, rfl, rfl⟩ | ⟨rfl | rfl, rfl, rfl, rfl, rfl⟩
    · exact ⟨statusUpdate_setRange hk, nofun, nofun⟩
    · exact ⟨statusUpdate_lock rfl, nofun, nofun⟩
    · exact ⟨rfl, nofun, nofun⟩
    · exact ⟨rfl, nofun, nofun⟩
  obtain ⟨t, he, hend, q, l, hchip⟩ := update_completes hq hc hd ht hp h1 h0 hf hl hm
  refine ⟨t, he, hend, ?_⟩
  rw [hchip]
  exact ⟨rfl, sr1_updated_withTuple s.chip _ q, sr2_updated_withTuple s.chip _ q⟩

/-- Settles O35: each mode of the table is a status update by its two bits. -/
theorem setLockModeCompletes : Obligations.SetLockModeCompletes := by
  intro s d p hq hc hd ht hp h1 h0 m c srp0 srp1 hm hconf
  have hbits : lockModeBits m.toNat = some (srp0, srp1) := by
    generalize m.toNat = n at hm
    fin_cases hm <;> rfl
  have hne : Instr.setLockMode m c ≠ .setLockMode 5 false := by
    intro h
    obtain ⟨hm5, hcf⟩ := Instr.setLockMode.inj h
    rw [hconf hm5] at hcf
    cases hcf
  obtain ⟨t, he, hend, q, l, hchip⟩ := update_completes hq hc hd ht hp h1 h0 (statusUpdate_setLockMode hbits) nofun hne
  refine ⟨t, he, hend, ?_⟩
  rw [hchip]
  exact ⟨rfl, sr1_updated_withLockBits s.chip srp0 srp1 q, sr2_updated_withLockBits s.chip srp0 srp1 q⟩

end Sys2Proof.Machine
end

section
/-! SUPPORT. Status updates in a quiet environment where the registers take no write: the read-back compares the bits asked
for with those in place (R224, R225, R241). -/

namespace Sys2Proof.Machine

variable {i : Instr} {f : Byte → Byte → Byte × Byte} {a a' b b' : Byte}

/-! ### The verified bits -/

/-- A byte masked and completed, seen through `v`, depends on the byte seen through `v`. -/
theorem masked_congr (v m e : Byte) (h : a &&& v = b &&& v) : ((a &&& m) ||| e) &&& v = ((b &&& m) ||| e) &&& v := by
  have hcomm : ∀ x : Byte, x &&& m &&& v = x &&& v &&& m := fun x => by
    rw [BitVec.and_assoc, BitVec.and_comm m, BitVec.and_assoc]
  rw [BitVec.and_or_distrib_right, BitVec.and_or_distrib_right, hcomm a, h, hcomm b]

/-- A status update but SEC_LOCK is a block-protect or a lock-mode update. -/
theorem statusUpdate_cases (hf : statusUpdate i = some f) (hl : ∀ r c, i ≠ .secLock r c) :
    (∃ t, f = withTuple t) ∨ ∃ p0 p1, f = withLockBits p0 p1 := by
  cases i with
  | secLock r c => exact absurd rfl (hl r c)
  | lock => exact .inl ⟨_, (Option.some.inj ((statusUpdate_lock (t := ⟨false, 7, false, false⟩) rfl).symm.trans hf)).symm⟩
  | unlock | clearRange => exact .inl ⟨_, (Option.some.inj hf).symm⟩
  | setRange k =>
    obtain ⟨t, -, rfl⟩ := Option.map_eq_some_iff.1 hf
    exact .inl ⟨t, rfl⟩
  | setLockMode m c =>
    obtain ⟨b, -, rfl⟩ := Option.map_eq_some_iff.1 hf
    exact .inr ⟨b.1, b.2, rfl⟩
  | _ => cases hf

/-- What such an update asks of the verified bits depends on the verified bits of the pair read. -/
theorem statusUpdate_congr (hf : statusUpdate i = some f) (hl : ∀ r c, i ≠ .secLock r c)
    (h1 : a &&& vmask1 = a' &&& vmask1) (h2 : b &&& vmask2 = b' &&& vmask2) :
    (f a b).1 &&& vmask1 = (f a' b').1 &&& vmask1 ∧ (f a b).2 &&& vmask2 = (f a' b').2 &&& vmask2 := by
  rcases statusUpdate_cases hf hl with ⟨t, rfl⟩ | ⟨p0, p1, rfl⟩ <;>
    exact ⟨masked_congr _ _ _ h1, masked_congr _ _ _ h2⟩

namespace Chip

theorem sr1Read_verified (c : Chip) : c.sr1Read &&& vmask1 = c.sr1 &&& vmask1 := byte_ext fun i => by
  simp only [BitVec.getLsbD_and, sr1Read_bit]
  fin_cases i <;> simp [vmask1]

theorem sr2Read_verified (c : Chip) (q : Bool) : c.sr2Read q &&& vmask2 = c.sr2 &&& vmask2 := byte_ext fun i => by
  simp only [BitVec.getLsbD_and, sr2Read_bit]
  fin_cases i <;> simp [vmask2]

end Chip

/-- Every verified bit the update asks for is in place already (R225). -/
abbrev InPlace (f : Byte → Byte → Byte × Byte) (c : Chip) : Prop :=
  (f c.sr1 c.sr2).1 &&& 0xFC = c.sr1 &&& 0xFC ∧ (f c.sr1 c.sr2).2 &&& 0x43 = c.sr2 &&& 0x43

/-- The read-back of a chip that took no write verifies when the bits asked for are in place. -/
theorem verified_untouched (hf : statusUpdate i = some f) (hl : ∀ r c, i ≠ .secLock r c) (c : Chip) (w q q' : Bool) :
    verified (c.setWel w).sr1Read ((c.setWel w).sr2Read q') (f c.sr1Read (c.sr2Read q)).1 (f c.sr1Read (c.sr2Read q)).2 =
      true ↔ InPlace f c := by
  obtain ⟨h1, h2⟩ := statusUpdate_congr hf hl c.sr1Read_verified (c.sr2Read_verified q)
  have hw : (c.setWel w).sr1 &&& vmask1 = c.sr1 &&& vmask1 := (Chip.sameData_setWel c w).sr1
  rw [verified, Chip.sr1Read_verified, hw, Chip.sr2Read_verified, Chip.setWel_sr2, h1, h2, Bool.and_eq_true, beq_iff_eq,
    beq_iff_eq, eq_comm, eq_comm (a := c.sr2 &&& vmask2)]
  rfl

/-! ### The update as a command -/

/-- Settles O34: the chip ignores the write, so the read-back finds the bits that were in place before. -/
theorem frozenRegistersRefuse : Obligations.FrozenRegistersRefuse := by
  intro s d p hq hc hd ht hp hz i f hf hl hm
  have hlead : Leads p s.started (applyUpdate d.op (s.latched.context s) f (.done 0)) fun t =>
      s.chip.SameData t.chip ∧ t.chip.busyLeft = 0 ∧
        s.Ended t (if InPlace f s.chip then .ok else .statusWriteVerifyFailed) 0 0 := by
    refine leads_claim hc (leads_updateSR (speaks_attached ht) ht.ready ht.still fun q q' l c' n1 n2 _ hn hW => ?_)
    obtain ⟨m, m', hpin, -, ⟨hw, -⟩ | ⟨-, w, rfl⟩⟩ := hW
    · exact absurd (hw.symm.trans (hpin.frozen (c := s.chip) hz)) Bool.noConfusion
    · obtain ⟨rfl, rfl⟩ := Prod.mk.inj hn
      have hdata : s.chip.SameData ((s.chip.setWel w).atPin l) := (Chip.sameData_setWel _ _).atPin l
      have hv := verified_untouched hf hl s.chip w q q'
      refine ⟨fun h => leads_release (leads_done fun t ht' => ?_), fun h => leads_raise fun t ht' => ?_⟩
      · rw [freed_claimed] at ht'
        obtain ⟨hend, hchip, -⟩ := complete_spanned 0 ht'
        rw [hchip, if_pos (hv.1 h)]
        exact ⟨hdata, ht.ready, hend⟩
      · obtain ⟨hend, hchip, -⟩ := abort_in_span .statusWriteVerifyFailed ht'
        rw [hchip, if_neg fun hin => by cases h.symm.trans (hv.2 hin)]
        exact ⟨hdata, ht.ready, hend⟩
  rw [← script_applyUpdate (i := i) (x := s.latched.context s) hd hp hf hl hm] at hlead
  exact hlead.exec hq

end Sys2Proof.Machine
end

section
/-! SUPPORT. IS_LOCKED and READ_PROTECTION in a quiet environment: the live pair, its tuple and its preset (R230, R231). -/

namespace Sys2Proof.Machine

variable {p : ChipDraw → Prop} {s : State} {d : Descriptor} {Q : State → Prop} {k : Byte → Byte → Script}

/-! ### The pair read -/

/-- The pair read spells the tuple in force: it is not in BUSY, nor in the reserved bit (R220). -/
theorem decTuple_read (c : Chip) (q : Bool) : decTuple c.sr1Read (c.sr2Read q) = c.tuple := by
  have hbp : c.sr1Read.extractLsb' 2 3 = c.sr1.extractLsb' 2 3 := BitVec.eq_of_getLsbD_eq fun i _ => by
    simp only [BitVec.getLsbD_extractLsb', Chip.sr1Read_bit, if_neg (show ¬ 2 + i = 0 by omega)]
  simp only [Chip.tuple, decTuple, hbp, Chip.sr1Read_bit, Chip.sr2Read_bit, OfNat.ofNat_ne_zero, if_false]
  rfl

theorem nothingProtected_tuple (c : Chip) : nothingProtected c.tuple = true ↔
    (c.sr2.getLsbD 6 = false ∧ c.sr1.extractLsb' 2 3 = 0) ∨ (c.sr2.getLsbD 6 = true ∧ c.sr1.extractLsb' 2 3 = 7) := by
  simp only [nothingProtected, Chip.tuple, decTuple, Bool.or_eq_true, Bool.and_eq_true, Bool.not_eq_true', beq_iff_eq]

theorem sr1Read_live (c : Chip) : c.sr1Read &&& 0xFE = c.sr1 &&& 0xFE := byte_ext fun i => by
  simp only [BitVec.getLsbD_and, Chip.sr1Read_bit]
  fin_cases i <;> simp

theorem sr2Read_live (c : Chip) (q : Bool) : c.sr2Read q &&& 0xFB = c.sr2 &&& 0xFB := byte_ext fun i => by
  simp only [BitVec.getLsbD_and, Chip.sr2Read_bit]
  fin_cases i <;> simp

/-! ### The word of READ_PROTECTION -/

/-- RDATA of READ_PROTECTION (R231). -/
def protectionWord (index s2 s1 : Byte) : Word := (0 : BitVec 8) ++ index ++ s2 ++ s1

theorem protectionWord_sr1 (index s2 s1 : Byte) : (protectionWord index s2 s1).extractLsb' 0 8 = s1 :=
  BitVec.extractLsb'_append_eq_right

theorem protectionWord_sr2 (index s2 s1 : Byte) : (protectionWord index s2 s1).extractLsb' 8 8 = s2 := by
  rw [protectionWord, BitVec.extractLsb'_append_eq_of_le (by decide)]
  exact BitVec.extractLsb'_append_eq_right

theorem protectionWord_index (index s2 s1 : Byte) :
    ((protectionWord index s2 s1).extractLsb' 16 16).toNat = index.toNat := by
  rw [protectionWord, BitVec.extractLsb'_append_eq_of_le (by decide), BitVec.extractLsb'_append_eq_of_le (by decide)]
  exact (congrArg BitVec.toNat BitVec.extractLsb'_eq_self).trans ((BitVec.toNat_append 0 index).trans (by simp))

theorem protectionWord_bit0 (index s2 s1 : Byte) : (protectionWord index s2 s1).getLsbD 0 = s1.getLsbD 0 := by
  rw [protectionWord, BitVec.getLsbD_append]
  exact if_pos (by decide)

theorem toNat_presetIndex (t : RangeTuple) : (BitVec.ofNat 8 (presetIndex t)).toNat = presetIndex t := by
  have := presetIndex_le t
  exact Nat.mod_eq_of_lt (by omega)

/-! ### The two commands -/

/-- Reading the live pair leaves the chip as it was, the pin at some level. -/
theorem leads_liveStatus (hc : s.CanClaim) (ht : s.Attached d)
    (hk : ∀ l q, Leads p (s.started.spanned (s.chip.atPin l)) (k s.chip.sr1Read (s.chip.sr2Read q)) Q) :
    Leads p s.started (liveStatus d.op k) Q := by
  refine leads_claim hc (leads_readSR1 (speaks_attached ht) ht.ready fun l1 _ => ?_)
  refine leads_readSR2 (v := { s.started.claimed with chip := s.chip.atPin l1 }) ((speaks_attached ht).keep rfl) ht.ready
    fun l q _ => leads_release ?_
  have := hk l q
  rwa [← freed_claimed] at this

/-- A command that answers from the live pair ends Ok with its answer, and the chip as it was. -/
theorem query_completes {i : Instr} {g : Byte → Byte → Word} (hq : s.Quiet p) (hc : s.CanClaim) (ht : s.Attached d)
    (hi : scriptOf i (s.latched.context s) = liveStatus d.op fun s1 s2 => .done (g s1 s2)) :
    ∃ t q, exec i s = .next t ∧ s.Ended t .ok 0 (g s.chip.sr1Read (s.chip.sr2Read q)) ∧
      t.chip = { s.chip with wp := t.chip.wp } := by
  have hlead : Leads p s.started (scriptOf i (s.latched.context s)) fun t =>
      ∃ q, s.Ended t .ok 0 (g s.chip.sr1Read (s.chip.sr2Read q)) ∧ t.chip = { s.chip with wp := t.chip.wp } := by
    rw [hi]
    refine leads_liveStatus hc ht fun l q => leads_done fun t ht => ?_
    obtain ⟨hend, hchip, -⟩ := complete_spanned (g s.chip.sr1Read (s.chip.sr2Read q)) ht
    exact ⟨q, hend, by rw [hchip]; rfl⟩
  obtain ⟨t, he, q, h⟩ := hlead.exec hq
  exact ⟨t, q, he, h⟩

/-- Settles O33: both answers are functions of the pair read, which agrees with the live bits. -/
theorem protectionIsReadLive : Obligations.ProtectionIsReadLive := by
  intro s d hq hc hd ht hp
  constructor
  · obtain ⟨t, q, he, hend, hchip⟩ := query_completes (i := .isLocked)
      (g := fun s1 s2 => if nothingProtected (decTuple s1 s2) then 0 else 1) hq hc ht (prologue_protection hd hp _)
    simp only [decTuple_read, nothingProtected_tuple] at hend
    exact ⟨t, he, hend, hchip⟩
  · obtain ⟨t, q, he, hend, hchip⟩ := query_completes (i := .readProtection)
      (g := fun s1 s2 => protectionWord (.ofNat 8 (presetIndex (decTuple s1 s2))) s2 s1) hq hc ht
      (prologue_protection hd hp _)
    rw [decTuple_read] at hend
    refine ⟨t, he, by rwa [hend.rdata], hchip, ?_⟩
    rw [hend.rdata, protectionWord_sr1, protectionWord_sr2, protectionWord_bit0, protectionWord_index, toNat_presetIndex]
    exact ⟨sr1Read_live s.chip, by rw [Chip.sr1Read_bit]; simp [ht.ready], sr2Read_live s.chip q,
      fun k h1 _ => preset_eq_some h1, presetIndex_le _⟩

end Sys2Proof.Machine
end

section
/-! SUPPORT. The probe of the WP pin in a quiet environment, and the two commands that ask it (R245, R250). -/

namespace Sys2Proof.Machine

variable {p : ChipDraw → Prop} {s v : State} {d : Descriptor} {o : OpSet} {Q : State → Prop} {b : Bool}

/-! ### The status write the probe takes back -/

namespace Chip

variable {c : Chip}

/-- A status write of SR2 as read changes no bit of SR2: the reserved bit is not written (R318). -/
theorem sr2_writeStatus_read (c : Chip) (x : Byte) (q : Bool) : (c.writeStatus x (c.sr2Read q)).sr2 = c.sr2 :=
  byte_ext fun i => by
    simp only [writeStatus_sr2_bit, sr2Read_bit]
    fin_cases i <;> simp

/-- A status write of SR1 as read brings back every bit of SR1 a write can reach (R318). -/
theorem sr1_writeStatus_read (c c' : Chip) (y : Byte) : (c'.writeStatus c.sr1Read y).sr1 &&& 0xFC = c.sr1 &&& 0xFC :=
  byte_ext fun i => by
    simp only [BitVec.getLsbD_and, writeStatus_sr1_bit, sr1Read_bit]
    fin_cases i <;> simp

/-- `m` is `c`, at rest, but that other bits of SR1 may be in force and SRP0 is clear. -/
structure Cleared (c m : Chip) : Prop where
  data  : c.SameData { m with sr1 := c.sr1 }
  ready : m.busyLeft = 0
  still : m.inFlight = .none
  srp0  : m.srp0 = false

theorem Cleared.atPin {m : Chip} (h : c.Cleared m) (l : Level) : c.Cleared (m.atPin l) :=
  ⟨h.data.atPin l, h.ready, h.still, h.srp0⟩

/-- The pair read, written with SRP0 clear (R250). -/
theorem cleared_writeStatus (hb : c.busyLeft = 0) (hf : c.inFlight = .none) (q w : Bool) (l : Level) :
    c.Cleared (((c.writeStatus (c.sr1Read &&& ~~~(0x80 : Byte)) (c.sr2Read q)).setWel w).atPin l) where
  data  := ⟨rfl, rfl, rfl, rfl, rfl, sr2_writeStatus_read c (c.sr1Read &&& ~~~(0x80 : Byte)) q⟩
  ready := hb
  still := hf
  srp0  := by
    show ((c.writeStatus _ _).setWel w).sr1.getLsbD 7 = false
    rw [sr1_setWel, if_neg (by decide), writeStatus_sr1_bit, if_pos (by decide)]
    simp

/-- The pair read, written back, restores the status bits. -/
theorem Cleared.restored {m : Chip} (h : c.Cleared m) (q w : Bool) (l : Level) :
    c.AtRest (((m.writeStatus c.sr1Read (c.sr2Read q)).setWel w).atPin l) := by
  have hm : m.sr2 = c.sr2 := h.data.sr2
  have hread : c.sr2Read q = m.sr2Read q := by rw [sr2Read, sr2Read, hm]
  have hback : c.SameData (m.writeStatus c.sr1Read (c.sr2Read q)) :=
    ⟨h.data.desc, h.data.mfr, h.data.array, h.data.secreg, sr1_writeStatus_read c m _,
      by rw [hread, sr2_writeStatus_read, hm]⟩
  exact ⟨(hback.trans (sameData_setWel _ w)).atPin l, h.ready⟩

theorem srp0_read (c : Chip) : c.sr1Read.getLsbD 7 = c.srp0 := by rw [sr1Read_bit]; rfl

theorem srp1_read (c : Chip) (q : Bool) : (c.sr2Read q).getLsbD 0 = c.srp1 := by rw [sr2Read_bit]; rfl

end Chip

/-! ### Status writes, taken or ignored -/

section
variable {k : Script} {x y : Byte} (ho : Speaks v o) (hb : v.chip.busyLeft = 0) (hf : v.chip.inFlight = .none)
include ho hb hf

theorem leads_writeSR_taken (hw : ∀ l, CalmPin p v l → v.chip.srWritable l = true)
    (hk : ∀ l, Leads p { v with chip := ((v.chip.writeStatus x y).setWel false).atPin l } k Q) :
    Leads p v (writeSR o v.cfg.readyPollLimit x y k) Q := by
  refine leads_writeSR ho hb hf fun c' hc' => ?_
  obtain ⟨l, l', hl, -, ⟨-, rfl⟩ | ⟨hz, -⟩⟩ := hc'
  · exact hk l'
  · exact absurd (hz.symm.trans (hw l hl)) Bool.noConfusion

theorem leads_writeSR_ignored (hz : ∀ l, CalmPin p v l → v.chip.srWritable l = false)
    (hk : ∀ w l, Leads p { v with chip := (v.chip.setWel w).atPin l } k Q) :
    Leads p v (writeSR o v.cfg.readyPollLimit x y k) Q := by
  refine leads_writeSR ho hb hf fun c' hc' => ?_
  obtain ⟨l, l', hl, -, ⟨hw, -⟩ | ⟨-, w, rfl⟩⟩ := hc'
  · exact absurd (hw.symm.trans (hz l hl)) Bool.noConfusion
  · exact hk w l'

/-- The probe's first write, taken (R250). -/
theorem leads_clearSrp0 {q : Bool} (hw : ∀ l, CalmPin p v l → v.chip.srWritable l = true)
    (hk : ∀ m, v.chip.Cleared m → Leads p { v with chip := m } k Q) :
    Leads p v (writeSR o v.cfg.readyPollLimit (v.chip.sr1Read &&& ~~~(0x80 : Byte)) (v.chip.sr2Read q) k) Q :=
  leads_writeSR_taken ho hb hf hw fun l => hk _ (Chip.cleared_writeStatus hb hf q false l)

end

/-- The probe's second write, taken: the pair it read of `c` is back (R250). -/
theorem leads_restore {c : Chip} {k : Script} {q : Bool} (ho : Speaks v o) (hm : c.Cleared v.chip)
    (hw : ∀ l, CalmPin p v l → v.chip.srWritable l = true)
    (hk : ∀ c', c.AtRest c' → Leads p { v with chip := c' } k Q) :
    Leads p v (writeSR o v.cfg.readyPollLimit c.sr1Read (c.sr2Read q) k) Q :=
  leads_writeSR_taken ho hm.ready hm.still hw fun l => hk _ (hm.restored q false l)

/-! ### The probe -/

/-- What the probe finds: inactive with SRP0 clear; with SRP0 set, active where a write that clears it is ignored, inactive
where the write is taken (R250). -/
inductive Probes (p : ChipDraw → Prop) (c : Chip) : Bool → Prop
  | clear : c.srp0 = false → Probes p c false
  | frozen : c.srp0 = true → (c.srp1 = true ∨ ∀ x, p x → x.wp = .low) → Probes p c true
  | writable : c.srp0 = true → c.srp1 = false → (∀ x, p x → x.wp = .high) → Probes p c false

theorem Probes.atPin {c : Chip} (h : Probes p c b) (l : Level) : Probes p (c.atPin l) b := by
  cases h with
  | clear h0 => exact .clear h0
  | frozen h0 hz => exact .frozen h0 hz
  | writable h0 h1 hw => exact .writable h0 h1 hw

/-- The probe in a quiet environment: the chip keeps everything but WEL. -/
theorem leads_hwProbe {k : Bool → Script} (ho : Speaks v o) (hb : v.chip.busyLeft = 0) (hf : v.chip.inFlight = .none)
    (h : Probes p v.chip b) (hk : ∀ c, v.chip.AtRest c → Leads p { v with chip := c } (k b) Q) :
    Leads p v (hwProbe o v.cfg.readyPollLimit k) Q := by
  refine leads_readSR1 ho hb fun l1 _ => ?_
  refine leads_readSR2 (v := { v with chip := v.chip.atPin l1 }) (ho.keep rfl) hb fun l2 q _ => ?_
  simp only [Chip.atPin_atPin, Chip.sr2Read_atPin, Chip.srp0_read]
  have hrest : v.chip.AtRest (v.chip.atPin l2) := (Chip.AtRest.refl hb).atPin l2
  cases h with
  | clear h0 =>
    rw [if_pos h0]
    exact hk _ hrest
  | frozen h0 hz =>
    rw [if_neg (by rw [h0]; decide)]
    refine leads_writeSR_ignored (v := { v with chip := v.chip.atPin l2 }) (ho.keep rfl) hb hf
      (fun l hl => hl.frozen (hz.imp_right (⟨h0, ·⟩))) fun w l3 => ?_
    refine leads_readSR1 (ho.keep rfl) hb fun l4 _ => ?_
    have hset : ((((v.chip.atPin l2).setWel w).atPin l3).sr1Read).getLsbD 7 = true := by
      rw [Chip.srp0_read]
      simpa using h0
    rw [if_pos hset]
    exact hk _ (((hrest.setWel w).atPin l3).atPin l4)
  | writable h0 h1 hw =>
    rw [if_neg (by rw [h0]; decide)]
    refine leads_clearSrp0 (v := { v with chip := v.chip.atPin l2 }) (ho.keep rfl) hb hf
      (fun l hl => hl.writable h1 (.inr hw)) fun m hm => ?_
    refine leads_readSR1 (v := { v with chip := m }) (ho.keep hm.data.desc) hm.ready fun l3 _ => ?_
    have hclear : ¬ m.sr1Read.getLsbD 7 = true := by
      rw [Chip.srp0_read, hm.srp0]
      exact Bool.false_ne_true
    have hsrp1 : m.srp1 = false := by rw [Chip.srp1, show m.sr2 = v.chip.sr2 from hm.data.sr2]; exact h1
    rw [if_neg hclear]
    refine leads_restore (c := v.chip.atPin l2) (v := { v with chip := m.atPin l3 }) (ho.keep hm.data.desc) (hm.atPin l3)
      (fun l hl => hl.writable hsrp1 (.inr hw)) fun c hc => ?_
    refine leads_readSR1 (v := { v with chip := c }) (ho.keep hc.data.desc) hc.ready fun l4 _ => ?_
    refine leads_require (beq_iff_eq.2 ?_) (hk _ ⟨hrest.data.trans (hc.data.atPin l4), hc.ready⟩)
    rw [Chip.sr1Read_verified, Chip.sr1Read_verified]
    exact hc.data.sr1

/-! ### The two commands -/

/-- Where a command that senses the pin ends: Ok with its answer, everything but WEL kept. -/
def EndsSensed (s : State) (x : Word) (t : State) : Prop :=
  s.Ended t .ok 0 x ∧ s.chip.SameData t.chip ∧ t.chip.busyLeft = 0

theorem leads_sensed {c : Chip} {x : Word} (h : s.chip.AtRest c) :
    Leads p { s.started.claimed with chip := c } (release (.done x)) (EndsSensed s x) := by
  refine leads_release (leads_done fun t ht => ?_)
  rw [freed_claimed] at ht
  obtain ⟨hend, hchip, -⟩ := complete_spanned x ht
  exact ⟨hend, by rw [hchip]; exact h.data, by rw [hchip]; exact h.ready⟩

theorem getHwProtect_completes (hq : s.Quiet p) (hc : s.CanClaim) (hd : s.desc = some d) (ht : s.Attached d)
    (hp : d.hasProtect = true) (h : Probes p s.chip b) :
    ∃ t, exec .getHwProtect s = .next t ∧ EndsSensed s (if b then 1 else 0) t := by
  refine Leads.exec (i := .getHwProtect) (leads_prologue hd hp ?_) hq
  exact leads_claim hc (leads_hwProbe (speaks_attached ht) ht.ready ht.still h fun c hrest => leads_sensed hrest)

/-- GET_LOCK_MODE asks the probe only with SRP0 set and SRP1 clear (R245). -/
theorem getLockMode_completes {x : Word} (hq : s.Quiet p) (hc : s.CanClaim) (hd : s.desc = some d) (ht : s.Attached d)
    (hp : d.hasProtect = true)
    (h : (s.chip.srp1 = true ∧ x = if s.chip.srp0 then 5 else 4) ∨
      (s.chip.srp1 = false ∧ s.chip.srp0 = false ∧ x = 0) ∨
      (s.chip.srp1 = false ∧ s.chip.srp0 = true ∧ ∃ b, Probes p s.chip b ∧ x = if b then 2 else 3)) :
    ∃ t, exec .getLockMode s = .next t ∧ EndsSensed s x t := by
  refine Leads.exec (i := .getLockMode) (leads_prologue hd hp ?_) hq
  have ho := speaks_attached ht
  refine leads_claim hc (leads_readSR1 ho ht.ready fun l1 _ => ?_)
  refine leads_readSR2 (v := { s.started.claimed with chip := s.chip.atPin l1 }) (ho.keep rfl) ht.ready fun l2 q _ => ?_
  have hrest : s.chip.AtRest (s.chip.atPin l2) := (Chip.AtRest.refl ht.ready).atPin l2
  have hread0 : (s.started.claimed).chip.sr1Read.getLsbD 7 = s.chip.srp0 := Chip.srp0_read s.chip
  simp only [Chip.atPin_atPin, Chip.sr2Read_atPin, hread0, Chip.srp1_read]
  rcases h with ⟨h1, rfl⟩ | ⟨h1, h0, rfl⟩ | ⟨h1, h0, b, hb, rfl⟩
  · rw [if_pos h1]
    exact leads_sensed hrest
  · rw [if_neg (by rw [h1]; decide), if_pos h0]
    exact leads_sensed hrest
  · rw [if_neg (by rw [h1]; decide), if_neg (by rw [h0]; decide)]
    refine leads_hwProbe (v := { s.started.claimed with chip := s.chip.atPin l2 }) (ho.keep rfl) ht.ready ht.still
      (hb.atPin l2) fun c hrest' => ?_
    exact leads_sensed ⟨hrest.data.trans hrest'.data, hrest'.ready⟩

/-- Settles O36: the lock bits and what the probe finds decide both answers. -/
theorem lockModeIsSensed : Obligations.LockModeIsSensed := by
  intro s d p hq hc hd ht hp v
  constructor
  · intro h
    refine getLockMode_completes hq hc hd ht hp ?_
    rcases h with ⟨h1, h0, rfl⟩ | ⟨h1, h0, rfl⟩ | ⟨h1, h0, rfl⟩ | ⟨h1, h0, hw, rfl⟩ | ⟨h1, h0, hw, rfl⟩
    · exact .inl ⟨h1, by rw [h0]; rfl⟩
    · exact .inl ⟨h1, by rw [h0]; rfl⟩
    · exact .inr (.inl ⟨h1, h0, rfl⟩)
    · exact .inr (.inr ⟨h1, h0, true, .frozen h0 (.inr hw), rfl⟩)
    · exact .inr (.inr ⟨h1, h0, false, .writable h0 h1 hw, rfl⟩)
  · rintro (⟨h0, rfl⟩ | ⟨h0, hz, rfl⟩ | ⟨h0, h1, hw, rfl⟩)
    · exact getHwProtect_completes hq hc hd ht hp (.clear h0)
    · exact getHwProtect_completes hq hc hd ht hp (.frozen h0 hz)
    · exact getHwProtect_completes hq hc hd ht hp (.writable h0 h1 hw)

end Sys2Proof.Machine
end

section
/-! SUPPORT. SEC_STATUS and SEC_READ in a quiet environment (R272, R273, R317). -/

namespace Sys2Proof.Machine

variable {p : ChipDraw → Prop} {s t u : State} {i : Instr} {d : Descriptor} {x : Context} {n m : Nat} {r : BitVec 8}
  {Q : State → Prop} {k : Script}

/-! ### The lock bits read -/

/-- A read of SR2 shows the lock bits: none of them is the reserved bit (R48, R304). -/
theorem Chip.lockBit_read (c : Chip) (q : Bool) {r : Nat} (h : r ≠ 0) :
    (c.sr2Read q).getLsbD (2 + r) = c.lockBit r := by
  rw [sr2Read_bit, if_neg (by omega), lockBit]

/-- RDATA of SEC_STATUS (R272). -/
def lockWord (s2 : Byte) : Word := (s2.extractLsb' 3 3).zeroExtend 32

theorem toNat_lockWord (s2 : Byte) : (lockWord s2).toNat < 8 := by
  rw [lockWord, BitVec.zeroExtend, BitVec.toNat_setWidth_of_le (by decide)]
  exact (s2.extractLsb' 3 3).isLt

theorem lockWord_bit (c : Chip) (q : Bool) {j : Nat} (h : j < 3) :
    (lockWord (c.sr2Read q)).getLsbD j = c.lockBit (j + 1) := by
  rw [← c.lockBit_read q (Nat.succ_ne_zero j), lockWord, show 2 + (j + 1) = 3 + j by omega]
  simp [h, show j < 32 by omega]

/-- Settles O37: the word is cut from SR2 as read, where the lock bits stand next to each other. -/
theorem secStatusCompletes : Obligations.SecStatusCompletes := by
  intro s d hq hc hd ht hs
  have hlead : Leads (fun _ => True) s.started (scriptOf .secStatus (s.latched.context s)) fun t =>
      ∃ l q, t.chip = s.chip.atPin l ∧ s.Ended t .ok 0 (lockWord (s.chip.sr2Read q)) := by
    refine leads_prologue hd hs (leads_claim hc (leads_readSR2 (speaks_attached ht) ht.ready fun l q _ =>
      leads_release (leads_done fun t ht => ⟨l, q, ?_⟩)))
    rw [freed_claimed] at ht
    obtain ⟨hend, hchip, -⟩ := complete_spanned (lockWord (s.chip.sr2Read q)) ht
    exact ⟨hchip, hend⟩
  obtain ⟨t, he, l, q, hchip, hend⟩ := hlead.exec hq
  refine ⟨t, he, by rwa [hend.rdata], by rw [hchip]; rfl, ?_⟩
  rw [hend.rdata]
  exact ⟨lockWord_bit _ q (by decide), lockWord_bit _ q (by decide), lockWord_bit _ q (by decide), toNat_lockWord _⟩

/-! ### Commands of a region -/

theorem region_pos (h : r ≠ 0) : r.toNat ≠ 0 := fun h0 => h (BitVec.eq_of_toNat_eq h0)

/-- The region check passes (R271). -/
theorem secCheck_inside (h0 : r ≠ 0) (h3 : r.toNat ≤ 3) (hl : x.addr + x.len ≤ 256) : secCheck r.toNat x k = k := by
  rw [secCheck, require_true (region_listed h0 h3)]
  exact require_true (decide_eq_true hl) _ _

/-- A command returned with `n` bytes committed, from the core of a state with `R`. -/
def Returns (n : Nat) (R : State → Prop) (t : State) : Prop :=
  ∃ u v, t = complete 0 u ∧ u.core = v.core ∧ u.done = n ∧ R v

theorem leads_returns {R : State → Prop} (hn : ∃ w, u.phase = .running w ∧ w.done = n) (hR : R u) :
    Leads p u (.done 0) (Returns n R) := by
  obtain ⟨w, hw, hn⟩ := hn
  refine leads_done fun t ht => ⟨t, u, rfl, ht.core, ?_, hR⟩
  rw [core_done ht.core, State.done, hw]
  exact hn

/-- A command that returns ends Ok with the bytes it committed, and its end changes neither the chip nor DBUF (R356). -/
theorem Returns.ends {R : State → Prop} (h : Returns n R t) (h1 : i ≠ .claim) (h2 : i ≠ .release)
    (hq : s.during = []) (hx : exec i s = .next t) :
    s.Ended t .ok n 0 ∧ ∃ v, R v ∧ t.chip = v.chip ∧ t.dbuf = v.dbuf := by
  obtain ⟨u, v, rfl, hcore, hn, hR⟩ := h
  refine ⟨ended_finish h1 h2 hq hx hn, v, hR, ?_⟩
  rw [complete, finish_chip, finish_dbuf]
  exact ⟨core_chip hcore, core_dbuf hcore⟩

/-! ### One chunk of SEC_READ -/

/-- The bytes of a region read that does not run past the end of the region. -/
theorem Chip.getElem_readRegion (c : Chip) (r : Nat) {o j n : Nat} (hj : j < n) (hin : o + n ≤ 256) :
    (c.readRegion r o n)[j]? = some (c.secByte r (o + j)) := by
  have hmod : (o + j) % secRegionSize = o + j := Nat.mod_eq_of_lt (by rw [secRegionSize]; omega)
  simp [Chip.readRegion, hj, hmod]

/-- Between two chunks of SEC_READ: the bytes committed are in DBUF, and the chip is as it was but for its pin. -/
structure SecReadUpTo (s : State) (r n : Nat) (u : State) : Prop where
  standing : Standing s n u
  chip     : ∃ l, u.chip = s.chip.atPin l
  dbuf     : ∀ k, u.dbuf.lookup k = if k < n then some (s.chip.secByte r (s.addr.toNat + k)) else s.dbuf.lookup k

theorem secReadUpTo_started (s : State) (r : Nat) : SecReadUpTo s r 0 s.started :=
  ⟨standing_started s, ⟨s.chip.wp, rfl⟩, fun _ => rfl⟩

section
variable {r : Nat}

/-- DBUF after the bytes of the next chunk. -/
theorem SecReadUpTo.lookup_next (h : SecReadUpTo s r n u) (hin : s.addr.toNat + n + m ≤ 256) (j : Nat) :
    (u.dbuf.writeList .dbuf n (s.chip.readRegion r (s.addr.toNat + n) m)).lookup j =
      if j < n + m then some (s.chip.secByte r (s.addr.toNat + j)) else s.dbuf.lookup j := by
  rw [lookup_writeDbuf, Chip.length_readRegion, h.dbuf]
  by_cases hj : n ≤ j ∧ j < n + m
  · rw [if_pos hj, if_pos hj.2, s.chip.getElem_readRegion r (by omega) hin, Nat.add_assoc, Nat.add_sub_cancel' hj.1]
  · rw [if_neg hj]
    exact if_congr (by omega) rfl rfl

/-- The span of the next chunk, its bytes in DBUF, and its commit. -/
theorem SecReadUpTo.next (h : SecReadUpTo s r n u) (hin : s.addr.toNat + n + m ≤ 256) (l : Level) :
    SecReadUpTo s r (n + m) (State.committed { u.spanned (s.chip.atPin l) with
      dbuf := u.dbuf.writeList .dbuf n (s.chip.readRegion r (s.addr.toNat + n) m) } (n + m)) := by
  refine ⟨h.standing.committed ?_ ?_ ?_ _, ⟨l, rfl⟩, h.lookup_next hin⟩ <;> rfl

theorem SecReadUpTo.secReadChunk (h : SecReadUpTo s r n u) (hc : s.CanClaim) (ht : s.Attached d) (h1 : 1 ≤ r)
    (h3 : r ≤ 3) (hm : m ≤ maxIncoming s.cfg.gen 4) (h0 : 0 < m) (hin : s.addr.toNat + n + m ≤ 256)
    (hk : ∀ t, SecReadUpTo s r (n + m) t → Leads p t k Q) :
    Leads p u (secReadChunk d.op r s.addr.toNat (n, m) k) Q := by
  obtain ⟨rfl, ⟨-, -, -, hw⟩, hp, hb, -⟩ := ht
  obtain ⟨l, hl⟩ := h.chip
  have hok : xferOk u.claimed.cfg.gen (be24 (secAddr r (s.addr.toNat + n)) ++ [0x00]).length m = true := by
    rw [show u.claimed.cfg = s.cfg from h.standing.cfg]
    exact (maxIncoming_largest (nAddr := 4) _ (by decide) _).2 hm
  refine leads_claim (h.standing.canClaim hc) (leads_xfer hok fun x _ => leads_release ?_)
  have hans := Chip.answer_secRead (c := s.chip.atPin l) hp hw hb x h1 h3 (o := s.addr.toNat + n) (by omega) 0x00 m
  rw [Chip.atPin_desc, Chip.atPin_atPin] at hans
  rw [State.served, freed_claimed, show u.claimed.chip = s.chip.atPin l from hl, hans]
  exact leads_memWrite (leads_commit (hk _ (h.next hin x.wp)))

end

/-! ### The whole of SEC_READ -/

/-- SEC_READ in a quiet environment (R273). -/
theorem leads_secRead (hc : s.CanClaim) (hd : s.desc = some d) (ht : s.Attached d) (hs : d.hasSec = true) (h0 : r ≠ 0)
    (h3 : r.toNat ≤ 3) (hl : s.addr.toNat + s.len.toNat ≤ 256) :
    Leads p s.started (scriptOf (.secRead r) (s.latched.context s))
      (Returns s.len.toNat (SecReadUpTo s r.toNat s.len.toNat)) := by
  have hpos : 0 < maxIncoming s.cfg.gen 4 := maxIncoming_pos _ (by decide)
  rw [scriptOf, latched_context, secReadScript, prologue_security (d := d) hd hs, secCheck_inside h0 h3 hl]
  refine leads_each (size := (·.2)) (I := SecReadUpTo s r.toNat) (fun pre ch post hch u k hu hk => ?_) (fun u hu => ?_)
    (secReadUpTo_started s _)
  · obtain ⟨hm0, hm, hin⟩ := slices_mem hpos (hch ▸ List.mem_append_right pre List.mem_cons_self)
    obtain ⟨j, m⟩ := ch
    obtain rfl : j = (pre.map (·.2)).sum := slice_begins hch
    have hbound : (pre.map (·.2)).sum + m ≤ s.len.toNat := hin
    exact hu.secReadChunk hc ht (Nat.pos_of_ne_zero (region_pos h0)) h3 hm hm0 (by omega) hk
  · rw [sum_slices _ hpos] at hu
    exact leads_returns hu.standing.phase hu

/-- Settles O38: chunk after chunk of the region lands in DBUF; no step asks for the lock bit. -/
theorem secReadCompletes : Obligations.SecReadCompletes := by
  intro s d r hq hc hd ht hs h0 h3 hl
  obtain ⟨t, hx, hret⟩ := (leads_secRead (p := fun _ => True) hc hd ht hs h0 h3 hl).exec hq
  obtain ⟨hend, v, hv, hchip, hdbuf⟩ := hret.ends (i := .secRead r) nofun nofun hq.alone hx
  obtain ⟨l, hl⟩ := hv.chip
  refine ⟨t, hx, hend, ?_, hdbuf ▸ hv.dbuf⟩
  rw [hchip, hl]
  rfl

end Sys2Proof.Machine
end

section
/-! SUPPORT. SEC_ERASE and SEC_PROGRAM of a locked region in a quiet environment (R275, R276, R278). -/

namespace Sys2Proof.Machine

variable {p : ChipDraw → Prop} {s v : State} {i : Instr} {d : Descriptor} {o : OpSet} {x : Context} {Q : State → Prop}
  {k : Script}

/-! ### The lock check -/

section
variable {r : Nat} (ho : Speaks v o) (hb : v.chip.busyLeft = 0) (h0 : r ≠ 0)
include ho hb h0

/-- An unlocked region passes the check (R275). -/
theorem leads_secLockedCheck_unlocked (hr : v.chip.lockBit r = false)
    (hk : ∀ l, Leads p { v with chip := v.chip.atPin l } k Q) : Leads p v (secLockedCheck o r k) Q :=
  leads_readSR2 ho hb fun l q _ => leads_require (by rw [v.chip.lockBit_read q h0, hr]; rfl) (hk l)

/-- A locked region raises RegionLocked (R275). -/
theorem leads_secLockedCheck_locked (hr : v.chip.lockBit r = true)
    (hk : ∀ l, Leads p { v with chip := v.chip.atPin l } (.raise .regionLocked) Q) :
    Leads p v (secLockedCheck o r k) Q :=
  leads_readSR2 ho hb fun l q _ => leads_require_not (by rw [v.chip.lockBit_read q h0, hr]; rfl) (hk l)

end

/-! ### The two scripts -/

section
variable {r : BitVec 8} (hd : x.desc = some d) (hs : d.hasSec = true) (h0 : r ≠ 0) (h3 : r.toNat ≤ 3)
  (hl : x.addr + x.len ≤ 256)
include hd hs h0 h3 hl

/-- SEC_ERASE past its checks (R276). -/
theorem secEraseScript_checked : secEraseScript r x = claim (secLockedCheck d.op r.toNat
    (eraseRegion d.op x.cfg.readyPollLimit r.toNat (release (tally secRegionSize (.done 0))))) := by
  rw [secEraseScript, prologue_security hd hs, secCheck_inside h0 h3 hl]

/-- SEC_PROGRAM of at least one byte, past its checks (R278). -/
theorem secProgramScript_checked (hn : x.len ≠ 0) : secProgramScript r x = claim (secLockedCheck d.op r.toNat
    (eraseRegion d.op x.cfg.readyPollLimit r.toNat
      (each (chunks x.addr x.len (min secRegionSize x.cfg.gen.pageLimit))
        (secProgramChunk d.op x.cfg.readyPollLimit r.toNat x.addr) (release (.done 0))))) := by
  rw [secProgramScript, prologue_security hd hs, secCheck_inside h0 h3 hl, if_neg hn]

/-- SEC_PROGRAM of no byte does nothing (R278). -/
theorem secProgramScript_empty (hn : x.len = 0) : secProgramScript r x = .done 0 := by
  rw [secProgramScript, prologue_security hd hs, secCheck_inside h0 h3 hl, if_pos hn]

end

/-! ### The refusal -/

/-- A command that begins with the lock check of a locked region ends RegionLocked, the chip as it was. -/
theorem locked_refused {r : Nat} (hq : s.Quiet p) (hc : s.CanClaim) (ht : s.Attached d) (h0 : r ≠ 0)
    (hr : s.chip.lockBit r = true)
    (hi : scriptOf i (s.latched.context s) = claim (secLockedCheck d.op r k)) :
    ∃ t, exec i s = .next t ∧ s.Ended t .regionLocked 0 0 ∧ t.chip = { s.chip with wp := t.chip.wp } := by
  refine Leads.exec (p := p) ?_ hq
  rw [hi]
  refine leads_claim hc (leads_secLockedCheck_locked (speaks_attached ht) ht.ready h0 hr fun l =>
    leads_raise fun t ht => ?_)
  obtain ⟨hend, hchip, -⟩ := abort_in_span .regionLocked ht
  exact ⟨hend, by rw [hchip]; rfl⟩

/-- Settles O39: both commands begin with the lock check, before any frame that writes. -/
theorem lockedRegionIsRefused : Obligations.LockedRegionIsRefused := by
  intro s d r hq hc hd ht hs h0 h3 hl hr
  have hn0 := region_pos h0
  refine ⟨locked_refused hq hc ht hn0 hr (secEraseScript_checked hd hs h0 h3 hl), fun hn => ?_⟩
  exact locked_refused hq hc ht hn0 hr (secProgramScript_checked hd hs h0 h3 hl fun h => hn (BitVec.eq_of_toNat_eq h))

end Sys2Proof.Machine
end

section
/-! SUPPORT. SEC_ERASE and SEC_PROGRAM of an unlocked region in a quiet environment (R276, R278, R316, R317). -/

namespace Sys2Proof.Machine

variable {p : ChipDraw → Prop} {s u : State} {d : Descriptor} {n m : Nat} {Q : State → Prop} {k : Script}

/-! ### The chip while a region is rewritten -/

namespace Chip

variable {v c : Chip} {g : Nat → Byte} {r o A : Nat} {data : List Byte}

/-- A region erase that WEL and the lock bit allow (R316). -/
theorem regionErase_accepted (x : ChipDraw) (hwel : c.wel = true) (hA : regionOf A = some r)
    (hr : c.lockBit r = false) :
    ∃ target, c.regionErase x A =
      ({ c with secreg := c.secreg.clearRange (secAddr r 0) secRegionSize } : Chip).startBusy x.busy target := by
  rw [regionErase, if_neg (by rw [hwel]; nofun), hA]
  exact ⟨_, if_neg (by rw [hr]; nofun)⟩

/-- A region program that WEL and the lock bit allow (R317). -/
theorem regionProgram_accepted (x : ChipDraw) (data : List Byte) (hwel : c.wel = true) (hA : regionOf A = some r)
    (hr : c.lockBit r = false) :
    ∃ target, c.regionProgram x A data =
      ({ c with secreg := c.programRegion r (A % secRegionSize) data } : Chip).startBusy x.busy target := by
  rw [regionProgram, if_neg (by rw [hwel]; nofun), hA]
  exact ⟨_, if_neg (by rw [hr]; nofun)⟩

/-- At rest, with the data of `v` but for region `r`, which holds `n` bytes of `g` from offset `o` on and 0xFF elsewhere. -/
structure Rewritten (v : Chip) (r o : Nat) (g : Nat → Byte) (n : Nat) (c : Chip) : Prop where
  rest  : ({ v with secreg := c.secreg } : Chip).AtRest c
  bytes : ∀ q a, a < 256 → c.secByte q a =
    if q = r then if o ≤ a ∧ a < o + n then g (a - o) else erasedByte else v.secByte q a

theorem Rewritten.atPin (h : v.Rewritten r o g n c) (l : Level) : v.Rewritten r o g n (c.atPin l) :=
  ⟨h.rest.atPin l, h.bytes⟩

theorem Rewritten.setWel (h : v.Rewritten r o g n c) (b : Bool) : v.Rewritten r o g n (c.setWel b) :=
  ⟨h.rest.setWel b, h.bytes⟩

/-- A busy period over, after a frame that brought the security registers to `m`. -/
theorem rewritten_settled {m : Memory} (h : ({ v with secreg := c.secreg } : Chip).SameData c)
    (hm : ∀ q a, a < 256 → m.byte (secAddr q a) =
      if q = r then if o ≤ a ∧ a < o + n then g (a - o) else erasedByte else v.secByte q a) (b : Nat)
    (target : InFlight) : v.Rewritten r o g n (({ c with secreg := m } : Chip).startBusy b target).settled := by
  have hrest := SameData.settled_startBusy (v := { v with secreg := m }) (c := { c with secreg := m })
    { h with secreg := rfl } b target
  have hsec := hrest.data.secreg
  exact ⟨hsec ▸ hrest, fun q a ha => by rw [secByte, hsec, hm q a ha]⟩

/-- The chip takes a frame of a region's rewrite: a busy period, after which the region is rewritten up to byte `n`. -/
structure Takes (v : Chip) (r o : Nat) (g : Nat → Byte) (n : Nat) (x : ChipDraw) (c : Chip) : Prop where
  desc : c.desc = v.desc
  busy : c.busyLeft = x.busy
  done : v.Rewritten r o g n c.settled

section frames
variable (hw : v.desc.op.wf) (hp : v.desc.departs = none) (h1 : 1 ≤ r) (h3 : r ≤ 3) (hr : v.lockBit r = false)
  (x : ChipDraw)
include hw hp h1 h3 hr

/-- SEC_ERASE of an unlocked region, WEL set (R316). -/
theorem AtRest.answer_secErase (h : v.AtRest c) (hwel : c.wel = true) (o : Nat) (g : Nat → Byte) :
    v.Takes r o g 0 x (c.answer x ⟨v.desc.op.secErase, be24 (secAddr r 0), 0⟩).2 := by
  have hdesc : c.desc = v.desc := h.data.desc
  have hlock : c.lockBit r = false := by rw [lockBit, h.data.sr2]; exact hr
  have hsec : c.secreg = v.secreg := h.data.secreg
  rw [← hdesc] at hw hp ⊢
  obtain ⟨target, hacc⟩ := regionErase_accepted (c := c.atPin x.wp) x hwel
    (regionOf_secAddr h1 h3 (o := 0) (by decide)) hlock
  rw [Chip.answer_secErase hp hw h.ready x (secAddr_lt h3 (by decide)), hacc]
  refine ⟨hdesc, rfl, rewritten_settled ?_ (fun q a ha => ?_) _ _⟩
  · rw [atPin_secreg, hsec]
    exact (h.atPin x.wp).data
  · rw [atPin_secreg, secByte_clearRegion c r ha, if_neg (show ¬ (o ≤ a ∧ a < o + 0) by omega), secByte, hsec, secByte]

/-- SEC_PROG of the bytes after the first `n`, inside the region, WEL set (R317). -/
theorem Rewritten.answer_secProg (h : v.Rewritten r o g n c) (hwel : c.wel = true)
    (hin : o + n + data.length ≤ 256) (h0 : data ≠ []) (hdata : ∀ j < data.length, data[j]? = some (g (n + j))) :
    v.Takes r o g (n + data.length) x
      (c.answer x ⟨v.desc.op.secProg, be24 (secAddr r (o + n)) ++ data, 0⟩).2 := by
  have hdesc : c.desc = v.desc := h.rest.data.desc
  have hlock : c.lockBit r = false := by rw [lockBit, h.rest.data.sr2]; exact hr
  have ho : o + n < 256 := by have := List.length_pos_iff.2 h0; omega
  rw [← hdesc] at hw hp ⊢
  obtain ⟨target, hacc⟩ := regionProgram_accepted (c := c.atPin x.wp) x data hwel (regionOf_secAddr h1 h3 ho) hlock
  rw [Chip.answer_secProg hp hw h.rest.ready x (secAddr_lt h3 ho), hacc, secAddr_mod ho]
  refine ⟨hdesc, rfl, rewritten_settled (h.atPin x.wp).rest.data (fun q a ha => ?_) _ _⟩
  rw [secByte_programRegion _ data hin ha, (h.atPin x.wp).bytes q a ha]
  have ones : ∀ y : Byte, erasedByte &&& y = y := by decide
  by_cases hq : q = r
  · simp only [hq, true_and, if_true]
    by_cases hs : o + n ≤ a ∧ a < o + n + data.length
    · rw [if_pos hs, if_neg (by omega), if_pos (by omega), hdata _ (by omega),
        show n + (a - (o + n)) = a - o by omega, Option.getD_some, ones]
    · rw [if_neg hs]
      exact if_congr (by omega) rfl rfl
  · rw [if_neg fun hh => hq hh.1, if_neg hq, if_neg hq]

end frames

end Chip

/-! ### Inside the claim span -/

/-- Inside the one claim span of a command that started in `s`, with `n` bytes committed and none of DBUF changed. -/
structure Spanning (s : State) (n : Nat) (u : State) : Prop where
  cfg   : u.cfg = s.cfg
  dbuf  : u.dbuf = s.dbuf
  phase : ∃ w, u.phase = .running w ∧ w.done = n

theorem spanning_claimed (s : State) : Spanning s 0 s.started.claimed := ⟨rfl, rfl, _, rfl, rfl⟩

theorem Spanning.withChip (h : Spanning s n u) (c : Chip) : Spanning s n { u with chip := c } := ⟨h.cfg, h.dbuf, h.phase⟩

theorem Spanning.tallied (h : Spanning s n u) (m : Nat) : Spanning s m (u.tallied m) := by
  obtain ⟨w, hw, -⟩ := h.phase
  exact ⟨h.cfg, h.dbuf, { w with done := m }, congrArg (Phase.map _) hw, rfl⟩

theorem Spanning.committed (h : Spanning s n u) (m : Nat) : Spanning s m (u.committed m) :=
  ⟨(h.tallied m).cfg, (h.tallied m).dbuf, (h.tallied m).phase⟩

theorem Spanning.freed (h : Spanning s n u) : Spanning s n u.freed := by
  obtain ⟨w, hw, hn⟩ := h.phase
  exact ⟨h.cfg, h.dbuf, { w with held := w.held - 1 }, congrArg (Phase.map _) hw, hn⟩

/-- DBUF is sent as it was when the command started. -/
theorem Spanning.leads_memRead (h : Spanning s m u) {i c : Nat} {k : List Byte → Script}
    (hload : ∀ j < c, ∃ b, s.dbuf.lookup (i + j) = some b) (hk : Leads p u (k (s.dbufSlice i c)) Q) :
    Leads p u (memRead i c k) Q := by
  have hslice : u.dbufSlice i c = s.dbufSlice i c := by simp only [State.dbufSlice, State.dbufAt, h.dbuf]
  exact Machine.leads_memRead (h.dbuf ▸ hload) (hslice ▸ hk)

/-- A command that started in `s` has rewritten region `r` up to byte `n` of its data, `m` bytes committed. -/
structure Rewriting (s : State) (r n m : Nat) (u : State) : Prop where
  span : Spanning s m u
  chip : s.chip.Rewritten r s.addr.toNat s.dbufAt n u.chip

/-- The frame that the chip takes, and the ready poll after it. -/
theorem leads_taken {r : Nat} {op : Byte} {out : List Byte} (h : Spanning s m u) (hw : s.chip.desc.op.wf)
    (hp : s.chip.desc.departs = none) (hok : xferOk s.cfg.gen out.length 0 = true)
    (hx : ∀ x, s.chip.Takes r s.addr.toNat s.dbufAt n x (u.chip.answer x ⟨op, out, 0⟩).2)
    (hk : ∀ t, Rewriting s r n m t → Leads p t k Q) :
    Leads p u (xfer op out 0 fun _ => pollReady s.chip.desc.op s.cfg.readyPollLimit k) Q := by
  refine leads_xfer (h.cfg ▸ hok) fun x hdraw => ?_
  obtain ⟨hdesc, hbusy, hdone⟩ := hx x
  refine leads_pollReady (v := u.served x ⟨op, out, 0⟩)
    ⟨congrArg Descriptor.op hdesc, hw, (congrArg Descriptor.departs hdesc).trans hp⟩
    (hbusy.trans_lt (h.cfg ▸ hdraw.1)) fun l _ => hk _ ⟨h.withChip _, hdone.atPin l⟩

section
variable {r : Nat} (ht : s.Attached d) (h1 : 1 ≤ r) (h3 : r ≤ 3) (hr : s.chip.lockBit r = false)
include ht h1 h3 hr

/-- The erase of a region (R276). -/
theorem leads_eraseRegion (h : Spanning s m u) (hu : s.chip.AtRest u.chip)
    (hk : ∀ t, Rewriting s r 0 m t → Leads p t k Q) :
    Leads p u (eraseRegion d.op s.cfg.readyPollLimit r k) Q := by
  obtain ⟨rfl, ⟨-, -, -, hw⟩, hp, -, -⟩ := ht
  exact leads_writeEnable (speaks_atRest (w := u) hw hp hu) hu.ready fun l _ =>
    leads_taken (h.withChip _) hw hp (xferOk_small (nOut := 3) _ (by decide)) (fun x =>
      ((hu.setWel true).atPin l).answer_secErase hw hp h1 h3 hr x (Chip.wel_setWel _ _) _ _) hk

/-- One chunk of SEC_PROGRAM (R278). -/
theorem Rewriting.secProgramChunk (h : Rewriting s r n n u) {c : Nat} (h0 : 0 < c) (hsize : c ≤ s.cfg.gen.pageLimit)
    (hin : s.addr.toNat + n + c ≤ 256) (hload : ∀ j < c, ∃ b, s.dbuf.lookup (n + j) = some b)
    (hk : ∀ t, Rewriting s r (n + c) (n + c) t → Leads p t k Q) :
    Leads p u (secProgramChunk d.op s.cfg.readyPollLimit r s.addr.toNat (s.addr.toNat + n, c) k) Q := by
  obtain ⟨rfl, ⟨-, -, -, hw⟩, hp, -, -⟩ := ht
  have hdesc : u.chip.desc = s.chip.desc := h.chip.rest.data.desc
  have hspeaks : Speaks u s.chip.desc.op := ⟨congrArg Descriptor.op hdesc, hw, (congrArg Descriptor.departs hdesc).trans hp⟩
  have hlen : (s.dbufSlice n c).length = c := length_dbufSlice s n c
  rw [Machine.secProgramChunk, Nat.add_sub_cancel_left]
  refine leads_writeEnable hspeaks h.chip.rest.ready fun l _ => (h.span.withChip _).leads_memRead hload ?_
  have htakes := fun x => ((h.chip.setWel true).atPin l).answer_secProg hw hp h1 h3 hr x
    (Chip.wel_setWel _ _) (data := s.dbufSlice n c) (hlen.symm ▸ hin) (List.ne_nil_of_length_pos (h0.trans_eq hlen.symm))
    fun j hj => getElem_dbufSlice s n (hlen ▸ hj)
  rw [hlen] at htakes
  refine leads_taken (h.span.withChip _) hw hp ?_ htakes fun t hrew => leads_commit (hk _ ⟨hrew.span.committed _, hrew.chip⟩)
  rw [List.length_append, length_be24, hlen]
  exact xferOk_page _ hsize

end

/-! ### The two commands -/

/-- SEC_ERASE in a quiet environment, the region unlocked (R276). -/
theorem leads_secErase {r : BitVec 8} (hc : s.CanClaim) (hd : s.desc = some d) (ht : s.Attached d)
    (hs : d.hasSec = true) (h0 : r ≠ 0) (h3 : r.toNat ≤ 3) (hl : s.addr.toNat + s.len.toNat ≤ 256)
    (hr : s.chip.lockBit r.toNat = false) :
    Leads p s.started (scriptOf (.secErase r) (s.latched.context s)) (Returns 256 (Rewriting s r.toNat 0 256)) := by
  have hn0 := region_pos h0
  rw [scriptOf, latched_context, secEraseScript_checked (d := d) hd hs h0 h3 hl]
  refine leads_claim hc (leads_secLockedCheck_unlocked (speaks_attached ht) ht.ready hn0 hr fun l =>
    leads_eraseRegion ht (Nat.pos_of_ne_zero hn0) h3 hr ((spanning_claimed s).withChip _)
      ((Chip.AtRest.refl ht.ready).atPin l) fun t hrew => leads_release (leads_tally ?_))
  have hspan := hrew.span.freed.tallied 256
  exact leads_returns hspan.phase ⟨hspan, hrew.chip⟩

/-- SEC_PROGRAM of at least one byte in a quiet environment, the region unlocked (R278). -/
theorem leads_secProgram {r : BitVec 8} (hc : s.CanClaim) (hd : s.desc = some d) (ht : s.Attached d)
    (hs : d.hasSec = true) (h0 : r ≠ 0) (h3 : r.toNat ≤ 3) (hl : s.addr.toNat + s.len.toNat ≤ 256)
    (hn : s.len.toNat ≠ 0) (hr : s.chip.lockBit r.toNat = false) (hload : s.Loaded s.len.toNat) :
    Leads p s.started (scriptOf (.secProgram r) (s.latched.context s))
      (Returns s.len.toNat (Rewriting s r.toNat s.len.toNat s.len.toNat)) := by
  have hn0 := region_pos h0
  have h1 : 1 ≤ r.toNat := Nat.pos_of_ne_zero hn0
  have hP : 0 < min secRegionSize s.cfg.gen.pageLimit := lt_min (by decide) (pageLimit_pos _)
  rw [scriptOf, latched_context, secProgramScript_checked (d := d) hd hs h0 h3 hl hn]
  refine leads_claim hc (leads_secLockedCheck_unlocked (speaks_attached ht) ht.ready hn0 hr fun l =>
    leads_eraseRegion ht h1 h3 hr ((spanning_claimed s).withChip _) ((Chip.AtRest.refl ht.ready).atPin l)
      fun t hrew => leads_each (size := (·.2)) (I := fun n => Rewriting s r.toNat n n)
        (fun pre ch post hch u k hu hk => ?_) (fun u hu => ?_) hrew)
  · obtain ⟨-, hc0, hwin, hend⟩ := chunks_mem hP (hch ▸ List.mem_append_right pre List.mem_cons_self)
    have hlim : min secRegionSize s.cfg.gen.pageLimit ≤ s.cfg.gen.pageLimit := Nat.min_le_right _ _
    obtain ⟨j, c⟩ := ch
    obtain rfl : j = s.addr.toNat + (pre.map (·.2)).sum := chunk_begins hch
    simp only at hc0 hwin hend
    exact hu.secProgramChunk ht h1 h3 hr hc0 (by omega) (by omega) (fun j hj => hload _ (by omega)) hk
  · rw [sum_chunks _ _ hP] at hu
    exact leads_release (leads_returns hu.span.freed.phase ⟨hu.span.freed, hu.chip⟩)

/-- Settles O40: the lock check passes and the chip takes the erase. -/
theorem secEraseCompletes : Obligations.SecEraseCompletes := by
  intro s d r hq hc hd ht hs h0 h3 hl hr
  obtain ⟨t, hx, hret⟩ := (leads_secErase (p := fun _ => True) hc hd ht hs h0 h3 hl hr).exec hq
  obtain ⟨hend, v, hv, hchip, -⟩ := hret.ends (i := .secErase r) nofun nofun hq.alone hx
  obtain ⟨⟨hdata, hready⟩, hbytes⟩ := hv.chip
  refine ⟨t, hx, hend, ?_⟩
  rw [hchip]
  refine ⟨fun q a _ _ ha => ?_, hdata.array, hdata.sr1, hdata.sr2, hready⟩
  rw [hbytes q a ha, if_neg (show ¬ (s.addr.toNat ≤ a ∧ a < s.addr.toNat + 0) by omega)]
  rfl

/-- Settles O41: the region is erased, then programmed chunk by chunk; with no byte to program the script ends at once. -/
theorem secProgramCompletes : Obligations.SecProgramCompletes := by
  intro s d r hq hc hd ht hs h0 h3 hl
  refine ⟨fun hn => ?_, fun hn hr hload => ?_⟩
  · rw [exec_eq, scriptOf, secProgramScript_empty (d := d) hd hs h0 h3 hl (congrArg BitVec.toNat hn)]
    rfl
  · have hn : s.len.toNat ≠ 0 := fun h => hn (BitVec.eq_of_toNat_eq h)
    obtain ⟨t, hx, hret⟩ := (leads_secProgram (p := fun _ => True) hc hd ht hs h0 h3 hl hn hr hload).exec hq
    obtain ⟨hend, v, hv, hchip, hdbuf⟩ := hret.ends (i := .secProgram r) nofun nofun hq.alone hx
    obtain ⟨⟨hdata, hready⟩, hbytes⟩ := hv.chip
    refine ⟨t, hx, hend, hdbuf.trans hv.span.dbuf, ?_⟩
    rw [hchip]
    exact ⟨fun q a _ _ ha => hbytes q a ha, hdata.array, hdata.sr1, hdata.sr2, hready⟩

end Sys2Proof.Machine
end

section
/-! SUPPORT. SEC_LOCK in a quiet environment (R280, R318). -/

namespace Sys2Proof.Machine

variable {p : ChipDraw → Prop} {s : State} {d : Descriptor}

namespace Chip

variable {r : Nat}

/-! ### The registers after the update -/

theorem sr1_updated_withLockBit (c : Chip) (r : Nat) (q : Bool) :
    (c.updated (withLockBit r) q).sr1 = c.sr1 &&& 0xFD := by
  refine byte_ext fun i => ?_
  simp only [updated, withLockBit, sr1_setWel, writeStatus_sr1_bit, BitVec.getLsbD_and, sr1Read_bit]
  fin_cases i <;> simp

theorem sr2_updated_withLockBit (c : Chip) (q : Bool) (h1 : 1 ≤ r) (h3 : r ≤ 3) :
    (c.updated (withLockBit r) q).sr2 = c.sr2 ||| bitAt (2 + r) true := by
  refine byte_ext fun i => ?_
  simp only [updated, withLockBit, setWel_sr2, writeStatus_sr2_bit, BitVec.getLsbD_or, sr2Read_bit,
    getLsbD_bitAt _ _ i.isLt]
  interval_cases r <;> fin_cases i <;> simp

theorem lockBit_updated_withLockBit (c : Chip) (q : Bool) (h1 : 1 ≤ r) (h3 : r ≤ 3) :
    (c.updated (withLockBit r) q).lockBit r = true := by
  rw [lockBit, c.sr2_updated_withLockBit q h1 h3, BitVec.getLsbD_or, getLsbD_bitAt _ _ (by omega)]
  simp

/-- The read-back does not compare the lock bits, so it verifies for a chip that took no write (R224). -/
theorem verified_untouched_withLockBit (c : Chip) (w q q' : Bool) (h1 : 1 ≤ r) (h3 : r ≤ 3) :
    verified (c.setWel w).sr1Read ((c.setWel w).sr2Read q') (withLockBit r c.sr1Read (c.sr2Read q)).1
      (withLockBit r c.sr1Read (c.sr2Read q)).2 = true := by
  have hsr1 : (c.setWel w).sr1Read &&& vmask1 = c.sr1Read &&& vmask1 := by
    rw [sr1Read_verified, sr1Read_verified]
    exact (sameData_setWel c w).sr1
  have hmask : bitAt (2 + r) true &&& vmask2 = 0#8 := by interval_cases r <;> rfl
  have hsr2 : (c.setWel w).sr2Read q' &&& vmask2 = (c.sr2Read q ||| bitAt (2 + r) true) &&& vmask2 := by
    rw [BitVec.and_or_distrib_right, hmask, BitVec.or_zero, sr2Read_verified, sr2Read_verified, setWel_sr2]
  rw [verified, withLockBit, hsr1, hsr2, beq_self_eq_true, beq_self_eq_true, Bool.and_self]

end Chip

/-! ### The command -/

/-- SEC_LOCK past its checks (R280). -/
theorem secLockScript_checked {x : Context} {r : BitVec 8} (hd : x.desc = some d) (hs : d.hasSec = true) (h0 : r ≠ 0)
    (h3 : r.toNat ≤ 3) : secLockScript r true x = claim (updateSR d.op x.cfg.readyPollLimit (withLockBit r.toNat)
      fun _ t2 => require (t2.getLsbD (2 + r.toNat)) .statusWriteVerifyFailed (release (.done 0))) := by
  rw [secLockScript, prologue_security hd hs, require_true (region_listed h0 h3), require_true rfl]

section
variable {r : BitVec 8} (hq : s.Quiet p) (hc : s.CanClaim) (hd : s.desc = some d) (ht : s.Attached d)
  (hs : d.hasSec = true) (h0 : r ≠ 0) (h3 : r.toNat ≤ 3)
include hq hc hd ht hs h0 h3

/-- SEC_LOCK where the registers take the write. -/
theorem secLock_writable (h1 : s.chip.srp1 = false) (hw : s.chip.srp0 = false ∨ ∀ x, p x → x.wp = .high) :
    ∃ t, exec (.secLock r true) s = .next t ∧ s.Ended t .ok 0 0 ∧
      ∃ q l, t.chip = (s.chip.updated (withLockBit r.toNat) q).atPin l := by
  have hn0 := region_pos h0
  refine Leads.exec (p := p) ?_ hq
  rw [scriptOf, secLockScript_checked (d := d) hd hs h0 h3]
  refine leads_claim hc (leads_updateSR_writable (speaks_attached ht) ht.ready ht.still (fun l hl => hl.writable h1 hw)
    fun q q' l c' _ hc' => ?_)
  obtain rfl : c' = s.chip.updated (withLockBit r.toNat) q := hc'
  refine leads_require ?_ (leads_release (leads_done fun t ht => ?_))
  · rw [Chip.lockBit_read _ _ hn0, Chip.lockBit_updated_withLockBit _ _ (Nat.pos_of_ne_zero hn0) h3]
  · rw [freed_claimed] at ht
    obtain ⟨hend, hchip, -⟩ := complete_spanned 0 ht
    exact ⟨hend, q, l, hchip⟩

/-- SEC_LOCK where the registers take no write: the read-back verifies, and the lock bit read after it decides. -/
theorem secLock_frozen (hz : s.chip.srp1 = true ∨ (s.chip.srp0 = true ∧ ∀ x, p x → x.wp = .low)) :
    ∃ t, exec (.secLock r true) s = .next t ∧ s.chip.SameData t.chip ∧ t.chip.busyLeft = 0 ∧
      s.Ended t (if s.chip.lockBit r.toNat = true then .ok else .statusWriteVerifyFailed) 0 0 := by
  have hn0 := region_pos h0
  refine Leads.exec (p := p) ?_ hq
  rw [scriptOf, secLockScript_checked (d := d) hd hs h0 h3]
  refine leads_claim hc (leads_updateSR (speaks_attached ht) ht.ready ht.still fun q q' l c' n1 n2 _ hn hW => ?_)
  obtain ⟨m, m', hpin, -, ⟨hw, -⟩ | ⟨-, w, rfl⟩⟩ := hW
  · exact absurd (hw.symm.trans (hpin.frozen (c := s.chip) hz)) Bool.noConfusion
  obtain ⟨rfl, rfl⟩ := Prod.mk.inj hn
  have hv := s.chip.verified_untouched_withLockBit w q q' (Nat.pos_of_ne_zero hn0) h3
  have hdata : s.chip.SameData ((s.chip.setWel w).atPin l) := (Chip.sameData_setWel _ _).atPin l
  refine ⟨fun _ => ?_, fun hf => absurd (hf.symm.trans hv) Bool.noConfusion⟩
  have hread : ((((s.started.claimed).chip.setWel w).atPin m').sr2Read q').getLsbD (2 + r.toNat) =
      s.chip.lockBit r.toNat := Chip.lockBit_read _ _ hn0
  cases hr : s.chip.lockBit r.toNat with
  | true =>
    refine leads_require (hread.trans hr) (leads_release (leads_done fun t ht' => ?_))
    rw [freed_claimed] at ht'
    obtain ⟨hend, hchip, -⟩ := complete_spanned 0 ht'
    rw [hchip]
    exact ⟨hdata, ht.ready, hend⟩
  | false =>
    refine leads_require_not (hread.trans hr) (leads_raise fun t ht' => ?_)
    obtain ⟨hend, hchip, -⟩ := abort_in_span .statusWriteVerifyFailed ht'
    rw [hchip]
    exact ⟨hdata, ht.ready, hend⟩

end

/-- Settles O42: SEC_LOCK is a status update whose lock bit the read-back does not compare, so the script's own check of it
decides. -/
theorem secLockCompletes : Obligations.SecLockCompletes := by
  intro s d p r hq hc hd ht hs h0 h3
  refine ⟨fun h1 hw => ?_, secLock_frozen hq hc hd ht hs h0 h3⟩
  obtain ⟨t, hx, hend, q, l, hchip⟩ := secLock_writable hq hc hd ht hs h0 h3 h1 hw
  refine ⟨t, hx, hend, ?_⟩
  rw [hchip]
  exact ⟨rfl, s.chip.sr1_updated_withLockBit _ q,
    s.chip.sr2_updated_withLockBit q (Nat.pos_of_ne_zero (region_pos h0)) h3⟩

end Sys2Proof.Machine
end

section
/-! SUPPORT. SEC_ERASE and SEC_PROGRAM in any environment that leaves the chip to SEQ: they change their region only, whatever
fails (R276, R278). -/

namespace Sys2Proof.Machine

variable {s t : State} {d : Descriptor} {f : Frame}

/-! ### What a frame changes of the regions -/

namespace Chip

variable {v c c' : Chip} {r o A : Nat} {data : List Byte}

/-- A region erase changes no data, or erases the region of its tag and changes nothing else (R316). -/
theorem regionErase_cases (c : Chip) (x : ChipDraw) (hA : regionOf A = some r) :
    c.SameData (c.regionErase x A) ∨
      ({ c with secreg := c.secreg.clearRange (secAddr r 0) secRegionSize } : Chip).SameData (c.regionErase x A) := by
  rw [regionErase, hA]
  split
  · exact .inl (sameData_setWel _ _)
  · dsimp only
    split
    · exact .inl (sameData_setWel _ _)
    · exact .inr (sameData_startBusy _ _ _)

/-- A region program changes no data, or programs the region of its tag and changes nothing else (R317). -/
theorem regionProgram_cases (c : Chip) (x : ChipDraw) (data : List Byte) (hA : regionOf A = some r) :
    c.SameData (c.regionProgram x A data) ∨
      ({ c with secreg := c.programRegion r (A % secRegionSize) data } : Chip).SameData (c.regionProgram x A data) := by
  rw [regionProgram, hA]
  split
  · exact .inl (sameData_setWel _ _)
  · dsimp only
    split
    · exact .inl (sameData_setWel _ _)
    · exact .inr (sameData_startBusy _ _ _)

/-- The data of `v`, but for the bytes of region `r`. -/
structure KeepsOtherRegions (v : Chip) (r : Nat) (c : Chip) : Prop where
  data  : ({ v with secreg := c.secreg } : Chip).SameData c
  bytes : ∀ q a, q ≠ r → a < 256 → c.secByte q a = v.secByte q a

theorem KeepsOtherRegions.refl (v : Chip) (r : Nat) : v.KeepsOtherRegions r v := ⟨SameData.refl v, fun _ _ _ _ => rfl⟩

/-- A step after which the security registers are `m` and all other data as before it. -/
theorem KeepsOtherRegions.step (h : v.KeepsOtherRegions r c) {m : Memory}
    (hdata : ({ c with secreg := m } : Chip).SameData c')
    (hm : ∀ q a, q ≠ r → a < 256 → m.byte (secAddr q a) = c.secByte q a) : v.KeepsOtherRegions r c' := by
  obtain rfl : c'.secreg = m := hdata.secreg
  have hc : ({ v with secreg := c'.secreg } : Chip).SameData { c with secreg := c'.secreg } := { h.data with secreg := rfl }
  exact ⟨hc.trans hdata, fun q a hq ha => (hm q a hq ha).trans (h.bytes q a hq ha)⟩

theorem KeepsOtherRegions.sameData (h : v.KeepsOtherRegions r c) (hdata : c.SameData c') : v.KeepsOtherRegions r c' :=
  h.step hdata fun _ _ _ _ => rfl

theorem KeepsOtherRegions.atPin (h : v.KeepsOtherRegions r c) (l : Level) : v.KeepsOtherRegions r (c.atPin l) :=
  h.sameData ((SameData.refl c).atPin l)

section frames
variable (hw : v.desc.op.wf) (hp : v.desc.departs = none) (h : v.KeepsOtherRegions r c) (x : ChipDraw)
include hp h

/-- In a busy period no frame changes data (R312). -/
theorem KeepsOtherRegions.answer (hidle : c.busyLeft = 0 → v.KeepsOtherRegions r (c.answer x f).2) :
    v.KeepsOtherRegions r (c.answer x f).2 := by
  rcases Nat.eq_zero_or_pos c.busyLeft with hb | hb
  · exact hidle hb
  · rw [← h.data.desc] at hp
    rw [answer_busy hp hb, serveBusy_snd]
    exact (h.atPin x.wp).sameData (sameData_tick _)

include hw

/-- A WREN or a status read (R170 to R173). -/
theorem KeepsOtherRegions.answer_bare (hf : f.out = []) : v.KeepsOtherRegions r (c.answer x f).2 := by
  rw [← h.data.desc] at hw hp
  exact h.sameData (ReadsOnly.sameData_answer (.inl hf) hp hw x)

variable (h1 : 1 ≤ r) (h3 : r ≤ 3)
include h1 h3

/-- A SEC_ERASE frame of the region (R316). -/
theorem KeepsOtherRegions.answer_secErase :
    v.KeepsOtherRegions r (c.answer x ⟨v.desc.op.secErase, be24 (secAddr r 0), 0⟩).2 := by
  refine h.answer hp x fun hb => ?_
  rw [← h.data.desc] at hw hp ⊢
  rw [Chip.answer_secErase hp hw hb x (secAddr_lt h3 (by decide))]
  rcases regionErase_cases (c.atPin x.wp) x (regionOf_secAddr h1 h3 (o := 0) (by decide)) with hs | hs
  · exact (h.atPin x.wp).sameData hs
  · exact (h.atPin x.wp).step hs fun q a hq ha => (secByte_clearRegion c r ha).trans (if_neg hq)

/-- A SEC_PROG frame of the region (R317). -/
theorem KeepsOtherRegions.answer_secProg (ho : o < 256) (data : List Byte) :
    v.KeepsOtherRegions r (c.answer x ⟨v.desc.op.secProg, be24 (secAddr r o) ++ data, 0⟩).2 := by
  refine h.answer hp x fun hb => ?_
  rw [← h.data.desc] at hw hp ⊢
  rw [Chip.answer_secProg hp hw hb x (secAddr_lt h3 ho)]
  rcases regionProgram_cases (c.atPin x.wp) x data (regionOf_secAddr h1 h3 ho) with hs | hs
  · exact (h.atPin x.wp).sameData hs
  · exact (h.atPin x.wp).step hs fun q a hq ha => secByte_programRegion_other c _ data ha hq

end frames

end Chip

/-! ### SEC_ERASE and SEC_PROGRAM -/

section
variable {i : Instr} {r : BitVec 8}

theorem isWrapping_out {o : OpSet} (h : IsWrapping o f) : f.out = [] := by rcases h with rfl | rfl <;> rfl

/-- The frames of the two commands: bare ones, and writes of the region (R276, R278). -/
theorem secWrite_frames (hi : i = .secErase r ∨ i = .secProgram r) (hd : s.desc = some d) (hf : MayIssue s i f)
    (hl : s.addr.toNat + s.len.toNat ≤ 256) :
    f.out = [] ∨ f = ⟨d.op.secErase, be24 (secAddr r.toNat 0), 0⟩ ∨
      ∃ o data, o < 256 ∧ f = ⟨d.op.secProg, be24 (secAddr r.toNat o) ++ data, 0⟩ := by
  rcases hi with rfl | rfl
  · rcases scriptFrame_bound (i := .secErase r) hd hf with hf | rfl | rfl
    · exact .inl (isWrapping_out hf)
    · exact .inl rfl
    · exact .inr (.inl rfl)
  · rcases scriptFrame_bound (i := .secProgram r) hd hf with hf | rfl | rfl | ⟨ch, hch, rfl⟩
    · exact .inl (isWrapping_out hf)
    · exact .inl rfl
    · exact .inr (.inl rfl)
    · obtain ⟨-, h0, -, hend⟩ := chunks_mem (lt_min (by decide) (pageLimit_pos _)) hch
      exact .inr (.inr ⟨ch.1, _, by omega, rfl⟩)

/-- Of a region that does not exist, or a range that leaves it, the two commands are rejected: by the prologue where the part
has no security registers, else by the region check (R175, R271). -/
theorem secWrite_rejected (hi : i = .secErase r ∨ i = .secProgram r) (hd : s.desc = some d)
    (hout : r = 0 ∨ 3 < r.toNat ∨ 256 < s.addr.toNat + s.len.toNat) : ∃ e, exec i s = .next (s.rejected e) := by
  cases hs : d.hasSec with
  | true => exact ⟨_, ((selectorsAreChecked s d hd).2 hs r).1 hout i (by rcases hi with rfl | rfl <;> simp)⟩
  | false =>
    have hn : needOf i = some .security := by rcases hi with rfl | rfl <;> rfl
    exact ⟨_, exec_rejected (script_unsupported hn hd hs)⟩

/-- Whatever fails, the two commands change no data but the bytes of their region. -/
theorem secWrite_keepsOtherRegions (hs : s.Unshared) (hd : s.desc = some d) (hc : s.chip.desc = d) (hw : d.op.wf)
    (hp : d.departs = none) (hi : i = .secErase r ∨ i = .secProgram r) (h : exec i s = .next t) :
    s.chip.KeepsOtherRegions r.toNat t.chip := by
  have hrefl := Chip.KeepsOtherRegions.refl s.chip r.toNat
  by_cases hout : r = 0 ∨ 3 < r.toNat ∨ 256 < s.addr.toNat + s.len.toNat
  · obtain ⟨e, he⟩ := secWrite_rejected hi hd hout
    rw [chip_of_rejected h he]
    exact hrefl
  · push Not at hout
    obtain ⟨h0, h3, hl⟩ := hout
    have h1 : 1 ≤ r.toNat := Nat.pos_of_ne_zero (region_pos h0)
    subst hc
    refine exec_keeps_chip (.inr (by rcases hi with rfl | rfl <;> rfl)) (fun f c x hf hc => ?_) hs hrefl h
    rcases secWrite_frames hi hd hf hl with hf | rfl | ⟨o, data, ho, rfl⟩
    · exact hc.answer_bare hw hp x hf
    · exact hc.answer_secErase hw hp x h1 h3
    · exact hc.answer_secProg hw hp x h1 h3 ho data

end

/-- Settles O54: whatever fails, each frame of these commands keeps all but the bytes of its region. -/
theorem securityWritesKeepTheRest : Obligations.SecurityWritesKeepTheRest := by
  intro i r s t d hs hd hc hw hp hi h
  have hkeeps := secWrite_keepsOtherRegions hs hd hc hw hp hi h
  exact ⟨hkeeps.data.array, hkeeps.data.sr1, hkeeps.data.sr2, fun q o _ _ hq ho => hkeeps.bytes q o hq ho⟩

end Sys2Proof.Machine
end

section
/-! SUPPORT. A board power cycle: SEQ at its reset values (R380, R381), and what the chip keeps (R321). -/

namespace Sys2Proof.Machine

/-- A move of the outside world that is yet to come has not touched the chip. -/
theorem NextMove.chip {s u : State} {m : Move} (h : s.NextMove m u) : u.chip = s.chip := by cases h <;> rfl

theorem atReset_seqReset (s : State) : (seqReset s).AtReset :=
  ⟨rfl, rfl, rfl, rfl, rfl, rfl, rfl, rfl, rfl, rfl, rfl, fun _ => rfl, rfl, rfl, rfl, rfl⟩

namespace Chip

/-! ### Bytes in flight -/

/-- A byte that the operation in progress does not target keeps its value (R321; log entry 23). -/
theorem byte_scramble {sp : Space} (hsp : sp.fill = some erasedByte) {noise : List Byte} {m : Memory}
    {base size off count a : Nat}
    (h : (decide (base ≤ a ∧ a < base + size) && inWindow size off count (a - base)) = false) :
    (scramble sp noise m base size off count).byte a = m.byte a := by
  rw [scramble, Memory.byte_writeList sp hsp, List.length_map, List.length_range]
  by_cases ha : base ≤ a ∧ a < base + size
  · have hw : inWindow size off count (a - base) = false := by simpa [ha] using h
    rw [if_pos ha, List.getElem?_map, List.getElem?_range (by omega)]
    simp [hw, Nat.add_sub_cancel' ha.1]
  · rw [if_neg ha]

theorem byte_arrayAfterPowerCycle {c : Chip} {a : Nat} (h : c.inFlight.hitsArray a = false) (noise : List Byte) :
    (c.arrayAfterPowerCycle noise).byte a = c.array.byte a := by
  rw [arrayAfterPowerCycle]
  split
  · rename_i hf
    rw [hf] at h
    exact byte_scramble rfl h
  · rfl
  · rfl

theorem byte_secregAfterPowerCycle {c : Chip} {a : Nat} (h : c.inFlight.hitsSecreg a = false) (noise : List Byte) :
    (c.secregAfterPowerCycle noise).byte a = c.secreg.byte a := by
  rw [secregAfterPowerCycle]
  split
  · rename_i hf
    rw [hf] at h
    exact byte_scramble rfl h
  · rfl
  · rfl

/-! ### The status bits -/

/-- SR1 after a power cycle: BUSY and WEL are clear (R321). -/
theorem sr1_restarted_bit (c : Chip) (noise : List Byte) {i : Nat} (hi : i < 8) :
    (c.restarted noise).sr1.getLsbD i = (decide (2 ≤ i) && c.sr1.getLsbD i) := by
  simp only [restarted, BitVec.getLsbD_and]
  interval_cases i <;> simp

/-- SR2 after a power cycle: SUS is clear, and SRP1 unless SRP0 is set too (R321). -/
theorem sr2_restarted_bit (c : Chip) (noise : List Byte) {i : Nat} (hi : i < 8) :
    (c.restarted noise).sr2.getLsbD i = (c.sr2.getLsbD i && decide (i ≠ 7) && (decide (i ≠ 0) || c.srp0)) := by
  rw [restarted]
  by_cases hlock : (c.srp1 && !c.srp0) = true
  · obtain ⟨-, h0⟩ : c.srp1 = true ∧ c.srp0 = false := by simpa using hlock
    rw [if_pos hlock, h0]
    interval_cases i <;> simp
  · have h0 : c.sr2.getLsbD 0 = true → c.srp0 = true := by simpa [srp1] using hlock
    rw [if_neg hlock]
    rcases Nat.eq_zero_or_pos i with rfl | hpos
    · simpa using h0
    · interval_cases i <;> simp

theorem sr1_restarted (c : Chip) (noise : List Byte) : (c.restarted noise).sr1 &&& 0xFC = c.sr1 &&& 0xFC :=
  byte_ext fun i => by
    simp only [BitVec.getLsbD_and, sr1_restarted_bit c noise i.isLt]
    fin_cases i <;> simp

theorem sr2_restarted (c : Chip) (noise : List Byte) : (c.restarted noise).sr2 &&& 0x7E = c.sr2 &&& 0x7E :=
  byte_ext fun i => by
    simp only [BitVec.getLsbD_and, sr2_restarted_bit c noise i.isLt]
    fin_cases i <;> simp

theorem wel_restarted (c : Chip) (noise : List Byte) : (c.restarted noise).wel = false := by
  rw [wel, sr1_restarted_bit c noise (by decide)]
  rfl

theorem srp1_restarted (c : Chip) (noise : List Byte) : (c.restarted noise).srp1 = (c.srp1 && c.srp0) := by
  rw [srp1, sr2_restarted_bit c noise (by decide), srp1]
  simp

theorem sus_restarted (c : Chip) (noise : List Byte) : (c.restarted noise).sr2.getLsbD 7 = false := by
  rw [sr2_restarted_bit c noise (by decide)]
  simp

/-- The part stays the part it is, whatever its differences (R332). -/
theorem part_powerCycle (c : Chip) (noise : List Byte) :
    (c.powerCycle noise).desc = c.desc ∧ (c.powerCycle noise).mfr = c.mfr := by
  rw [powerCycle]
  split
  · exact ⟨rfl, rfl⟩
  · exact ⟨rfl, rfl⟩

end Chip

/-- Settles O12: the move lands as `powerCycle`, whose chip, of a plain part, is the restarted one. -/
theorem powerCycleKeepsTheRest : Obligations.PowerCycleKeepsTheRest := by
  intro s u hm
  have hchip : (powerCycle u).chip = s.chip.powerCycle u.env.drawChip.1.noise := by rw [← NextMove.chip hm]; rfl
  obtain ⟨hdesc, hmfr⟩ := s.chip.part_powerCycle u.env.drawChip.1.noise
  refine ⟨powerCycle u, step_moves hm rfl rfl, atReset_seqReset _, hchip ▸ hdesc, hchip ▸ hmfr, fun hp => ?_⟩
  rw [hchip, Chip.powerCycle_plain hp]
  exact ⟨rfl, rfl, Chip.sr1_restarted _ _, Chip.wel_restarted _ _, Chip.sr2_restarted _ _, Chip.sus_restarted _ _,
    Chip.srp1_restarted _ _, fun a ha => Chip.byte_arrayAfterPowerCycle ha _,
    fun a ha => Chip.byte_secregAfterPowerCycle ha _⟩

end Sys2Proof.Machine
end

section
/-! SUPPORT. The chip's answers that read: the frames of a busy period (R312), and the reads of an idle chip (R302 to R304,
R317). -/

namespace Sys2Proof.Machine

namespace Chip

variable {c : Chip} {d : ChipDraw} {f : Frame}

/-! ### A busy period -/

/-- WEL falls when the last frame of a busy period is answered (R312). -/
theorem wel_tick (c : Chip) : c.tick.wel = if c.busyLeft = 1 then false else c.wel := by
  rw [tick]
  split
  · exact wel_setWel _ _
  · rfl

/-- The first response byte is the first one the rule gives (R300). -/
theorem padResponse_head {n : Nat} (hn : 0 < n) (x : Byte) (given noise : List Byte) :
    (padResponse n (x :: given) noise)[0]? = some x := by
  simp [padResponse, hn]

/-- A status read is served in a busy period (R304, R312). -/
theorem serveBusy_rdsr1 (h : roleOf c.desc.op f.op = some .rdsr1) : (c.serveBusy d f).1 = [c.sr1Read] := by
  rw [serveBusy, h]

theorem busy_sr1Read (h : 0 < c.busyLeft) : c.sr1Read.getLsbD 0 = true := by
  rw [sr1Read_bit, if_pos rfl, decide_eq_true h]

/-! ### Reads -/

/-- An array read wraps at the end of the array (R303). -/
theorem getElem_readArray_wrap (c : Chip) (a : Nat) {i n : Nat} (hi : i < n) :
    (c.readArray (a % c.desc.totalSize) n)[i]? = some (c.arrayByte ((a + i) % c.desc.totalSize)) := by
  rw [readArray, List.getElem?_map, List.getElem?_range hi, Option.map_some, Nat.mod_add_mod]

/-- A security read wraps at the end of its region (R317). -/
theorem getElem_readRegion_wrap (c : Chip) (r o : Nat) {i n : Nat} (hi : i < n) :
    (c.readRegion r o n)[i]? = some (c.secByte r ((o + i) % 256)) := by
  rw [readRegion, List.getElem?_map, List.getElem?_range hi]
  rfl

theorem sr1Read_idle (h : c.busyLeft = 0) : c.sr1Read = c.sr1 &&& 0xFE := by
  rw [sr1Read, h]
  exact BitVec.or_zero

end Chip

/-- Settles O44: each frame of a busy period is a tick, whatever is served with it. -/
theorem chipBusyPeriod : Obligations.ChipBusyPeriod := by
  intro c d f hp hb
  have hdata := ((Chip.SameData.refl c).atPin d.wp).trans (Chip.sameData_tick _)
  rw [Chip.answer_busy hp hb, Chip.serveBusy_snd]
  refine ⟨hdata, Chip.busyLeft_tick _, Chip.wel_tick _, fun hw hop hn => ?_⟩
  have hrole : roleOf c.desc.op f.op = some .rdsr1 := hop ▸ roleOf_rdsr1 hw
  rw [Chip.serveBusy_rdsr1 (c := c.atPin d.wp) hrole, Chip.padResponse_head hn, Chip.sr1Read_atPin, Option.map_some,
    Chip.busy_sr1Read hb]

/-- Settles O43: the answers to the six kinds of frames, byte by byte. -/
theorem chipServesReads : Obligations.ChipServesReads := by
  intro c d a r o n x hp hb hw ha
  refine ⟨Chip.answer_rdid hp hb d, fun f hf => ?_, ?_, Chip.answer_rdsr2 hp hw hb d, fun h1 h3 ho => ?_⟩
  · have hans : c.answer d f = (c.readArray (a % c.desc.totalSize) n, c.atPin d.wp) := by
      rcases List.mem_pair.1 hf with rfl | rfl
      · exact Chip.answer_read hp hw hb d ha n
      · exact Chip.answer_fastRead hp hw hb d ha x n
    rw [hans]
    exact ⟨rfl, Chip.length_readArray _ _ _, fun i hi => c.getElem_readArray_wrap a hi⟩
  · rw [Chip.answer_rdsr1 hp hw hb, Chip.sr1Read_idle hb]
    rfl
  · rw [Chip.answer_secRead hp hw hb d h1 h3 ho]
    exact ⟨rfl, fun i hi => c.getElem_readRegion_wrap r o hi⟩

end Sys2Proof.Machine
end

section
/-! SUPPORT. What the chip accepts, frame by frame: a page program whose data wraps in its page (R314), a sector erase at any
address of the sector (R315), and a status write (R318). -/

namespace Sys2Proof.Machine

namespace Chip

variable {c : Chip} {page off k a x i : Nat} {data : List Byte} {b : Byte}

theorem wel_startBusy (c : Chip) (n : Nat) (target : InFlight) : (c.startBusy n target).wel = decide (0 < n) :=
  wel_setWel _ _

/-! ### The page buffer, with wrap -/

/-- A cell of the page that no data byte goes to stays 0xFF. -/
theorem getElem_pageBuffer_free (hk : k < page) (h : ∀ i < data.length, (off + i) % page ≠ k) :
    (pageBuffer page off data)[k]? = some erasedByte := by
  rw [pageBuffer, getElem_loadBuffer_other _ page off 0 data _ k h]
  simp [hk]

/-- A later data byte overwrites: a cell holds the last byte that goes to it. -/
theorem getElem_pageBuffer_last (hpage : 0 < page) (hb : data[i]? = some b)
    (h : ∀ j, i < j → j < data.length → (off + j) % page ≠ (off + i) % page) :
    (pageBuffer page off data)[(off + i) % page]? = some b := by
  obtain ⟨_, hcell, -⟩ := getElem_loadBuffer_last (fun _ new => new) page off 0 data (List.replicate page erasedByte) i b
    (by simp) hpage hb h
  exact hcell

/-- A byte that no data byte goes to keeps its value (R314). -/
theorem byte_programPage_free (c : Chip) (hpage : 0 < c.desc.pageSize)
    (h : x / c.desc.pageSize ≠ a / c.desc.pageSize ∨
      ∀ i < data.length, (a + i) % c.desc.pageSize ≠ x % c.desc.pageSize) :
    (c.programPage a data).byte x = c.arrayByte x := by
  by_cases hx : x / c.desc.pageSize = a / c.desc.pageSize
  · have hfree := h.resolve_left (not_not_intro hx)
    rw [byte_programPage_wrap c data hx, getElem_pageBuffer_free (Nat.mod_lt _ hpage)
      fun i hi => by rw [Nat.mod_add_mod]; exact hfree i hi]
    exact and_erasedByte _
  · exact byte_programPage_other c hpage data hx

/-- A byte of the page keeps only the bits of the last data byte that goes to it (R314). -/
theorem byte_programPage_last (c : Chip) (hpage : 0 < c.desc.pageSize)
    (hx : x / c.desc.pageSize = a / c.desc.pageSize) (hb : data[i]? = some b)
    (hi : (a + i) % c.desc.pageSize = x % c.desc.pageSize)
    (h : ∀ j, i < j → j < data.length → (a + j) % c.desc.pageSize ≠ x % c.desc.pageSize) :
    (c.programPage a data).byte x = c.arrayByte x &&& b := by
  have hoff : ∀ j, (a % c.desc.pageSize + j) % c.desc.pageSize = (a + j) % c.desc.pageSize := Nat.mod_add_mod _ _
  have hcell := getElem_pageBuffer_last (off := a % c.desc.pageSize) hpage hb
    fun j hj hl => by rw [hoff, hoff, hi]; exact h j hj hl
  rw [hoff, hi] at hcell
  rw [byte_programPage_wrap c data hx, hcell, Option.getD_some]

/-! ### The sector of an address -/

theorem mod_block (a n : Nat) : (a - a % n) % n = 0 :=
  Nat.mod_eq_zero_of_dvd (Nat.dvd_sub_mod a)

/-- The addresses of the block that holds an address (R315). -/
theorem div_eq_iff_block {n : Nat} (hn : 0 < n) : x / n = a / n ↔ a - a % n ≤ x ∧ x < a - a % n + n := by
  have ha : a - a % n = n * (a / n) := by have := Nat.div_add_mod a n; omega
  rw [ha, Nat.div_eq_iff hn, Nat.mul_comm n]
  omega

/-- An erase at any address of a sector is the erase at its first one (R315). -/
theorem sectorErase_block (c : Chip) (d : ChipDraw) (a : Nat) :
    c.sectorErase d a = c.sectorErase d (a - a % c.desc.sectorSize) := by
  simp only [sectorErase, mod_block, Nat.sub_zero]

/-! ### The status registers -/

/-- A status write that WEL and the lock mode allow (R318). -/
theorem statusWrite_accepted (x : ChipDraw) (a b : Byte) (hwel : c.wel = true) (hsr : c.srWritable x.wp = true) :
    c.statusWrite x a b = (c.writeStatus a b).startBusy x.busy .none := by
  rw [statusWrite, if_neg (by rw [hwel]; nofun), if_neg (by rw [hsr]; nofun)]

theorem srWritable_of {l : Level} (h1 : c.srp1 = false) (h0 : c.srp0 = false ∨ l = .high) : c.srWritable l = true := by
  rcases h0 with h0 | rfl
  · simp [srWritable, h1, h0]
  · simp [srWritable, h1]

theorem sr1_writeStatus (c : Chip) (a b : Byte) : (c.writeStatus a b).sr1 &&& 0xFC = a &&& 0xFC :=
  byte_ext fun i => by
    simp only [BitVec.getLsbD_and, writeStatus_sr1_bit]
    fin_cases i <;> simp

end Chip

/-- Settles O45: the page buffer holds the last data byte of each cell, and is ANDed into the page. -/
theorem chipProgramsAPage : Obligations.ChipProgramsAPage := by
  intro c d a data hp hb hw hwel hdata hpage ha hS hprot
  obtain ⟨target, hacc⟩ := Chip.pageProgram_accepted (c := c.atPin d.wp) d hdata hwel hprot
  rw [Chip.answer_pp hp hw hb d (Nat.lt_of_lt_of_le ha hS), Nat.mod_eq_of_lt ha, hacc]
  exact ⟨rfl, Chip.wel_startBusy _ _ _, rfl, rfl, (Chip.sameData_startBusy _ _ _).sr1,
    fun x hx => c.byte_programPage_free hpage hx, fun x i b hx hi hk hlast => c.byte_programPage_last hpage hx hi hk hlast⟩

/-- Settles O46: no byte of the sector is protected, so the whole of it is erased. -/
theorem chipErasesASector : Obligations.ChipErasesASector := by
  intro c d a hp hb hw hwel hsec ha hS hprot
  have hin := Chip.block_inside (Chip.sectorSize_dvd c.desc) ha
  have htouch := Chip.touches_of_contains hsec hin fun x hlo hhi => hprot x ((Chip.div_eq_iff_block hsec).2 ⟨hlo, hhi⟩)
  rw [Chip.answer_se hp hw hb d (Nat.lt_of_lt_of_le ha hS), Nat.mod_eq_of_lt ha, Chip.sectorErase_block,
    Chip.sectorErase_accepted (c := c.atPin d.wp) d hwel (Chip.mod_block _ _) htouch]
  refine ⟨rfl, rfl, rfl, (Chip.sameData_startBusy _ _ _).sr1, fun x => (Chip.byte_sector c _ x).trans ?_⟩
  exact if_congr (Chip.div_eq_iff_block hsec).symm rfl rfl

/-- Settles O47: the write is accepted, and the busy period it starts changes no bit but WEL. -/
theorem chipWritesStatus : Obligations.ChipWritesStatus := by
  intro c d a b hp hb hw hwel h1 h0
  have hsr : c.srWritable d.wp = true := Chip.srWritable_of h1 h0
  rw [Chip.answer_wrsr hp hw hb, Chip.statusWrite_accepted (c := c.atPin d.wp) d a b hwel hsr]
  have hsr1 := (Chip.sameData_startBusy ((c.atPin d.wp).writeStatus a b) d.busy .none).sr1
  exact ⟨hsr1.trans (Chip.sr1_writeStatus _ a b), Chip.wel_startBusy _ _ _, rfl, rfl, rfl, rfl⟩

end Sys2Proof.Machine
end

section
/-! SUPPORT. What the chip ignores, cause by cause (R305, R314 to R318, R325, R330, R331): only WEL changes. -/

namespace Sys2Proof.Machine

/-- The outgoing bytes without which a frame is malformed (R303, R314 to R318, R331). -/
def Role.outLen : Role → Nat
  | .rdid | .rdsr1 | .rdsr2 | .wren => 0
  | .wrsr => 2
  | .read | .pp | .se | .secErase | .secProg => 3
  | .fastRead | .secRead => 4

/-- The frames that need WEL (R305). -/
def Role.needsWel : Role → Bool
  | .wrsr | .pp | .se | .secErase | .secProg => true
  | .rdid | .read | .fastRead | .rdsr1 | .rdsr2 | .wren | .secRead => false

/-- An opcode of no row of R301's table (R330). -/
theorem roleOf_unknown {o : OpSet} {b : Byte} (h : b ∉ o.bytes) : roleOf o b = none := by
  simp only [OpSet.bytes, List.mem_cons, List.not_mem_nil, or_false, not_or] at h
  simp [roleOf, h]

namespace Chip

variable {c : Chip} {d : ChipDraw} {f : Frame} {x : Role} {a A : Nat} {data : List Byte}

/-! ### Without WEL -/

theorem pageProgram_noWel (h : c.wel = false) (a : Nat) (data : List Byte) : c.pageProgram d a data = c.ignored d := by
  rw [pageProgram, if_pos h, ite_self]

theorem sectorErase_noWel (h : c.wel = false) (a : Nat) : c.sectorErase d a = c.ignored d := if_pos h

theorem regionErase_noWel (h : c.wel = false) (A : Nat) : c.regionErase d A = c.ignored d := if_pos h

theorem regionProgram_noWel (h : c.wel = false) (A : Nat) (data : List Byte) : c.regionProgram d A data = c.ignored d :=
  if_pos h

theorem statusWrite_noWel (h : c.wel = false) (a b : Byte) : c.statusWrite d a b = c.ignored d := if_pos h

/-- Without WEL (R305). -/
theorem serve_noWel (hx : roleOf c.desc.op f.op = some x) (hn : x.needsWel = true) (h : c.wel = false) :
    (c.serve d f).2 = c.ignored d := by
  have hread : ∀ y, y.needsWel = false → roleOf c.desc.op f.op ≠ some y := fun y hy e => by
    cases hx.symm.trans e
    cases hy.symm.trans hn
  clear hx
  rw [serve]
  split
  case h_7 => exact statusWrite_noWel h _ _
  case h_8 => exact pageProgram_noWel h _ _
  case h_9 => exact sectorErase_noWel h _
  case h_10 => exact regionErase_noWel h _
  case h_11 => exact regionProgram_noWel h _ _
  case h_13 => rfl
  all_goals exact absurd ‹roleOf c.desc.op f.op = some _› (hread _ rfl)

/-! ### Frames of no rule -/

/-- An opcode of no rule (R330). -/
theorem serve_unknown (h : roleOf c.desc.op f.op = none) : (c.serve d f).2 = c.ignored d := by
  rw [serve, h]

/-- A frame too short for its opcode (R331). -/
theorem serve_short (hx : roleOf c.desc.op f.op = some x) (h : f.out.length < x.outLen) :
    (c.serve d f).2 = c.ignored d := by
  have hlen : ∀ {y}, roleOf c.desc.op f.op = some y → f.out.length < y.outLen := fun e => by
    cases hx.symm.trans e
    exact h
  rw [serve]
  split
  case h_13 => rfl
  case h_1 hr | h_4 hr | h_5 hr | h_6 hr => exact absurd (hlen hr) (Nat.not_lt_zero _)
  all_goals
    rename_i hr hout
    have hlt := hlen hr
    simp only [hout, List.length_cons, Role.outLen] at hlt
    omega

/-! ### What is protected, frozen or locked -/

theorem pageProgram_noData (a : Nat) : c.pageProgram d a [] = c.ignored d := if_pos rfl

/-- PP with no data (R314). -/
theorem serve_pp_short (hx : roleOf c.desc.op f.op = some .pp) (h : f.out.length ≤ 3) : (c.serve d f).2 = c.ignored d := by
  by_cases h3 : f.out.length = 3
  · obtain ⟨b0, b1, b2, hout⟩ := List.length_eq_three.1 h3
    rw [serve, hx, hout]
    exact pageProgram_noData (c.arrayAddr b0 b1 b2)
  · exact serve_short hx (Nat.lt_of_le_of_ne h h3)

/-- PP at a protected address (R314). -/
theorem serve_pp_protected (hx : roleOf c.desc.op f.op = some .pp) (hout : f.out = be24 a ++ data)
    (hS : c.desc.totalSize ≤ 2 ^ 24) (ha : a < c.desc.totalSize)
    (h : protContains c.desc.totalSize c.tuple d.touches a = true) : (c.serve d f).2 = c.ignored d := by
  rw [serve, hx, hout]
  simp only [be24, List.cons_append, List.nil_append, arrayAddr, fromBe24_be24 (Nat.lt_of_lt_of_le ha hS),
    Nat.mod_eq_of_lt ha]
  exact pageProgram_protected d data h

/-- SE of a sector that holds a protected byte (R315). -/
theorem serve_se_protected {y : Nat} (hx : roleOf c.desc.op f.op = some .se) (hout : f.out = be24 a)
    (hS : c.desc.totalSize ≤ 2 ^ 24) (ha : a < c.desc.totalSize) (hy : y / c.desc.sectorSize = a / c.desc.sectorSize)
    (h : protContains c.desc.totalSize c.tuple d.touches y = true) : (c.serve d f).2 = c.ignored d := by
  have hsec : 0 < c.desc.sectorSize := Nat.pos_of_dvd_of_pos (sectorSize_dvd c.desc) (by omega)
  obtain ⟨hlo, hhi⟩ := (div_eq_iff_block hsec).1 hy
  rw [serve, hx, hout]
  simp only [be24, arrayAddr, fromBe24_be24 (Nat.lt_of_lt_of_le ha hS), Nat.mod_eq_of_lt ha]
  rw [sectorErase_block]
  refine sectorErase_protected d (mod_block _ _) (j := y - (a - a % c.desc.sectorSize)) (by omega) ?_
  rwa [Nat.add_sub_cancel' hlo]

theorem statusWrite_frozen (h : c.srWritable d.wp = false) (a b : Byte) : c.statusWrite d a b = c.ignored d := by
  rw [statusWrite, if_pos h, ite_self]

/-- WRSR to frozen registers (R318). -/
theorem serve_wrsr_frozen (hx : roleOf c.desc.op f.op = some .wrsr) (h : c.srWritable d.wp = false) :
    (c.serve d f).2 = c.ignored d := by
  rcases hout : f.out with _ | ⟨a, _ | ⟨b, rest⟩⟩
  · exact serve_short hx (by rw [hout]; decide)
  · exact serve_short hx (by rw [hout]; exact Nat.lt_succ_self 1)
  · rw [serve, hx, hout]
    exact statusWrite_frozen h a b

/-- An address whose tag is invalid or names a locked region (R316, R317). -/
def Barred (c : Chip) (A : Nat) : Prop := ∀ r, regionOf A = some r → c.lockBit r = true

theorem Barred.regionErase (h : c.Barred A) : c.regionErase d A = c.ignored d := by
  rw [Chip.regionErase]
  split
  · rfl
  · split
    · rfl
    · exact if_pos (h _ ‹_›)

theorem Barred.regionProgram (h : c.Barred A) (data : List Byte) : c.regionProgram d A data = c.ignored d := by
  rw [Chip.regionProgram]
  split
  · rfl
  · split
    · rfl
    · exact if_pos (h _ ‹_›)

/-- SEC_ERASE and SEC_PROG of a locked region or an invalid tag (R316, R317). -/
theorem Barred.serve (h : c.Barred A) (hA : A < 2 ^ 24) (hout : f.out = be24 A ++ data)
    (hx : roleOf c.desc.op f.op = some .secErase ∨ roleOf c.desc.op f.op = some .secProg) :
    (c.serve d f).2 = c.ignored d := by
  rcases hx with hx | hx
  · rw [Chip.serve, hx, hout]
    simp only [be24, List.cons_append, List.nil_append, fromBe24_be24 hA]
    exact h.regionErase
  · rw [Chip.serve, hx, hout]
    simp only [be24, List.cons_append, List.nil_append, fromBe24_be24 hA]
    exact h.regionProgram data

theorem barred_of_locked (h : ∀ r, 1 ≤ r → r ≤ 3 → (∃ o, o < 256 ∧ A = secAddr r o) → c.lockBit r = true) :
    c.Barred A := fun r hr => by
  obtain ⟨h1, h3, ho, hA⟩ := regionOf_some hr
  exact h r h1 h3 ⟨_, ho, hA⟩

end Chip

/-- Settles O48: for each cause the frame is served as ignored, which leaves all but WEL. -/
theorem chipIgnores : Obligations.ChipIgnores := by
  intro c d f hp hb hw hS h
  suffices hs : ((c.atPin d.wp).serve d f).2 = (c.atPin d.wp).ignored d by
    rw [Chip.answer_idle hp hb, hs]
    exact ⟨((Chip.SameData.refl c).atPin d.wp).trans (Chip.sameData_setWel _ _), hb, Chip.wel_setWel _ _⟩
  rcases h with h | ⟨hwel, h⟩ | ⟨a, data, hop, hout, ha, h⟩ | ⟨a, x, hop, hout, ha, hx, h⟩ | ⟨hop, h⟩ |
    ⟨A, data, hop, hout, hA, h⟩ | ⟨hop, h⟩ | ⟨hop, h⟩ | ⟨hop, h⟩ | ⟨hop, h⟩
  · exact Chip.serve_unknown (roleOf_unknown h)
  · simp only [List.mem_cons, List.not_mem_nil, or_false] at h
    rcases h with hop | hop | hop | hop | hop
    · exact Chip.serve_noWel (hop ▸ roleOf_pp hw) rfl hwel
    · exact Chip.serve_noWel (hop ▸ roleOf_se hw) rfl hwel
    · exact Chip.serve_noWel (hop ▸ roleOf_wrsr hw) rfl hwel
    · exact Chip.serve_noWel (hop ▸ roleOf_secErase hw) rfl hwel
    · exact Chip.serve_noWel (hop ▸ roleOf_secProg hw) rfl hwel
  · exact Chip.serve_pp_protected (hop ▸ roleOf_pp hw) hout hS ha h
  · exact Chip.serve_se_protected (hop ▸ roleOf_se hw) hout hS ha hx h
  · exact Chip.serve_wrsr_frozen (hop ▸ roleOf_wrsr hw) h
  · refine Chip.Barred.serve (Chip.barred_of_locked h) hA hout ?_
    rcases hop with hop | hop
    · exact .inl (hop ▸ roleOf_secErase hw)
    · exact .inr (hop ▸ roleOf_secProg hw)
  · exact Chip.serve_short (x := .wrsr) (hop ▸ roleOf_wrsr hw) h
  · exact Chip.serve_pp_short (hop ▸ roleOf_pp hw) h
  · simp only [List.mem_cons, List.not_mem_nil, or_false] at hop
    rcases hop with hop | hop | hop | hop
    · exact Chip.serve_short (x := .read) (hop ▸ roleOf_read hw) h
    · exact Chip.serve_short (x := .se) (hop ▸ roleOf_se hw) h
    · exact Chip.serve_short (x := .secErase) (hop ▸ roleOf_secErase hw) h
    · exact Chip.serve_short (x := .secProg) (hop ▸ roleOf_secProg hw) h
  · rcases List.mem_pair.1 hop with hop | hop
    · exact Chip.serve_short (x := .fastRead) (hop ▸ roleOf_fastRead hw) h
    · exact Chip.serve_short (x := .secRead) (hop ▸ roleOf_secRead hw) h

end Sys2Proof.Machine
end

section
/-! SUPPORT. HOST accesses of the registers, between commands and inside one: the register an offset names, what a read
of it returns, and the writes that BUSY = 1 forbids (R20, R21, R392). -/

namespace Sys2Proof.Machine

variable {s t u : State} {m : Move} {off : Nat}

theorem NextMove.phase (h : s.NextMove m u) : u.phase = s.phase := by cases h <;> rfl

/-! ### The register an offset names -/

/-- The offset `off` of the block, as what `cell32` says (R20). -/
theorem cell32_offset (c : Config) (h4 : off % 4 = 0) :
    cell32 c (c.seqBase + off) =
      if off < 0x1000 then some (registerAt off)
      else if off - 0x1000 + 3 < c.bufSize then some (.dbuf (off - 0x1000)) else none := by
  simp only [cell32, Nat.add_sub_cancel_left]
  rw [if_neg (by omega), if_neg (by omega)]

theorem cell32_register (c : Config) (h4 : off % 4 = 0) (h : off < 0x1000) :
    cell32 c (c.seqBase + off) = some (registerAt off) := (cell32_offset c h4).trans (if_pos h)

theorem registerAt_reserved (h : 0x20 ≤ off) : registerAt off = .reserved := by
  unfold registerAt
  split
  case h_9 => rfl
  all_goals omega

/-- CMD is at offset 0 only (R20). -/
theorem registerAt_ne_cmd (h : off ≠ 0) : registerAt off ≠ .cmd := by
  unfold registerAt
  split
  case h_1 => exact absurd rfl h
  all_goals nofun

/-- The cells that HOST must not write while BUSY = 1 (R21). -/
inductive BusyGuarded : HostCell → Prop
  | cmd : BusyGuarded .cmd
  | addr : BusyGuarded .addr
  | len : BusyGuarded .len
  | dbuf (i : Nat) : BusyGuarded (.dbuf i)

theorem cell32_guarded (c : Config) (h4 : off % 4 = 0)
    (h : off ≤ 0x08 ∨ (0x1000 ≤ off ∧ off + 4 ≤ 0x1000 + c.bufSize)) :
    ∃ x, cell32 c (c.seqBase + off) = some x ∧ BusyGuarded x := by
  rcases h with h | ⟨h, hd⟩
  · have hx : BusyGuarded (registerAt off) := by
      obtain rfl | rfl | rfl : off = 0x00 ∨ off = 0x04 ∨ off = 0x08 := by omega
      · exact .cmd
      · exact .addr
      · exact .len
    exact ⟨_, cell32_register c h4 (by omega), hx⟩
  · exact ⟨_, (cell32_offset c h4).trans ((if_neg (by omega)).trans (if_pos (by omega))), .dbuf _⟩

theorem cell8_offset (c : Config) (hlo : 0x1000 ≤ off) (hhi : off < 0x1000 + c.bufSize) :
    cell8 c (c.seqBase + off) = some (off - 0x1000) := by
  rw [← cell8_dbuf c (i := off - 0x1000) (by omega), Nat.add_assoc, Nat.add_sub_cancel' hlo]

/-! ### What an access does -/

theorem hostRead32_register {v : Word} (h : RegisterValue s off v) :
    hostRead32 s (s.cfg.seqBase + off) = .ok v := by
  cases h with
  | reserved off h4 hlo hhi => rw [hostRead32, cell32_register _ h4 hhi, registerAt_reserved hlo]
  | _ => rw [hostRead32, cell32_register _ (by decide) (by decide)]; rfl

/-- What a read returns does not depend on the moves that are yet to come. -/
theorem NextMove.hostRead32 (hm : s.NextMove m u) (a : Nat) : hostRead32 u a = hostRead32 s a := by cases hm <;> rfl

/-- A read-only register or a reserved offset keeps its value (R20, R21). -/
theorem hostWrite32_readOnly (v : Word) (h4 : off % 4 = 0) (hlo : 0x0C ≤ off) (hhi : off < 0x1000) :
    hostWrite32 s (s.cfg.seqBase + off) v = .ok s := by
  rw [hostWrite32, cell32_register _ h4 hhi]
  by_cases h : 0x20 ≤ off
  · rw [registerAt_reserved h]
  · obtain rfl | rfl | rfl | rfl | rfl : off = 0x0C ∨ off = 0x10 ∨ off = 0x14 ∨ off = 0x18 ∨ off = 0x1C := by omega
    all_goals rfl

theorem hostWrite32_addr (v : Word) (hp : s.phase = .idle) :
    hostWrite32 s (s.cfg.seqBase + 0x04) v = .ok { s with addr := v } := by
  rw [hostWrite32, cell32_register _ (by decide) (by decide)]
  exact if_pos hp

theorem hostWrite32_len (v : Word) (hp : s.phase = .idle) :
    hostWrite32 s (s.cfg.seqBase + 0x08) v = .ok { s with len := v } := by
  rw [hostWrite32, cell32_register _ (by decide) (by decide)]
  exact if_pos hp

/-- What a write of CMD, ADDR, LEN or DBUF meets while BUSY = 1 (R21, R392). -/
theorem hostWrite32_busy {a : Nat} {x : HostCell} (v : Word) (hp : s.phase ≠ .idle) (hc : cell32 s.cfg a = some x)
    (hx : BusyGuarded x) : hostWrite32 s a v = .error (.refused (.hostWriteWhileBusy a)) := by
  rw [hostWrite32, hc]
  cases hx <;> exact if_neg hp

theorem hostWrite8_busy {a i : Nat} (b : Byte) (hp : s.phase ≠ .idle) (hc : cell8 s.cfg a = some i) :
    hostWrite8 s a b = .error (.refused (.hostWriteWhileBusy a)) := by
  rw [hostWrite8, hc]
  exact if_neg hp

/-- A write that BUSY = 1 forbids is refused when it is due inside a command (R21, R392). -/
theorem step_write32_busy {a : Nat} {x : HostCell} {v : Word} (hm : s.NextMove (.write32 a v) u) (hp : s.phase ≠ .idle)
    (hc : cell32 s.cfg a = some x) (hx : BusyGuarded x) : step s = .refused (.hostWriteWhileBusy a) := by
  rw [← NextMove.phase hm] at hp
  rw [← (NextMove.same hm).1] at hc
  exact step_halts hm (if_neg fun h => hp h.2) (hostWrite32_busy v hp hc hx)

theorem step_write8_busy {a i : Nat} {b : Byte} (hm : s.NextMove (.write8 a b) u) (hp : s.phase ≠ .idle)
    (hc : cell8 s.cfg a = some i) : step s = .refused (.hostWriteWhileBusy a) := by
  rw [← NextMove.phase hm] at hp
  rw [← (NextMove.same hm).1] at hc
  exact step_halts hm rfl (hostWrite8_busy b hp hc)

/-- A move that lands before the first act of a command and stops the model stops the command (R381). -/
theorem exec_halts {i : Instr} {rest : List (Nat × Move)} {x : Halt}
    (he : (scriptOf i (s.latched.context s)).ended = false) (hd : s.during = (0, m) :: rest)
    (h : plainMove m { s.started with during := rest } = .error x) : exec i s = x.outcome := by
  rw [exec_eq]
  cases e : scriptOf i (s.latched.context s) with
  | done v => rw [e] at he; cases he
  | raise c => rw [e] at he; cases he
  | act a k =>
    have hland : land s.started = .error x.outcome := by
      rw [land, started_during, hd, landFrom, started_acts, if_pos rfl, landMove, h]
    rw [run_act, hland, andThen_error]

/-! ### The accesses, as steps -/

theorem step_read_register {v : Word} (hm : s.NextMove (.read32 (s.cfg.seqBase + off)) u) (h : RegisterValue s off v) :
    step s = .next { u with hostData := v } := by
  refine step_moves hm rfl ?_
  rw [plainMove, NextMove.hostRead32 hm, hostRead32_register h]
  rfl

/-- A write of a register other than CMD that HOST may make (R20, R21). -/
theorem step_write_register {v : Word} (hm : s.NextMove (.write32 (s.cfg.seqBase + off) v) u) (h4 : off % 4 = 0)
    (h0 : off ≠ 0) (hhi : off < 0x1000) (h : hostWrite32 u (u.cfg.seqBase + off) v = .ok t) :
    step s = .next t := by
  rw [← (NextMove.same hm).1] at hm
  refine step_moves hm (startsCommand_write32 ?_) h
  rw [cell32_register _ h4 hhi]
  exact fun e => registerAt_ne_cmd h0 (Option.some.inj e)

/-- Settles O7: each offset names its register, which a read returns, and the writes that BUSY = 1 forbids are refused,
whether they are due at a step of a command or at its start. -/
theorem hostAccessesRegisters : Obligations.HostAccessesRegisters := by
  intro s off v b
  refine ⟨fun u => step_read_register, fun u hm => ⟨fun h4 hlo hhi => ?_, fun hp ho => ?_, fun hp ho => ?_,
    fun hp h4 hb => ?_⟩, fun u hm hp hlo hhi => ?_, fun i rest he => ⟨fun hd h4 hb => ?_, fun hd hlo hhi => ?_⟩⟩
  · exact step_write_register hm h4 (by omega) hhi (hostWrite32_readOnly v h4 hlo hhi)
  · subst ho
    exact step_write_register hm (by decide) (by decide) (by decide) (hostWrite32_addr v ((NextMove.phase hm).trans hp))
  · subst ho
    exact step_write_register hm (by decide) (by decide) (by decide) (hostWrite32_len v ((NextMove.phase hm).trans hp))
  · obtain ⟨x, hc, hx⟩ := cell32_guarded s.cfg h4 hb
    exact step_write32_busy hm hp hc hx
  · exact step_write8_busy hm hp (cell8_offset s.cfg hlo hhi)
  · obtain ⟨x, hc, hx⟩ := cell32_guarded s.cfg h4 hb
    exact exec_halts he hd (hostWrite32_busy v nofun hc hx)
  · exact exec_halts he hd (hostWrite8_busy b nofun (cell8_offset s.cfg hlo hhi))

end Sys2Proof.Machine
end

section
/-! SUPPORT. A SEQ reset: every register at its reset value, the chip and the parameters untouched (R380), and the command it
lands in dropped (R381, U20). -/

namespace Sys2Proof.Machine

variable {s t u : State} {k : Nat}

/-- Between commands or inside one, the reset makes a step of its own (R380, R381). -/
theorem step_seqReset (hm : s.NextMove .seqReset u) : step s = .next (seqReset u) := step_moves hm rfl rfl

/-! ### The command it lands in -/

/-- A SEQ reset is yet to land, after `k` acts, in a command that started in `s`. -/
structure ResetDue (s : State) (k : Nat) (u : State) : Prop where
  during : u.during = [(k, .seqReset)]
  cfg    : u.cfg = s.cfg
  inbox  : u.inbox = s.inbox

/-- What a SEQ reset inside a command that started in `s` leaves (R380, U20). -/
structure Dropped (s t : State) : Prop where
  atReset : t.AtReset
  cfg     : t.cfg = s.cfg
  inbox   : t.inbox = s.inbox

theorem land_resetDue (h : ResetDue s k u) :
    land u = if k = u.acts then .error (.next (seqReset { u with during := [] })) else .ok u := by
  have hmove (v : State) : landMove .seqReset v = .error (.next (seqReset v)) := rfl
  rw [land, h.during, landFrom, hmove]

theorem lands_resetDue : Lands (ResetDue s k) (Dropped s) := by
  intro u hu
  rw [land_resetDue hu]
  split
  · constructor
    · intro t e; cases e
    · intro t e; cases e; exact ⟨atReset_seqReset _, hu.cfg, hu.inbox⟩
  · constructor
    · intro t e; cases e; exact hu
    · intro t e; cases e

theorem ResetDue.perform {a : Act} {x : Answer} (h : ResetDue s k u) (hp : perform a u = .ok (x, t)) :
    ResetDue s k (t.hear x) :=
  have hst := perform_steady hp
  ⟨hst.during.trans h.during, hst.cfg.trans h.cfg, hst.inbox.trans h.inbox⟩

theorem ResetDue.during_finish (h : ResetDue s k u) (c : Code) (v : Word) : (finish c v u).during ≠ [] := by
  rw [finish_during, h.during]
  nofun

/-- A command inside which the reset lands is dropped: its own end would leave the reset waiting. -/
theorem exec_dropped {i : Instr} (hd : s.during = [(k, .seqReset)]) (h : exec i s = .next t) (ht : t.during = []) :
    Dropped s t := by
  rw [exec_eq] at h
  have hact : ∀ a u x v, True → ResetDue s k u → perform a u = .ok (x, v) → True ∧ ResetDue s k (v.hear x) :=
    fun _ _ _ _ _ hu hp => ⟨trivial, hu.perform hp⟩
  rcases run_all (s := s.started) (all_true _ fun _ => trivial) lands_resetDue hact ⟨hd, rfl, rfl⟩ h with
    ⟨v, u, -, hu, rfl⟩ | ⟨c, u, -, hu, rfl⟩ | hdrop
  · exact absurd ht (hu.during_finish _ _)
  · exact absurd ht (hu.during_finish _ _)
  · exact hdrop

/-- Settles O11: the move lands as `seqReset`, which touches SEQ's own registers and CTRL's control bits only, and a command
it lands in ends there. -/
theorem seqResetSequence : Obligations.SeqResetSequence := by
  refine ⟨fun s u hm => ?_, fun i s t k hd h ht => ?_⟩
  · have hidle : step { seqReset u with inbox := [] } = .next { seqReset u with inbox := [] } :=
      (stepRunsDecodedCommand _ rfl).1 rfl
    have hchip : u.chip = s.chip := NextMove.chip hm
    have htrace : u.trace = s.trace := by cases hm <;> rfl
    exact ⟨seqReset u, step_seqReset hm, atReset_seqReset u, hchip, (NextMove.same hm).1, htrace, rfl, rfl, hidle⟩
  · obtain ⟨hreset, hcfg, hinbox⟩ := exec_dropped hd h ht
    exact ⟨hreset, hcfg, hinbox⟩

end Sys2Proof.Machine
end
